-- ==== Sys2Proof/Word.lean ====
section
/-! DEFINITION. Word.lean: the byte, the byte string, the block and the widths of a command's operands. -/

namespace Sys2Proof

/-- R10: "A byte is 8 bits." -/
abbrev Byte := BitVec 8

/-- R10: a byte string, `B[0]` first: the first byte in stream order, the lowest address in memory. -/
abbrev Bytes := List Byte

/-- R10: a block is a byte string of `BS` bytes. -/
abbrev Block (bs : Nat) := { B : Bytes // B.length = bs }

/-- R60: an address has `AW = 64` bits. -/
abbrev Addr := BitVec 64

/-- R98: a length operand has 32 bits, so it is at most `LEN_MAX = 2^32 - 1` (R8). -/
abbrev Len := BitVec 32

/-- R60: the number of byte addresses, `2^AW`. -/
def addrSpace : Nat := 2 ^ 64

/-- R230: the most data bytes one GCM session may process, `16 * GCM_BLOCKS_MAX` with
`GCM_BLOCKS_MAX = 2^32 - 2`. -/
def gcmDataMax : Nat := 16 * (2 ^ 32 - 2)

end Sys2Proof
end

