-- ==== Sys2Proof/Syntax.lean ====
section
/-! DEFINITION. Syntax.lean: the commands of the engine. One constructor of `Instr` for each of the 28 rows of
spec/opcode_table.json; the operands of R98 and R102; and a command as the host delivers it (R90). -/

namespace Sys2Proof

/-- R25, R93: the mode of a context, "immutable after creation". -/
inductive Mode where
  | ecb | cbc | ctr | gcm | gmac
deriving DecidableEq, Repr, Inhabited

/-- R26, R94: the direction of a context. -/
inductive Dir where
  | enc | dec
deriving DecidableEq, Repr, Inhabited

/-- R66: one segment of a sink, a `(pointer, length)` pair. -/
structure Seg where
  ptr : Addr
  len : Len
deriving DecidableEq, Repr, Inhabited

/-- R102: the sink operand in its two forms, chosen by the bit `sgl`. -/
inductive SinkOperand where
  /-- `sgl` = 0: `SINK_PTR`, `SINK_LEN`, `SINK_OFF`. -/
  | contiguous (ptr : Addr) (len : Len) (off : Addr)
  /-- `sgl` = 1: the `SINK_CNT` segments, delivered by value, and `SINK_OFF`. -/
  | segments (segs : List Seg) (off : Addr)
deriving DecidableEq, Repr, Inhabited

/-- R91, R95: where PROCESS and PROCESS_LAST write: over the input (`inplace` = 1, no sink) or to a sink. -/
inductive Dest where
  | inPlace
  | sink (k : SinkOperand)
deriving DecidableEq, Repr, Inhabited

/-- R98: the operands of INIT. Which of them a mode reads is R100. -/
structure InitOperands where
  ivPtr : Addr
  ivLen : Len
  aadPtr : Addr
  aadLen : Len
  tagBits : BitVec 32
  ctrBits : BitVec 32
deriving DecidableEq, Repr, Inhabited

/-- One command with its operands, one constructor per row of spec/opcode_table.json (R113). -/
inductive Instr where
  /-- OPEN.ECB (R125). -/
  | openEcb (ctx : BitVec 8) (dir : Dir) (owned : Bool) (ks : Addr)
  /-- OPEN.CBC (R125). -/
  | openCbc (ctx : BitVec 8) (dir : Dir) (owned : Bool) (ks : Addr)
  /-- OPEN.CTR (R125). -/
  | openCtr (ctx : BitVec 8) (dir : Dir) (owned : Bool) (ks : Addr)
  /-- OPEN.GCM (R125). -/
  | openGcm (ctx : BitVec 8) (dir : Dir) (owned : Bool) (ks : Addr)
  /-- OPEN.GMAC (R125). -/
  | openGmac (ctx : BitVec 8) (dir : Dir) (owned : Bool) (ks : Addr)
  /-- INIT.ECB (R126). -/
  | initEcb (ctx : BitVec 8) (o : InitOperands)
  /-- INIT.CBC (R127). -/
  | initCbc (ctx : BitVec 8) (o : InitOperands)
  /-- INIT.CTR (R128). -/
  | initCtr (ctx : BitVec 8) (o : InitOperands)
  /-- INIT.GCM (R211). -/
  | initGcm (ctx : BitVec 8) (o : InitOperands)
  /-- INIT.GMAC (R225). -/
  | initGmac (ctx : BitVec 8) (o : InitOperands)
  /-- PROCESS.ECB.ENC (R151). -/
  | processEcbEnc (ctx : BitVec 8) (ptr : Addr) (len : Len) (dst : Dest)
  /-- PROCESS.ECB.DEC (R152). -/
  | processEcbDec (ctx : BitVec 8) (ptr : Addr) (len : Len) (dst : Dest)
  /-- PROCESS.CBC.ENC (R171). -/
  | processCbcEnc (ctx : BitVec 8) (ptr : Addr) (len : Len) (dst : Dest)
  /-- PROCESS.CBC.DEC (R172). -/
  | processCbcDec (ctx : BitVec 8) (ptr : Addr) (len : Len) (dst : Dest)
  /-- PROCESS.CTR (R194). -/
  | processCtr (ctx : BitVec 8) (ptr : Addr) (len : Len) (dst : Dest)
  /-- PROCESS.GCM.ENC (R217). -/
  | processGcmEnc (ctx : BitVec 8) (ptr : Addr) (len : Len) (dst : Dest)
  /-- PROCESS.GCM.DEC (R218). -/
  | processGcmDec (ctx : BitVec 8) (ptr : Addr) (len : Len) (dst : Dest)
  /-- PROCESS.GMAC.ENC (R226). -/
  | processGmacEnc (ctx : BitVec 8) (ptr : Addr) (len : Len) (dst : Dest)
  /-- PROCESS.GMAC.DEC (R227). -/
  | processGmacDec (ctx : BitVec 8) (ptr : Addr) (len : Len) (dst : Dest)
  /-- PROCESS_LAST (R133). -/
  | processLast (ctx : BitVec 8) (ptr : Addr) (len : Len) (dst : Dest)
  /-- FINISH.ECB (R153). -/
  | finishEcb (ctx : BitVec 8) (snk : SinkOperand)
  /-- FINISH.CBC (R173). -/
  | finishCbc (ctx : BitVec 8) (snk : SinkOperand)
  /-- FINISH.CTR (R195). -/
  | finishCtr (ctx : BitVec 8) (snk : SinkOperand)
  /-- FINISH.GCM.ENC (R221). -/
  | finishGcmEnc (ctx : BitVec 8) (snk : SinkOperand)
  /-- FINISH.GCM.DEC (R222). -/
  | finishGcmDec (ctx : BitVec 8) (snk : SinkOperand)
  /-- FINISH.GMAC.ENC (R228). -/
  | finishGmacEnc (ctx : BitVec 8) (snk : SinkOperand)
  /-- FINISH.GMAC.DEC (R229). -/
  | finishGmacDec (ctx : BitVec 8) (snk : SinkOperand)
  /-- DESTROY (R134). -/
  | destroy (ctx : BitVec 8)
deriving DecidableEq, Repr

/-- R90, R98, R102: the operand values the host delivers with a command word, all of them by value. A command
reads those R98 lists for it and ignores the rest. -/
structure Operands where
  ks : Addr
  init : InitOperands
  dataPtr : Addr
  dataLen : Len
  sinkPtr : Addr
  sinkLen : Len
  segs : List Seg
  sinkOff : Addr
deriving DecidableEq, Repr, Inhabited

/-- R90: "A command is a 32-bit command word `CMD` plus operands, all delivered by value". -/
structure Command where
  word : BitVec 32
  ops : Operands
deriving DecidableEq, Repr, Inhabited

/-- R112: what the decoder reads of the addressed context to pick the row: its mode and its direction. -/
structure Selection where
  mode : Mode
  dir : Dir
deriving DecidableEq, Repr, Inhabited

/-- The slot number a command addresses: the field `ctx` of R91. -/
def Instr.ctx : Instr → BitVec 8
  | .openEcb k _ _ _ | .openCbc k _ _ _ | .openCtr k _ _ _ | .openGcm k _ _ _ | .openGmac k _ _ _ => k
  | .initEcb k _ | .initCbc k _ | .initCtr k _ | .initGcm k _ | .initGmac k _ => k
  | .processEcbEnc k _ _ _ | .processEcbDec k _ _ _ | .processCbcEnc k _ _ _ | .processCbcDec k _ _ _ => k
  | .processCtr k _ _ _ | .processGcmEnc k _ _ _ | .processGcmDec k _ _ _ => k
  | .processGmacEnc k _ _ _ | .processGmacDec k _ _ _ | .processLast k _ _ _ => k
  | .finishEcb k _ | .finishCbc k _ | .finishCtr k _ | .finishGcmEnc k _ | .finishGcmDec k _ => k
  | .finishGmacEnc k _ | .finishGmacDec k _ => k
  | .destroy k => k

/-- R102: the segments of a sink; a contiguous buffer is the case of one segment (R66). -/
def SinkOperand.segs : SinkOperand → List Seg
  | .contiguous p l _ => [⟨p, l⟩]
  | .segments gs _ => gs

/-- R66: the running write offset of a sink, counted from the start of segment 0. -/
def SinkOperand.off : SinkOperand → Addr
  | .contiguous _ _ o => o
  | .segments _ o => o

/-- R99: the `SINK_OFF` passed in: 0 for a command that has no sink. -/
def Dest.passedOff : Dest → Addr
  | .inPlace => 0
  | .sink k => k.off

end Sys2Proof
end

