-- ==== Sys2Proof/Machine/Context.lean ====
section
/-! DEFINITION. Machine/Context.lean: one ModeContext (R21), its lifecycle (R22) and the slot that holds it (R20).
A field of `Session` is `none` exactly when the spec says it holds no value (R23, log 5). -/

namespace Sys2Proof.Machine

/-- R22: the lifecycle states of a slot that holds a context; `free` is `Slot.free`. -/
inductive Lifecycle where
  | alloc | ready | closed
deriving DecidableEq, Repr, Inhabited

/-- R21: the fields that INIT, PROCESS and FINISH write. "A field holds no value until a command writes it"
(R23): `none`. -/
structure Session where
  /-- R27: `remainder[0..remainder_len)`, the meaningful bytes; `remainder_len` is its length (log 6). -/
  remainder : Option Bytes
  /-- R28: chaining value (CBC), next counter block (CTR), last counter block used (GCM, GMAC). -/
  cb : Option Bytes
  /-- R31: width in bits of the counter sub-field. -/
  ctrBits : Option Nat
  /-- R32: the hash subkey. -/
  H : Option Bytes
  /-- R33: the table derived from `H`; its contents are unspecified and nothing reads it (log 15). -/
  hTable : Option Bytes
  /-- R34: the GHASH accumulator. -/
  ghash : Option Bytes
  /-- R35: the initial counter block. -/
  J0 : Option Bytes
  /-- R36: the length block: its first 8 bytes from INIT on, all 16 once FINISH has written the rest (log 8). -/
  lenALenC : Option Bytes
  /-- R37: the tag length in bytes. -/
  tagLen : Option Nat
  /-- R38: the running count of data bytes. -/
  processed : Option (BitVec 64)
  /-- R39: `la[0..la_len)`, oldest byte first; `la_len` is its length (log 6). No value outside GCM-DEC and
  GMAC-DEC (log 7). -/
  la : Option Bytes
deriving DecidableEq, Repr, Inhabited

/-- R125: after OPEN "every field not written here holds no value". -/
def Session.empty : Session :=
  { remainder := none, cb := none, ctrBits := none, H := none, hTable := none, ghash := none, J0 := none,
    lenALenC := none, tagLen := none, processed := none, la := none }

/-- R21: one ModeContext. -/
structure ModeContext where
  state : Lifecycle
  mode : Mode
  dir : Dir
  ks : Addr
  ksOwned : Bool
  blockSize : Nat
  sess : Session
deriving DecidableEq, Repr, Inhabited

/-- R20: "Each slot is either `free` or holds one ModeContext". A free slot holds no value in any field (R134). -/
inductive Slot where
  | free
  | held (c : ModeContext)
deriving DecidableEq, Repr, Inhabited

/-- The names of the fields that may hold no value, for the fault of R23. -/
inductive Field where
  | remainder | cb | ctrBits | H | ghash | J0 | lenALenC | tagLen | processed | la
deriving DecidableEq, Repr, Inhabited

/-- The context with its lifecycle state moved: `ctx.state <- l` (R13). -/
def ModeContext.withState (c : ModeContext) (l : Lifecycle) : ModeContext := { c with state := l }

/-- The context with the fields of its session replaced. -/
def ModeContext.withSess (c : ModeContext) (x : Session) : ModeContext := { c with sess := x }

end Sys2Proof.Machine
end

