-- ==== Sys2Proof/Config.lean ====
section
/-! DEFINITION. Config.lean: the model arguments of R8 (N_CTX, SEG_MAX, Cipher) and the free values, as constants
without a body: nothing can compute them and no proof can lean on one. -/

namespace Sys2Proof

/-- R121: the BlockCipher bound to one key-schedule handle: its block size; `E` and `D` on blocks, which answer a
block of the size they are given or `none`, the spec's `fail`; whether `D` is present; and the four capability bits of
the bulk entries, which by R137 no result depends on. The engine calls `E` and `D` on blocks of `bs` bytes only, and
`D` only where `hasD` is set (R126, R127; log 19). -/
structure Cipher where
  bs : Nat
  E : (n : Nat) → Block n → Option (Block n)
  D : (n : Nat) → Block n → Option (Block n)
  hasD : Bool
  hasEcb : Bool
  hasCbcEnc : Bool
  hasCbcDec : Bool
  hasCtr : Bool
deriving Inhabited

/-- R8: the parameters the spec leaves open. `N_CTX` is one more than `extraSlots`, which puts it in 1 to 256;
`SEG_MAX` is one more than `extraSegs`, which puts it at 1 or more (log 1). -/
structure Params where
  extraSlots : Fin 256
  extraSegs : Nat
  cipher : Addr → Cipher
deriving Inhabited

/-- R8: the number of context slots, `1 ≤ N_CTX ≤ 256`. -/
def Params.nCtx (P : Params) : Nat := P.extraSlots.val + 1

/-- R8: the largest number of segments of a sink, at least 1. -/
def Params.segMax (P : Params) : Nat := P.extraSegs + 1

/-- What R288 leaves unspecified after a command that failed in the cipher (U3): the session fields of the context,
`OUT_LEN`, `SINK_OFF`, and for each byte of the output range whether it was written and with what. -/
structure CipherFailure where
  sess : Machine.Session
  outLen : Nat
  sinkOff : Nat
  bytes : Nat → Option Byte
deriving Inhabited

/-- R8: the parameters of this engine, open (log 1). -/
opaque Config.params : Params

/-- R288, U3: what a cipher failure leaves behind, open (log 10). -/
opaque Config.cipherFailure : Nat → CipherFailure

/-- R33, R264: the table derived from `H`, of unspecified size and layout (log 15). -/
opaque Config.hTableOf : Bytes → Bytes

/-- The value `OUT_LEN` takes when the count it should hold does not fit its 32 bits; the spec states none
(log 11). -/
opaque Config.outLenBeyond : Nat → BitVec 32

/-- The value `SINK_OFF` takes when the offset it should hold does not fit its 64 bits; the spec states none
(log 11). -/
opaque Config.sinkOffBeyond : Nat → BitVec 64

end Sys2Proof
end

