-- ==== Sys2Proof/Machine/Bytes.lean ====
section
/-! DEFINITION. Machine/Bytes.lean: byte strings and blocks: the big-endian numbers of R11, xor_block (R123), the
counter increment inc_n (R192), the cutting of a buffer into blocks (R131), and zero padding (R108). -/

namespace Sys2Proof.Machine

/-- R11: `int(B)`, a byte string read as a big-endian number. -/
def beNat (B : Bytes) : Nat := B.foldl (fun a b => a * 256 + b.toNat) 0

/-- R11: `blk(n, k)`, the `k`-byte big-endian encoding of `n` (of `n mod 256^k`). -/
def beBytes : Nat → Nat → Bytes
  | 0, _ => []
  | k + 1, n => beBytes k (n / 256) ++ [BitVec.ofNat 8 n]

/-- R10: `0^n`, `n` zero bytes. -/
def zeros (n : Nat) : Bytes := List.replicate n 0

/-- R10, R123: the byte-wise exclusive or of two byte strings of one length. -/
def xorBytes (A B : Bytes) : Bytes := List.zipWith (· ^^^ ·) A B

/-- R192: `inc_n`: the low `n` bits of the block, read big-endian, go up by one modulo `2^n`; the bits above them
are unchanged. -/
def incLow (n : Nat) (B : Bytes) : Bytes :=
  let v := beNat B % 2 ^ n
  beBytes B.length (beNat B - v + (v + 1) % 2 ^ n)

/-- R191: the counter sub-field `v(cb)`, the low `n` bits of the block read big-endian. -/
def lowField (n : Nat) (B : Bytes) : Nat := beNat B % 2 ^ n

/-- R131: the first `n` whole blocks of `bs` bytes of a buffer, in order. -/
def blocksOf (bs : Nat) : Nat → Bytes → List Bytes
  | 0, _ => []
  | n + 1, buf => buf.take bs :: blocksOf bs n (buf.drop bs)

/-- R108: a byte string padded with zero bytes to a multiple of 16. -/
def pad16 (B : Bytes) : Bytes := B ++ zeros ((16 - B.length % 16) % 16)

/-- The 16-byte blocks of a byte string padded to a multiple of 16 (R108, R265). -/
def hashBlocks (B : Bytes) : List Bytes := blocksOf 16 ((B.length + 15) / 16) (pad16 B)

end Sys2Proof.Machine
end

