-- ==== Sys2Proof/Machine/Memory.lean ====
section
/-! DEFINITION. Machine/Memory.lean: host memory (R60 to R62): a list of (address, byte) pairs with rising addresses,
holding only the bytes that are not what an unlisted address reads as. -/

namespace Sys2Proof.Machine

/-- Host memory as plain data. -/
abbrev Memory := List Host.Cell

/-- What an address that is not listed reads as. DESIGN CHOICE (log 9), unsafe: the spec leaves the contents of
memory to the host. -/
def unlistedByte : Byte := 0

/-- R61: one byte of memory. -/
def Memory.read : Memory → Nat → Byte
  | [], _ => unlistedByte
  | (x, b) :: m, a => if x = a then b else Memory.read m a

/-- The list with the byte at `a` set, for a byte that is to be listed. -/
def Memory.insert : Memory → Nat → Byte → Memory
  | [], a, b => [(a, b)]
  | (x, y) :: m, a, b =>
    if a < x then (a, b) :: (x, y) :: m
    else if a = x then (a, b) :: m
    else (x, y) :: Memory.insert m a b

/-- The list without an entry at `a`. -/
def Memory.erase : Memory → Nat → Memory
  | [], _ => []
  | (x, y) :: m, a => if x = a then m else (x, y) :: Memory.erase m a

/-- R62: `M[a] <- b`. Writing what an unlisted address reads as removes the entry. -/
def Memory.write (m : Memory) (a : Nat) (b : Byte) : Memory :=
  if b = unlistedByte then Memory.erase m a else Memory.insert m a b

/-- R61: `MemRead(a, n)`, lowest address first. -/
def Memory.readBytes (m : Memory) (a : Nat) : Nat → Bytes
  | 0 => []
  | n + 1 => m.read a :: Memory.readBytes m (a + 1) n

/-- R62: `MemWrite(a, |v|, v)`. -/
def Memory.writeBytes (m : Memory) (a : Nat) : Bytes → Memory
  | [] => m
  | b :: v => Memory.writeBytes (m.write a b) (a + 1) v

/-- The canonical form: addresses strictly rising, and no entry equal to what an unlisted address reads as. -/
def Memory.wf : Memory → Bool
  | [] => true
  | (x, b) :: m => m.all (fun e => decide (x < e.1)) && decide (b ≠ unlistedByte) && Memory.wf m

/-- R60: every listed address is an `AW`-bit address. -/
def Memory.inRange (m : Memory) : Bool := m.all (fun e => decide (e.1 < addrSpace))

end Sys2Proof.Machine
end

