-- ==== Sys2Proof/Machine/State.lean ====
section
/-! DEFINITION. Machine/State.lean: the whole state of the engine and its host memory as plain data, the reasons a
step can stop, and the state after reset. -/

namespace Sys2Proof.Machine

/-- What the host does to the engine and its memory, in the order it does it (R19, R76, R90, R310; log 2). -/
inductive Input where
  /-- the host issues a command (R90) -/
  | command (c : Command)
  /-- the host writes one byte of its memory between commands (R76) -/
  | hostWrite (a : Addr) (b : Byte)
  /-- the reset event (R310) -/
  | reset
deriving DecidableEq, Repr

/-- Why the machine stops with a fault. No step from a legal state (Safety.lean) faults. -/
inductive Fault where
  /-- Raised by any meaning that reads a field that holds no value: "Reading a field that holds no value is a fault
  of the model" (R23, U4). Safe: the model stops where the spec gives nothing to go on with. -/
  | noValue (f : Field)
deriving DecidableEq, Repr

/-- Why the machine gives an instruction no meaning. No step refuses. -/
inductive Refusal where
  /-- An instruction without a meaning yet, raised by exec alone. Safe: the model stops. -/
  | notModelled (mnemonic : String)
  /-- Raised by `exec` asked to run an INIT, PROCESS or FINISH row on a context of another mode or direction: R113
  does not select that row, and `step`, which decodes for the context, never asks (log 4). Safe: the model stops. -/
  | rowNotSelected
deriving DecidableEq, Repr

/-- The whole state. -/
structure State where
  /-- R20: the context slots; `N_CTX` is their number. -/
  slots : List Slot
  /-- R41: `STATUS`. -/
  status : BitVec 8
  /-- R41: `OUT_LEN`. -/
  outLen : BitVec 32
  /-- R41: `SINK_OFF`. -/
  sinkOff : BitVec 64
  /-- R60: host memory. -/
  mem : Memory
  /-- R134: the release signals sent to the BlockCipher, newest first; the model's record (log 16). -/
  releases : List Addr
  /-- What the host has done and the engine not yet taken, oldest first; the model's (log 2). -/
  inputs : List Input
  /-- The counter that free values are drawn from; the model's (log 22). -/
  freeIx : Nat
deriving DecidableEq, Repr

/-- R45, R310: after reset every slot is free, so that no field holds a value; the three result registers are 0.
Memory lists nothing (log 9); the model's own fields are empty or 0 (log 2, 16, 22). -/
def State.reset : State :=
  { slots := .free :: List.replicate Config.params.extraSlots.val .free
    status := 0
    outLen := 0
    sinkOff := 0
    mem := []
    releases := []
    inputs := []
    freeIx := 0 }

end Sys2Proof.Machine
end

