-- ==== Sys2Proof/Machine/Raise.lean ====
section
/-! DEFINITION. Machine/Raise.lean: how a command ends before its last line (R16, R290): the errors of R281, and
the type of a computation that may end so. -/

namespace Sys2Proof.Machine

/-- R281: the errors a command can raise. -/
inductive Raise where
  | protocol | config | bufferTooSmall | lengthRange | cipher
  /-- R284: what FINISH computed for the session, and the bytes this command writes all the same (none for FINISH,
  the released blocks for PROCESS_LAST). -/
  | authFail (x : Session) (out : Bytes)
deriving DecidableEq, Repr

/-- How a computation stops: an error is raised, or it reads what has no value (R23). -/
inductive Stop where
  | raise (e : Raise)
  | noValue (f : Field)
deriving DecidableEq, Repr

/-- A computation inside one command. -/
abbrev Run (α : Type) := Except Stop α

/-- R16: `raise <Error>`. -/
def raise {α : Type} (e : Raise) : Run α := .error (.raise e)

/-- A check that raises `e` unless `b` holds. -/
def check (b : Bool) (e : Raise) : Run Unit := if b then .ok () else raise e

/-- R13, R23: reading a field; a field that holds no value stops the model. -/
def need {α : Type} (f : Field) : Option α → Run α
  | some v => .ok v
  | none => .error (.noValue f)

/-- R133, R284: an AUTH_FAIL of the FINISH part of PROCESS_LAST still leaves `out` written, the bytes of the PROCESS
part. -/
def afterOutput {α : Type} (out : Bytes) : Run α → Run α
  | .error (.raise (.authFail x o)) => .error (.raise (.authFail x (out ++ o)))
  | r => r

end Sys2Proof.Machine
end

