-- ==== Sys2Proof/Machine/BlockCipher.lean ====
section
/-! DEFINITION. Machine/BlockCipher.lean: the calls of the external BlockCipher (R121, R122). -/

namespace Sys2Proof.Machine

/-- R122: `E(ks, X)`; a `fail` raises CIPHER. -/
def cipherEnc (C : Cipher) (X : Bytes) : Run Bytes :=
  match C.E X.length ⟨X, rfl⟩ with
  | some Y => .ok Y.val
  | none => raise .cipher

/-- R122: `D(ks, Y)`; a `fail` raises CIPHER. -/
def cipherDec (C : Cipher) (Y : Bytes) : Run Bytes :=
  match C.D Y.length ⟨Y, rfl⟩ with
  | some X => .ok X.val
  | none => raise .cipher

/-- R122: the assumption `cipher_total`: "`E` and `D` never fail". -/
def CipherTotal (C : Cipher) : Prop :=
  (∀ n X, (C.E n X).isSome) ∧ (C.hasD → ∀ n Y, (C.D n Y).isSome)

/-- R122: the assumption `cipher_inverse`: "`D(ks, E(ks, X)) = X` and `E(ks, D(ks, Y)) = Y` whenever `D` is present",
on the answers that are no `fail`. -/
def CipherInverse (C : Cipher) : Prop :=
  C.hasD → ∀ n X Y, C.E n X = some Y ↔ C.D n Y = some X

end Sys2Proof.Machine
end

