-- ==== Sys2Proof/Machine/Lengths.lean ====
section
/-! DEFINITION. Machine/Lengths.lean: `out_len` (R142), `blocks_left` (R193) and the length checks of PROCESS (R129
step 8) and PROCESS_LAST (R133). -/

namespace Sys2Proof.Machine

/-- R27: reading `remainder_len`. -/
def remainderLen (c : ModeContext) : Run Nat := do
  let r ← need .remainder c.sess.remainder
  .ok r.length

/-- R39: reading `la_len`. -/
def laLen (c : ModeContext) : Run Nat := do
  let a ← need .la c.sess.la
  .ok a.length

/-- R37: reading `tag_len`. -/
def tagLen (c : ModeContext) : Run Nat := need .tagLen c.sess.tagLen

/-- R38: reading `processed_data_len`. -/
def processedLen (c : ModeContext) : Run Nat := do
  let p ← need .processed c.sess.processed
  .ok p.toNat

/-- R219: how many whole blocks of `t` pending bytes are released. -/
def releasedBlocks (t g : Nat) : Nat := if g ≤ t then (t - g) / 16 else 0

/-- R142, column PROCESS, for a chunk of `L` bytes. -/
def outLenProcess (c : ModeContext) (L : Nat) : Run Nat :=
  match c.mode, c.dir with
  | .ecb, _ | .cbc, _ | .ctr, _ => do
    let r ← remainderLen c
    .ok (c.blockSize * ((r + L) / c.blockSize))
  | .gcm, .enc => do
    let r ← remainderLen c
    .ok (16 * ((r + L) / 16))
  | .gcm, .dec => do
    let a ← laLen c
    let g ← tagLen c
    .ok (16 * releasedBlocks (a + L) g)
  | .gmac, _ => .ok 0

/-- R142, column FINISH. -/
def outLenFinish (c : ModeContext) : Run Nat :=
  match c.mode, c.dir with
  | .ecb, _ | .cbc, _ => .ok 0
  | .ctr, _ => remainderLen c
  | .gcm, .enc => do
    let r ← remainderLen c
    let g ← tagLen c
    .ok (r + g)
  | .gcm, .dec => do
    let a ← laLen c
    let g ← tagLen c
    .ok (if g ≤ a then a - g else 0)
  | .gmac, .enc => tagLen c
  | .gmac, .dec => .ok 0

/-- R142, column PROCESS_LAST, for a chunk of `L` bytes. -/
def outLenLast (c : ModeContext) (L : Nat) : Run Nat :=
  match c.mode, c.dir with
  | .ecb, _ | .cbc, _ | .ctr, _ => do
    let r ← remainderLen c
    .ok (r + L)
  | .gcm, .enc => do
    let r ← remainderLen c
    let g ← tagLen c
    .ok (r + L + g)
  | .gcm, .dec => do
    let a ← laLen c
    let g ← tagLen c
    .ok (if g ≤ a + L then a + L - g else 0)
  | .gmac, .enc => tagLen c
  | .gmac, .dec => .ok 0

/-- R193: `blocks_left = 2^ctr_bits - 1 - v(cb)`. -/
def blocksLeft (c : ModeContext) : Run Nat := do
  let n ← need .ctrBits c.sess.ctrBits
  let cb ← need .cb c.sess.cb
  .ok (2 ^ n - 1 - lowField n cb)

/-- ECB and CBC: no mode length check in PROCESS (R151, R171). -/
def noLengthCheck (_ : ModeContext) (_ : Nat) : Run Bool := .ok true

/-- R193: the blocks to complete must not exceed `blocks_left`. -/
def ctrLengthOk (c : ModeContext) (L : Nat) : Run Bool := do
  let r ← remainderLen c
  let b ← blocksLeft c
  .ok (decide ((r + L) / c.blockSize ≤ b))

/-- R230, ENC. -/
def gcmEncLengthOk (c : ModeContext) (L : Nat) : Run Bool := do
  let p ← processedLen c
  let r ← remainderLen c
  .ok (decide (p + r + L ≤ gcmDataMax))

/-- R230, DEC. -/
def gcmDecLengthOk (c : ModeContext) (L : Nat) : Run Bool := do
  let p ← processedLen c
  let a ← laLen c
  let g ← tagLen c
  .ok (decide (p + a + L ≤ gcmDataMax + g))

/-- R226: a GMAC session to make a tag takes no data. -/
def gmacEncLengthOk (_ : ModeContext) (L : Nat) : Run Bool := .ok (L == 0)

/-- R227: a GMAC session to verify a tag takes `tag_len` bytes in all. -/
def gmacDecLengthOk (c : ModeContext) (L : Nat) : Run Bool := do
  let a ← laLen c
  let g ← tagLen c
  .ok (decide (a + L ≤ g))

/-- R133: the length checks of PROCESS_LAST. -/
def lastLengthOk (c : ModeContext) (L : Nat) : Run Bool :=
  match c.mode, c.dir with
  | .ecb, _ | .cbc, _ => do
    let r ← remainderLen c
    .ok ((r + L) % c.blockSize == 0)
  | .ctr, _ => ctrLengthOk c L
  | .gcm, .enc => gcmEncLengthOk c L
  | .gcm, .dec => do
    let a ← laLen c
    let g ← tagLen c
    let p ← processedLen c
    .ok (decide (g ≤ a + L ∧ p + (a + L - g) ≤ gcmDataMax))
  | .gmac, .enc => .ok (L == 0)
  | .gmac, .dec => do
    let a ← laLen c
    let g ← tagLen c
    .ok (a + L == g)

end Sys2Proof.Machine
end

