-- ==== Sys2Proof/WellFormed.lean ====
section
/-! DEFINITION. WellFormed.lean: the two checks on an instruction that the types of Syntax.lean do not make: the
slot exists (R96), and the row is the one R113 selects for the slot's context. -/

namespace Sys2Proof

/-- R113, the `select` field of spec/opcode_table.json: whether a row is the one that a context of this mode and
direction selects. OPEN, PROCESS_LAST and DESTROY are selected by any context. -/
def Instr.selectedBy (m : Selection) : Instr → Bool
  | .openEcb .. | .openCbc .. | .openCtr .. | .openGcm .. | .openGmac .. => true
  | .initEcb .. => m.mode == .ecb
  | .initCbc .. => m.mode == .cbc
  | .initCtr .. => m.mode == .ctr
  | .initGcm .. => m.mode == .gcm
  | .initGmac .. => m.mode == .gmac
  | .processEcbEnc .. => m.mode == .ecb && m.dir == .enc
  | .processEcbDec .. => m.mode == .ecb && m.dir == .dec
  | .processCbcEnc .. => m.mode == .cbc && m.dir == .enc
  | .processCbcDec .. => m.mode == .cbc && m.dir == .dec
  | .processCtr .. => m.mode == .ctr
  | .processGcmEnc .. => m.mode == .gcm && m.dir == .enc
  | .processGcmDec .. => m.mode == .gcm && m.dir == .dec
  | .processGmacEnc .. => m.mode == .gmac && m.dir == .enc
  | .processGmacDec .. => m.mode == .gmac && m.dir == .dec
  | .processLast .. => true
  | .finishEcb .. => m.mode == .ecb
  | .finishCbc .. => m.mode == .cbc
  | .finishCtr .. => m.mode == .ctr
  | .finishGcmEnc .. => m.mode == .gcm && m.dir == .enc
  | .finishGcmDec .. => m.mode == .gcm && m.dir == .dec
  | .finishGmacEnc .. => m.mode == .gmac && m.dir == .enc
  | .finishGmacDec .. => m.mode == .gmac && m.dir == .dec
  | .destroy .. => true

/-- An instruction is well formed for an engine whose slots answer `sel` (none: no such slot) when its slot exists
(R96) and its row is the one the slot's context selects (R113). -/
def Instr.wellFormed (sel : BitVec 8 → Option Selection) (i : Instr) : Bool :=
  match sel i.ctx with
  | none => false
  | some m => i.selectedBy m

end Sys2Proof
end

