-- ==== Sys2Proof/Decode.lean ====
section
/-! DEFINITION. Decode.lean: the command word of R91, its decoder in the order of R112 (total, refusing an illegal
word by the condition of R97 it breaks), and the encoder. -/

namespace Sys2Proof

/-- R91: `bits[3:0]`. -/
def wordOp (w : BitVec 32) : BitVec 4 := w.extractLsb' 0 4
/-- R91: `bits[6:4]`. -/
def wordMode (w : BitVec 32) : BitVec 3 := w.extractLsb' 4 3
/-- R91: `bits[7]`. -/
def wordDir (w : BitVec 32) : Bool := w.getLsbD 7
/-- R91: `bits[8]`. -/
def wordInplace (w : BitVec 32) : Bool := w.getLsbD 8
/-- R91: `bits[9]`. -/
def wordSgl (w : BitVec 32) : Bool := w.getLsbD 9
/-- R91: `bits[10]`. -/
def wordOwned (w : BitVec 32) : Bool := w.getLsbD 10
/-- R91: `bits[15:11]`, reserved. -/
def wordReservedLow (w : BitVec 32) : BitVec 5 := w.extractLsb' 11 5
/-- R91: `bits[23:16]`. -/
def wordCtx (w : BitVec 32) : BitVec 8 := w.extractLsb' 16 8
/-- R91: `bits[31:24]`, reserved. -/
def wordReservedHigh (w : BitVec 32) : BitVec 8 := w.extractLsb' 24 8

/-- R97: the conditions that make a command word illegal. -/
inductive Illegal where
  /-- "a reserved bit is 1" -/
  | reservedBit
  /-- "`op` is 0 or 7 to 15" -/
  | badOp
  /-- "a field marked 'must be 0' for this `op` is not 0" -/
  | mustBeZero
  /-- "`op` is OPEN and `mode` is 5 to 7" -/
  | badMode
  /-- "`inplace` and `sgl` are both 1" -/
  | inplaceWithSgl
  /-- "`ctx ≥ N_CTX`" -/
  | noSuchSlot
deriving DecidableEq, Repr

/-- R94: `dir`: 0 = ENC, 1 = DEC. -/
def dirOfBit (b : Bool) : Dir := if b then .dec else .enc

/-- R102: the sink operand that the bit `sgl` chooses. -/
def sinkOf (w : BitVec 32) (o : Operands) : SinkOperand :=
  if wordSgl w then .segments o.segs o.sinkOff else .contiguous o.sinkPtr o.sinkLen o.sinkOff

/-- R91: the destination of PROCESS and PROCESS_LAST. -/
def destOf (w : BitVec 32) (o : Operands) : Dest :=
  if wordInplace w then .inPlace else .sink (sinkOf w o)

/-- R91, R93: the OPEN rows, by the field `mode`. -/
def decodeOpen (c : Command) : Except Illegal Instr :=
  let w := c.word
  if wordInplace w || wordSgl w then .error .mustBeZero
  else
    match (wordMode w).toNat with
    | 0 => .ok (.openEcb (wordCtx w) (dirOfBit (wordDir w)) (wordOwned w) c.ops.ks)
    | 1 => .ok (.openCbc (wordCtx w) (dirOfBit (wordDir w)) (wordOwned w) c.ops.ks)
    | 2 => .ok (.openCtr (wordCtx w) (dirOfBit (wordDir w)) (wordOwned w) c.ops.ks)
    | 3 => .ok (.openGcm (wordCtx w) (dirOfBit (wordDir w)) (wordOwned w) c.ops.ks)
    | 4 => .ok (.openGmac (wordCtx w) (dirOfBit (wordDir w)) (wordOwned w) c.ops.ks)
    | _ => .error .badMode

/-- R113: the INIT row that a context selects. -/
def initRow (m : Selection) (k : BitVec 8) (o : InitOperands) : Instr :=
  match m.mode with
  | .ecb => .initEcb k o
  | .cbc => .initCbc k o
  | .ctr => .initCtr k o
  | .gcm => .initGcm k o
  | .gmac => .initGmac k o

/-- R91: INIT. -/
def decodeInit (m : Selection) (c : Command) : Except Illegal Instr :=
  let w := c.word
  if wordMode w ≠ 0 || wordDir w || wordInplace w || wordSgl w || wordOwned w then .error .mustBeZero
  else .ok (initRow m (wordCtx w) c.ops.init)

/-- R113: the PROCESS row that a context selects. -/
def processRow (m : Selection) (k : BitVec 8) (p : Addr) (l : Len) (d : Dest) : Instr :=
  match m.mode, m.dir with
  | .ecb, .enc => .processEcbEnc k p l d
  | .ecb, .dec => .processEcbDec k p l d
  | .cbc, .enc => .processCbcEnc k p l d
  | .cbc, .dec => .processCbcDec k p l d
  | .ctr, _ => .processCtr k p l d
  | .gcm, .enc => .processGcmEnc k p l d
  | .gcm, .dec => .processGcmDec k p l d
  | .gmac, .enc => .processGmacEnc k p l d
  | .gmac, .dec => .processGmacDec k p l d

/-- R91, R95: the fields of PROCESS and PROCESS_LAST that must be 0, and `inplace` with `sgl`. -/
def processFields (w : BitVec 32) : Except Illegal Unit :=
  if wordMode w ≠ 0 || wordDir w || wordOwned w then .error .mustBeZero
  else if wordInplace w && wordSgl w then .error .inplaceWithSgl
  else .ok ()

/-- R91: PROCESS. -/
def decodeProcess (m : Selection) (c : Command) : Except Illegal Instr :=
  match processFields c.word with
  | .error e => .error e
  | .ok _ => .ok (processRow m (wordCtx c.word) c.ops.dataPtr c.ops.dataLen (destOf c.word c.ops))

/-- R91, R133: PROCESS_LAST. -/
def decodeProcessLast (c : Command) : Except Illegal Instr :=
  match processFields c.word with
  | .error e => .error e
  | .ok _ => .ok (.processLast (wordCtx c.word) c.ops.dataPtr c.ops.dataLen (destOf c.word c.ops))

/-- R113: the FINISH row that a context selects. -/
def finishRow (m : Selection) (k : BitVec 8) (s : SinkOperand) : Instr :=
  match m.mode, m.dir with
  | .ecb, _ => .finishEcb k s
  | .cbc, _ => .finishCbc k s
  | .ctr, _ => .finishCtr k s
  | .gcm, .enc => .finishGcmEnc k s
  | .gcm, .dec => .finishGcmDec k s
  | .gmac, .enc => .finishGmacEnc k s
  | .gmac, .dec => .finishGmacDec k s

/-- R91: FINISH. -/
def decodeFinish (m : Selection) (c : Command) : Except Illegal Instr :=
  let w := c.word
  if wordMode w ≠ 0 || wordDir w || wordInplace w || wordOwned w then .error .mustBeZero
  else .ok (finishRow m (wordCtx w) (sinkOf w c.ops))

/-- R91: DESTROY. -/
def decodeDestroy (c : Command) : Except Illegal Instr :=
  let w := c.word
  if wordMode w ≠ 0 || wordDir w || wordInplace w || wordSgl w || wordOwned w then .error .mustBeZero
  else .ok (.destroy (wordCtx w))

/-- R92: the operation a word asks for, with the fields that must be 0 for it. -/
def decodeOp (m : Selection) (c : Command) : Except Illegal Instr :=
  match (wordOp c.word).toNat with
  | 1 => decodeOpen c
  | 2 => decodeInit m c
  | 3 => decodeProcess m c
  | 4 => decodeProcessLast c
  | 5 => decodeFinish m c
  | 6 => decodeDestroy c
  | _ => .error .badOp

/-- R112: the decoder. `sel` answers, for a slot number, the mode and direction of its context, and `none` when
there is no such slot. "A decoder tests, in order: reserved bits and `op`; the 'must be 0' fields for that `op`;
`ctx < N_CTX`. It then reads ... `ctx.mode` and `ctx.dir` to pick the rule"; which of these conditions an illegal
word breaks first is not observable (R97). -/
def decode (sel : BitVec 8 → Option Selection) (c : Command) : Except Illegal Instr :=
  if wordReservedLow c.word ≠ 0 || wordReservedHigh c.word ≠ 0 then .error .reservedBit
  else
    match sel (wordCtx c.word) with
    | none =>
      match decodeOp ⟨.ecb, .enc⟩ c with
      | .error e => .error e
      | .ok _ => .error .noSuchSlot
    | some m => decodeOp m c

/-- R99, R286: the `SINK_OFF` passed in with a command, also with an illegal one: 0 for a command with no sink.
An illegal word is taken to carry the sink its `op` carries, none when `inplace` is 1 (log 12). -/
def Command.passedOff (c : Command) : Addr :=
  match (wordOp c.word).toNat with
  | 3 | 4 => if wordInplace c.word then 0 else c.ops.sinkOff
  | 5 => c.ops.sinkOff
  | _ => 0

/-- The mode and direction of the context that `decodeTableWord` decodes for: the ones a free slot answers, ECB and
ENC (log 3). The table's INIT, PROCESS and FINISH rows share one word each; a word alone selects no mode. -/
def tableSelection : Selection := ⟨.ecb, .enc⟩

/-- The command whose word has the bits `w` (numbered as spec/opcode_table.json numbers them) and whose operands
are all zero. A command is one 32-bit word delivered by value (R90, R111), so there is no byte order to choose. -/
def tableCommand (nbits w : Nat) : Command :=
  { word := BitVec.ofNat 32 (w % 2 ^ nbits), ops := ⟨0, ⟨0, 0, 0, 0, 0, 0⟩, 0, 0, 0, 0, [], 0⟩ }

/-- The instruction the decoder reads from a table word. -/
def decodeTableWord (nbits w : Nat) : Option Instr :=
  match decode (fun _ => some tableSelection) (tableCommand nbits w) with
  | .ok i => some i
  | .error _ => none

/-! The encoder. -/

/-- R91: a command word from its fields, most significant first, the reserved fields 0. -/
def packWord (op : BitVec 4) (mode : BitVec 3) (dir inplace sgl owned : Bool) (ctx : BitVec 8) : BitVec 32 :=
  0#8 ++ ctx ++ 0#5 ++ BitVec.ofBool owned ++ BitVec.ofBool sgl ++ BitVec.ofBool inplace ++ BitVec.ofBool dir
    ++ mode ++ op

/-- R94: the bit of a direction. -/
def Dir.bit : Dir → Bool
  | .enc => false
  | .dec => true

/-- R91: the bit `inplace` of a destination. -/
def Dest.inplaceBit : Dest → Bool
  | .inPlace => true
  | .sink _ => false

/-- R91, R102: the bit `sgl` of a sink. -/
def SinkOperand.sglBit : SinkOperand → Bool
  | .contiguous .. => false
  | .segments .. => true

/-- R91: the bit `sgl` of a destination. -/
def Dest.sglBit : Dest → Bool
  | .inPlace => false
  | .sink k => k.sglBit

/-- Operand values all zero: what a command that does not read them carries. -/
def Operands.none : Operands := ⟨0, ⟨0, 0, 0, 0, 0, 0⟩, 0, 0, 0, 0, [], 0⟩

/-- R102: the operand values of a sink. -/
def Operands.ofSink : SinkOperand → Operands
  | .contiguous p l o => { Operands.none with sinkPtr := p, sinkLen := l, sinkOff := o }
  | .segments gs o => { Operands.none with segs := gs, sinkOff := o }

/-- R98: the operand values of PROCESS and PROCESS_LAST. -/
def Operands.ofProcess (p : Addr) (l : Len) : Dest → Operands
  | .inPlace => { Operands.none with dataPtr := p, dataLen := l }
  | .sink k => { Operands.ofSink k with dataPtr := p, dataLen := l }

/-- R91 to R93: an OPEN command. -/
def encodeOpen (mode : BitVec 3) (k : BitVec 8) (d : Dir) (owned : Bool) (ks : Addr) : Command :=
  { word := packWord 1 mode d.bit false false owned k, ops := { Operands.none with ks := ks } }

/-- R91: an INIT command; the mode is the context's, not the word's. -/
def encodeInit (k : BitVec 8) (o : InitOperands) : Command :=
  { word := packWord 2 0 false false false false k, ops := { Operands.none with init := o } }

/-- R91: a PROCESS (`op` = 3) or PROCESS_LAST (`op` = 4) command. -/
def encodeProcess (op : BitVec 4) (k : BitVec 8) (p : Addr) (l : Len) (d : Dest) : Command :=
  { word := packWord op 0 false d.inplaceBit d.sglBit false k, ops := Operands.ofProcess p l d }

/-- R91: a FINISH command. -/
def encodeFinish (k : BitVec 8) (s : SinkOperand) : Command :=
  { word := packWord 5 0 false false s.sglBit false k, ops := Operands.ofSink s }

/-- The command, word and operands, that an instruction is delivered as (R90 to R98, R102). -/
def encode : Instr → Command
  | .openEcb k d w ks => encodeOpen 0 k d w ks
  | .openCbc k d w ks => encodeOpen 1 k d w ks
  | .openCtr k d w ks => encodeOpen 2 k d w ks
  | .openGcm k d w ks => encodeOpen 3 k d w ks
  | .openGmac k d w ks => encodeOpen 4 k d w ks
  | .initEcb k o | .initCbc k o | .initCtr k o | .initGcm k o | .initGmac k o => encodeInit k o
  | .processEcbEnc k p l d | .processEcbDec k p l d | .processCbcEnc k p l d | .processCbcDec k p l d
  | .processCtr k p l d | .processGcmEnc k p l d | .processGcmDec k p l d | .processGmacEnc k p l d
  | .processGmacDec k p l d => encodeProcess 3 k p l d
  | .processLast k p l d => encodeProcess 4 k p l d
  | .finishEcb k s | .finishCbc k s | .finishCtr k s | .finishGcmEnc k s | .finishGcmDec k s
  | .finishGmacEnc k s | .finishGmacDec k s => encodeFinish k s
  | .destroy k => { word := packWord 6 0 false false false false k, ops := Operands.none }

end Sys2Proof
end

