-- ==== Sys2Proof/Machine/Flags.lean ====
section
/-! DEFINITION. Machine/Flags.lean: what takes the place of flags: the status codes (R281), the three result
registers (R41, R99), and the comparison of tags (R223). -/

namespace Sys2Proof.Machine

/-- R281: the statuses a command can return. -/
inductive Status where
  | ok | config | lengthRange | authFail | protocol | bufferTooSmall | cipher
deriving DecidableEq, Repr

/-- R281: the status codes. -/
def Status.code : Status → BitVec 8
  | .ok => 0
  | .config => 1
  | .lengthRange => 2
  | .authFail => 3
  | .protocol => 4
  | .bufferTooSmall => 5
  | .cipher => 6

/-- R99: `OUT_LEN` for a count of `n` bytes; a free value where `n` does not fit (log 11). -/
def outLenReg (ix n : Nat) : BitVec 32 := if n < 2 ^ 32 then BitVec.ofNat 32 n else Config.outLenBeyond ix

/-- R99: `SINK_OFF` for an offset `o`; a free value where `o` does not fit (log 11). -/
def sinkOffReg (ix o : Nat) : BitVec 64 := if o < 2 ^ 64 then BitVec.ofNat 64 o else Config.sinkOffBeyond ix

/-- R41: "Every command writes all three" result registers: the status, the count of bytes written, the sink's
offset after the command. The counter of free values moves on (log 22). -/
def State.report (s : State) (st : Status) (n off : Nat) : State :=
  { s with status := st.code, outLen := outLenReg s.freeIx n, sinkOff := sinkOffReg s.freeIx off,
           freeIx := s.freeIx + 1 }

/-- R223: the difference of two strings, accumulated over every byte with no early exit. -/
def tagDiff : Byte → Bytes → Bytes → Byte
  | d, a :: as, b :: bs => tagDiff (d ||| (a ^^^ b)) as bs
  | d, _, _ => d

/-- R223: `tag_equal`, for two strings of one length. -/
def tagEqual (a b : Bytes) : Bool := tagDiff 0 a b == 0

end Sys2Proof.Machine
end

