-- ==== Sys2Proof/Machine/Operands.lean ====
section
/-! DEFINITION. Machine/Operands.lean: the operand forms: ranges of memory (R80), the scatter-gather sink with its
cursor (R66 to R71), in-place operation and overlap (R73, R74), tag lengths (R101), and where a command writes. -/

namespace Sys2Proof.Machine

/-- R80: an operand range must not pass the end of the address space; an empty range ignores its address (R61). -/
def rangeFits (p : Addr) (l : Len) : Bool := l == 0 || decide (p.toNat + l.toNat ≤ addrSpace)

/-- R66: `total(sink)`. -/
def sinkTotal (gs : List Seg) : Nat := (gs.map (fun g => g.len.toNat)).sum

/-- R67(e): whether two segments share no address. -/
def segsDisjoint (g h : Seg) : Bool :=
  decide (g.ptr.toNat + g.len.toNat ≤ h.ptr.toNat ∨ h.ptr.toNat + h.len.toNat ≤ g.ptr.toNat)

/-- R67(e): whether the segments are pairwise disjoint. -/
def allDisjoint : List Seg → Bool
  | [] => true
  | g :: gs => gs.all (segsDisjoint g) && allDisjoint gs

/-- R67(c): the segments other than segment 0 and the last. -/
def middleSegs (gs : List Seg) : List Seg := (gs.drop 1).dropLast

/-- R67: whether a sink is well formed for block size `bs`, conditions (a) to (f) in order; `l_i ≤ LEN_MAX` holds by
the width of the operand. -/
def sinkWf (segMax bs : Nat) (k : SinkOperand) : Bool :=
  decide (1 ≤ k.segs.length ∧ k.segs.length ≤ segMax)
    && k.segs.all (fun g => decide (1 ≤ g.len.toNat))
    && (middleSegs k.segs).all (fun g => decide (bs ≤ g.len.toNat))
    && k.segs.all (fun g => decide (g.ptr.toNat + g.len.toNat ≤ addrSpace))
    && allDisjoint k.segs
    && decide (k.off.toNat ≤ sinkTotal k.segs)

/-- R68: the cursor at offset `off`: the segment with the least index whose end lies beyond `off`, and the offset
inside it; none at the end of the sink. -/
def cursor : List Seg → Nat → Option (Seg × Nat)
  | [], _ => none
  | g :: gs, off => if off < g.len.toNat then some (g, off) else cursor gs (off - g.len.toNat)

/-- R70: the address the flattened sink gives to an offset. -/
def sinkAddr (gs : List Seg) (off : Nat) : Option Nat :=
  (cursor gs off).map (fun c => c.1.ptr.toNat + c.2)

/-- R69: `reserve`: the one or two spans, as (address, length), that the next `n` bytes occupy. -/
def reserve : List Seg → Nat → Nat → List (Nat × Nat)
  | [], _, _ => []
  | g :: gs, off, n =>
    if off < g.len.toNat then
      let first := min n (g.len.toNat - off)
      (g.ptr.toNat + off, first) ::
        (if first < n then
          match gs with
          | [] => []
          | h :: _ => [(h.ptr.toNat, n - first)]
        else [])
    else reserve gs (off - g.len.toNat) n

/-- R69: writing a byte string into spans, filling each before the next. -/
def writeSpans : List (Nat × Nat) → Bytes → Memory → Memory
  | [], _, m => m
  | (a, l) :: r, v, m => writeSpans r (v.drop l) (m.writeBytes a (v.take l))

/-- R70: `SinkWrite` from offset `off`: byte `t` lands at the cursor of `off + t`. -/
def sinkWrite (gs : List Seg) : Nat → Bytes → Memory → Memory
  | _, [], m => m
  | off, b :: v, m =>
    sinkWrite gs (off + 1) v (match sinkAddr gs off with
      | some a => m.write a b
      | none => m)

/-- R73: whether a PROCESS is in place: by the flag, or because its sink is one contiguous buffer whose cursor is at
`DATA_PTR`. With an empty chunk `DATA_PTR` is ignored (R72), so it is no identity (log 13). -/
def isInPlace (p : Addr) (l : Len) : Dest → Bool
  | .inPlace => true
  | .sink k =>
    match k.segs with
    | [g] => l != 0 && g.ptr.toNat + k.off.toNat == p.toNat
    | _ => false

/-- R74: whether the chunk shares an address with a segment of the sink. -/
def chunkOverlaps (p : Addr) (l : Len) : Dest → Bool
  | .inPlace => false
  | .sink k => l != 0 && k.segs.any (fun g =>
      decide (p.toNat < g.ptr.toNat + g.len.toNat ∧ g.ptr.toNat < p.toNat + l.toNat))

/-- R101: the accepted values of `TAG_BITS`. -/
def tagBitsOk (t : BitVec 32) : Bool := [32, 64, 96, 104, 112, 120, 128].contains t.toNat

/-- Where a command writes its output. -/
inductive Target where
  /-- OPEN, INIT and DESTROY: nowhere -/
  | nowhere
  /-- R73: over the chunk at `DATA_PTR`, with no sink -/
  | chunk (p : Addr)
  /-- R70: through a sink; in-place operation by pointer identity is this case, with the same memory result (R73,
  log 14) -/
  | sink (k : SinkOperand)
deriving DecidableEq, Repr

/-- The address output byte `t` of a command goes to: `DATA_PTR + t` in place (R73), the cursor of `off + t` of a
sink (R70). -/
def Target.addrOf : Target → Nat → Option Nat
  | .nowhere, _ => none
  | .chunk p, t => some (p.toNat + t)
  | .sink k, t => sinkAddr k.segs (k.off.toNat + t)

/-- The output of a command written to memory. -/
def Target.emit : Target → Bytes → Memory → Memory
  | .nowhere, _, m => m
  | .chunk p, v, m => m.writeBytes p.toNat v
  | .sink k, v, m => sinkWrite k.segs k.off.toNat v m

/-- R288: of the first `n` output bytes, those that `f` gives a byte for, written with that byte. -/
def Target.scatter (tg : Target) (f : Nat → Option Byte) : Nat → Memory → Memory
  | 0, m => m
  | n + 1, m =>
    match tg.addrOf n, f n with
    | some a, some b => (Target.scatter tg f n m).write a b
    | _, _ => Target.scatter tg f n m

/-- R99: the `SINK_OFF` passed in, 0 with no sink. -/
def Target.passedOff : Target → Nat
  | .sink k => k.off.toNat
  | _ => 0

/-- R99: the `SINK_OFF` after `n` bytes were written, 0 with no sink. -/
def Target.offAfter : Target → Nat → Nat
  | .sink k, n => k.off.toNat + n
  | _, _ => 0

/-- R73, R91: where PROCESS and PROCESS_LAST write. -/
def targetOf (p : Addr) : Dest → Target
  | .inPlace => .chunk p
  | .sink k => .sink k

/-- R71: whether `n` bytes fit in what the sink has left; in place there is no sink to fill. -/
def Target.fits : Target → Nat → Bool
  | .sink k, n => decide (n ≤ sinkTotal k.segs - k.off.toNat)
  | _, _ => true

end Sys2Proof.Machine
end

