-- ==== Sys2Proof/Machine/Ops.lean ====
section
/-! DEFINITION. Machine/Ops.lean: the named operations on the state: slots (R20), raising an error (R290), completing
a command, and running a rule on the addressed context (R112, R120). -/

namespace Sys2Proof.Machine

/-- R20: the slot of a number; none when `ctx ≥ N_CTX` (R96). -/
def State.slot (s : State) (k : BitVec 8) : Option Slot := s.slots[k.toNat]?

/-- A slot's contents replaced. -/
def State.setSlot (s : State) (k : BitVec 8) (x : Slot) : State := { s with slots := s.slots.set k.toNat x }

/-- Memory replaced. -/
def State.withMem (s : State) (m : Memory) : State := { s with mem := m }

/-- The waiting inputs replaced. -/
def State.withInputs (s : State) (q : List Input) : State := { s with inputs := q }

/-- R134: a release signal sent to the BlockCipher. -/
def State.release (s : State) (ks : Addr) : State := { s with releases := ks :: s.releases }

/-- R286: PROTOCOL: no effect but the result registers; `SINK_OFF` as passed in. -/
def State.refuse (s : State) (off : Addr) : State := s.report .protocol 0 off.toNat

/-- R290: raising an error in a command on slot `k` holding `c`, whose output goes to `tg` and would be `n` bytes.
First "the state change the error's rule gives is made (`closed` for the fatal ones, nothing for the others)", then
"`STATUS`, `OUT_LEN`, `SINK_OFF` are written", and the command has returned.
PROTOCOL (R286), CONFIG (R282), BUFFER_TOO_SMALL (R287): nothing changes.
LENGTH_RANGE (R283): `state <- closed`, nothing else.
AUTH_FAIL (R284): `closed`, the fields hold what FINISH computed, the released blocks are written and counted.
CIPHER (R288): `closed`; the session's other fields, `OUT_LEN`, `SINK_OFF` and the bytes of the output range are free
values, the two results at most the success values (log 10). -/
def State.raise (s : State) (k : BitVec 8) (c : ModeContext) (tg : Target) (n : Nat) : Raise → State
  | .protocol => s.report .protocol 0 tg.passedOff
  | .config => s.report .config 0 tg.passedOff
  | .bufferTooSmall => s.report .bufferTooSmall 0 tg.passedOff
  | .lengthRange => (s.setSlot k (.held (c.withState .closed))).report .lengthRange 0 tg.passedOff
  | .authFail x out =>
    ((s.withMem (tg.emit out s.mem)).setSlot k (.held ((c.withSess x).withState .closed))).report
      .authFail out.length (tg.offAfter out.length)
  | .cipher =>
    let f := Config.cipherFailure s.freeIx
    ((s.withMem (tg.scatter f.bytes n s.mem)).setSlot k (.held ((c.withSess f.sess).withState .closed))).report
      .cipher (f.outLen % (n + 1)) (f.sinkOff % (tg.offAfter n + 1))

/-- How a stopped computation ends the command: an error is a next state (R290), a read of what has no value a
fault (R23). -/
def State.stop (s : State) (k : BitVec 8) (c : ModeContext) (tg : Target) (n : Nat) :
    Stop → Host.Outcome State Fault Refusal
  | .raise e => .next (s.raise k c tg n e)
  | .noValue f => .fault (.noValue f)

/-- A command that ends with OK: its output is written, the slot holds `c`, and the results count the output. -/
def State.complete (s : State) (k : BitVec 8) (c : ModeContext) (tg : Target) (out : Bytes) : State :=
  ((s.withMem (tg.emit out s.mem)).setSlot k (.held c)).report .ok out.length (tg.offAfter out.length)

/-- R112, R120, R135: run a rule on the context of slot `k`. A slot that does not exist or is free holds no context:
PROTOCOL. A context that does not select the row cannot come from the decoder (log 4). -/
def State.onContext (s : State) (k : BitVec 8) (sel : Mode → Dir → Bool) (off : Addr)
    (f : ModeContext → Host.Outcome State Fault Refusal) : Host.Outcome State Fault Refusal :=
  match s.slot k with
  | some (.held c) => if sel c.mode c.dir then f c else .refused .rowNotSelected
  | _ => .next (s.refuse off)

/-- R112: the mode and direction the decoder reads of slot `k`. A free slot holds neither, and every row R113 could
select refuses it alike with PROTOCOL (R135); ECB and ENC stand in (log 3). -/
def State.selection (s : State) (k : BitVec 8) : Option Selection :=
  match s.slot k with
  | none => none
  | some .free => some tableSelection
  | some (.held c) => some ⟨c.mode, c.dir⟩

end Sys2Proof.Machine
end

