-- ==== Sys2Proof/Machine/Commands.lean ====
section
/-! DEFINITION. Machine/Commands.lean: what every mode shares of INIT, PROCESS, FINISH and PROCESS_LAST: the preludes
with their checks in the order of R129, R132 and R133, and the commit of the result. What a mode adds is a rule. -/

namespace Sys2Proof.Machine

/-- One INIT row: which contexts select it, and its checks and body, which yield the session INIT writes. -/
structure InitRule where
  sel : Mode → Dir → Bool
  body : Cipher → ModeContext → InitOperands → Memory → Run Session

/-- One PROCESS row: which contexts select it, its length check (R129 step 8), and its body, which yields the
session afterwards and the output. -/
structure ProcessRule where
  sel : Mode → Dir → Bool
  lengthOk : ModeContext → Nat → Run Bool
  body : Cipher → ModeContext → Bytes → Run (Session × Bytes)

/-- One FINISH row: which contexts select it, and its body, which yields the session afterwards and the output. -/
structure FinishRule where
  sel : Mode → Dir → Bool
  body : Cipher → ModeContext → Run (Session × Bytes)

/-- R126 to R128, R211: the first check of every INIT, then the row's own. -/
def initSession (P : Params) (R : InitRule) (c : ModeContext) (o : InitOperands) (m : Memory) : Run Session := do
  check (c.state == .alloc) .protocol
  R.body (P.cipher c.ks) c o m

/-- R126 to R128, R211: INIT. It is valid in `alloc` only; on success the context is `ready`; it has no output. -/
def runInit (P : Params) (R : InitRule) (k : BitVec 8) (o : InitOperands) (s : State) :
    Host.Outcome State Fault Refusal :=
  s.onContext k R.sel 0 fun (c : ModeContext) =>
    match initSession P R c o s.mem with
    | .error e => s.stop k c .nowhere 0 e
    | .ok x => .next (s.complete k ((c.withSess x).withState .ready) .nowhere [])

/-- R67, R129 step 3: a sink, where there is one, must be well formed. -/
def destWf (P : Params) (c : ModeContext) : Dest → Bool
  | .inPlace => true
  | .sink k => sinkWf P.segMax c.blockSize k

/-- R73, R129 step 4: in place is admitted only in ECB and CBC and only with no remainder. -/
def inPlaceOk (c : ModeContext) (p : Addr) (l : Len) (d : Dest) : Run Bool :=
  if isInPlace p l d then
    match c.mode with
    | .ecb | .cbc => do
      let r ← remainderLen c
      .ok (r == 0)
    | _ => .ok false
  else .ok true

/-- R129, steps 1 to 5: the checks PROCESS and PROCESS_LAST share. -/
def operandChecks (P : Params) (c : ModeContext) (p : Addr) (l : Len) (d : Dest) : Run Unit := do
  check (c.state == .ready) .protocol
  check (rangeFits p l) .protocol
  check (destWf P c d) .protocol
  let ok ← inPlaceOk c p l d
  check ok .protocol
  check (isInPlace p l d || !chunkOverlaps p l d) .protocol

/-- R129, steps 1 to 8, with the output length `out_len` (R142) and the length check given; it answers the output
length. -/
def processChecks (P : Params) (outLen : Run Nat) (lengthOk : Run Bool) (c : ModeContext) (p : Addr) (l : Len)
    (d : Dest) : Run Nat := do
  operandChecks P c p l d
  let n ← outLen
  check ((targetOf p d).fits n) .bufferTooSmall
  let ok ← lengthOk
  check ok .lengthRange
  .ok n

/-- R129: PROCESS: the prelude, then step 9: the chunk is read and the mode's rule run on it. -/
def runProcess (P : Params) (R : ProcessRule) (k : BitVec 8) (p : Addr) (l : Len) (d : Dest) (s : State) :
    Host.Outcome State Fault Refusal :=
  s.onContext k R.sel d.passedOff fun (c : ModeContext) =>
    match processChecks P (outLenProcess c l.toNat) (R.lengthOk c l.toNat) c p l d with
    | .error e => s.stop k c (targetOf p d) 0 e
    | .ok n =>
      match R.body (P.cipher c.ks) c (s.mem.readBytes p.toNat l.toNat) with
      | .error e => s.stop k c (targetOf p d) n e
      | .ok (x, out) => .next (s.complete k (c.withSess x) (targetOf p d) out)

/-- R132, steps 1 to 4: the prelude of FINISH; it answers the output length. -/
def finishChecks (P : Params) (c : ModeContext) (snk : SinkOperand) : Run Nat := do
  check (c.state == .ready) .protocol
  check (sinkWf P.segMax c.blockSize snk) .protocol
  let n ← outLenFinish c
  check ((Target.sink snk).fits n) .bufferTooSmall
  .ok n

/-- R132: FINISH: the prelude, then the mode's rule; on success the context is `closed`. -/
def runFinish (P : Params) (R : FinishRule) (k : BitVec 8) (snk : SinkOperand) (s : State) :
    Host.Outcome State Fault Refusal :=
  s.onContext k R.sel snk.off fun (c : ModeContext) =>
    match finishChecks P c snk with
    | .error e => s.stop k c (.sink snk) 0 e
    | .ok n =>
      match R.body (P.cipher c.ks) c with
      | .error e => s.stop k c (.sink snk) n e
      | .ok (x, out) => .next (s.complete k ((c.withSess x).withState .closed) (.sink snk) out)

/-- R133: "run the mode's PROCESS rule body on data, then the mode's FINISH rule body". -/
def lastBody (R : ProcessRule) (F : FinishRule) (C : Cipher) (c : ModeContext) (data : Bytes) :
    Run (Session × Bytes) := do
  let (x, out) ← R.body C c data
  let (y, out') ← afterOutput out (F.body C (c.withSess x))
  .ok (y, out ++ out')

/-- R133: PROCESS_LAST, for the PROCESS and FINISH rules that a context selects; on success the context is
`closed`. -/
def runLast (P : Params) (R : Mode → Dir → ProcessRule) (F : Mode → Dir → FinishRule) (k : BitVec 8) (p : Addr)
    (l : Len) (d : Dest) (s : State) : Host.Outcome State Fault Refusal :=
  s.onContext k (fun _ _ => true) d.passedOff fun (c : ModeContext) =>
    match processChecks P (outLenLast c l.toNat) (lastLengthOk c l.toNat) c p l d with
    | .error e => s.stop k c (targetOf p d) 0 e
    | .ok n =>
      match lastBody (R c.mode c.dir) (F c.mode c.dir) (P.cipher c.ks) c (s.mem.readBytes p.toNat l.toNat) with
      | .error e => s.stop k c (targetOf p d) n e
      | .ok (x, out) => .next (s.complete k ((c.withSess x).withState .closed) (targetOf p d) out)

/-- R131: block assembly: the whole blocks of `bs` bytes of the old remainder followed by the chunk, and what is left
over. `bs` is the context's block size, 16 in GCM (R217). -/
def assemble (bs : Nat) (c : ModeContext) (data : Bytes) : Run (List Bytes × Bytes) := do
  let r ← need .remainder c.sess.remainder
  let buf := r ++ data
  let n := buf.length / bs
  .ok (blocksOf bs n buf, buf.drop (n * bs))

/-- R282: the block sizes INIT accepts in every mode. -/
def blockSizeOk (c : ModeContext) : Bool := c.blockSize == 8 || c.blockSize == 16

/-- R282: a decrypting ECB or CBC context needs a cipher with `D`. -/
def decryptOk (C : Cipher) (c : ModeContext) : Bool := c.dir == .enc || C.hasD

end Sys2Proof.Machine
end

