-- ==== Sys2Proof/Machine/Lifecycle.lean ====
section
/-! DEFINITION. Machine/Lifecycle.lean: OPEN (R125), the INIT of ECB, CBC and CTR (R126 to R128), and DESTROY
(R134). -/

namespace Sys2Proof.Machine

/-- R125: OPEN: the slot must be free; the cipher's block size is copied; no other field gets a value. -/
def openContext (P : Params) (mode : Mode) (k : BitVec 8) (d : Dir) (owned : Bool) (ks : Addr) (s : State) :
    Host.Outcome State Fault Refusal :=
  match s.slot k with
  | some .free =>
    .next (s.complete k
      { state := .alloc, mode := mode, dir := d, ks := ks, ksOwned := owned, blockSize := (P.cipher ks).bs,
        sess := Session.empty } .nowhere [])
  | _ => .next (s.refuse 0)

/-- OPEN.ECB (R125). -/
def execOpenEcb (k : BitVec 8) (d : Dir) (owned : Bool) (ks : Addr) (s : State) : Host.Outcome State Fault Refusal :=
  openContext Config.params .ecb k d owned ks s

/-- OPEN.CBC (R125). -/
def execOpenCbc (k : BitVec 8) (d : Dir) (owned : Bool) (ks : Addr) (s : State) : Host.Outcome State Fault Refusal :=
  openContext Config.params .cbc k d owned ks s

/-- OPEN.CTR (R125). -/
def execOpenCtr (k : BitVec 8) (d : Dir) (owned : Bool) (ks : Addr) (s : State) : Host.Outcome State Fault Refusal :=
  openContext Config.params .ctr k d owned ks s

/-- OPEN.GCM (R125). -/
def execOpenGcm (k : BitVec 8) (d : Dir) (owned : Bool) (ks : Addr) (s : State) : Host.Outcome State Fault Refusal :=
  openContext Config.params .gcm k d owned ks s

/-- OPEN.GMAC (R125). -/
def execOpenGmac (k : BitVec 8) (d : Dir) (owned : Bool) (ks : Addr) (s : State) : Host.Outcome State Fault Refusal :=
  openContext Config.params .gmac k d owned ks s

/-- R126: INIT.ECB. -/
def initEcbBody (C : Cipher) (c : ModeContext) (_ : InitOperands) (_ : Memory) : Run Session := do
  check (blockSizeOk c) .config
  check (decryptOk C c) .config
  .ok { c.sess with remainder := some [] }

/-- R127: INIT.CBC. -/
def initCbcBody (C : Cipher) (c : ModeContext) (o : InitOperands) (m : Memory) : Run Session := do
  check (rangeFits o.ivPtr o.ivLen) .protocol
  check (blockSizeOk c) .config
  check (decryptOk C c) .config
  check (o.ivLen.toNat == c.blockSize) .config
  .ok { c.sess with cb := some (m.readBytes o.ivPtr.toNat c.blockSize), remainder := some [] }

/-- R128: INIT.CTR. -/
def initCtrBody (_ : Cipher) (c : ModeContext) (o : InitOperands) (m : Memory) : Run Session := do
  check (rangeFits o.ivPtr o.ivLen) .protocol
  check (blockSizeOk c) .config
  check (o.ivLen.toNat == c.blockSize) .config
  check (decide (1 ≤ o.ctrBits.toNat ∧ o.ctrBits.toNat ≤ 8 * c.blockSize)) .config
  .ok { c.sess with cb := some (m.readBytes o.ivPtr.toNat c.blockSize), ctrBits := some o.ctrBits.toNat,
                    remainder := some [] }

/-- The row INIT.ECB. -/
def initEcbRule : InitRule := { sel := fun m _ => m == .ecb, body := initEcbBody }

/-- The row INIT.CBC. -/
def initCbcRule : InitRule := { sel := fun m _ => m == .cbc, body := initCbcBody }

/-- The row INIT.CTR. -/
def initCtrRule : InitRule := { sel := fun m _ => m == .ctr, body := initCtrBody }

/-- INIT.ECB (R126). -/
def execInitEcb (k : BitVec 8) (o : InitOperands) (s : State) : Host.Outcome State Fault Refusal :=
  runInit Config.params initEcbRule k o s

/-- INIT.CBC (R127). -/
def execInitCbc (k : BitVec 8) (o : InitOperands) (s : State) : Host.Outcome State Fault Refusal :=
  runInit Config.params initCbcRule k o s

/-- INIT.CTR (R128). -/
def execInitCtr (k : BitVec 8) (o : InitOperands) (s : State) : Host.Outcome State Fault Refusal :=
  runInit Config.params initCtrRule k o s

/-- DESTROY (R134): the key schedule is released when the context owns it, the slot becomes free, and no field holds
a value any more. -/
def execDestroy (k : BitVec 8) (s : State) : Host.Outcome State Fault Refusal :=
  match s.slot k with
  | some (.held c) =>
    let t := if c.ksOwned then s.release c.ks else s
    .next ((t.setSlot k .free).report .ok 0 0)
  | _ => .next (s.refuse 0)

end Sys2Proof.Machine
end

