-- ==== Sys2Proof/Machine/Cbc.lean ====
section
/-! DEFINITION. Machine/Cbc.lean: the CBC engine (42_cbc.md). -/

namespace Sys2Proof.Machine

/-- R171: the loop of CBC encryption from chaining value `cb`: `C <- E(P xor cb)`, and `C` chains on. -/
def cbcEncLoop (K : Cipher) : Bytes → List Bytes → Run (Bytes × List Bytes)
  | cb, [] => .ok (cb, [])
  | cb, P :: Ps => do
    let Y ← cipherEnc K (xorBytes P cb)
    let (cb', Ys) ← cbcEncLoop K Y Ps
    .ok (cb', Y :: Ys)

/-- R172: the loop of CBC decryption: `P <- D(C) xor cb`, and the saved ciphertext `C` chains on. -/
def cbcDecLoop (K : Cipher) : Bytes → List Bytes → Run (Bytes × List Bytes)
  | cb, [] => .ok (cb, [])
  | cb, X :: Xs => do
    let Y ← cipherDec K X
    let (cb', Ps) ← cbcDecLoop K X Xs
    .ok (cb', xorBytes Y cb :: Ps)

/-- R171, R172: PROCESS in CBC for one of the loops. -/
def cbcBody (loop : Bytes → List Bytes → Run (Bytes × List Bytes)) (c : ModeContext) (data : Bytes) :
    Run (Session × Bytes) := do
  let cb ← need .cb c.sess.cb
  let (Xs, rest) ← assemble c.blockSize c data
  let (cb', Ys) ← loop cb Xs
  .ok ({ c.sess with cb := some cb', remainder := some rest }, Ys.flatten)

/-- R173: FINISH in CBC: a partial block is a length error; nothing is written; `cb` is not used. -/
def finishCbcBody (_ : Cipher) (c : ModeContext) : Run (Session × Bytes) := do
  let r ← remainderLen c
  check (r == 0) .lengthRange
  .ok (c.sess, [])

/-- The row PROCESS.CBC.ENC. -/
def processCbcEncRule : ProcessRule :=
  { sel := fun m d => m == .cbc && d == .enc, lengthOk := noLengthCheck, body := fun C => cbcBody (cbcEncLoop C) }

/-- The row PROCESS.CBC.DEC. -/
def processCbcDecRule : ProcessRule :=
  { sel := fun m d => m == .cbc && d == .dec, lengthOk := noLengthCheck, body := fun C => cbcBody (cbcDecLoop C) }

/-- The row FINISH.CBC. -/
def finishCbcRule : FinishRule := { sel := fun m _ => m == .cbc, body := finishCbcBody }

/-- PROCESS.CBC.ENC (R171). -/
def execProcessCbcEnc (k : BitVec 8) (p : Addr) (l : Len) (d : Dest) (s : State) :
    Host.Outcome State Fault Refusal :=
  runProcess Config.params processCbcEncRule k p l d s

/-- PROCESS.CBC.DEC (R172). -/
def execProcessCbcDec (k : BitVec 8) (p : Addr) (l : Len) (d : Dest) (s : State) :
    Host.Outcome State Fault Refusal :=
  runProcess Config.params processCbcDecRule k p l d s

/-- FINISH.CBC (R173). -/
def execFinishCbc (k : BitVec 8) (snk : SinkOperand) (s : State) : Host.Outcome State Fault Refusal :=
  runFinish Config.params finishCbcRule k snk s

end Sys2Proof.Machine
end

