-- ==== Sys2Proof/Machine/Ctr.lean ====
section
/-! DEFINITION. Machine/Ctr.lean: the CTR engine (43_ctr.md). Both directions are one (R198). -/

namespace Sys2Proof.Machine

/-- R194: the loop: the keystream block is `E(cb)`, then `cb` is incremented in its low `n` bits. -/
def ctrLoop (K : Cipher) (n : Nat) : Bytes → List Bytes → Run (Bytes × List Bytes)
  | cb, [] => .ok (cb, [])
  | cb, X :: Xs => do
    let KS ← cipherEnc K cb
    let (cb', Ys) ← ctrLoop K n (incLow n cb) Xs
    .ok (cb', xorBytes X KS :: Ys)

/-- R194: PROCESS in CTR. -/
def ctrBody (K : Cipher) (c : ModeContext) (data : Bytes) : Run (Session × Bytes) := do
  let cb ← need .cb c.sess.cb
  let n ← need .ctrBits c.sess.ctrBits
  let (Xs, rest) ← assemble c.blockSize c data
  let (cb', Ys) ← ctrLoop K n cb Xs
  .ok ({ c.sess with cb := some cb', remainder := some rest }, Ys.flatten)

/-- R195: FINISH in CTR: the remainder is xored with the first bytes of `E(cb)`; `cb` is not incremented. -/
def finishCtrBody (K : Cipher) (c : ModeContext) : Run (Session × Bytes) := do
  let r ← need .remainder c.sess.remainder
  if r.isEmpty then .ok (c.sess, [])
  else do
    let cb ← need .cb c.sess.cb
    let KS ← cipherEnc K cb
    .ok (c.sess, xorBytes r (KS.take r.length))

/-- The row PROCESS.CTR. -/
def processCtrRule : ProcessRule := { sel := fun m _ => m == .ctr, lengthOk := ctrLengthOk, body := ctrBody }

/-- The row FINISH.CTR. -/
def finishCtrRule : FinishRule := { sel := fun m _ => m == .ctr, body := finishCtrBody }

/-- PROCESS.CTR (R194). -/
def execProcessCtr (k : BitVec 8) (p : Addr) (l : Len) (d : Dest) (s : State) : Host.Outcome State Fault Refusal :=
  runProcess Config.params processCtrRule k p l d s

/-- FINISH.CTR (R195). -/
def execFinishCtr (k : BitVec 8) (snk : SinkOperand) (s : State) : Host.Outcome State Fault Refusal :=
  runFinish Config.params finishCtrRule k snk s

end Sys2Proof.Machine
end

