-- ==== Sys2Proof/Machine/Ecb.lean ====
section
/-! DEFINITION. Machine/Ecb.lean: the ECB engine (41_ecb.md). -/

namespace Sys2Proof.Machine

/-- R151: the per-block loop: `Y <- F(X)` for each block in order. -/
def ecbLoop (F : Bytes → Run Bytes) : List Bytes → Run (List Bytes)
  | [] => .ok []
  | X :: Xs => do
    let Y ← F X
    let Ys ← ecbLoop F Xs
    .ok (Y :: Ys)

/-- R150, R151: PROCESS in ECB for the per-block function `F`. -/
def ecbBody (F : Bytes → Run Bytes) (c : ModeContext) (data : Bytes) : Run (Session × Bytes) := do
  let (Xs, rest) ← assemble c.blockSize c data
  let Ys ← ecbLoop F Xs
  .ok ({ c.sess with remainder := some rest }, Ys.flatten)

/-- R153: FINISH in ECB: a partial block is a length error; nothing is written. -/
def finishEcbBody (_ : Cipher) (c : ModeContext) : Run (Session × Bytes) := do
  let r ← remainderLen c
  check (r == 0) .lengthRange
  .ok (c.sess, [])

/-- The row PROCESS.ECB.ENC. -/
def processEcbEncRule : ProcessRule :=
  { sel := fun m d => m == .ecb && d == .enc, lengthOk := noLengthCheck, body := fun C => ecbBody (cipherEnc C) }

/-- The row PROCESS.ECB.DEC (R152). -/
def processEcbDecRule : ProcessRule :=
  { sel := fun m d => m == .ecb && d == .dec, lengthOk := noLengthCheck, body := fun C => ecbBody (cipherDec C) }

/-- The row FINISH.ECB. -/
def finishEcbRule : FinishRule := { sel := fun m _ => m == .ecb, body := finishEcbBody }

/-- PROCESS.ECB.ENC (R151). -/
def execProcessEcbEnc (k : BitVec 8) (p : Addr) (l : Len) (d : Dest) (s : State) :
    Host.Outcome State Fault Refusal :=
  runProcess Config.params processEcbEncRule k p l d s

/-- PROCESS.ECB.DEC (R152). -/
def execProcessEcbDec (k : BitVec 8) (p : Addr) (l : Len) (d : Dest) (s : State) :
    Host.Outcome State Fault Refusal :=
  runProcess Config.params processEcbDecRule k p l d s

/-- FINISH.ECB (R153). -/
def execFinishEcb (k : BitVec 8) (snk : SinkOperand) (s : State) : Host.Outcome State Fault Refusal :=
  runFinish Config.params finishEcbRule k snk s

end Sys2Proof.Machine
end

