-- ==== Sys2Proof/Machine/Ghash.lean ====
section
/-! DEFINITION. Machine/Ghash.lean: the GHASH unit (R260 to R265): the product of GF(2^128) and its
multiply-accumulate. -/

namespace Sys2Proof.Machine

/-- R263: one step of `v`: multiplication by `t`, reducing `t^128` to `0xE1 << 120`. -/
def gfShift (v : BitVec 128) : BitVec 128 :=
  if v.getLsbD 0 then (v >>> 1) ^^^ (0xE1#128 <<< 120) else v >>> 1

/-- R263: the loop, with `n` steps to go: step `i = 128 - n` tests bit `127 - i = n - 1` of `x`. -/
def gfLoop (x : BitVec 128) : Nat → BitVec 128 → BitVec 128 → BitVec 128
  | 0, z, _ => z
  | n + 1, z, v => gfLoop x n (if x.getLsbD n then z ^^^ v else z) (gfShift v)

/-- R263: `x • y` on 128-bit numbers. -/
def gfMul (x y : BitVec 128) : BitVec 128 := gfLoop x 128 0 y

/-- R261, R263: the 128-bit number of a 16-byte string, byte 0 most significant. -/
def gfOfBytes (B : Bytes) : BitVec 128 := BitVec.ofNat 128 (beNat B)

/-- R263: the 16-byte string of a 128-bit number. -/
def gfToBytes (x : BitVec 128) : Bytes := beBytes 16 x.toNat

/-- R262: `GHASH_ACC(acc, H, X) = (acc xor X) • H`: xor first, then multiply. -/
def ghashAcc (H acc X : Bytes) : Bytes :=
  gfToBytes (gfMul (gfOfBytes acc ^^^ gfOfBytes X) (gfOfBytes H))

/-- R265: folding a list of blocks, in order. -/
def ghashFold (H acc : Bytes) (Xs : List Bytes) : Bytes := Xs.foldl (ghashAcc H) acc

end Sys2Proof.Machine
end

