-- ==== Sys2Proof/Machine/Gcm.lean ====
section
/-! DEFINITION. Machine/Gcm.lean: the GCM engine (44_gcm_gmac.md sections 1 to 3), with what GMAC shares of it. -/

namespace Sys2Proof.Machine

/-- R214: `J` for a 12-byte IV: the IV, then the 32-bit value 1 (R103). -/
def shortIvCounter (iv : Bytes) : Bytes := iv ++ beBytes 4 1

/-- R215: `J` for any other IV: the hash of the padded IV and of its bit length as a 128-bit word (R104). -/
def longIvCounter (H iv : Bytes) : Bytes :=
  ghashAcc H (ghashFold H (zeros 16) (hashBlocks iv)) (beBytes 16 (8 * iv.length))

/-- R214, R215: the initial counter block. -/
def ivCounter (H iv : Bytes) : Bytes := if iv.length = 12 then shortIvCounter iv else longIvCounter H iv

/-- R216: the accumulator after the AAD is folded from zero. -/
def aadHash (H aad : Bytes) : Bytes := ghashFold H (zeros 16) (hashBlocks aad)

/-- R39, R211: the look-ahead buffer after INIT: empty in a decrypting context; in an encrypting one it "hold[s] no
value" (R39), which limits R211's `la_len <- 0` to the contexts that have it (log 7). -/
def lookAheadAtInit : Dir → Option Bytes
  | .enc => none
  | .dec => some []

/-- R211, R212: INIT in GCM and GMAC. -/
def gcmInitBody (C : Cipher) (c : ModeContext) (o : InitOperands) (m : Memory) : Run Session := do
  check (rangeFits o.ivPtr o.ivLen) .protocol
  check (rangeFits o.aadPtr o.aadLen) .protocol
  check (c.blockSize == 16) .config
  check (tagBitsOk o.tagBits) .config
  check (o.ivLen != 0) .config
  let iv := m.readBytes o.ivPtr.toNat o.ivLen.toNat
  let aad := m.readBytes o.aadPtr.toNat o.aadLen.toNat
  let H ← cipherEnc C (zeros 16)
  let J := ivCounter H iv
  .ok { c.sess with
    tagLen := some (o.tagBits.toNat / 8)
    ctrBits := some 32
    H := some H
    hTable := some (Config.hTableOf H)
    J0 := some J
    cb := some J
    ghash := some (aadHash H aad)
    lenALenC := some (beBytes 8 (8 * o.aadLen.toNat))
    processed := some 0
    remainder := some []
    la := lookAheadAtInit c.dir }

/-- What the GCM loop carries from block to block: `cb`, `ghash` and `processed_data_len`. -/
structure GcmAcc where
  cb : Bytes
  ghash : Bytes
  processed : BitVec 64
deriving DecidableEq, Repr

/-- The loop's fields read from the session. -/
def gcmAcc (c : ModeContext) : Run GcmAcc := do
  let cb ← need .cb c.sess.cb
  let g ← need .ghash c.sess.ghash
  let p ← need .processed c.sess.processed
  .ok ⟨cb, g, p⟩

/-- The loop's fields written back to the session. -/
def Session.withAcc (x : Session) (a : GcmAcc) : Session :=
  { x with cb := some a.cb, ghash := some a.ghash, processed := some a.processed }

/-- R217: the loop of encryption: increment, encrypt, xor, then hash the ciphertext. -/
def gcmEncLoop (K : Cipher) (H : Bytes) : GcmAcc → List Bytes → Run (GcmAcc × List Bytes)
  | a, [] => .ok (a, [])
  | a, P :: Ps => do
    let cb := incLow 32 a.cb
    let KS ← cipherEnc K cb
    let Y := xorBytes P KS
    let (a', Ys) ← gcmEncLoop K H ⟨cb, ghashAcc H a.ghash Y, a.processed + 16⟩ Ps
    .ok (a', Y :: Ys)

/-- R218: the loop of decryption: hash the incoming ciphertext, then increment, encrypt and xor. -/
def gcmDecLoop (K : Cipher) (H : Bytes) : GcmAcc → List Bytes → Run (GcmAcc × List Bytes)
  | a, [] => .ok (a, [])
  | a, X :: Xs => do
    let h := ghashAcc H a.ghash X
    let cb := incLow 32 a.cb
    let KS ← cipherEnc K cb
    let P := xorBytes X KS
    let (a', Ps) ← gcmDecLoop K H ⟨cb, h, a.processed + 16⟩ Xs
    .ok (a', P :: Ps)

/-- R217: PROCESS.GCM.ENC. -/
def gcmEncBody (K : Cipher) (c : ModeContext) (data : Bytes) : Run (Session × Bytes) := do
  let H ← need .H c.sess.H
  let a ← gcmAcc c
  let (Ps, rest) ← assemble 16 c data
  let (a', Ys) ← gcmEncLoop K H a Ps
  .ok ({ c.sess.withAcc a' with remainder := some rest }, Ys.flatten)

/-- R218, R219: PROCESS.GCM.DEC: whole leading blocks that at least `tag_len` bytes follow are released; the rest
stays in the look-ahead buffer. -/
def gcmDecBody (K : Cipher) (c : ModeContext) (data : Bytes) : Run (Session × Bytes) := do
  let H ← need .H c.sess.H
  let a ← gcmAcc c
  let la ← need .la c.sess.la
  let g ← tagLen c
  let buf := la ++ data
  let n := releasedBlocks buf.length g
  let (a', Ps) ← gcmDecLoop K H a (blocksOf 16 n buf)
  .ok ({ c.sess.withAcc a' with la := some (buf.drop (16 * n)) }, Ps.flatten)

/-- R221, R222: the end of FINISH: the length block is completed and folded, and `T = ghash xor E(J0)`. -/
def gcmTag (K : Cipher) (H : Bytes) (x : Session) (a : GcmAcc) : Run (Session × Bytes) := do
  let l ← need .lenALenC x.lenALenC
  let J ← need .J0 x.J0
  let block := l.take 8 ++ beBytes 8 (8 * a.processed.toNat)
  let h := ghashAcc H a.ghash block
  let M ← cipherEnc K J
  .ok ({ x.withAcc { a with ghash := h } with lenALenC := some block }, xorBytes h M)

/-- R220, R221: the final partial block of encryption: only its own bytes are xored, padded with zeros for the hash
alone. -/
def gcmEncPartial (K : Cipher) (H : Bytes) (a : GcmAcc) (r : Bytes) : Run (GcmAcc × Bytes) :=
  if r.isEmpty then .ok (a, [])
  else do
    let cb := incLow 32 a.cb
    let KS ← cipherEnc K cb
    let Y := xorBytes r (KS.take r.length)
    .ok (⟨cb, ghashAcc H a.ghash (Y ++ zeros (16 - r.length)), a.processed + BitVec.ofNat 64 r.length⟩, Y)

/-- R220, R222: the final partial block of decryption: hashed as received, then xored. -/
def gcmDecPartial (K : Cipher) (H : Bytes) (a : GcmAcc) (r : Bytes) : Run (GcmAcc × Bytes) :=
  if r.isEmpty then .ok (a, [])
  else do
    let h := ghashAcc H a.ghash (r ++ zeros (16 - r.length))
    let cb := incLow 32 a.cb
    let KS ← cipherEnc K cb
    .ok (⟨cb, h, a.processed + BitVec.ofNat 64 r.length⟩, xorBytes r (KS.take r.length))

/-- R221: FINISH of encryption with `r` the bytes still to encrypt: the last ciphertext bytes, then the tag. -/
def gcmFinishEnc (K : Cipher) (c : ModeContext) (r : Bytes) : Run (Session × Bytes) := do
  let H ← need .H c.sess.H
  let a ← gcmAcc c
  let g ← tagLen c
  let (a', Y) ← gcmEncPartial K H a r
  let (x, T) ← gcmTag K H c.sess a'
  .ok (x, Y ++ T.take g)

/-- R222: FINISH of decryption with `r` the last ciphertext bytes and `t` the received tag: the plaintext is
written only when the tags agree. -/
def gcmFinishDec (K : Cipher) (c : ModeContext) (r t : Bytes) : Run (Session × Bytes) := do
  let H ← need .H c.sess.H
  let a ← gcmAcc c
  let g ← tagLen c
  let (a', P) ← gcmDecPartial K H a r
  let (x, T) ← gcmTag K H c.sess a'
  check (tagEqual (T.take g) t) (.authFail x [])
  .ok (x, P)

/-- R221: FINISH.GCM.ENC: `r` is the remainder. -/
def finishGcmEncBody (K : Cipher) (c : ModeContext) : Run (Session × Bytes) := do
  let r ← need .remainder c.sess.remainder
  gcmFinishEnc K c r

/-- R222: FINISH.GCM.DEC: the tail of `tag_len` bytes of the look-ahead buffer is the received tag, the rest the last
ciphertext bytes. -/
def finishGcmDecBody (K : Cipher) (c : ModeContext) : Run (Session × Bytes) := do
  let la ← need .la c.sess.la
  let g ← tagLen c
  check (decide (g ≤ la.length)) .lengthRange
  gcmFinishDec K c (la.take (la.length - g)) (la.drop (la.length - g))

/-- The row INIT.GCM. -/
def initGcmRule : InitRule := { sel := fun m _ => m == .gcm, body := gcmInitBody }

/-- The row PROCESS.GCM.ENC. -/
def processGcmEncRule : ProcessRule :=
  { sel := fun m d => m == .gcm && d == .enc, lengthOk := gcmEncLengthOk, body := gcmEncBody }

/-- The row PROCESS.GCM.DEC. -/
def processGcmDecRule : ProcessRule :=
  { sel := fun m d => m == .gcm && d == .dec, lengthOk := gcmDecLengthOk, body := gcmDecBody }

/-- The row FINISH.GCM.ENC. -/
def finishGcmEncRule : FinishRule := { sel := fun m d => m == .gcm && d == .enc, body := finishGcmEncBody }

/-- The row FINISH.GCM.DEC. -/
def finishGcmDecRule : FinishRule := { sel := fun m d => m == .gcm && d == .dec, body := finishGcmDecBody }

/-- INIT.GCM (R211). -/
def execInitGcm (k : BitVec 8) (o : InitOperands) (s : State) : Host.Outcome State Fault Refusal :=
  runInit Config.params initGcmRule k o s

/-- PROCESS.GCM.ENC (R217). -/
def execProcessGcmEnc (k : BitVec 8) (p : Addr) (l : Len) (d : Dest) (s : State) :
    Host.Outcome State Fault Refusal :=
  runProcess Config.params processGcmEncRule k p l d s

/-- PROCESS.GCM.DEC (R218). -/
def execProcessGcmDec (k : BitVec 8) (p : Addr) (l : Len) (d : Dest) (s : State) :
    Host.Outcome State Fault Refusal :=
  runProcess Config.params processGcmDecRule k p l d s

/-- FINISH.GCM.ENC (R221). -/
def execFinishGcmEnc (k : BitVec 8) (snk : SinkOperand) (s : State) : Host.Outcome State Fault Refusal :=
  runFinish Config.params finishGcmEncRule k snk s

/-- FINISH.GCM.DEC (R222). -/
def execFinishGcmDec (k : BitVec 8) (snk : SinkOperand) (s : State) : Host.Outcome State Fault Refusal :=
  runFinish Config.params finishGcmDecRule k snk s

end Sys2Proof.Machine
end

