-- ==== Sys2Proof/Machine/Gmac.lean ====
section
/-! DEFINITION. Machine/Gmac.lean: GMAC (44_gcm_gmac.md section 4): "GCM restricted to zero-length plaintext". -/

namespace Sys2Proof.Machine

/-- R225: INIT.GMAC is INIT.GCM word for word. -/
def initGmacBody (C : Cipher) (c : ModeContext) (o : InitOperands) (m : Memory) : Run Session := gcmInitBody C c o m

/-- R226: PROCESS.GMAC.ENC: the length check has let only an empty chunk through; nothing changes. -/
def gmacEncBody (_ : Cipher) (c : ModeContext) (_ : Bytes) : Run (Session × Bytes) := .ok (c.sess, [])

/-- R227: PROCESS.GMAC.DEC: the chunk joins the tag bytes received so far. -/
def gmacDecBody (_ : Cipher) (c : ModeContext) (data : Bytes) : Run (Session × Bytes) := do
  let la ← need .la c.sess.la
  .ok ({ c.sess with la := some (la ++ data) }, [])

/-- R228: FINISH.GMAC.ENC is FINISH.GCM.ENC "with `r = 0` always". -/
def finishGmacEncBody (K : Cipher) (c : ModeContext) : Run (Session × Bytes) := gcmFinishEnc K c []

/-- R229: FINISH.GMAC.DEC is FINISH.GCM.DEC "with `r = 0`": the received tag is `la[0..tag_len)`. -/
def finishGmacDecBody (K : Cipher) (c : ModeContext) : Run (Session × Bytes) := do
  let la ← need .la c.sess.la
  let g ← tagLen c
  check (decide (g ≤ la.length)) .lengthRange
  gcmFinishDec K c [] (la.take g)

/-- The row INIT.GMAC. -/
def initGmacRule : InitRule := { sel := fun m _ => m == .gmac, body := initGmacBody }

/-- The row PROCESS.GMAC.ENC. -/
def processGmacEncRule : ProcessRule :=
  { sel := fun m d => m == .gmac && d == .enc, lengthOk := gmacEncLengthOk, body := gmacEncBody }

/-- The row PROCESS.GMAC.DEC. -/
def processGmacDecRule : ProcessRule :=
  { sel := fun m d => m == .gmac && d == .dec, lengthOk := gmacDecLengthOk, body := gmacDecBody }

/-- The row FINISH.GMAC.ENC. -/
def finishGmacEncRule : FinishRule := { sel := fun m d => m == .gmac && d == .enc, body := finishGmacEncBody }

/-- The row FINISH.GMAC.DEC. -/
def finishGmacDecRule : FinishRule := { sel := fun m d => m == .gmac && d == .dec, body := finishGmacDecBody }

/-- INIT.GMAC (R225). -/
def execInitGmac (k : BitVec 8) (o : InitOperands) (s : State) : Host.Outcome State Fault Refusal :=
  runInit Config.params initGmacRule k o s

/-- PROCESS.GMAC.ENC (R226). -/
def execProcessGmacEnc (k : BitVec 8) (p : Addr) (l : Len) (d : Dest) (s : State) :
    Host.Outcome State Fault Refusal :=
  runProcess Config.params processGmacEncRule k p l d s

/-- PROCESS.GMAC.DEC (R227). -/
def execProcessGmacDec (k : BitVec 8) (p : Addr) (l : Len) (d : Dest) (s : State) :
    Host.Outcome State Fault Refusal :=
  runProcess Config.params processGmacDecRule k p l d s

/-- FINISH.GMAC.ENC (R228). -/
def execFinishGmacEnc (k : BitVec 8) (snk : SinkOperand) (s : State) : Host.Outcome State Fault Refusal :=
  runFinish Config.params finishGmacEncRule k snk s

/-- FINISH.GMAC.DEC (R229). -/
def execFinishGmacDec (k : BitVec 8) (snk : SinkOperand) (s : State) : Host.Outcome State Fault Refusal :=
  runFinish Config.params finishGmacDecRule k snk s

end Sys2Proof.Machine
end

