-- ==== Sys2Proof/Machine/ProcessLast.lean ====
section
/-! DEFINITION. Machine/ProcessLast.lean: the rows R113 selects by mode and direction, and PROCESS_LAST (R133), which
runs them. -/

namespace Sys2Proof.Machine

/-- R113: the PROCESS row of a context. -/
def processRuleOf : Mode → Dir → ProcessRule
  | .ecb, .enc => processEcbEncRule
  | .ecb, .dec => processEcbDecRule
  | .cbc, .enc => processCbcEncRule
  | .cbc, .dec => processCbcDecRule
  | .ctr, _ => processCtrRule
  | .gcm, .enc => processGcmEncRule
  | .gcm, .dec => processGcmDecRule
  | .gmac, .enc => processGmacEncRule
  | .gmac, .dec => processGmacDecRule

/-- R113: the FINISH row of a context. -/
def finishRuleOf : Mode → Dir → FinishRule
  | .ecb, _ => finishEcbRule
  | .cbc, _ => finishCbcRule
  | .ctr, _ => finishCtrRule
  | .gcm, .enc => finishGcmEncRule
  | .gcm, .dec => finishGcmDecRule
  | .gmac, .enc => finishGmacEncRule
  | .gmac, .dec => finishGmacDecRule

/-- PROCESS_LAST (R133). -/
def execProcessLast (k : BitVec 8) (p : Addr) (l : Len) (d : Dest) (s : State) :
    Host.Outcome State Fault Refusal :=
  runLast Config.params processRuleOf finishRuleOf k p l d s

end Sys2Proof.Machine
end

