-- ==== Sys2Proof/Machine/Dispatch.lean ====
section
/-! DEFINITION. Machine/Dispatch.lean: one arm for each row of spec/opcode_table.json (R113, R120). -/

namespace Sys2Proof.Machine

def exec (i : Instr) (s : State) : Host.Outcome State Fault Refusal :=
  match i with
  | .openEcb k d w ks => Sys2Proof.Machine.execOpenEcb k d w ks s
  | .openCbc k d w ks => Sys2Proof.Machine.execOpenCbc k d w ks s
  | .openCtr k d w ks => Sys2Proof.Machine.execOpenCtr k d w ks s
  | .openGcm k d w ks => Sys2Proof.Machine.execOpenGcm k d w ks s
  | .openGmac k d w ks => Sys2Proof.Machine.execOpenGmac k d w ks s
  | .initEcb k o => Sys2Proof.Machine.execInitEcb k o s
  | .initCbc k o => Sys2Proof.Machine.execInitCbc k o s
  | .initCtr k o => Sys2Proof.Machine.execInitCtr k o s
  | .initGcm k o => Sys2Proof.Machine.execInitGcm k o s
  | .initGmac k o => Sys2Proof.Machine.execInitGmac k o s
  | .processEcbEnc k p l d => Sys2Proof.Machine.execProcessEcbEnc k p l d s
  | .processEcbDec k p l d => Sys2Proof.Machine.execProcessEcbDec k p l d s
  | .processCbcEnc k p l d => Sys2Proof.Machine.execProcessCbcEnc k p l d s
  | .processCbcDec k p l d => Sys2Proof.Machine.execProcessCbcDec k p l d s
  | .processCtr k p l d => Sys2Proof.Machine.execProcessCtr k p l d s
  | .processGcmEnc k p l d => Sys2Proof.Machine.execProcessGcmEnc k p l d s
  | .processGcmDec k p l d => Sys2Proof.Machine.execProcessGcmDec k p l d s
  | .processGmacEnc k p l d => Sys2Proof.Machine.execProcessGmacEnc k p l d s
  | .processGmacDec k p l d => Sys2Proof.Machine.execProcessGmacDec k p l d s
  | .processLast k p l d => Sys2Proof.Machine.execProcessLast k p l d s
  | .finishEcb k snk => Sys2Proof.Machine.execFinishEcb k snk s
  | .finishCbc k snk => Sys2Proof.Machine.execFinishCbc k snk s
  | .finishCtr k snk => Sys2Proof.Machine.execFinishCtr k snk s
  | .finishGcmEnc k snk => Sys2Proof.Machine.execFinishGcmEnc k snk s
  | .finishGcmDec k snk => Sys2Proof.Machine.execFinishGcmDec k snk s
  | .finishGmacEnc k snk => Sys2Proof.Machine.execFinishGmacEnc k snk s
  | .finishGmacDec k snk => Sys2Proof.Machine.execFinishGmacDec k snk s
  | .destroy k => Sys2Proof.Machine.execDestroy k s

end Sys2Proof.Machine
end

