-- ==== Sys2Proof/Machine/Fetch.lean ====
section
/-! DEFINITION. Machine/Fetch.lean: what the next step has to do: the oldest waiting input of the host, decoded for
the context it addresses (R90, R112; log 2). -/

namespace Sys2Proof.Machine

/-- What the next step has to do. -/
inductive Fetched where
  /-- the step's whole effect is this state: nothing waits, or the input was no command, or an illegal word -/
  | done (s : State)
  /-- run this instruction on this state, from which the command has been taken -/
  | run (i : Instr) (s : State)
deriving DecidableEq, Repr

/-- R310: the reset event: every slot free, the result registers 0, "host memory is not touched", no key schedule is
released; what waits and what the collaborators were sent is not the engine's (log 21). -/
def State.resetEvent (s : State) : State :=
  { s with slots := List.replicate s.slots.length .free, status := 0, outLen := 0, sinkOff := 0 }

/-- The next step's work. With nothing waiting "the engine waits for a command" (R310). An illegal command word
raises PROTOCOL before any context is touched (R97, R120). -/
def State.fetch (s : State) : Fetched :=
  match s.inputs with
  | [] => .done s
  | .hostWrite a b :: q => .done ((s.withMem (s.mem.write a.toNat b)).withInputs q)
  | .reset :: q => .done (s.resetEvent.withInputs q)
  | .command c :: q =>
    match decode s.selection c with
    | .error _ => .done ((s.withInputs q).refuse c.passedOff)
    | .ok i => .run i (s.withInputs q)

end Sys2Proof.Machine
end

