-- ==== Sys2Proof/Machine/Step.lean ====
section
/-! DEFINITION. Machine/Step.lean: one step of the engine, and the placing of a command where the next step takes
it. -/

namespace Sys2Proof.Machine

/-- One step: the oldest waiting input is taken, and a command that decodes is executed, atomically (R3, R19,
R120). -/
def step (s : State) : Host.Outcome State Fault Refusal :=
  match s.fetch with
  | .done t => .next t
  | .run i t => exec i t

/-- The state with the command of a table word, its operands all zero, as the oldest waiting input (log 2). -/
def State.withFetchWord (s : State) (nbits w : Nat) : State :=
  s.withInputs (.command (tableCommand nbits w) :: s.inputs)

end Sys2Proof.Machine
end

