-- ==== Sys2Proof/Machine/FastPath.lean ====
section
/-! DEFINITION. Machine/FastPath.lean: the three-way dispatch of PROCESS (R130), the conditions of the fast path (R136)
and the bulk routes it takes (R154, R174, R196, R224, R267). R137 demands that no result depends on the route, so exec
runs the generic loop alone ("A model implements the generic loop only and is complete"); that the routes agree is
a statement about these definitions (log 18). -/

namespace Sys2Proof.Machine

/-- R130: the three routes of a PROCESS. -/
inductive Route where
  | buffered | fast | generic
deriving DecidableEq, Repr

/-- R136 (c), R154: the `n` bytes from the cursor lie in a single contiguous segment. -/
def singleSegment (n : Nat) : Dest → Bool
  | .inPlace => false
  | .sink k =>
    match k.segs with
    | [g] => decide (k.off.toNat + n ≤ g.len.toNat)
    | _ => false

/-- R136: ECB's conditions (a), (b), (c), which CBC and CTR share. -/
def bulkShape (c : ModeContext) (p : Addr) (l : Len) (d : Dest) : Bool :=
  c.sess.remainder == some [] && l.toNat % c.blockSize == 0 && (isInPlace p l d || singleSegment l.toNat d)

/-- R136, R224: the low 32 bits of `cb` do not wrap in `n` increments. -/
def noWrap32 (c : ModeContext) (n : Nat) : Bool :=
  match c.sess.cb with
  | some cb => decide (lowField 32 cb + n < 2 ^ 32)
  | none => false

/-- R193: the CTR wrap check has passed for `n` blocks. -/
def ctrWrapPassed (c : ModeContext) (n : Nat) : Bool :=
  match blocksLeft c with
  | .ok b => decide (n ≤ b)
  | .error _ => false

/-- R224: in GCM-DEC "no remainder is pending" and "the input is block-aligned" speak of the released run: nothing is
pending before it, and the whole blocks of the chunk that it takes are followed by `tag_len` bytes at least. -/
def laEmpty (c : ModeContext) : Bool := c.sess.la == some []

/-- R136: the conditions under which the dispatcher may take the fast path. -/
def fastPathOk (C : Cipher) (c : ModeContext) (p : Addr) (l : Len) (d : Dest) : Bool :=
  match c.mode, c.dir with
  | .ecb, _ => bulkShape c p l d && C.hasEcb
  | .cbc, .enc => bulkShape c p l d && C.hasCbcEnc
  | .cbc, .dec => bulkShape c p l d && C.hasCbcDec
  | .ctr, _ => bulkShape c p l d && C.hasCtr && ctrWrapPassed c (l.toNat / c.blockSize)
  | .gcm, .enc =>
    c.sess.remainder == some [] && l.toNat % 16 == 0 && c.blockSize == 16 && singleSegment l.toNat d
      && noWrap32 c (l.toNat / 16)
  | .gcm, .dec =>
    match c.sess.tagLen with
    | none => false
    | some g =>
      laEmpty c && c.blockSize == 16 && singleSegment (16 * releasedBlocks l.toNat g) d
        && noWrap32 c (releasedBlocks l.toNat g)
  | .gmac, _ => false

/-- R130: the route of a PROCESS that will write `n` bytes. -/
def processRoute (C : Cipher) (c : ModeContext) (p : Addr) (l : Len) (d : Dest) (n : Nat) : Route :=
  if n = 0 then .buffered else if fastPathOk C c p l d then .fast else .generic

/-- R124: what a bulk block entry such as `cipher_ecb` must produce for `n` whole blocks: the block function applied
to each in order. -/
def bulkBlocks (F : Bytes → Run Bytes) (bs : Nat) : Nat → Bytes → Run Bytes
  | 0, _ => .ok []
  | n + 1, data => do
    let Y ← F (data.take bs)
    let r ← bulkBlocks F bs n (data.drop bs)
    .ok (Y ++ r)

/-- R224: a run of `n` keystream blocks from consecutive counter values, counted up from `base` as one number. -/
def keystreamRun (K : Cipher) (bs : Nat) : Nat → Nat → Run Bytes
  | 0, _ => .ok []
  | n + 1, base => do
    let KS ← cipherEnc K (beBytes bs base)
    let r ← keystreamRun K bs n (base + 1)
    .ok (KS ++ r)

/-- R154: the whole input is handed to the bulk entry in one call. -/
def ecbFast (F : Bytes → Run Bytes) (c : ModeContext) (data : Bytes) : Run (Session × Bytes) := do
  let Y ← bulkBlocks F c.blockSize (data.length / c.blockSize) data
  .ok ({ c.sess with remainder := some [] }, Y)

/-- R124, R174: what a "cipher_cbc"-style bulk entry must produce in encryption for `n` whole blocks from chaining value
`cb`. -/
def bulkCbc (K : Cipher) (bs : Nat) : Nat → Bytes → Bytes → Run Bytes
  | 0, _, _ => .ok []
  | n + 1, cb, data => do
    let Y ← cipherEnc K (xorBytes (data.take bs) cb)
    let r ← bulkCbc K bs n Y (data.drop bs)
    .ok (Y ++ r)

/-- R174, encryption: the bulk entry over the whole input; its last ciphertext block chains on. -/
def cbcEncFast (K : Cipher) (c : ModeContext) (data : Bytes) : Run (Session × Bytes) := do
  let cb ← need .cb c.sess.cb
  let n := data.length / c.blockSize
  let Y ← bulkCbc K c.blockSize n cb data
  .ok ({ c.sess with cb := some ((cb ++ Y).drop (n * c.blockSize)), remainder := some [] }, Y)

/-- R174, decryption, "easy to parallelize": `D` over the whole input, then one xor pass with the ciphertext moved by
one block; the last ciphertext block chains on. -/
def cbcDecFast (K : Cipher) (c : ModeContext) (data : Bytes) : Run (Session × Bytes) := do
  let cb ← need .cb c.sess.cb
  let n := data.length / c.blockSize
  let X ← bulkBlocks (cipherDec K) c.blockSize n data
  .ok ({ c.sess with cb := some ((cb ++ data).drop (n * c.blockSize)), remainder := some [] },
    xorBytes X (cb ++ data))

/-- R196: the whole keystream run, one xor pass, and the counter moved on by one addition. -/
def ctrFast (K : Cipher) (c : ModeContext) (data : Bytes) : Run (Session × Bytes) := do
  let cb ← need .cb c.sess.cb
  let n := data.length / c.blockSize
  let KS ← keystreamRun K c.blockSize n (beNat cb)
  .ok ({ c.sess with cb := some (beBytes c.blockSize (beNat cb + n)), remainder := some [] }, xorBytes data KS)

/-- R224, encryption: the whole keystream run, one xor pass, then one GHASH pass over the ciphertext run. -/
def gcmEncFast (K : Cipher) (c : ModeContext) (data : Bytes) : Run (Session × Bytes) := do
  let H ← need .H c.sess.H
  let a ← gcmAcc c
  let n := data.length / 16
  let KS ← keystreamRun K 16 n (beNat a.cb + 1)
  let Y := xorBytes data KS
  .ok ({ c.sess.withAcc ⟨beBytes 16 (beNat a.cb + n), ghashFold H a.ghash (blocksOf 16 n Y),
          a.processed + BitVec.ofNat 64 (16 * n)⟩ with remainder := some [] }, Y)

/-- R224, decryption: one GHASH pass over the released run first, then the keystream run and one xor pass. -/
def gcmDecFast (K : Cipher) (c : ModeContext) (data : Bytes) : Run (Session × Bytes) := do
  let H ← need .H c.sess.H
  let a ← gcmAcc c
  let g ← tagLen c
  let n := releasedBlocks data.length g
  let X := data.take (16 * n)
  let h := ghashFold H a.ghash (blocksOf 16 n X)
  let KS ← keystreamRun K 16 n (beNat a.cb + 1)
  .ok ({ c.sess.withAcc ⟨beBytes 16 (beNat a.cb + n), h, a.processed + BitVec.ofNat 64 (16 * n)⟩ with
          la := some (data.drop (16 * n)) }, xorBytes X KS)

/-- R136: the fast route of a mode; GMAC has none. -/
def fastBody (C : Cipher) (c : ModeContext) (data : Bytes) : Run (Session × Bytes) :=
  match c.mode, c.dir with
  | .ecb, .enc => ecbFast (cipherEnc C) c data
  | .ecb, .dec => ecbFast (cipherDec C) c data
  | .cbc, .enc => cbcEncFast C c data
  | .cbc, .dec => cbcDecFast C c data
  | .ctr, _ => ctrFast C c data
  | .gcm, .enc => gcmEncFast C c data
  | .gcm, .dec => gcmDecFast C c data
  | .gmac, d => (processRuleOf .gmac d).body C c data

/-- R130: the buffered route: the chunk is only appended to the pending bytes. -/
def bufferedBody (c : ModeContext) (data : Bytes) : Run (Session × Bytes) :=
  match c.mode, c.dir with
  | .gcm, .dec | .gmac, .dec => do
    let la ← need .la c.sess.la
    .ok ({ c.sess with la := some (la ++ data) }, [])
  | .gmac, .enc => .ok (c.sess, [])
  | _, _ => do
    let r ← need .remainder c.sess.remainder
    .ok ({ c.sess with remainder := some (r ++ data) }, [])

end Sys2Proof.Machine
end

