-- ==== Sys2Proof/Machine/Outputs.lean ====
section
/-! DEFINITION. Machine/Outputs.lean: what an instruction may write and how much (R142), which operands R129
admits, and the PROCESS commands of a session, as the statements name them. exec itself does not use these. -/

namespace Sys2Proof.Machine

/-- Where an instruction writes: PROCESS and PROCESS_LAST over the chunk or to their sink (R70, R73), FINISH to its
sink, OPEN, INIT and DESTROY nowhere (R60). -/
def outputTarget : Instr → Target
  | .processEcbEnc _ p _ d | .processEcbDec _ p _ d | .processCbcEnc _ p _ d | .processCbcDec _ p _ d
  | .processCtr _ p _ d | .processGcmEnc _ p _ d | .processGcmDec _ p _ d | .processGmacEnc _ p _ d
  | .processGmacDec _ p _ d | .processLast _ p _ d => targetOf p d
  | .finishEcb _ k | .finishCbc _ k | .finishCtr _ k | .finishGcmEnc _ k | .finishGcmDec _ k
  | .finishGmacEnc _ k | .finishGmacDec _ k => .sink k
  | .openEcb .. | .openCbc .. | .openCtr .. | .openGcm .. | .openGmac .. => .nowhere
  | .initEcb .. | .initCbc .. | .initCtr .. | .initGcm .. | .initGmac .. => .nowhere
  | .destroy .. => .nowhere

/-- A count that a context with a missing field does not have is 0: such a context writes nothing (R23). -/
def countOf : Run Nat → Nat
  | .ok n => n
  | .error _ => 0

/-- R142: the count of bytes an instruction on this context writes when it raises no error. -/
def outLenOf (c : ModeContext) : Instr → Nat
  | .processEcbEnc _ _ l _ | .processEcbDec _ _ l _ | .processCbcEnc _ _ l _ | .processCbcDec _ _ l _
  | .processCtr _ _ l _ | .processGcmEnc _ _ l _ | .processGcmDec _ _ l _ | .processGmacEnc _ _ l _
  | .processGmacDec _ _ l _ => countOf (outLenProcess c l.toNat)
  | .processLast _ _ l _ => countOf (outLenLast c l.toNat)
  | .finishEcb .. | .finishCbc .. | .finishCtr .. | .finishGcmEnc .. | .finishGcmDec .. | .finishGmacEnc ..
  | .finishGmacDec .. => countOf (outLenFinish c)
  | .openEcb .. | .openCbc .. | .openCtr .. | .openGcm .. | .openGmac .. => 0
  | .initEcb .. | .initCbc .. | .initCtr .. | .initGcm .. | .initGmac .. => 0
  | .destroy .. => 0

/-- R129, checks 2 to 5, all passed: the chunk's range fits, the sink is well formed, in place is admitted, and no
other overlap. -/
structure OperandsAdmitted (P : Params) (c : ModeContext) (p : Addr) (l : Len) (d : Dest) : Prop where
  range : rangeFits p l = true
  sinkForm : destWf P c d = true
  inPlace : isInPlace p l d = true → (c.mode = .ecb ∨ c.mode = .cbc) ∧ c.sess.remainder = some []
  overlap : isInPlace p l d = true ∨ chunkOverlaps p l d = false

/-- R129, R131: the PROCESS commands of one session over a list of chunks, each with its length check and then its
body: the context they leave. -/
def sessionRun (R : ProcessRule) (K : Cipher) : ModeContext → List Bytes → Run ModeContext
  | c, [] => .ok c
  | c, A :: As => do
    let ok ← R.lengthOk c A.length
    check ok .lengthRange
    let (x, _) ← R.body K c A
    sessionRun R K (c.withSess x) As

/-- R43(d), R219: the data bytes that wait in a GCM context: the remainder of an encrypting one; of a decrypting one the
pending bytes before the last `tag_len`. -/
def waitingData (c : ModeContext) : Nat :=
  match c.dir with
  | .enc => countOf (remainderLen c)
  | .dec => countOf (laLen c) - countOf (tagLen c)

end Sys2Proof.Machine
end

