-- ==== Sys2Proof/Safety.lean ====
section
/-! DEFINITION. Safety.lean: what a legal state is: the invariants of R43 and of the field rules R27 to R39, over the
slots, and the canonical form of memory. -/

namespace Sys2Proof.Machine

/-- R37: the legal tag lengths in bytes. -/
def tagLens : List Nat := [4, 8, 12, 13, 14, 15, 16]

/-- R30: the legal block sizes. -/
def LegalBlockSize (c : ModeContext) : Prop := c.blockSize = 8 ∨ c.blockSize = 16

/-- R27, R43(a): the remainder has a value, of less than one block. -/
def RemainderOk (c : ModeContext) : Prop := ∃ r, c.sess.remainder = some r ∧ r.length < c.blockSize

/-- R28: `cb` has a value, of one block. -/
def CbOk (c : ModeContext) : Prop := ∃ b, c.sess.cb = some b ∧ b.length = c.blockSize

/-- R31: `ctr_bits` has a legal value for CTR. -/
def CtrBitsOk (c : ModeContext) : Prop := ∃ n, c.sess.ctrBits = some n ∧ 1 ≤ n ∧ n ≤ 8 * c.blockSize

/-- R32 to R38, R43(c), R43(e): the fields of a `ready` GCM or GMAC context, with `p` data bytes processed and tags of
`g` bytes. -/
structure GcmFields (x : Session) (g p : Nat) : Prop where
  hashKey : ∃ H, x.H = some H ∧ H.length = 16 ∧ x.hTable = some (Config.hTableOf H)
  accumulator : ∃ h, x.ghash = some h ∧ h.length = 16
  lengths : ∃ l, x.lenALenC = some l ∧ l.length = 8
  counter : ∃ J, x.J0 = some J ∧ J.length = 16 ∧ x.cb = some ((incLow 32)^[p / 16] J)
  ctrBits : x.ctrBits = some 32
  tagLen : x.tagLen = some g
  tagLegal : g ∈ tagLens
  processed : ∃ q, x.processed = some q ∧ q.toNat = p
  wholeBlocks : p % 16 = 0

/-- R27, R39, R230: in a GCM-ENC context `la` holds no value and fewer than 16 bytes wait, within the data limit. -/
def GcmEncPending (x : Session) (p : Nat) : Prop :=
  x.la = none ∧ ∃ r, x.remainder = some r ∧ r.length < 16 ∧ p + r.length ≤ gcmDataMax

/-- R39, R43(d), R219, R230: in a GCM-DEC context `la` holds fewer than `16 + tag_len` bytes, at least `tag_len` once a
block was released, and the remainder none, within the data limit. -/
def GcmDecPending (x : Session) (g p : Nat) : Prop :=
  x.remainder = some [] ∧ ∃ a, x.la = some a ∧ a.length < 16 + g ∧ (0 < p → g ≤ a.length) ∧
    p + a.length ≤ gcmDataMax + g

/-- R39, R226, R227: a GMAC context has processed nothing and its remainder is empty; `la` holds at most a tag where it
verifies one, and no value where it makes one. -/
def GmacPending (d : Dir) (x : Session) (g p : Nat) : Prop :=
  p = 0 ∧ x.remainder = some [] ∧
  match d with
  | .enc => x.la = none
  | .dec => ∃ a, x.la = some a ∧ a.length ≤ g

/-- R23, R43: a `ready` context holds a legal value in every field its mode reads. -/
def ReadyContext (c : ModeContext) : Prop :=
  LegalBlockSize c ∧
  match c.mode with
  | .ecb => RemainderOk c
  | .cbc => RemainderOk c ∧ CbOk c
  | .ctr => RemainderOk c ∧ CbOk c ∧ CtrBitsOk c
  | .gcm => c.blockSize = 16 ∧ ∃ g p, GcmFields c.sess g p ∧
      (match c.dir with
      | .enc => GcmEncPending c.sess p
      | .dec => GcmDecPending c.sess g p)
  | .gmac => c.blockSize = 16 ∧ ∃ g p, GcmFields c.sess g p ∧ GmacPending c.dir c.sess g p

/-- R22, R23, R125: what a context of each lifecycle state holds. -/
def LegalContext (c : ModeContext) : Prop :=
  match c.state with
  | .alloc => c.sess = Session.empty
  | .ready => ReadyContext c
  | .closed => True

/-- R31 to R39, R125: the fields that another mode's INIT writes hold no value in a `ready` ECB, CBC or CTR context.
GCM and GMAC write every field but `la`, of which `GcmEncPending` and `GmacPending` speak. -/
def OtherFieldsAbsent (c : ModeContext) : Prop :=
  c.state = .ready →
  match c.mode with
  | .ecb => c.sess = { Session.empty with remainder := c.sess.remainder }
  | .cbc => c.sess = { Session.empty with remainder := c.sess.remainder, cb := c.sess.cb }
  | .ctr => c.sess = { Session.empty with remainder := c.sess.remainder, cb := c.sess.cb, ctrBits := c.sess.ctrBits }
  | .gcm | .gmac => True

/-- R30, R126, R127: what binds a context to its cipher: the block size is the cipher's, and a `ready` decrypting ECB
or CBC context has a cipher with `D`. -/
structure CipherBound (P : Params) (c : ModeContext) : Prop where
  blockSize : c.blockSize = (P.cipher c.ks).bs
  decrypts : c.state = .ready → c.mode = .ecb ∨ c.mode = .cbc → c.dir = .dec → (P.cipher c.ks).hasD = true

/-- What a slot's context holds in an engine of parameters `P`. -/
structure LegalHeld (P : Params) (c : ModeContext) : Prop where
  fields : LegalContext c
  absent : OtherFieldsAbsent c
  cipher : CipherBound P c

/-- A legal state: `N_CTX` slots (R20), each context legal (R23, R43) and bound to its cipher (R30), memory in its
canonical form and inside the address space (R60). -/
structure State.Legal (s : State) : Prop where
  slotCount : s.slots.length = Config.params.nCtx
  contexts : ∀ c, Slot.held c ∈ s.slots → LegalHeld Config.params c
  memoryForm : s.mem.wf = true
  memoryRange : s.mem.inRange = true

/-- A step from this state completes: no fault, no refusal. -/
def State.Completes (s : State) : Prop := ∃ t, step s = .next t

end Sys2Proof.Machine
end

