-- ==== Sys2Proof/Certificates/Slice0/Obligations.lean ====
section
/-! DEFINITION. Certificates/Slice0/Obligations.lean: the statements for the provers. Each docstring names the rules of
spec/ it formalises and says where a clause is the model's own choice. `s.report st n off` is the state `s` with the
three result registers written (R41): the status, the count `n` of bytes written, the sink's offset `off`. -/

open Sys2Proof Sys2Proof.Machine

/-! Encoding. -/

/-- R91 to R95, R98, R102, R112, R113: every well-formed instruction, with every operand at every value, is read back
by the decoder from the command it is encoded as. -/
def Obligations.DecodeReadsEncode : Prop :=
  ∀ (sel : BitVec 8 → Option Selection) (i : Instr), i.wellFormed sel = true → decode sel (encode i) = .ok i

/-- R97, R112, R113: an instruction the decoder reads is well formed, and its command word is the word it was read
from: no bit of a legal word is dropped. -/
def Obligations.DecodedWordIsEncoded : Prop :=
  ∀ (sel : BitVec 8 → Option Selection) (c : Command) (i : Instr), decode sel c = .ok i →
    i.wellFormed sel = true ∧ (encode i).word = c.word

/-- R97, R112: the illegal command words are exactly those that meet one of the conditions of R97, written here over
the bits of R91; `sel` answers nothing for `ctx ≥ N_CTX`. -/
def Obligations.IllegalWordsAreR97 : Prop :=
  ∀ (sel : BitVec 8 → Option Selection) (c : Command),
    let op := (c.word.extractLsb' 0 4).toNat
    let mode := (c.word.extractLsb' 4 3).toNat
    (∃ e, decode sel c = .error e) ↔
      (op = 0 ∨ 7 ≤ op) ∨
      (c.word.extractLsb' 11 5 ≠ 0 ∨ c.word.extractLsb' 24 8 ≠ 0) ∨
      (op ≠ 1 ∧ (mode ≠ 0 ∨ c.word.getLsbD 7 = true ∨ c.word.getLsbD 10 = true)) ∨
      (op ≠ 3 ∧ op ≠ 4 ∧ c.word.getLsbD 8 = true) ∨
      (op ≠ 3 ∧ op ≠ 4 ∧ op ≠ 5 ∧ c.word.getLsbD 9 = true) ∨
      (op = 1 ∧ 5 ≤ mode) ∨
      (c.word.getLsbD 8 = true ∧ c.word.getLsbD 9 = true) ∨
      sel (c.word.extractLsb' 16 8) = none

/-- Words of 95_test_vectors.md section 2.2, written out from the spec, decode to the instructions they stand for,
for an engine of two slots whose slot 0 holds a context of the given mode and direction. -/
def Obligations.WrittenWordsDecode : Prop :=
  let sel := fun (m : Mode) (d : Dir) (k : BitVec 8) => if k.toNat < 2 then some (⟨m, d⟩ : Selection) else none
  let snk := SinkOperand.contiguous 0 0 0
  decode (sel .ecb .enc) ⟨0x00000001#32, Operands.none⟩ = .ok (.openEcb 0 .enc false 0) ∧
  decode (sel .ecb .enc) ⟨0x00000091#32, Operands.none⟩ = .ok (.openCbc 0 .dec false 0) ∧
  decode (sel .ecb .enc) ⟨0x00000421#32, Operands.none⟩ = .ok (.openCtr 0 .enc true 0) ∧
  decode (sel .ecb .enc) ⟨0x000100B1#32, Operands.none⟩ = .ok (.openGcm 1 .dec false 0) ∧
  decode (sel .ecb .enc) ⟨0x00010041#32, Operands.none⟩ = .ok (.openGmac 1 .enc false 0) ∧
  decode (sel .cbc .enc) ⟨0x00000002#32, Operands.none⟩ = .ok (.initCbc 0 ⟨0, 0, 0, 0, 0, 0⟩) ∧
  decode (sel .gcm .dec) ⟨0x00010003#32, Operands.none⟩ = .ok (.processGcmDec 1 0 0 (.sink snk)) ∧
  decode (sel .ecb .enc) ⟨0x00000203#32, Operands.none⟩ = .ok (.processEcbEnc 0 0 0 (.sink (.segments [] 0))) ∧
  decode (sel .cbc .dec) ⟨0x00000103#32, Operands.none⟩ = .ok (.processCbcDec 0 0 0 .inPlace) ∧
  decode (sel .cbc .dec) ⟨0x00000104#32, Operands.none⟩ = .ok (.processLast 0 0 0 .inPlace) ∧
  decode (sel .ctr .enc) ⟨0x00000205#32, Operands.none⟩ = .ok (.finishCtr 0 (.segments [] 0)) ∧
  decode (sel .gmac .dec) ⟨0x00010006#32, Operands.none⟩ = .ok (.destroy 1) ∧
  decode (sel .ecb .enc) ⟨0x00000303#32, Operands.none⟩ = .error .inplaceWithSgl ∧
  decode (sel .ecb .enc) ⟨0x00020001#32, Operands.none⟩ = .error .noSuchSlot

/-! The step. -/

/-- R3, R19, R90, R112: a step takes the oldest waiting command and runs the instruction it decodes to, on the state
without that command; so it is with the command of a well-formed instruction. That commands wait in a queue is the
model's choice (log 2). -/
def Obligations.StepRunsDecoded : Prop :=
  (∀ (s : State) (c : Command) (q : List Input) (i : Instr), s.inputs = .command c :: q →
    decode s.selection c = .ok i → step s = exec i (s.withInputs q)) ∧
  (∀ (s : State) (i : Instr) (q : List Input), s.inputs = .command (encode i) :: q →
    i.wellFormed s.selection = true → step s = exec i (s.withInputs q))

/-- R97, R120, R286: a command whose word is illegal raises PROTOCOL: no slot, no memory and nothing else of the
machine changes but the result registers. Which `SINK_OFF` an illegal word was passed is the model's choice
(log 12). -/
def Obligations.IllegalWordRaisesProtocol : Prop :=
  ∀ (s : State) (c : Command) (q : List Input) (e : Illegal), s.inputs = .command c :: q →
    decode s.selection c = .error e → step s = .next ((s.withInputs q).report .protocol 0 c.passedOff.toNat)

/-- R310: the reset event: every slot is free (so that no context field holds a value), the three result registers are
0, memory is not touched. The model's choices: the commands that wait stay, and no key schedule is released (log 21);
with nothing waiting a step leaves the engine as it is (log 2). -/
def Obligations.ResetEventEffect : Prop :=
  ∀ (s : State) (q : List Input), s.inputs = .reset :: q → ∃ t, step s = .next t ∧
    (∀ x ∈ t.slots, x = .free) ∧ t.slots.length = s.slots.length ∧
    t.status = 0 ∧ t.outLen = 0 ∧ t.sinkOff = 0 ∧ t.mem = s.mem ∧ t.releases = s.releases ∧ t.inputs = q ∧
    (q = [] → step t = .next t)

/-- R8, R45: `State.reset`: between 1 and 256 slots, all free, and the three result registers 0. R76: a host write
between commands changes the byte it names and nothing else of the machine. -/
def Obligations.ResetStateAndHostWrites : Prop :=
  (1 ≤ State.reset.slots.length ∧ State.reset.slots.length ≤ 256 ∧ (∀ x ∈ State.reset.slots, x = .free) ∧
    State.reset.status = 0 ∧ State.reset.outLen = 0 ∧ State.reset.sinkOff = 0) ∧
  (∀ (s : State) (a : Addr) (b : Byte) (q : List Input), s.inputs = .hostWrite a b :: q → s.mem.wf = true →
    ∃ m, step s = .next ((s.withMem m).withInputs q) ∧ m.read a.toNat = b ∧ ∀ x, x ≠ a.toNat → m.read x = s.mem.read x)

/-! The lifecycle. -/

/-- R125: OPEN of a free slot puts there a context in state `alloc` with the operands of the command, the block size
of its cipher and no value in any other field, whatever mode and cipher; of any other slot, one that does not exist
(R96) among them, it raises PROTOCOL. No memory access. The example word of R125. An illegal OPEN word raises PROTOCOL
(R97, R286); that it answers 0 in `SINK_OFF` is the model's choice (log 12). -/
def Obligations.OpenResult : Prop :=
  (∀ (s : State) (k : BitVec 8) (d : Dir) (w : Bool) (ks : Addr),
    let opened := fun m : Mode =>
      (s.setSlot k (.held { state := .alloc, mode := m, dir := d, ks := ks, ksOwned := w,
                            blockSize := (Config.params.cipher ks).bs, sess := Session.empty })).report .ok 0 0
    let answer := fun m : Mode => if s.slot k = some .free then opened m else s.report .protocol 0 0
    exec (.openEcb k d w ks) s = .next (answer .ecb) ∧ exec (.openCbc k d w ks) s = .next (answer .cbc) ∧
    exec (.openCtr k d w ks) s = .next (answer .ctr) ∧ exec (.openGcm k d w ks) s = .next (answer .gcm) ∧
    exec (.openGmac k d w ks) s = .next (answer .gmac)) ∧
  (∀ (s : State) (c : Command) (q : List Input) (e : Illegal), s.inputs = .command c :: q → wordOp c.word = 1 →
    decode s.selection c = .error e → step s = .next ((s.withInputs q).report .protocol 0 0)) ∧
  (∀ ks : Addr, (encode (.openGcm 1 .dec false ks)).word = 0x000100B1#32)

/-- R126: INIT.ECB on an ECB context, its checks in order; on success the remainder is empty and the context
ready. The example word of R126. -/
def Obligations.InitEcbResult : Prop :=
  (∀ (s : State) (k : BitVec 8) (o : InitOperands) (c : ModeContext), s.slot k = some (.held c) → c.mode = .ecb →
    exec (.initEcb k o) s = .next (
      if c.state ≠ .alloc then s.report .protocol 0 0
      else if c.blockSize ≠ 8 ∧ c.blockSize ≠ 16 then s.report .config 0 0
      else if c.dir = .dec ∧ (Config.params.cipher c.ks).hasD = false then s.report .config 0 0
      else (s.setSlot k (.held { c with state := .ready, sess := { c.sess with remainder := some [] } })).report
        .ok 0 0)) ∧
  (∀ o : InitOperands, (encode (.initEcb 0 o)).word = 0x00000002#32)

/-- R127: INIT.CBC on a CBC context, its checks in order; on success `cb` is the IV read from memory. -/
def Obligations.InitCbcResult : Prop :=
  ∀ (s : State) (k : BitVec 8) (o : InitOperands) (c : ModeContext), s.slot k = some (.held c) → c.mode = .cbc →
    exec (.initCbc k o) s = .next (
      if c.state ≠ .alloc then s.report .protocol 0 0
      else if 0 < o.ivLen.toNat ∧ 2 ^ 64 < o.ivPtr.toNat + o.ivLen.toNat then s.report .protocol 0 0
      else if c.blockSize ≠ 8 ∧ c.blockSize ≠ 16 then s.report .config 0 0
      else if c.dir = .dec ∧ (Config.params.cipher c.ks).hasD = false then s.report .config 0 0
      else if o.ivLen.toNat ≠ c.blockSize then s.report .config 0 0
      else (s.setSlot k (.held { c with state := .ready, sess := { c.sess with
          cb := some (s.mem.readBytes o.ivPtr.toNat c.blockSize), remainder := some [] } })).report .ok 0 0)

/-- R128: INIT.CTR on a CTR context, its checks in order; on success `cb` is the counter block read from memory and
`ctr_bits` the operand. -/
def Obligations.InitCtrResult : Prop :=
  ∀ (s : State) (k : BitVec 8) (o : InitOperands) (c : ModeContext), s.slot k = some (.held c) → c.mode = .ctr →
    exec (.initCtr k o) s = .next (
      if c.state ≠ .alloc then s.report .protocol 0 0
      else if 0 < o.ivLen.toNat ∧ 2 ^ 64 < o.ivPtr.toNat + o.ivLen.toNat then s.report .protocol 0 0
      else if c.blockSize ≠ 8 ∧ c.blockSize ≠ 16 then s.report .config 0 0
      else if o.ivLen.toNat ≠ c.blockSize then s.report .config 0 0
      else if o.ctrBits.toNat < 1 ∨ 8 * c.blockSize < o.ctrBits.toNat then s.report .config 0 0
      else (s.setSlot k (.held { c with state := .ready, sess := { c.sess with
          cb := some (s.mem.readBytes o.ivPtr.toNat c.blockSize), ctrBits := some o.ctrBits.toNat,
          remainder := some [] } })).report .ok 0 0)

/-- R39, R101, R211, R212, R213, R225: INIT.GCM and INIT.GMAC, one rule for both: the checks in order, `H` the encryption
of the zero block, and every session field as R211 writes it. When the cipher fails the command raises CIPHER (R288).
`la` is empty in a decrypting context and holds no value in an encrypting one (R39, log 7); `H_table` is open
(log 15). -/
def Obligations.InitGcmResult : Prop :=
  ∀ (s : State) (k : BitVec 8) (o : InitOperands) (c : ModeContext), s.slot k = some (.held c) →
    let answer :=
      if c.state ≠ .alloc then s.report .protocol 0 0
      else if 0 < o.ivLen.toNat ∧ 2 ^ 64 < o.ivPtr.toNat + o.ivLen.toNat then s.report .protocol 0 0
      else if 0 < o.aadLen.toNat ∧ 2 ^ 64 < o.aadPtr.toNat + o.aadLen.toNat then s.report .protocol 0 0
      else if c.blockSize ≠ 16 then s.report .config 0 0
      else if o.tagBits.toNat ∉ [32, 64, 96, 104, 112, 120, 128] then s.report .config 0 0
      else if o.ivLen.toNat = 0 then s.report .config 0 0
      else
        match cipherEnc (Config.params.cipher c.ks) (List.replicate 16 0) with
        | .error _ => s.raise k c .nowhere 0 .cipher
        | .ok H =>
          (s.setSlot k (.held { c with state := .ready, sess := {
            remainder := some []
            cb := some (ivCounter H (s.mem.readBytes o.ivPtr.toNat o.ivLen.toNat))
            ctrBits := some 32
            H := some H
            hTable := some (Config.hTableOf H)
            ghash := some (aadHash H (s.mem.readBytes o.aadPtr.toNat o.aadLen.toNat))
            J0 := some (ivCounter H (s.mem.readBytes o.ivPtr.toNat o.ivLen.toNat))
            lenALenC := some (beBytes 8 (8 * o.aadLen.toNat))
            tagLen := some (o.tagBits.toNat / 8)
            processed := some 0
            la := if c.dir = .dec then some [] else none } })).report .ok 0 0
    (c.mode = .gcm → exec (.initGcm k o) s = .next answer) ∧ (c.mode = .gmac → exec (.initGmac k o) s = .next answer)

/-- R103, R104, R214, R215, R216: the initial counter block: for an IV of 12 bytes the IV and `00 00 00 01`; for any
other length the hash, from zero, of the IV padded with zeros to whole blocks and of its bit length as a 128-bit
big-endian word, with the example of R215. The AAD is hashed padded the same way, and no AAD leaves the zero block. -/
def Obligations.InitialCounterBlock : Prop :=
  (∀ H iv : Bytes, iv.length = 12 → ivCounter H iv = iv ++ [0, 0, 0, 1]) ∧
  (∀ H iv : Bytes, iv.length ≠ 12 → ∃ Bs : List Bytes,
    Bs.flatten = iv ++ List.replicate ((16 - iv.length % 16) % 16) 0 ∧ (∀ B ∈ Bs, B.length = 16) ∧
    ivCounter H iv = ghashAcc H (Bs.foldl (ghashAcc H) (List.replicate 16 0)) (beBytes 16 (8 * iv.length))) ∧
  ivCounter (beBytes 16 0x122436485a6c7e90a2b4c6d8eafc0e10) (beBytes 8 0xe0e1e2e3e4e5e6e7) =
    beBytes 16 0xf69ddc59d13173e657928d1917d2cf89 ∧
  (∀ H aad : Bytes, ∃ Bs : List Bytes,
    Bs.flatten = aad ++ List.replicate ((16 - aad.length % 16) % 16) 0 ∧ (∀ B ∈ Bs, B.length = 16) ∧
    aadHash H aad = Bs.foldl (ghashAcc H) (List.replicate 16 0)) ∧
  (∀ H : Bytes, aadHash H [] = List.replicate 16 0)

/-- R134: DESTROY frees the slot, so that no field holds a value, and releases the key schedule exactly when the
context owns it; of a free slot (or one that does not exist, R96) it raises PROTOCOL. No memory access. The example
word of R134. -/
def Obligations.DestroyResult : Prop :=
  (∀ (s : State) (k : BitVec 8),
    (∀ c, s.slot k = some (.held c) → ∃ t, exec (.destroy k) s = .next t ∧ t.slot k = some .free ∧
      (∀ j, j ≠ k → t.slot j = s.slot j) ∧ t.releases = (if c.ksOwned = true then c.ks :: s.releases else s.releases) ∧
      t.mem = s.mem ∧ t.inputs = s.inputs ∧ t.status = 0 ∧ t.outLen = 0 ∧ t.sinkOff = 0) ∧
    ((∀ c, s.slot k ≠ some (.held c)) → exec (.destroy k) s = .next (s.report .protocol 0 0))) ∧
  (encode (.destroy 0)).word = 0x00000006#32

/-- R96, R135, R286: what is refused with PROTOCOL and no effect: OPEN of a slot that holds a context; INIT outside
`alloc`; PROCESS, PROCESS_LAST and FINISH outside `ready`; and on a free or missing slot everything but OPEN of a
free one. `wordOp` of an instruction's encoding is its `op` of R92. -/
def Obligations.RefusedOutsideLifecycle : Prop :=
  ∀ (s : State) (i : Instr),
    let op := (wordOp (encode i).word).toNat
    ((∃ c, s.slot i.ctx = some (.held c) ∧ i.selectedBy ⟨c.mode, c.dir⟩ = true ∧
        (op = 1 ∨ (op = 2 ∧ c.state ≠ .alloc) ∨ ((op = 3 ∨ op = 4 ∨ op = 5) ∧ c.state ≠ .ready))) ∨
      (s.slot i.ctx = some .free ∧ op ≠ 1) ∨ s.slot i.ctx = none) →
    exec i s = .next (s.report .protocol 0 (outputTarget i).passedOff)

/-- R135, R281, R291: the transition table: for a command on a slot that holds a context, by the status it returns.
Success moves INIT from `alloc` to `ready`, PROCESS from `ready` to `ready`, PROCESS_LAST and FINISH from `ready` to
`closed`, DESTROY to `free`; CONFIG leaves the context in `alloc`; PROTOCOL and BUFFER_TOO_SMALL leave it as it was;
LENGTH_RANGE, AUTH_FAIL and CIPHER close it. No other status is returned. -/
def Obligations.LifecycleTransitions : Prop :=
  ∀ (s t : State) (i : Instr) (c : ModeContext), s.slot i.ctx = some (.held c) → exec i s = .next t →
    let op := (wordOp (encode i).word).toNat
    let now := fun l : Lifecycle => ∃ c', t.slot i.ctx = some (.held c') ∧ c'.state = l
    (t.status = 0 ∧ ((op = 2 ∧ c.state = .alloc ∧ now .ready) ∨ (op = 3 ∧ c.state = .ready ∧ now .ready) ∨
        ((op = 4 ∨ op = 5) ∧ c.state = .ready ∧ now .closed) ∨ (op = 6 ∧ t.slot i.ctx = some .free))) ∨
    (t.status = 1 ∧ op = 2 ∧ c.state = .alloc ∧ t.slot i.ctx = s.slot i.ctx) ∨
    (t.status = 2 ∧ (op = 3 ∨ op = 4 ∨ op = 5) ∧ c.state = .ready ∧ now .closed) ∨
    (t.status = 3 ∧ (op = 4 ∨ op = 5) ∧ c.state = .ready ∧ now .closed) ∨
    (t.status = 4 ∧ t.slot i.ctx = s.slot i.ctx) ∨
    (t.status = 5 ∧ (op = 3 ∨ op = 4 ∨ op = 5) ∧ c.state = .ready ∧ t.slot i.ctx = s.slot i.ctx) ∨
    (t.status = 6 ∧ ((op = 2 ∧ c.state = .alloc) ∨ ((op = 3 ∨ op = 4 ∨ op = 5) ∧ c.state = .ready)) ∧ now .closed)

/-- R20, R47, R134, R295: a command changes no slot but its own, sends no release signal unless it is DESTROY, and
leaves what the host has waiting. -/
def Obligations.OtherSlotsUnchanged : Prop :=
  ∀ (s t : State) (i : Instr), exec i s = .next t →
    t.slots.length = s.slots.length ∧ (∀ j, j ≠ i.ctx → t.slot j = s.slot j) ∧ t.inputs = s.inputs ∧
    ((wordOp (encode i).word).toNat ≠ 6 → t.releases = s.releases)

/-- R25, R26, R29, R30, R43(b): no command but DESTROY changes what OPEN wrote; and in a legal context no PROCESS,
PROCESS_LAST or FINISH that does not end in CIPHER changes `ctr_bits`, `H`, `H_table`, `J0`, `tag_len` or the first 8
bytes of `len_a_len_c`. For a command that ends in CIPHER, of which R288 leaves every field but the state unspecified,
that what OPEN wrote stays is the model's inference (log 10). -/
def Obligations.FixedFieldsKept : Prop :=
  ∀ (s t : State) (i : Instr) (c : ModeContext), s.slot i.ctx = some (.held c) → exec i s = .next t →
    let op := (wordOp (encode i).word).toNat
    op ≠ 6 → ∃ c', t.slot i.ctx = some (.held c') ∧
      c'.mode = c.mode ∧ c'.dir = c.dir ∧ c'.ks = c.ks ∧ c'.ksOwned = c.ksOwned ∧ c'.blockSize = c.blockSize ∧
      (LegalContext c → op ≠ 2 → t.status ≠ 6 →
        c'.sess.ctrBits = c.sess.ctrBits ∧ c'.sess.H = c.sess.H ∧ c'.sess.hTable = c.sess.hTable ∧
        c'.sess.J0 = c.sess.J0 ∧ c'.sess.tagLen = c.sess.tagLen ∧
        c'.sess.lenALenC.map (List.take 8) = c.sess.lenALenC.map (List.take 8))

/-- The model's own stop (log 4; R113 selects no such row): exec asked for a row that the context does not select
refuses by name. -/
def Obligations.UnselectedRowRefused : Prop :=
  ∀ (s : State) (i : Instr) (c : ModeContext), s.slot i.ctx = some (.held c) →
    i.selectedBy ⟨c.mode, c.dir⟩ = false → exec i s = .refused .rowNotSelected

/-! PROCESS. -/

/-- R129, R135, R142, R283, R287, R289: PROCESS on a legal context, all nine rows: the checks in order, each with its
error and no effect (LENGTH_RANGE closes the context), and then the row's body on the chunk read from memory. -/
def Obligations.ProcessPrelude : Prop :=
  ∀ (s : State) (k : BitVec 8) (p : Addr) (l : Len) (d : Dest) (c : ModeContext), s.slot k = some (.held c) →
    LegalContext c →
    let tg := targetOf p d
    let R := processRuleOf c.mode c.dir
    let n := countOf (outLenProcess c l.toNat)
    exec (processRow ⟨c.mode, c.dir⟩ k p l d) s = .next (
      if c.state ≠ .ready then s.report .protocol 0 tg.passedOff
      else if 0 < l.toNat ∧ 2 ^ 64 < p.toNat + l.toNat then s.report .protocol 0 tg.passedOff
      else if destWf Config.params c d = false then s.report .protocol 0 tg.passedOff
      else if isInPlace p l d = true ∧ ¬ ((c.mode = .ecb ∨ c.mode = .cbc) ∧ c.sess.remainder = some []) then
        s.report .protocol 0 tg.passedOff
      else if isInPlace p l d = false ∧ chunkOverlaps p l d = true then s.report .protocol 0 tg.passedOff
      else if tg.fits n = false then s.report .bufferTooSmall 0 tg.passedOff
      else if R.lengthOk c l.toNat = .ok false then
        (s.setSlot k (.held { c with state := .closed })).report .lengthRange 0 tg.passedOff
      else
        match R.body (Config.params.cipher c.ks) c (s.mem.readBytes p.toNat l.toNat) with
        | .ok (x, out) => s.complete k { c with sess := x } tg out
        | .error _ => s.raise k c tg n .cipher)

/-- R150, R151, R152, R131: PROCESS in ECB with its operands admitted and room in the sink: every whole block of the
remainder followed by the chunk goes through `E` (ENC) or `D` (DEC), in order, and what is left is the remainder.
When the cipher fails the command raises CIPHER. -/
def Obligations.ProcessEcbResult : Prop :=
  ∀ (s : State) (k : BitVec 8) (p : Addr) (l : Len) (d : Dest) (c : ModeContext) (r : Bytes),
    s.slot k = some (.held c) → c.mode = .ecb → c.state = .ready → c.sess.remainder = some r →
    OperandsAdmitted Config.params c p l d →
    (targetOf p d).fits (c.blockSize * ((r.length + l.toNat) / c.blockSize)) = true →
    let buf := r ++ s.mem.readBytes p.toNat l.toNat
    let n := buf.length / c.blockSize
    let answer := fun F : Bytes → Run Bytes =>
      match (blocksOf c.blockSize n buf).mapM F with
      | .ok Ys => s.complete k { c with sess := { c.sess with remainder := some (buf.drop (n * c.blockSize)) } }
          (targetOf p d) Ys.flatten
      | .error _ => s.raise k c (targetOf p d) (c.blockSize * n) .cipher
    (c.dir = .enc → exec (.processEcbEnc k p l d) s = .next (answer (cipherEnc (Config.params.cipher c.ks)))) ∧
    (c.dir = .dec → exec (.processEcbDec k p l d) s = .next (answer (cipherDec (Config.params.cipher c.ks))))

/-- R131, R171, R172: PROCESS in CBC with its operands admitted and room in the sink: the whole blocks go through the
chaining loop from `cb`, and `cb` and the remainder are what it leaves. What the loops compute is CbcChaining. -/
def Obligations.ProcessCbcResult : Prop :=
  ∀ (s : State) (k : BitVec 8) (p : Addr) (l : Len) (d : Dest) (c : ModeContext) (r cb : Bytes),
    s.slot k = some (.held c) → c.mode = .cbc → c.state = .ready → c.sess.remainder = some r →
    c.sess.cb = some cb → OperandsAdmitted Config.params c p l d →
    (targetOf p d).fits (c.blockSize * ((r.length + l.toNat) / c.blockSize)) = true →
    let buf := r ++ s.mem.readBytes p.toNat l.toNat
    let n := buf.length / c.blockSize
    let answer := fun loop : Bytes → List Bytes → Run (Bytes × List Bytes) =>
      match loop cb (blocksOf c.blockSize n buf) with
      | .ok (cb', Ys) => s.complete k { c with sess := { c.sess with
          cb := some cb', remainder := some (buf.drop (n * c.blockSize)) } } (targetOf p d) Ys.flatten
      | .error _ => s.raise k c (targetOf p d) (c.blockSize * n) .cipher
    (c.dir = .enc → exec (.processCbcEnc k p l d) s = .next (answer (cbcEncLoop (Config.params.cipher c.ks)))) ∧
    (c.dir = .dec → exec (.processCbcDec k p l d) s = .next (answer (cbcDecLoop (Config.params.cipher c.ks))))

/-- R131, R193, R194: PROCESS in CTR, either direction, with its operands admitted and room in the sink: more blocks
than `blocks_left` raise LENGTH_RANGE, which closes the context and changes nothing else; otherwise the whole blocks
go through the counter loop. What the loop computes is CtrKeystream. -/
def Obligations.ProcessCtrResult : Prop :=
  ∀ (s : State) (k : BitVec 8) (p : Addr) (l : Len) (d : Dest) (c : ModeContext) (r cb : Bytes) (b : Nat),
    s.slot k = some (.held c) → c.mode = .ctr → c.state = .ready → c.sess.remainder = some r →
    c.sess.cb = some cb → c.sess.ctrBits = some b → OperandsAdmitted Config.params c p l d →
    (targetOf p d).fits (c.blockSize * ((r.length + l.toNat) / c.blockSize)) = true →
    let buf := r ++ s.mem.readBytes p.toNat l.toNat
    let n := buf.length / c.blockSize
    exec (.processCtr k p l d) s = .next (
      if 2 ^ b - 1 - beNat cb % 2 ^ b < n then
        (s.setSlot k (.held { c with state := .closed })).report .lengthRange 0 (targetOf p d).passedOff
      else
        match ctrLoop (Config.params.cipher c.ks) b cb (blocksOf c.blockSize n buf) with
        | .ok (cb', Ys) => s.complete k { c with sess := { c.sess with
            cb := some cb', remainder := some (buf.drop (n * c.blockSize)) } } (targetOf p d) Ys.flatten
        | .error _ => s.raise k c (targetOf p d) (c.blockSize * n) .cipher)

/-- R131, R217, R230: PROCESS.GCM.ENC with its operands admitted and room in the sink: data past the limit of R230
raises LENGTH_RANGE; otherwise the whole blocks go through the loop. What the loop computes is GcmLoops. -/
def Obligations.ProcessGcmEncResult : Prop :=
  ∀ (s : State) (k : BitVec 8) (p : Addr) (l : Len) (d : Dest) (c : ModeContext) (r H : Bytes) (a : GcmAcc),
    s.slot k = some (.held c) → c.mode = .gcm → c.dir = .enc → c.state = .ready → c.sess.remainder = some r →
    c.sess.H = some H → c.sess.cb = some a.cb → c.sess.ghash = some a.ghash → c.sess.processed = some a.processed →
    OperandsAdmitted Config.params c p l d → (targetOf p d).fits (16 * ((r.length + l.toNat) / 16)) = true →
    let buf := r ++ s.mem.readBytes p.toNat l.toNat
    let n := buf.length / 16
    exec (.processGcmEnc k p l d) s = .next (
      if 16 * (2 ^ 32 - 2) < a.processed.toNat + r.length + l.toNat then
        (s.setSlot k (.held { c with state := .closed })).report .lengthRange 0 (targetOf p d).passedOff
      else
        match gcmEncLoop (Config.params.cipher c.ks) H a (blocksOf 16 n buf) with
        | .ok (a', Ys) => s.complete k { c with sess := { c.sess with
            cb := some a'.cb, ghash := some a'.ghash,
            processed := some a'.processed, remainder := some (buf.drop (n * 16)) } } (targetOf p d) Ys.flatten
        | .error _ => s.raise k c (targetOf p d) (16 * n) .cipher)

/-- R218, R219, R230: PROCESS.GCM.DEC with its operands admitted and room in the sink: data past the limit of R230
raises LENGTH_RANGE; otherwise, of the pending bytes followed by the chunk, the leading blocks that at least `tag_len`
bytes follow go through the loop and the rest stays in the look-ahead buffer. -/
def Obligations.ProcessGcmDecResult : Prop :=
  ∀ (s : State) (k : BitVec 8) (p : Addr) (l : Len) (d : Dest) (c : ModeContext) (la H : Bytes) (g : Nat)
    (a : GcmAcc),
    s.slot k = some (.held c) → c.mode = .gcm → c.dir = .dec → c.state = .ready → c.sess.la = some la →
    c.sess.tagLen = some g → c.sess.H = some H → c.sess.cb = some a.cb → c.sess.ghash = some a.ghash →
    c.sess.processed = some a.processed → OperandsAdmitted Config.params c p l d →
    let buf := la ++ s.mem.readBytes p.toNat l.toNat
    let n := if g ≤ buf.length then (buf.length - g) / 16 else 0
    (targetOf p d).fits (16 * n) = true →
    exec (.processGcmDec k p l d) s = .next (
      if 16 * (2 ^ 32 - 2) + g < a.processed.toNat + la.length + l.toNat then
        (s.setSlot k (.held { c with state := .closed })).report .lengthRange 0 (targetOf p d).passedOff
      else
        match gcmDecLoop (Config.params.cipher c.ks) H a (blocksOf 16 n buf) with
        | .ok (a', Ps) => s.complete k { c with sess := { c.sess with
            cb := some a'.cb, ghash := some a'.ghash,
            processed := some a'.processed, la := some (buf.drop (16 * n)) } } (targetOf p d) Ps.flatten
        | .error _ => s.raise k c (targetOf p d) (16 * n) .cipher)

/-- R226, R227: PROCESS in GMAC with its operands admitted: in ENC any data is LENGTH_RANGE and an empty chunk does
nothing; in DEC the chunk joins the received tag, and more than `tag_len` bytes in all are LENGTH_RANGE. Nothing is
written either way. -/
def Obligations.ProcessGmacResult : Prop :=
  ∀ (s : State) (k : BitVec 8) (p : Addr) (l : Len) (d : Dest) (c : ModeContext),
    s.slot k = some (.held c) → c.mode = .gmac → c.state = .ready → OperandsAdmitted Config.params c p l d →
    let closed := (s.setSlot k (.held { c with state := .closed })).report .lengthRange 0 (targetOf p d).passedOff
    (c.dir = .enc → exec (.processGmacEnc k p l d) s = .next (
      if l.toNat = 0 then s.report .ok 0 (targetOf p d).passedOff else closed)) ∧
    (∀ la g, c.dir = .dec → c.sess.la = some la → c.sess.tagLen = some g →
      exec (.processGmacDec k p l d) s = .next (
        if la.length + l.toNat ≤ g then
          (s.setSlot k (.held { c with sess := { c.sess with
            la := some (la ++ s.mem.readBytes p.toNat l.toNat) } })).report .ok 0 (targetOf p d).passedOff
        else closed))

/-- R129, R131, R141: PROCESS with `DATA_LEN = 0` on a legal ready context, in every mode, once its operands pass the
prelude: the status is OK, no byte is written, no context field changes and `SINK_OFF` is as passed in. That an empty
chunk whose `DATA_PTR` is at the cursor is no in-place PROCESS, and so passes the prelude in CTR, GCM and GMAC, is the
model's reading (log 13). -/
def Obligations.EmptyChunkDoesNothing : Prop :=
  ∀ (s : State) (k : BitVec 8) (p : Addr) (d : Dest) (c : ModeContext), s.slot k = some (.held c) →
    c.state = .ready → LegalContext c → OperandsAdmitted Config.params c p 0 d →
    exec (processRow ⟨c.mode, c.dir⟩ k p 0 d) s = .next (s.report .ok 0 (targetOf p d).passedOff)

/-- R219, R39: after a PROCESS.GCM.DEC that returns OK on a legal context the look-ahead buffer holds fewer than
`16 + tag_len` bytes, at least `tag_len` once that many were pending, and whole blocks were released before it. -/
def Obligations.LookAheadBounds : Prop :=
  ∀ (s t : State) (k : BitVec 8) (p : Addr) (l : Len) (d : Dest) (c : ModeContext) (la : Bytes) (g : Nat),
    s.slot k = some (.held c) → LegalContext c → c.sess.la = some la → c.sess.tagLen = some g →
    exec (.processGcmDec k p l d) s = .next t → t.status = 0 →
    ∃ c' la' m, t.slot k = some (.held c') ∧ c'.sess.la = some la' ∧ la'.length < 16 + g ∧
      (g ≤ la.length + l.toNat → g ≤ la'.length) ∧ 16 * m + la'.length = la.length + l.toNat ∧
      la' = (la ++ s.mem.readBytes p.toNat l.toNat).drop (16 * m)

/-! FINISH. -/

/-- R132, R142, R287: FINISH on a legal context, all seven rows: the prelude's checks in order, each with its error
and no effect. -/
def Obligations.FinishPrelude : Prop :=
  ∀ (s : State) (k : BitVec 8) (snk : SinkOperand) (c : ModeContext), s.slot k = some (.held c) → LegalContext c →
    let i := finishRow ⟨c.mode, c.dir⟩ k snk
    (c.state ≠ .ready → exec i s = .next (s.report .protocol 0 snk.off.toNat)) ∧
    (c.state = .ready → sinkWf Config.params.segMax c.blockSize snk = false →
      exec i s = .next (s.report .protocol 0 snk.off.toNat)) ∧
    (c.state = .ready → sinkWf Config.params.segMax c.blockSize snk = true →
      sinkTotal snk.segs - snk.off.toNat < countOf (outLenFinish c) →
      exec i s = .next (s.report .bufferTooSmall 0 snk.off.toNat))

/-- R153, R173, R283: FINISH in ECB and CBC, either direction, with a well-formed sink: the context closes; a partial
block is LENGTH_RANGE, none is OK; nothing is written. -/
def Obligations.FinishEcbCbcResult : Prop :=
  ∀ (s : State) (k : BitVec 8) (snk : SinkOperand) (c : ModeContext) (r : Bytes), s.slot k = some (.held c) →
    c.state = .ready → c.sess.remainder = some r → sinkWf Config.params.segMax c.blockSize snk = true →
    let answer := (s.setSlot k (.held { c with state := .closed })).report
      (if r = [] then .ok else .lengthRange) 0 snk.off.toNat
    (c.mode = .ecb → exec (.finishEcb k snk) s = .next answer) ∧
    (c.mode = .cbc → exec (.finishCbc k snk) s = .next answer)

/-- R195: FINISH in CTR with a well-formed sink and room: the remainder xored with the first bytes of `E(cb)` is
written, `cb` is not incremented, the context closes; with no remainder nothing is written and `E` is not called. -/
def Obligations.FinishCtrResult : Prop :=
  ∀ (s : State) (k : BitVec 8) (snk : SinkOperand) (c : ModeContext) (r cb : Bytes), s.slot k = some (.held c) →
    c.mode = .ctr → c.state = .ready → c.sess.remainder = some r → c.sess.cb = some cb →
    sinkWf Config.params.segMax c.blockSize snk = true → (Target.sink snk).fits r.length = true →
    exec (.finishCtr k snk) s = .next (
      if r = [] then (s.setSlot k (.held { c with state := .closed })).report .ok 0 snk.off.toNat
      else
        match cipherEnc (Config.params.cipher c.ks) cb with
        | .ok KS => s.complete k { c with state := .closed } (.sink snk) (xorBytes r (KS.take r.length))
        | .error _ => s.raise k c (.sink snk) r.length .cipher)

/-- R105, R106, R220, R221, R228: FINISH of encryption with a well-formed sink and room. GCM: the remainder, if any,
is encrypted under the next counter and hashed padded with zeros; the length block completes and is hashed; the tag is
the first `tag_len` bytes of the accumulator xored with `E(J0)`, written after the last ciphertext bytes. GMAC: the
same with no remainder. -/
def Obligations.FinishTagResult : Prop :=
  ∀ (s : State) (k : BitVec 8) (snk : SinkOperand) (c : ModeContext) (r H J lens : Bytes) (g : Nat) (a : GcmAcc),
    s.slot k = some (.held c) → c.dir = .enc → c.state = .ready → c.sess.remainder = some r → c.sess.H = some H →
    c.sess.J0 = some J → c.sess.lenALenC = some lens → c.sess.tagLen = some g → c.sess.cb = some a.cb →
    c.sess.ghash = some a.ghash → c.sess.processed = some a.processed →
    sinkWf Config.params.segMax c.blockSize snk = true →
    let E := cipherEnc (Config.params.cipher c.ks)
    let finish := fun (n : Nat) (b : GcmAcc) (Y : Bytes) =>
      match E J with
      | .error _ => s.raise k c (.sink snk) n .cipher
      | .ok M =>
        let block := lens.take 8 ++ beBytes 8 (8 * b.processed.toNat)
        let h := ghashAcc H b.ghash block
        s.complete k { c with state := .closed, sess := { c.sess with
            cb := some b.cb, ghash := some h,
            processed := some b.processed, lenALenC := some block } } (.sink snk) (Y ++ (xorBytes h M).take g)
    (c.mode = .gcm → (Target.sink snk).fits (r.length + g) = true →
      exec (.finishGcmEnc k snk) s = .next (
        if r = [] then finish (r.length + g) a []
        else
          match E (incLow 32 a.cb) with
          | .error _ => s.raise k c (.sink snk) (r.length + g) .cipher
          | .ok KS =>
            let Y := xorBytes r (KS.take r.length)
            finish (r.length + g) ⟨incLow 32 a.cb, ghashAcc H a.ghash (Y ++ List.replicate (16 - r.length) 0),
              a.processed + BitVec.ofNat 64 r.length⟩ Y)) ∧
    (c.mode = .gmac → (Target.sink snk).fits g = true → exec (.finishGmacEnc k snk) s = .next (finish g a []))

/-- R220, R222, R223, R229, R232, R284: FINISH of decryption with a well-formed sink. Fewer than `tag_len` pending
bytes are LENGTH_RANGE. GCM: the last `tag_len` pending bytes are the received tag; the bytes before them, if any, are
hashed as received and then decrypted; the tag is computed as in encryption; the status is AUTH_FAIL exactly when the
two tags differ, and then nothing is written; else the last plaintext bytes are written. GMAC: the same with no
ciphertext, the received tag being the first `tag_len` pending bytes. -/
def Obligations.FinishVerifyResult : Prop :=
  ∀ (s : State) (k : BitVec 8) (snk : SinkOperand) (c : ModeContext) (la H J lens : Bytes) (g : Nat) (a : GcmAcc),
    s.slot k = some (.held c) → c.dir = .dec → c.state = .ready → c.sess.la = some la → c.sess.H = some H →
    c.sess.J0 = some J → J.length = 16 → c.sess.lenALenC = some lens → c.sess.tagLen = some g → g ≤ 16 →
    c.sess.cb = some a.cb → c.sess.ghash = some a.ghash → c.sess.processed = some a.processed →
    sinkWf Config.params.segMax c.blockSize snk = true →
    let E := cipherEnc (Config.params.cipher c.ks)
    let closed := (s.setSlot k (.held { c with state := .closed })).report .lengthRange 0 snk.off.toNat
    let finish := fun (n : Nat) (b : GcmAcc) (P tag : Bytes) =>
      match E J with
      | .error _ => s.raise k c (.sink snk) n .cipher
      | .ok M =>
        let block := lens.take 8 ++ beBytes 8 (8 * b.processed.toNat)
        let h := ghashAcc H b.ghash block
        let c' : ModeContext := { c with state := .closed, sess := { c.sess with
            cb := some b.cb, ghash := some h,
            processed := some b.processed, lenALenC := some block } }
        if (xorBytes h M).take g = tag then s.complete k c' (.sink snk) P
        else (s.setSlot k (.held c')).report .authFail 0 snk.off.toNat
    (c.mode = .gcm → (Target.sink snk).fits (la.length - g) = true →
      exec (.finishGcmDec k snk) s = .next (
        let r := la.take (la.length - g)
        if la.length < g then closed
        else if r = [] then finish (la.length - g) a [] (la.drop (la.length - g))
        else
          match E (incLow 32 a.cb) with
          | .error _ => s.raise k c (.sink snk) (la.length - g) .cipher
          | .ok KS => finish (la.length - g)
              ⟨incLow 32 a.cb, ghashAcc H a.ghash (r ++ List.replicate (16 - r.length) 0),
                a.processed + BitVec.ofNat 64 r.length⟩
              (xorBytes r (KS.take r.length)) (la.drop (la.length - g)))) ∧
    (c.mode = .gmac → exec (.finishGmacDec k snk) s = .next (
      if la.length < g then closed else finish 0 a [] (la.take g)))

/-! PROCESS_LAST. -/

/-- R129, R133, R135, R142, R283, R284, R286, R287: PROCESS_LAST on a legal context. The checks in order, each with its
error and no effect (LENGTH_RANGE closes the context): the state, the chunk's range, the sink's form, in place, overlap,
room for `out_len`, the length check. Then the PROCESS body and the FINISH body on the chunk read from memory: both OK
close the context; a tag mismatch is AUTH_FAIL with what PROCESS released written; nothing else but CIPHER stops them.
The counts of R142 and the length checks of R133, mode by mode. -/
def Obligations.ProcessLastResult : Prop :=
  (∀ (s : State) (k : BitVec 8) (p : Addr) (l : Len) (d : Dest) (c : ModeContext), s.slot k = some (.held c) →
    LegalContext c →
    let tg := targetOf p d
    let n := countOf (outLenLast c l.toNat)
    exec (.processLast k p l d) s = .next (
      if c.state ≠ .ready then s.report .protocol 0 tg.passedOff
      else if 0 < l.toNat ∧ 2 ^ 64 < p.toNat + l.toNat then s.report .protocol 0 tg.passedOff
      else if destWf Config.params c d = false then s.report .protocol 0 tg.passedOff
      else if isInPlace p l d = true ∧ ¬ ((c.mode = .ecb ∨ c.mode = .cbc) ∧ c.sess.remainder = some []) then
        s.report .protocol 0 tg.passedOff
      else if isInPlace p l d = false ∧ chunkOverlaps p l d = true then s.report .protocol 0 tg.passedOff
      else if tg.fits n = false then s.report .bufferTooSmall 0 tg.passedOff
      else if lastLengthOk c l.toNat = .ok false then
        (s.setSlot k (.held { c with state := .closed })).report .lengthRange 0 tg.passedOff
      else
        match lastBody (processRuleOf c.mode c.dir) (finishRuleOf c.mode c.dir) (Config.params.cipher c.ks) c
            (s.mem.readBytes p.toNat l.toNat) with
        | .ok (x, out) => s.complete k { c with state := .closed, sess := x } tg out
        | .error (.raise (.authFail x out)) => s.raise k c tg n (.authFail x out)
        | .error _ => s.raise k c tg n .cipher)) ∧
  (∀ (c : ModeContext) (L : Nat),
    (∀ r, c.mode = .ecb ∨ c.mode = .cbc → c.sess.remainder = some r →
      outLenLast c L = .ok (r.length + L) ∧ lastLengthOk c L = .ok (decide ((r.length + L) % c.blockSize = 0))) ∧
    (∀ r cb b, c.mode = .ctr → c.sess.remainder = some r → c.sess.cb = some cb → c.sess.ctrBits = some b →
      outLenLast c L = .ok (r.length + L) ∧
      lastLengthOk c L = .ok (decide ((r.length + L) / c.blockSize ≤ 2 ^ b - 1 - beNat cb % 2 ^ b))) ∧
    (∀ r g q, c.mode = .gcm → c.dir = .enc → c.sess.remainder = some r → c.sess.tagLen = some g →
      c.sess.processed = some q → outLenLast c L = .ok (r.length + L + g) ∧
      lastLengthOk c L = .ok (decide (q.toNat + r.length + L ≤ 16 * (2 ^ 32 - 2)))) ∧
    (∀ a g q, c.mode = .gcm → c.dir = .dec → c.sess.la = some a → c.sess.tagLen = some g →
      c.sess.processed = some q → outLenLast c L = .ok (a.length + L - g) ∧
      lastLengthOk c L = .ok (decide (g ≤ a.length + L ∧ q.toNat + (a.length + L - g) ≤ 16 * (2 ^ 32 - 2)))) ∧
    (∀ g, c.mode = .gmac → c.dir = .enc → c.sess.tagLen = some g →
      outLenLast c L = .ok g ∧ lastLengthOk c L = .ok (decide (L = 0))) ∧
    (∀ a g, c.mode = .gmac → c.dir = .dec → c.sess.la = some a → c.sess.tagLen = some g →
      outLenLast c L = .ok 0 ∧ lastLengthOk c L = .ok (decide (a.length + L = g))))

/-- R133: on a legal context PROCESS_LAST returns OK exactly when PROCESS and then FINISH both do, FINISH into the same
sink at the offset PROCESS left, or after the explicit in-place form into any well-formed sink; and then both ways leave
the same memory, the same slots and the same release signals, `OUT_LEN` counts the bytes of both and `SINK_OFF` is the
offset after them. -/
def Obligations.ProcessLastIsProcessThenFinish : Prop :=
  ∀ (s : State) (k : BitVec 8) (p : Addr) (l : Len) (d : Dest) (snk' : SinkOperand) (c : ModeContext) (n : Nat),
    s.slot k = some (.held c) → LegalContext c → outLenProcess c l.toNat = .ok n →
    (match d with
      | .sink snk => snk'.segs = snk.segs ∧ snk'.off.toNat = snk.off.toNat + n
      | .inPlace => sinkWf Config.params.segMax c.blockSize snk' = true) →
    let twoCommands := fun u v : State =>
      ∃ t c' m, exec (processRow ⟨c.mode, c.dir⟩ k p l d) s = .next t ∧ t.status = 0 ∧
        exec (finishRow ⟨c.mode, c.dir⟩ k snk') t = .next u ∧ u.status = 0 ∧
        t.slot k = some (.held c') ∧ outLenFinish c' = .ok m ∧
        v.mem = u.mem ∧ v.slots = u.slots ∧ v.releases = u.releases ∧ v.outLen = outLenReg s.freeIx (n + m) ∧
        v.sinkOff = sinkOffReg s.freeIx ((targetOf p d).offAfter (n + m))
    (∀ t u, exec (processRow ⟨c.mode, c.dir⟩ k p l d) s = .next t → t.status = 0 →
      exec (finishRow ⟨c.mode, c.dir⟩ k snk') t = .next u → u.status = 0 →
      ∃ v, exec (.processLast k p l d) s = .next v ∧ v.status = 0 ∧ twoCommands u v) ∧
    (∀ v, exec (.processLast k p l d) s = .next v → v.status = 0 → ∃ u, twoCommands u v)

/-! What the loops compute. -/

/-- R170, R171, R172, R175, R316: in CBC every ciphertext block is `E` of its plaintext block xored with the one
before it, `cb` standing before the first; every plaintext block is `D` of its ciphertext block xored with the
ciphertext block before it; in both directions `cb` ends as the last ciphertext block. -/
def Obligations.CbcChaining : Prop :=
  (∀ (K : Cipher) (cb cb' : Bytes) (Xs Ys : List Bytes), cbcEncLoop K cb Xs = .ok (cb', Ys) ↔
    Ys.length = Xs.length ∧ cb' = Ys.getLastD cb ∧
    ∀ j < Xs.length, cipherEnc K (xorBytes (Xs.getD j []) ((cb :: Ys).getD j [])) = .ok (Ys.getD j [])) ∧
  (∀ (K : Cipher) (cb cb' : Bytes) (Xs Ps : List Bytes), cbcDecLoop K cb Xs = .ok (cb', Ps) ↔
    Ps.length = Xs.length ∧ cb' = Xs.getLastD cb ∧
    ∀ j < Xs.length, ∃ Y, cipherDec K (Xs.getD j []) = .ok Y ∧ Ps.getD j [] = xorBytes Y ((cb :: Xs).getD j []))

/-- R190, R194: in CTR block `j` of the output is block `j` of the input xored with `E` of the counter incremented `j`
times, and the counter ends incremented once for each block. -/
def Obligations.CtrKeystream : Prop :=
  ∀ (K : Cipher) (n : Nat) (cb cb' : Bytes) (Xs Ys : List Bytes), ctrLoop K n cb Xs = .ok (cb', Ys) ↔
    Ys.length = Xs.length ∧ cb' = (incLow n)^[Xs.length] cb ∧
    ∀ j < Xs.length, ∃ KS, cipherEnc K ((incLow n)^[j] cb) = .ok KS ∧ Ys.getD j [] = xorBytes (Xs.getD j []) KS

/-- R217, R218, R231, R265: in GCM block `j` is xored with `E` of the counter incremented `j + 1` times (modulo
`2^32`, without an error); the accumulator folds the ciphertext blocks in order, the ones produced in encryption and
the ones received in decryption; 16 bytes are counted for each block. -/
def Obligations.GcmLoops : Prop :=
  ∀ (K : Cipher) (H : Bytes) (a a' : GcmAcc) (Xs Ys : List Bytes),
    let stream := Ys.length = Xs.length ∧ a'.cb = (incLow 32)^[Xs.length] a.cb ∧
      a'.processed = a.processed + BitVec.ofNat 64 (16 * Xs.length) ∧
      ∀ j < Xs.length, ∃ KS, cipherEnc K ((incLow 32)^[j + 1] a.cb) = .ok KS ∧
        Ys.getD j [] = xorBytes (Xs.getD j []) KS
    (gcmEncLoop K H a Xs = .ok (a', Ys) ↔ stream ∧ a'.ghash = Ys.foldl (ghashAcc H) a.ghash) ∧
    (gcmDecLoop K H a Xs = .ok (a', Ys) ↔ stream ∧ a'.ghash = Xs.foldl (ghashAcc H) a.ghash)

/-- R192: `inc_n` adds one to the low `n` bits of the block modulo `2^n` and leaves the bits above them, with the
rule's six examples. -/
def Obligations.CounterIncrement : Prop :=
  (∀ (n : Nat) (B : Bytes), 1 ≤ n → n ≤ 8 * B.length →
    let v := beNat B % 2 ^ n
    (incLow n B).length = B.length ∧ beNat (incLow n B) = beNat B - v + (v + 1) % 2 ^ n ∧
    beNat (incLow n B) % 2 ^ n = (v + 1) % 2 ^ n ∧ beNat (incLow n B) / 2 ^ n = beNat B / 2 ^ n) ∧
  incLow 32 (beBytes 16 0xcafebabefacedbaddecaf888ffffffff) = beBytes 16 0xcafebabefacedbaddecaf88800000000 ∧
  incLow 8 (beBytes 16 0xff) = beBytes 16 0 ∧
  incLow 9 (beBytes 16 0x1ff) = beBytes 16 0 ∧
  incLow 128 (beBytes 16 0xffffffffffffffffffffffffffffffff) = beBytes 16 0 ∧
  incLow 1 (beBytes 16 3) = beBytes 16 2 ∧
  incLow 16 (beBytes 16 0x1ff) = beBytes 16 0x200

/-- R193, R197, R230: no counter value is used twice in a session, whatever its PROCESS commands. CTR: the session's
`m` whole blocks take the counter block and its increments in turn (every list of chunks is a session, so each command
begins where the ones before it ended), the sub-field never wraps, and these `m` values and the one left for FINISH are
distinct. GCM: PROCESS has taken the increments 1 to `processed / 16` of `J0`, FINISH takes one more for a last partial
block, `J0` itself makes the tag; the limit of R230 keeps the last of them at `2^32 - 2` or below, and they are all
distinct. Which value a block takes is CtrKeystream and GcmLoops. -/
def Obligations.CounterNonReuse : Prop :=
  (∀ (K : Cipher) (c c' : ModeContext) (chunks : List Bytes) (cb r : Bytes) (n : Nat), c.sess.cb = some cb →
    c.sess.ctrBits = some n → c.sess.remainder = some r → r.length < c.blockSize → 1 ≤ n →
    n ≤ 8 * cb.length → sessionRun processCtrRule K c chunks = .ok c' →
    let m := (r.length + (chunks.map List.length).sum) / c.blockSize
    c'.sess.cb = some ((incLow n)^[m] cb) ∧ beNat cb % 2 ^ n + m ≤ 2 ^ n - 1 ∧
    ∀ i j, i < j → j ≤ m → (incLow n)^[i] cb ≠ (incLow n)^[j] cb) ∧
  (∀ (K : Cipher) (c c' : ModeContext) (chunks : List Bytes) (J : Bytes), ReadyContext c → c.mode = .gcm →
    c.sess.J0 = some J → sessionRun (processRuleOf .gcm c.dir) K c chunks = .ok c' →
    ∃ q, c'.sess.processed = some q ∧ q.toNat % 16 = 0 ∧ c'.sess.cb = some ((incLow 32)^[q.toNat / 16] J) ∧
      c'.sess.J0 = some J ∧
      let m := (q.toNat + waitingData c' + 15) / 16
      m ≤ 2 ^ 32 - 2 ∧ ∀ i j, i < j → j ≤ m → (incLow 32)^[i] J ≠ (incLow 32)^[j] J)

/-- R122, R139, R195, R198: decryption undoes encryption: in ECB and CBC block by block, for a cipher whose `D` inverts
its `E`; in CTR by running the same loop again, and over a whole session, the final partial block of FINISH with it, by
giving the session its own output; for any cipher. -/
def Obligations.BlockLoopsRoundTrip : Prop :=
  (∀ (K : Cipher) (Xs Ys : List Bytes), CipherInverse K → K.hasD = true → ecbLoop (cipherEnc K) Xs = .ok Ys →
    ecbLoop (cipherDec K) Ys = .ok Xs) ∧
  (∀ (K : Cipher) (cb cb' : Bytes) (Xs Ys : List Bytes), CipherInverse K → K.hasD = true →
    (∀ X ∈ Xs, X.length = cb.length) → cbcEncLoop K cb Xs = .ok (cb', Ys) → cbcDecLoop K cb Ys = .ok (cb', Xs)) ∧
  (∀ (K : Cipher) (n : Nat) (cb cb' : Bytes) (Xs Ys : List Bytes), (∀ X ∈ Xs, X.length = cb.length) →
    ctrLoop K n cb Xs = .ok (cb', Ys) → ctrLoop K n cb Ys = .ok (cb', Xs)) ∧
  (∀ (K : Cipher) (c : ModeContext) (cb M out : Bytes) (x : Session), c.sess.remainder = some [] →
    c.sess.cb = some cb → cb.length = c.blockSize → 0 < c.blockSize →
    lastBody processCtrRule finishCtrRule K c M = .ok (x, out) →
    out.length = M.length ∧ ∃ y, lastBody processCtrRule finishCtrRule K c out = .ok (y, M))

/-- R139, R221, R222: GCM round trip: the whole output of an encryption session, ciphertext and tag, given to a
decryption session started from the same fields with an empty look-ahead buffer, verifies and gives the message back;
for any cipher. -/
def Obligations.GcmRoundTrip : Prop :=
  ∀ (K : Cipher) (c : ModeContext) (M out J cb : Bytes) (x : Session) (g : Nat), c.sess.remainder = some [] →
    c.sess.tagLen = some g → g ≤ 16 → c.sess.J0 = some J → J.length = 16 → c.sess.cb = some cb → cb.length = 16 →
    lastBody processGcmEncRule finishGcmEncRule K c M = .ok (x, out) →
    ∃ y, lastBody processGcmDecRule finishGcmDecRule K (c.withSess { c.sess with la := some [] }) out = .ok (y, M)

/-- R138: chunking invariance, for every PROCESS row and any cipher: processing `A ++ B` in one chunk is processing
`A` and then `B`: the same session afterwards, the same bytes written, and the same stop if one stops. -/
def Obligations.ChunkingInvariance : Prop :=
  ∀ (K : Cipher) (c : ModeContext) (m : Mode) (d : Dir) (A B : Bytes),
    (processRuleOf m d).body K c (A ++ B) =
      (match (processRuleOf m d).body K c A with
      | .error e => .error e
      | .ok (x, o) =>
        match (processRuleOf m d).body K (c.withSess x) B with
        | .error e => .error e
        | .ok (y, o') => .ok (y, o ++ o'))

/-- R130, R136, R137, R154, R174, R196, R224: on a ready context, for a PROCESS whose length check passes, the route the
dispatcher takes (buffered, fast or generic) gives the session, the bytes and the stop of the generic loop. exec runs
that loop alone (log 18). -/
def Obligations.FastPathEquivalence : Prop :=
  ∀ (K : Cipher) (c : ModeContext) (p : Addr) (l : Len) (d : Dest) (data : Bytes) (n : Nat), ReadyContext c →
    data.length = l.toNat → outLenProcess c l.toNat = .ok n →
    (processRuleOf c.mode c.dir).lengthOk c l.toNat = .ok true →
    (match processRoute K c p l d n with
      | .buffered => bufferedBody c data
      | .fast => fastBody K c data
      | .generic => (processRuleOf c.mode c.dir).body K c data) = (processRuleOf c.mode c.dir).body K c data

/-! GHASH and tags. -/

/-- R262: GHASH_ACC xors bytewise first and multiplies second, with the rule's two examples; the four checks
of R263. -/
def Obligations.GhashAccumulate : Prop :=
  (∀ acc H X : Bytes, acc.length = 16 → X.length = 16 →
    ghashAcc H acc X = gfToBytes (gfMul (gfOfBytes (xorBytes acc X)) (gfOfBytes H))) ∧
  (let H := beBytes 16 0x66e94bd4ef8a2c3b884cfa59ca342b2e
   ghashAcc H (beBytes 16 0) (beBytes 16 0x0388dace60b6a392f328c2b971b2fe78) =
     beBytes 16 0x5e2ec746917062882c85b0685353deb7 ∧
   ghashAcc H (beBytes 16 0x5e2ec746917062882c85b0685353deb7) (beBytes 16 128) =
     beBytes 16 0xf38cbb1ad69223dcc3457ae5b6b0f885) ∧
  gfMul (0x80#128 <<< 120) 0x66e94bd4ef8a2c3b884cfa59ca342b2e#128 = 0x66e94bd4ef8a2c3b884cfa59ca342b2e#128 ∧
  gfMul (0x40#128 <<< 120) 0x66e94bd4ef8a2c3b884cfa59ca342b2e#128 = 0x3374a5ea77c5161dc4267d2ce51a1597#128 ∧
  gfMul 0#128 0x66e94bd4ef8a2c3b884cfa59ca342b2e#128 = 0#128 ∧
  gfMul 1#128 (0x40#128 <<< 120) = 0xe1#128 <<< 120

/-- R262, R263, R266: the laws of the product of R263: commutative, associative, distributing over xor, with zero and with the
unit `80 00 .. 00`; and a difference in the accumulator or in the block multiplies through; with
`H = 0` every accumulator is zero; and folding `m` blocks multiplies the accumulator by `H^m` and block `i` (from 0) by
`H^(m - i)`. -/
def Obligations.FieldLaws : Prop :=
  (∀ x y : BitVec 128, gfMul x y = gfMul y x) ∧
  (∀ x y z : BitVec 128, gfMul (gfMul x y) z = gfMul x (gfMul y z)) ∧
  (∀ x y z : BitVec 128, gfMul (x ^^^ y) z = gfMul x z ^^^ gfMul y z) ∧
  (∀ y : BitVec 128, gfMul 0 y = 0) ∧ (∀ y : BitVec 128, gfMul (0x80#128 <<< 120) y = y) ∧
  (∀ H acc d X : Bytes, acc.length = 16 → d.length = 16 → X.length = 16 →
    ghashAcc H (xorBytes acc d) X = xorBytes (ghashAcc H acc X) (gfToBytes (gfMul (gfOfBytes d) (gfOfBytes H))) ∧
    ghashAcc H acc (xorBytes X d) = xorBytes (ghashAcc H acc X) (gfToBytes (gfMul (gfOfBytes d) (gfOfBytes H)))) ∧
  (∀ acc X : Bytes, ghashAcc (List.replicate 16 0) acc X = List.replicate 16 0) ∧
  (∀ (H acc : Bytes) (Xs : List Bytes), acc.length = 16 → (∀ X ∈ Xs, X.length = 16) →
    let timesH := fun x : BitVec 128 => gfMul x (gfOfBytes H)
    let m := Xs.length
    gfOfBytes (Xs.foldl (ghashAcc H) acc) =
      ((List.range m).map fun i => timesH^[m - i] (gfOfBytes (Xs.getD i []))).foldl (· ^^^ ·)
        (timesH^[m] (gfOfBytes acc)))

/-- R223: the comparison that accumulates every byte's difference has the value of plain equality. -/
def Obligations.TagComparisonIsEquality : Prop :=
  ∀ a b : Bytes, a.length = b.length → (tagEqual a b = true ↔ a = b)

/-! Memory and sinks. -/

/-- R61, R62: in a memory of canonical form, after a write byte `i` of the written string is read at `a + i` and every
other address reads as before; `MemRead(a, n)` is the `n` bytes from `a` on, lowest address first. That the memory keeps
its canonical form is about the model's own representation (log 9). -/
def Obligations.MemoryReadAfterWrite : Prop :=
  ∀ (m : Memory) (a : Nat) (v : Bytes), m.wf = true →
    (m.writeBytes a v).wf = true ∧ (m.writeBytes a v).readBytes a v.length = v ∧
    (∀ x, x < a ∨ a + v.length ≤ x → (m.writeBytes a v).read x = m.read x) ∧
    (∀ n, (m.readBytes a n).length = n ∧ ∀ i < n, (m.readBytes a n)[i]? = some (m.read (a + i)))

/-- R67, R68, R70: through a well-formed sink with room for `v`, byte `t` of `v` lands at the address the flattened
sink gives to offset `off + t`, inside a segment; different offsets have different addresses; and every other address
reads as before. -/
def Obligations.SinkWritePlacesBytes : Prop :=
  ∀ (segMax bs : Nat) (k : SinkOperand) (v : Bytes) (m : Memory), sinkWf segMax bs k = true → m.wf = true →
    k.off.toNat + v.length ≤ sinkTotal k.segs →
    let m' := sinkWrite k.segs k.off.toNat v m
    (∀ t < v.length, ∃ a, sinkAddr k.segs (k.off.toNat + t) = some a ∧ m'.read a = v.getD t 0 ∧
      (∃ g ∈ k.segs, g.ptr.toNat ≤ a ∧ a < g.ptr.toNat + g.len.toNat)) ∧
    (∀ t u a, sinkAddr k.segs t = some a → sinkAddr k.segs u = some a → t = u) ∧
    (∀ a, (∀ t < v.length, sinkAddr k.segs (k.off.toNat + t) ≠ some a) → m'.read a = m.read a)

/-- R69, R70: reserving at most a block and writing into the one or two spans it answers gives the memory of the
byte-by-byte write. -/
def Obligations.ReserveAgreesWithSinkWrite : Prop :=
  ∀ (segMax bs : Nat) (k : SinkOperand) (v : Bytes) (m : Memory), sinkWf segMax bs k = true → 1 ≤ v.length →
    v.length ≤ bs → k.off.toNat + v.length ≤ sinkTotal k.segs →
    (reserve k.segs k.off.toNat v.length).length ≤ 2 ∧
    writeSpans (reserve k.segs k.off.toNat v.length) v m = sinkWrite k.segs k.off.toNat v m

/-- R60, R62, R70, R73, R288, R293: the memory frame of every instruction: an address that is none of the `out_len`
addresses its output goes to reads as before. OPEN, INIT and DESTROY have no such address. -/
def Obligations.MemoryFrame : Prop :=
  ∀ (s t : State) (i : Instr), exec i s = .next t → ∀ a : Nat,
    (∀ c, s.slot i.ctx = some (.held c) → ∀ j < outLenOf c i, (outputTarget i).addrOf j ≠ some a) →
    t.mem.read a = s.mem.read a

/-- R99, R281, R284, R293: the result registers of every instruction that does not end in CIPHER count the `m` bytes it
wrote: `OUT_LEN` is `m`, `SINK_OFF` the offset passed in plus `m` with a sink, 0 without one. With CONFIG,
LENGTH_RANGE, PROTOCOL and BUFFER_TOO_SMALL, and with AUTH_FAIL from FINISH, `m` is 0 and memory is as before; with
AUTH_FAIL from PROCESS_LAST in a legal context `m` is the `out_len` of its PROCESS part; with OK in a legal context `m`
is the `out_len` of R142. A count or offset too wide for its register is a free value (log 11). -/
def Obligations.ResultRegisters : Prop :=
  ∀ (s t : State) (i : Instr), exec i s = .next t → t.status ≠ 6 →
    ∃ m, t.outLen = outLenReg s.freeIx m ∧ t.sinkOff = sinkOffReg s.freeIx ((outputTarget i).offAfter m) ∧
      (t.status ≠ 0 ∧ t.status ≠ 3 → m = 0 ∧ t.mem = s.mem) ∧
      (t.status = 3 ∧ (wordOp (encode i).word).toNat = 5 → m = 0 ∧ t.mem = s.mem) ∧
      (∀ k p l d c, i = .processLast k p l d → t.status = 3 → s.slot k = some (.held c) → LegalContext c →
        m = countOf (outLenProcess c l.toNat)) ∧
      (∀ c, t.status = 0 → s.slot i.ctx = some (.held c) → LegalContext c → m = outLenOf c i)

/-- R288: raising CIPHER in a command whose output goes to `tg` and would be `n` bytes: the context closes, no other slot
changes, no address outside the output range changes, and the two counts are not more than on success. That the context
keeps what OPEN wrote is the model's inference, since R288 leaves every field but the state unspecified (log 10); the
session's fields, the two counts and the bytes of the range are free (log 10). -/
def Obligations.CipherFailureConfined : Prop :=
  ∀ (s : State) (k : BitVec 8) (c : ModeContext) (tg : Target) (n : Nat), s.slot k = some (.held c) →
    let t := s.raise k c tg n .cipher
    t.status = 6 ∧ t.releases = s.releases ∧ t.inputs = s.inputs ∧
    (∃ x, t.slot k = some (.held { c with state := .closed, sess := x })) ∧
    (∀ j, j ≠ k → t.slot j = s.slot j) ∧
    (∃ m ≤ n, t.outLen = outLenReg s.freeIx m) ∧ (∃ o ≤ tg.offAfter n, t.sinkOff = sinkOffReg s.freeIx o) ∧
    (∀ a, (∀ j < n, tg.addrOf j ≠ some a) → t.mem.read a = s.mem.read a) ∧ (s.mem.wf = true → t.mem.wf = true)

/-- R73, R155: in ECB and CBC, with no remainder, PROCESS with the explicit flag and PROCESS into one contiguous buffer
whose cursor is at the chunk end with the same status and, unless that is CIPHER, which leaves them unspecified (R288),
leave the same memory, the same slots and the same `OUT_LEN`; the trailing bytes of the chunk, past its whole blocks,
and all bytes outside it stay as they were. -/
def Obligations.InPlaceIsPointerIdentity : Prop :=
  ∀ (s : State) (k : BitVec 8) (p q : Addr) (l len : Len) (off : Addr) (c : ModeContext),
    s.slot k = some (.held c) → c.mode = .ecb ∨ c.mode = .cbc → c.state = .ready → LegalContext c →
    c.sess.remainder = some [] → 0 < l.toNat → q.toNat + off.toNat = p.toNat →
    off.toNat + l.toNat ≤ len.toNat → q.toNat + len.toNat ≤ 2 ^ 64 →
    ∃ t u, exec (processRow ⟨c.mode, c.dir⟩ k p l .inPlace) s = .next t ∧
      exec (processRow ⟨c.mode, c.dir⟩ k p l (.sink (.contiguous q len off))) s = .next u ∧ t.status = u.status ∧
      (t.status ≠ 6 → t.mem = u.mem ∧ t.slots = u.slots ∧ t.outLen = u.outLen) ∧
      (∀ a, a < p.toNat ∨ p.toNat + c.blockSize * (l.toNat / c.blockSize) ≤ a → t.mem.read a = s.mem.read a)

/-! The whole machine. -/

/-- R20, R43, R45, R60: the state after reset is legal. -/
def Obligations.ResetIsLegal : Prop := State.reset.Legal

/-- R22, R23, R30, R39, R43, R60, R126, R127: every step from a legal state that answers a next state answers a legal
one: the number of slots; the fields a context of each state holds and those that hold no value; the invariants of R43;
the block size of every context, which is its cipher's; a cipher with `D` for every ready decrypting ECB or CBC context;
and the form of memory. That what OPEN wrote stays after CIPHER is the model's inference (log 10), and the form of
memory its own representation (log 9). -/
def Obligations.StepKeepsLegal : Prop :=
  ∀ s t : State, s.Legal → step s = .next t → t.Legal

/-- R23, R280: from a legal state every step answers a next state: no command reads a field that holds no value, none
is refused, every error is a state. -/
def Obligations.LegalStepCompletes : Prop :=
  ∀ s : State, s.Legal → ∃ t, step s = .next t
end

