-- ==== Sys2Proof/Laws/Bytes.lean ====
section
/-! SUPPORT. Laws/Bytes.lean: lengths of byte strings, the big-endian numbers of R11 there and back, and the cutting
of a buffer into blocks. -/

namespace Sys2Proof.Machine

@[simp] theorem zeros_length (n : Nat) : (zeros n).length = n := by simp [zeros]

@[simp] theorem xorBytes_length (A B : Bytes) : (xorBytes A B).length = min A.length B.length := by
  simp [xorBytes]

@[simp] theorem beBytes_length (k n : Nat) : (beBytes k n).length = k := by
  induction k generalizing n with
  | zero => rfl
  | succ k ih => simp [beBytes, ih]

@[simp] theorem incLow_length (n : Nat) (B : Bytes) : (incLow n B).length = B.length := by simp [incLow]

@[simp] theorem incLow_iterate_length (n j : Nat) (B : Bytes) : ((incLow n)^[j] B).length = B.length := by
  induction j with
  | zero => rfl
  | succ j ih => rw [Function.iterate_succ_apply', incLow_length, ih]

@[simp] theorem ghashAcc_length (H acc X : Bytes) : (ghashAcc H acc X).length = 16 := by
  simp [ghashAcc, gfToBytes]

theorem ghashFold_length (H : Bytes) (Xs : List Bytes) (acc : Bytes) (h : acc.length = 16) :
    (ghashFold H acc Xs).length = 16 := by
  induction Xs generalizing acc with
  | nil => exact h
  | cons X Xs ih => exact ih _ (ghashAcc_length _ _ _)

@[simp] theorem beNat_nil : beNat [] = 0 := rfl

@[simp] theorem beNat_append_singleton (B : Bytes) (b : Byte) : beNat (B ++ [b]) = beNat B * 256 + b.toNat := by
  simp [beNat]

/-- R11: a byte string of `k` bytes is a number below `256^k`. -/
theorem beNat_lt (B : Bytes) : beNat B < 256 ^ B.length := by
  induction B using List.reverseRecOn with
  | nil => simp
  | append_singleton B b ih =>
    have hb : b.toNat < 256 := b.isLt
    rw [beNat_append_singleton, List.length_append, List.length_singleton, pow_succ]
    omega

/-- R11: encoding a number and reading it back keeps it modulo `256^k`. -/
theorem beNat_beBytes (k n : Nat) : beNat (beBytes k n) = n % 256 ^ k := by
  induction k generalizing n with
  | zero => simp [beBytes, Nat.mod_one]
  | succ k ih =>
    have h8 : (2 : Nat) ^ 8 = 256 := rfl
    rw [beBytes, beNat_append_singleton, ih, BitVec.toNat_ofNat, h8, pow_succ, Nat.mul_comm (256 ^ k) 256,
      Nat.mod_mul, Nat.add_comm, Nat.mul_comm]

/-- R11: reading a byte string and encoding the number gives the byte string back. -/
theorem beBytes_beNat (B : Bytes) : beBytes B.length (beNat B) = B := by
  induction B using List.reverseRecOn with
  | nil => rfl
  | append_singleton B b ih =>
    have hb : b.toNat < 256 := b.isLt
    have h1 : (beNat B * 256 + b.toNat) / 256 = beNat B := by omega
    have h2 : BitVec.ofNat 8 (beNat B * 256 + b.toNat) = b := by
      apply BitVec.eq_of_toNat_eq
      rw [BitVec.toNat_ofNat]
      omega
    rw [List.length_append, List.length_singleton, beBytes, beNat_append_singleton, h1, h2, ih]

/-- A buffer is its first `n` blocks and what follows them. -/
theorem flatten_blocksOf (bs n : Nat) (buf : Bytes) :
    (blocksOf bs n buf).flatten ++ buf.drop (n * bs) = buf := by
  induction n generalizing buf with
  | zero => simp [blocksOf]
  | succ n ih =>
    have h := ih (buf.drop bs)
    rw [List.drop_drop] at h
    rw [blocksOf, List.flatten_cons, List.append_assoc, Nat.succ_mul, Nat.add_comm (n * bs), h,
      List.take_append_drop]

@[simp] theorem blocksOf_length (bs n : Nat) (buf : Bytes) : (blocksOf bs n buf).length = n := by
  induction n generalizing buf with
  | zero => rfl
  | succ n ih => simp [blocksOf, ih]

/-- The blocks cut from a buffer that is long enough have `bs` bytes each. -/
theorem length_of_mem_blocksOf {bs n : Nat} {buf X : Bytes} (h : n * bs ≤ buf.length)
    (hX : X ∈ blocksOf bs n buf) : X.length = bs := by
  induction n generalizing buf with
  | zero => simp [blocksOf] at hX
  | succ n ih =>
    rw [Nat.succ_mul] at h
    rw [blocksOf, List.mem_cons] at hX
    rcases hX with rfl | hX
    · rw [List.length_take]; omega
    · exact ih (by rw [List.length_drop]; omega) hX

/-- Cutting `m + n` blocks is cutting `m`, then `n` from the rest. -/
theorem blocksOf_add (bs m n : Nat) (buf : Bytes) :
    blocksOf bs (m + n) buf = blocksOf bs m buf ++ blocksOf bs n (buf.drop (m * bs)) := by
  induction m generalizing buf with
  | zero => simp [blocksOf]
  | succ m ih =>
    rw [Nat.succ_add, blocksOf, blocksOf, ih, List.drop_drop, List.cons_append, Nat.succ_mul, Nat.add_comm bs]

end Sys2Proof.Machine
end

