-- ==== Sys2Proof/Laws/Run.lean ====
section
/-! SUPPORT. Laws/Run.lean: what a computation that may stop can answer: one lemma per way of building one. -/

namespace Sys2Proof.Machine

@[simp] theorem Run.pure_bind {α β : Type} (a : α) (f : α → Run β) : ((.ok a : Run α) >>= f) = f a := rfl

@[simp] theorem Run.error_bind {α β : Type} (e : Stop) (f : α → Run β) : ((.error e : Run α) >>= f) = .error e := rfl

/-- A sequence that answers answered at each part. -/
theorem Run.bind_ok {α β : Type} {r : Run α} {f : α → Run β} {b : β} :
    (r >>= f) = .ok b ↔ ∃ a, r = .ok a ∧ f a = .ok b := by
  cases r with
  | error e => simp
  | ok a => simp

/-- A sequence that stops stopped at its first part or after it. -/
theorem Run.bind_error {α β : Type} {r : Run α} {f : α → Run β} {e : Stop} :
    (r >>= f) = .error e ↔ r = .error e ∨ ∃ a, r = .ok a ∧ f a = .error e := by
  cases r with
  | error e' => simp
  | ok a => simp

@[simp] theorem check_eq_ok {b : Bool} {e : Raise} {u : Unit} : check b e = .ok u ↔ b = true := by
  cases b <;> simp [check, raise]

@[simp] theorem check_eq_error {b : Bool} {e : Raise} {x : Stop} :
    check b e = .error x ↔ b = false ∧ x = .raise e := by
  cases b <;> simp [check, raise, eq_comm]

@[simp] theorem need_some {α : Type} (f : Field) (v : α) : need f (some v) = .ok v := rfl

/-- R23: reading a field answers its value, when it holds one. -/
theorem need_eq_ok {α : Type} {f : Field} {o : Option α} {v : α} : need f o = .ok v ↔ o = some v := by
  cases o <;> simp [need]

/-- R23: reading a field stops only when it holds no value. -/
theorem need_eq_error {α : Type} {f : Field} {o : Option α} {e : Stop} :
    need f o = .error e ↔ o = none ∧ e = .noValue f := by
  cases o <;> simp [need, eq_comm]

/-- R122: `E` answers a block of the length it was given. -/
theorem cipherEnc_length {C : Cipher} {X Y : Bytes} (h : cipherEnc C X = .ok Y) : Y.length = X.length := by
  unfold cipherEnc at h
  split at h
  · next B _ => cases h; exact B.property
  · cases h

/-- R122: `D` answers a block of the length it was given. -/
theorem cipherDec_length {C : Cipher} {X Y : Bytes} (h : cipherDec C X = .ok Y) : Y.length = X.length := by
  unfold cipherDec at h
  split at h
  · next B _ => cases h; exact B.property
  · cases h

/-- R122, R288: `E` stops only by raising CIPHER. -/
theorem cipherEnc_error {C : Cipher} {X : Bytes} {e : Stop} (h : cipherEnc C X = .error e) : e = .raise .cipher := by
  unfold cipherEnc at h
  split at h
  · cases h
  · cases h; rfl

/-- R122, R288: `D` stops only by raising CIPHER. -/
theorem cipherDec_error {C : Cipher} {X : Bytes} {e : Stop} (h : cipherDec C X = .error e) : e = .raise .cipher := by
  unfold cipherDec at h
  split at h
  · cases h
  · cases h; rfl

/-- `r.Stops Q`: however `r` stops, it stops as `Q` says. -/
def Run.Stops {α : Type} (r : Run α) (Q : Stop → Prop) : Prop := ∀ e, r = .error e → Q e

theorem Run.Stops.ok {α : Type} {Q : Stop → Prop} (a : α) : Run.Stops (.ok a : Run α) Q := by
  intro e h; cases h

theorem Run.Stops.bind {α β : Type} {r : Run α} {f : α → Run β} {Q : Stop → Prop} (h1 : r.Stops Q)
    (h2 : ∀ a, r = .ok a → (f a).Stops Q) : Run.Stops (r >>= f) Q := by
  intro e h
  rcases Run.bind_error.mp h with h | ⟨a, ha, h⟩
  · exact h1 e h
  · exact h2 a ha e h

theorem Run.Stops.need {α : Type} {f : Field} {o : Option α} {Q : Stop → Prop} (h : Q (.noValue f)) :
    (need f o).Stops Q := by
  intro e he; exact (need_eq_error.mp he).2 ▸ h

theorem Run.Stops.need_some {α : Type} {f : Field} {o : Option α} {v : α} {Q : Stop → Prop} (h : o = some v) :
    (Machine.need f o).Stops Q := by
  intro e he; rw [h] at he; cases he

theorem Run.Stops.check {b : Bool} {r : Raise} {Q : Stop → Prop} (h : b = false → Q (.raise r)) :
    (check b r).Stops Q := by
  intro e he; obtain ⟨h1, rfl⟩ := check_eq_error.mp he; exact h h1

theorem Run.Stops.enc {C : Cipher} {X : Bytes} {Q : Stop → Prop} (h : Q (.raise .cipher)) :
    (cipherEnc C X).Stops Q := by
  intro e he; exact cipherEnc_error he ▸ h

theorem Run.Stops.dec {C : Cipher} {X : Bytes} {Q : Stop → Prop} (h : Q (.raise .cipher)) :
    (cipherDec C X).Stops Q := by
  intro e he; exact cipherDec_error he ▸ h

theorem Run.Stops.mono {α : Type} {r : Run α} {Q R : Stop → Prop} (h : r.Stops Q) (hq : ∀ e, Q e → R e) :
    r.Stops R := fun e he => hq e (h e he)

end Sys2Proof.Machine
end

