-- ==== Sys2Proof/Laws/Loops.lean ====
section
/-! SUPPORT. Laws/Loops.lean: what the per-block loops of the modes answer: how they stop, the length of their
output, and the state they carry. -/

namespace Sys2Proof.Machine

/-- A block function that stops only by raising CIPHER and keeps the length of its block: `E` and `D` (R122). -/
structure BlockFn (F : Bytes → Run Bytes) : Prop where
  length : ∀ {X Y}, F X = .ok Y → Y.length = X.length
  error : ∀ {X e}, F X = .error e → e = .raise .cipher

theorem BlockFn.enc (C : Cipher) : BlockFn (cipherEnc C) := ⟨cipherEnc_length, cipherEnc_error⟩

theorem BlockFn.dec (C : Cipher) : BlockFn (cipherDec C) := ⟨cipherDec_length, cipherDec_error⟩

/-- The blocks cut from a buffer are no longer than the blocks asked for. -/
theorem blocksOf_flatten_le (bs n : Nat) (buf : Bytes) : (blocksOf bs n buf).flatten.length ≤ bs * n := by
  induction n generalizing buf with
  | zero => simp [blocksOf]
  | succ n ih =>
    have := ih (buf.drop bs)
    rw [blocksOf, List.flatten_cons, List.length_append, List.length_take, Nat.mul_succ]
    omega

/-- Whole blocks cut from a buffer long enough. -/
theorem blocksOf_flatten_length {bs n : Nat} {buf : Bytes} (h : n * bs ≤ buf.length) :
    (blocksOf bs n buf).flatten.length = bs * n := by
  have := congrArg List.length (flatten_blocksOf bs n buf)
  rw [List.length_append, List.length_drop] at this
  rw [Nat.mul_comm bs]
  omega

/-! ECB. -/

theorem ecbLoop_error {F : Bytes → Run Bytes} (hF : BlockFn F) {Xs : List Bytes} {e : Stop}
    (h : ecbLoop F Xs = .error e) : e = .raise .cipher := by
  induction Xs with
  | nil => cases h
  | cons X Xs ih =>
    rcases Run.bind_error.mp h with h | ⟨Y, -, h⟩
    · exact hF.error h
    · rcases Run.bind_error.mp h with h | ⟨Ys, -, h⟩
      · exact ih h
      · cases h

/-- R151: ECB keeps the length of its blocks. -/
theorem ecbLoop_length {F : Bytes → Run Bytes} (hF : BlockFn F) {Xs Ys : List Bytes} (h : ecbLoop F Xs = .ok Ys) :
    Ys.flatten.length = Xs.flatten.length := by
  induction Xs generalizing Ys with
  | nil => cases h; rfl
  | cons X Xs ih =>
    obtain ⟨Y, hY, h⟩ := Run.bind_ok.mp h
    obtain ⟨Ys', hYs, h⟩ := Run.bind_ok.mp h
    cases h
    simp [hF.length hY, ih hYs]

/-! CBC. -/

theorem cbcEncLoop_error {K : Cipher} {cb : Bytes} {Xs : List Bytes} {e : Stop}
    (h : cbcEncLoop K cb Xs = .error e) : e = .raise .cipher := by
  induction Xs generalizing cb with
  | nil => cases h
  | cons X Xs ih =>
    rcases Run.bind_error.mp h with h | ⟨Y, -, h⟩
    · exact cipherEnc_error h
    · rcases Run.bind_error.mp h with h | ⟨r, -, h⟩
      · exact ih h
      · cases h

theorem cbcDecLoop_error {K : Cipher} {cb : Bytes} {Xs : List Bytes} {e : Stop}
    (h : cbcDecLoop K cb Xs = .error e) : e = .raise .cipher := by
  induction Xs generalizing cb with
  | nil => cases h
  | cons X Xs ih =>
    rcases Run.bind_error.mp h with h | ⟨Y, -, h⟩
    · exact cipherDec_error h
    · rcases Run.bind_error.mp h with h | ⟨r, -, h⟩
      · exact ih h
      · cases h

theorem cbcEncLoop_le {K : Cipher} {cb cb' : Bytes} {Xs Ys : List Bytes} (h : cbcEncLoop K cb Xs = .ok (cb', Ys)) :
    Ys.flatten.length ≤ Xs.flatten.length := by
  induction Xs generalizing cb Ys with
  | nil => cases h; simp
  | cons X Xs ih =>
    obtain ⟨Y, hY, h⟩ := Run.bind_ok.mp h
    obtain ⟨⟨c, Zs⟩, hZ, h⟩ := Run.bind_ok.mp h
    cases h
    have h1 := ih hZ
    have h2 := cipherEnc_length hY
    simp only [List.flatten_cons, List.length_append, xorBytes_length] at h1 h2 ⊢
    omega

theorem cbcDecLoop_le {K : Cipher} {cb cb' : Bytes} {Xs Ys : List Bytes} (h : cbcDecLoop K cb Xs = .ok (cb', Ys)) :
    Ys.flatten.length ≤ Xs.flatten.length := by
  induction Xs generalizing cb Ys with
  | nil => cases h; simp
  | cons X Xs ih =>
    obtain ⟨Y, hY, h⟩ := Run.bind_ok.mp h
    obtain ⟨⟨c, Zs⟩, hZ, h⟩ := Run.bind_ok.mp h
    cases h
    have h1 := ih hZ
    have h2 := cipherDec_length hY
    simp only [List.flatten_cons, List.length_append, xorBytes_length] at h1 h2 ⊢
    omega

/-- R171: with a chaining value of one block, CBC encryption keeps the length of its blocks, and the chaining value
stays one block. -/
theorem cbcEncLoop_length {K : Cipher} {bs : Nat} {cb cb' : Bytes} {Xs Ys : List Bytes} (hcb : cb.length = bs)
    (hX : ∀ X ∈ Xs, X.length = bs) (h : cbcEncLoop K cb Xs = .ok (cb', Ys)) :
    Ys.flatten.length = Xs.flatten.length ∧ cb'.length = bs := by
  induction Xs generalizing cb Ys with
  | nil => cases h; exact ⟨rfl, hcb⟩
  | cons X Xs ih =>
    obtain ⟨Y, hY, h⟩ := Run.bind_ok.mp h
    obtain ⟨⟨c, Zs⟩, hZ, h⟩ := Run.bind_ok.mp h
    cases h
    have h1 := hX X (by simp)
    have h2 := cipherEnc_length hY
    rw [xorBytes_length, h1, hcb, Nat.min_self] at h2
    have := ih h2 (fun X hX' => hX X (by simp [hX'])) hZ
    exact ⟨by simp [this.1, h2, h1], this.2⟩

/-- R172: the same of CBC decryption. -/
theorem cbcDecLoop_length {K : Cipher} {bs : Nat} {cb cb' : Bytes} {Xs Ys : List Bytes} (hcb : cb.length = bs)
    (hX : ∀ X ∈ Xs, X.length = bs) (h : cbcDecLoop K cb Xs = .ok (cb', Ys)) :
    Ys.flatten.length = Xs.flatten.length ∧ cb'.length = bs := by
  induction Xs generalizing cb Ys with
  | nil => cases h; exact ⟨rfl, hcb⟩
  | cons X Xs ih =>
    obtain ⟨Y, hY, h⟩ := Run.bind_ok.mp h
    obtain ⟨⟨c, Zs⟩, hZ, h⟩ := Run.bind_ok.mp h
    cases h
    have h1 := hX X (by simp)
    have h2 := cipherDec_length hY
    have := ih h1 (fun X hX' => hX X (by simp [hX'])) hZ
    exact ⟨by simp [this.1, h2, h1, hcb], this.2⟩

/-! CTR. -/

theorem ctrLoop_error {K : Cipher} {n : Nat} {cb : Bytes} {Xs : List Bytes} {e : Stop}
    (h : ctrLoop K n cb Xs = .error e) : e = .raise .cipher := by
  induction Xs generalizing cb with
  | nil => cases h
  | cons X Xs ih =>
    rcases Run.bind_error.mp h with h | ⟨Y, -, h⟩
    · exact cipherEnc_error h
    · rcases Run.bind_error.mp h with h | ⟨r, -, h⟩
      · exact ih h
      · cases h

theorem ctrLoop_le {K : Cipher} {n : Nat} {cb cb' : Bytes} {Xs Ys : List Bytes}
    (h : ctrLoop K n cb Xs = .ok (cb', Ys)) : Ys.flatten.length ≤ Xs.flatten.length := by
  induction Xs generalizing cb Ys with
  | nil => cases h; simp
  | cons X Xs ih =>
    obtain ⟨Y, hY, h⟩ := Run.bind_ok.mp h
    obtain ⟨⟨c, Zs⟩, hZ, h⟩ := Run.bind_ok.mp h
    cases h
    have := ih hZ
    simp at this ⊢
    omega

/-- R194: the counter after the loop is the counter incremented once for each block. -/
theorem ctrLoop_cb {K : Cipher} {n : Nat} {cb cb' : Bytes} {Xs Ys : List Bytes}
    (h : ctrLoop K n cb Xs = .ok (cb', Ys)) : cb' = (incLow n)^[Xs.length] cb := by
  induction Xs generalizing cb Ys with
  | nil => cases h; rfl
  | cons X Xs ih =>
    obtain ⟨Y, hY, h⟩ := Run.bind_ok.mp h
    obtain ⟨⟨c, Zs⟩, hZ, h⟩ := Run.bind_ok.mp h
    cases h
    rw [ih hZ, List.length_cons, Function.iterate_succ_apply]

/-- R194: with a counter of one block, CTR keeps the length of its blocks. -/
theorem ctrLoop_length {K : Cipher} {n bs : Nat} {cb cb' : Bytes} {Xs Ys : List Bytes} (hcb : cb.length = bs)
    (hX : ∀ X ∈ Xs, X.length = bs) (h : ctrLoop K n cb Xs = .ok (cb', Ys)) :
    Ys.flatten.length = Xs.flatten.length := by
  induction Xs generalizing cb Ys with
  | nil => cases h; rfl
  | cons X Xs ih =>
    obtain ⟨Y, hY, h⟩ := Run.bind_ok.mp h
    obtain ⟨⟨c, Zs⟩, hZ, h⟩ := Run.bind_ok.mp h
    cases h
    have h1 := hX X (by simp)
    have h2 := cipherEnc_length hY
    have := ih (by simpa using hcb) (fun X hX' => hX X (by simp [hX'])) hZ
    simp [this, h1, h2, hcb]

/-! GCM. -/

theorem gcmEncLoop_error {K : Cipher} {H : Bytes} {a : GcmAcc} {Xs : List Bytes} {e : Stop}
    (h : gcmEncLoop K H a Xs = .error e) : e = .raise .cipher := by
  induction Xs generalizing a with
  | nil => cases h
  | cons X Xs ih =>
    rcases Run.bind_error.mp h with h | ⟨Y, -, h⟩
    · exact cipherEnc_error h
    · rcases Run.bind_error.mp h with h | ⟨r, -, h⟩
      · exact ih h
      · cases h

theorem gcmDecLoop_error {K : Cipher} {H : Bytes} {a : GcmAcc} {Xs : List Bytes} {e : Stop}
    (h : gcmDecLoop K H a Xs = .error e) : e = .raise .cipher := by
  induction Xs generalizing a with
  | nil => cases h
  | cons X Xs ih =>
    rcases Run.bind_error.mp h with h | ⟨Y, -, h⟩
    · exact cipherEnc_error h
    · rcases Run.bind_error.mp h with h | ⟨r, -, h⟩
      · exact ih h
      · cases h

theorem gcmEncLoop_le {K : Cipher} {H : Bytes} {a a' : GcmAcc} {Xs Ys : List Bytes}
    (h : gcmEncLoop K H a Xs = .ok (a', Ys)) : Ys.flatten.length ≤ Xs.flatten.length := by
  induction Xs generalizing a Ys with
  | nil => cases h; simp
  | cons X Xs ih =>
    obtain ⟨Y, hY, h⟩ := Run.bind_ok.mp h
    obtain ⟨⟨c, Zs⟩, hZ, h⟩ := Run.bind_ok.mp h
    cases h
    have := ih hZ
    simp at this ⊢
    omega

theorem gcmDecLoop_le {K : Cipher} {H : Bytes} {a a' : GcmAcc} {Xs Ys : List Bytes}
    (h : gcmDecLoop K H a Xs = .ok (a', Ys)) : Ys.flatten.length ≤ Xs.flatten.length := by
  induction Xs generalizing a Ys with
  | nil => cases h; simp
  | cons X Xs ih =>
    obtain ⟨Y, hY, h⟩ := Run.bind_ok.mp h
    obtain ⟨⟨c, Zs⟩, hZ, h⟩ := Run.bind_ok.mp h
    cases h
    have := ih hZ
    simp at this ⊢
    omega

/-- What one run of the GCM loop over `n` blocks does to the fields it carries: the counter is incremented once a
block, the count of bytes grows by 16 a block, and the accumulator stays a block. -/
structure GcmAcc.Moved (a a' : GcmAcc) (n : Nat) : Prop where
  cb : a'.cb = (incLow 32)^[n] a.cb
  processed : a'.processed = a.processed + BitVec.ofNat 64 (16 * n)
  ghash : a.ghash.length = 16 → a'.ghash.length = 16

theorem GcmAcc.Moved.zero (a : GcmAcc) : a.Moved a 0 := ⟨rfl, by simp, id⟩

theorem GcmAcc.Moved.cons {a a' : GcmAcc} {n : Nat} {h : Bytes} (hh : h.length = 16)
    (m : GcmAcc.Moved ⟨incLow 32 a.cb, h, a.processed + 16⟩ a' n) : a.Moved a' (n + 1) := by
  refine ⟨?_, ?_, fun _ => m.ghash hh⟩
  · rw [m.cb, Function.iterate_succ_apply]
  · rw [m.processed, Nat.mul_succ, Nat.add_comm (16 * n), BitVec.ofNat_add, BitVec.add_assoc]
    rfl

theorem gcmEncLoop_moved {K : Cipher} {H : Bytes} {a a' : GcmAcc} {Xs Ys : List Bytes}
    (h : gcmEncLoop K H a Xs = .ok (a', Ys)) : a.Moved a' Xs.length := by
  induction Xs generalizing a Ys with
  | nil => cases h; exact .zero _
  | cons X Xs ih =>
    obtain ⟨Y, hY, h⟩ := Run.bind_ok.mp h
    obtain ⟨⟨c, Zs⟩, hZ, h⟩ := Run.bind_ok.mp h
    cases h
    exact .cons (ghashAcc_length _ _ _) (ih hZ)

theorem gcmDecLoop_moved {K : Cipher} {H : Bytes} {a a' : GcmAcc} {Xs Ys : List Bytes}
    (h : gcmDecLoop K H a Xs = .ok (a', Ys)) : a.Moved a' Xs.length := by
  induction Xs generalizing a Ys with
  | nil => cases h; exact .zero _
  | cons X Xs ih =>
    obtain ⟨Y, hY, h⟩ := Run.bind_ok.mp h
    obtain ⟨⟨c, Zs⟩, hZ, h⟩ := Run.bind_ok.mp h
    cases h
    exact .cons (ghashAcc_length _ _ _) (ih hZ)

/-- R217: with a counter of 16 bytes, GCM encryption keeps the length of its blocks. -/
theorem gcmEncLoop_length {K : Cipher} {H : Bytes} {a a' : GcmAcc} {Xs Ys : List Bytes} (hcb : a.cb.length = 16)
    (hX : ∀ X ∈ Xs, X.length = 16) (h : gcmEncLoop K H a Xs = .ok (a', Ys)) :
    Ys.flatten.length = Xs.flatten.length := by
  induction Xs generalizing a Ys with
  | nil => cases h; rfl
  | cons X Xs ih =>
    obtain ⟨Y, hY, h⟩ := Run.bind_ok.mp h
    obtain ⟨⟨c, Zs⟩, hZ, h⟩ := Run.bind_ok.mp h
    cases h
    have h1 := hX X (by simp)
    have h2 := cipherEnc_length hY
    have := ih (by simpa using hcb) (fun X hX' => hX X (by simp [hX'])) hZ
    simp [this, h1, h2, hcb]

/-- R218: the same of GCM decryption. -/
theorem gcmDecLoop_length {K : Cipher} {H : Bytes} {a a' : GcmAcc} {Xs Ys : List Bytes} (hcb : a.cb.length = 16)
    (hX : ∀ X ∈ Xs, X.length = 16) (h : gcmDecLoop K H a Xs = .ok (a', Ys)) :
    Ys.flatten.length = Xs.flatten.length := by
  induction Xs generalizing a Ys with
  | nil => cases h; rfl
  | cons X Xs ih =>
    obtain ⟨Y, hY, h⟩ := Run.bind_ok.mp h
    obtain ⟨⟨c, Zs⟩, hZ, h⟩ := Run.bind_ok.mp h
    cases h
    have h1 := hX X (by simp)
    have h2 := cipherEnc_length hY
    have := ih (by simpa using hcb) (fun X hX' => hX X (by simp [hX'])) hZ
    simp [this, h1, h2, hcb]

end Sys2Proof.Machine
end

