-- ==== Sys2Proof/Laws/State.lean ====
section
/-! SUPPORT. Laws/State.lean: one lemma per field for each update of the state and of a context, and what reading a
slot answers after one was set. -/

namespace Sys2Proof.Machine

@[simp] theorem State.report_slots (s : State) (st : Status) (n off : Nat) : (s.report st n off).slots = s.slots := rfl
@[simp] theorem State.report_status (s : State) (st : Status) (n off : Nat) : (s.report st n off).status = st.code := rfl
@[simp] theorem State.report_outLen (s : State) (st : Status) (n off : Nat) : (s.report st n off).outLen = outLenReg s.freeIx n := rfl
@[simp] theorem State.report_sinkOff (s : State) (st : Status) (n off : Nat) : (s.report st n off).sinkOff = sinkOffReg s.freeIx off := rfl
@[simp] theorem State.report_mem (s : State) (st : Status) (n off : Nat) : (s.report st n off).mem = s.mem := rfl
@[simp] theorem State.report_releases (s : State) (st : Status) (n off : Nat) : (s.report st n off).releases = s.releases := rfl
@[simp] theorem State.report_inputs (s : State) (st : Status) (n off : Nat) : (s.report st n off).inputs = s.inputs := rfl
@[simp] theorem State.report_freeIx (s : State) (st : Status) (n off : Nat) : (s.report st n off).freeIx = s.freeIx + 1 := rfl

@[simp] theorem State.setSlot_slots (s : State) (k : BitVec 8) (x : Slot) : (s.setSlot k x).slots = s.slots.set k.toNat x := rfl
@[simp] theorem State.setSlot_status (s : State) (k : BitVec 8) (x : Slot) : (s.setSlot k x).status = s.status := rfl
@[simp] theorem State.setSlot_outLen (s : State) (k : BitVec 8) (x : Slot) : (s.setSlot k x).outLen = s.outLen := rfl
@[simp] theorem State.setSlot_sinkOff (s : State) (k : BitVec 8) (x : Slot) : (s.setSlot k x).sinkOff = s.sinkOff := rfl
@[simp] theorem State.setSlot_mem (s : State) (k : BitVec 8) (x : Slot) : (s.setSlot k x).mem = s.mem := rfl
@[simp] theorem State.setSlot_releases (s : State) (k : BitVec 8) (x : Slot) : (s.setSlot k x).releases = s.releases := rfl
@[simp] theorem State.setSlot_inputs (s : State) (k : BitVec 8) (x : Slot) : (s.setSlot k x).inputs = s.inputs := rfl
@[simp] theorem State.setSlot_freeIx (s : State) (k : BitVec 8) (x : Slot) : (s.setSlot k x).freeIx = s.freeIx := rfl

@[simp] theorem State.withMem_slots (s : State) (m : Memory) : (s.withMem m).slots = s.slots := rfl
@[simp] theorem State.withMem_status (s : State) (m : Memory) : (s.withMem m).status = s.status := rfl
@[simp] theorem State.withMem_outLen (s : State) (m : Memory) : (s.withMem m).outLen = s.outLen := rfl
@[simp] theorem State.withMem_sinkOff (s : State) (m : Memory) : (s.withMem m).sinkOff = s.sinkOff := rfl
@[simp] theorem State.withMem_mem (s : State) (m : Memory) : (s.withMem m).mem = m := rfl
@[simp] theorem State.withMem_releases (s : State) (m : Memory) : (s.withMem m).releases = s.releases := rfl
@[simp] theorem State.withMem_inputs (s : State) (m : Memory) : (s.withMem m).inputs = s.inputs := rfl
@[simp] theorem State.withMem_freeIx (s : State) (m : Memory) : (s.withMem m).freeIx = s.freeIx := rfl

@[simp] theorem State.withInputs_slots (s : State) (q : List Input) : (s.withInputs q).slots = s.slots := rfl
@[simp] theorem State.withInputs_status (s : State) (q : List Input) : (s.withInputs q).status = s.status := rfl
@[simp] theorem State.withInputs_outLen (s : State) (q : List Input) : (s.withInputs q).outLen = s.outLen := rfl
@[simp] theorem State.withInputs_sinkOff (s : State) (q : List Input) : (s.withInputs q).sinkOff = s.sinkOff := rfl
@[simp] theorem State.withInputs_mem (s : State) (q : List Input) : (s.withInputs q).mem = s.mem := rfl
@[simp] theorem State.withInputs_releases (s : State) (q : List Input) : (s.withInputs q).releases = s.releases := rfl
@[simp] theorem State.withInputs_inputs (s : State) (q : List Input) : (s.withInputs q).inputs = q := rfl
@[simp] theorem State.withInputs_freeIx (s : State) (q : List Input) : (s.withInputs q).freeIx = s.freeIx := rfl

@[simp] theorem State.release_slots (s : State) (ks : Addr) : (s.release ks).slots = s.slots := rfl
@[simp] theorem State.release_status (s : State) (ks : Addr) : (s.release ks).status = s.status := rfl
@[simp] theorem State.release_outLen (s : State) (ks : Addr) : (s.release ks).outLen = s.outLen := rfl
@[simp] theorem State.release_sinkOff (s : State) (ks : Addr) : (s.release ks).sinkOff = s.sinkOff := rfl
@[simp] theorem State.release_mem (s : State) (ks : Addr) : (s.release ks).mem = s.mem := rfl
@[simp] theorem State.release_releases (s : State) (ks : Addr) : (s.release ks).releases = ks :: s.releases := rfl
@[simp] theorem State.release_inputs (s : State) (ks : Addr) : (s.release ks).inputs = s.inputs := rfl
@[simp] theorem State.release_freeIx (s : State) (ks : Addr) : (s.release ks).freeIx = s.freeIx := rfl

@[simp] theorem State.refuse_slots (s : State) (off : Addr) : (s.refuse off).slots = s.slots := rfl
@[simp] theorem State.refuse_status (s : State) (off : Addr) : (s.refuse off).status = Status.protocol.code := rfl
@[simp] theorem State.refuse_outLen (s : State) (off : Addr) : (s.refuse off).outLen = outLenReg s.freeIx 0 := rfl
@[simp] theorem State.refuse_sinkOff (s : State) (off : Addr) : (s.refuse off).sinkOff = sinkOffReg s.freeIx off.toNat := rfl
@[simp] theorem State.refuse_mem (s : State) (off : Addr) : (s.refuse off).mem = s.mem := rfl
@[simp] theorem State.refuse_releases (s : State) (off : Addr) : (s.refuse off).releases = s.releases := rfl
@[simp] theorem State.refuse_inputs (s : State) (off : Addr) : (s.refuse off).inputs = s.inputs := rfl
@[simp] theorem State.refuse_freeIx (s : State) (off : Addr) : (s.refuse off).freeIx = s.freeIx + 1 := rfl

@[simp] theorem ModeContext.withState_state (c : ModeContext) (l : Lifecycle) : (c.withState l).state = l := rfl
@[simp] theorem ModeContext.withState_mode (c : ModeContext) (l : Lifecycle) : (c.withState l).mode = c.mode := rfl
@[simp] theorem ModeContext.withState_dir (c : ModeContext) (l : Lifecycle) : (c.withState l).dir = c.dir := rfl
@[simp] theorem ModeContext.withState_ks (c : ModeContext) (l : Lifecycle) : (c.withState l).ks = c.ks := rfl
@[simp] theorem ModeContext.withState_ksOwned (c : ModeContext) (l : Lifecycle) : (c.withState l).ksOwned = c.ksOwned := rfl
@[simp] theorem ModeContext.withState_blockSize (c : ModeContext) (l : Lifecycle) : (c.withState l).blockSize = c.blockSize := rfl
@[simp] theorem ModeContext.withState_sess (c : ModeContext) (l : Lifecycle) : (c.withState l).sess = c.sess := rfl

@[simp] theorem ModeContext.withSess_state (c : ModeContext) (x : Session) : (c.withSess x).state = c.state := rfl
@[simp] theorem ModeContext.withSess_mode (c : ModeContext) (x : Session) : (c.withSess x).mode = c.mode := rfl
@[simp] theorem ModeContext.withSess_dir (c : ModeContext) (x : Session) : (c.withSess x).dir = c.dir := rfl
@[simp] theorem ModeContext.withSess_ks (c : ModeContext) (x : Session) : (c.withSess x).ks = c.ks := rfl
@[simp] theorem ModeContext.withSess_ksOwned (c : ModeContext) (x : Session) : (c.withSess x).ksOwned = c.ksOwned := rfl
@[simp] theorem ModeContext.withSess_blockSize (c : ModeContext) (x : Session) : (c.withSess x).blockSize = c.blockSize := rfl
@[simp] theorem ModeContext.withSess_sess (c : ModeContext) (x : Session) : (c.withSess x).sess = x := rfl

@[simp] theorem Session.empty_remainder : Session.empty.remainder = none := rfl
@[simp] theorem Session.empty_cb : Session.empty.cb = none := rfl
@[simp] theorem Session.empty_ctrBits : Session.empty.ctrBits = none := rfl
@[simp] theorem Session.empty_H : Session.empty.H = none := rfl
@[simp] theorem Session.empty_hTable : Session.empty.hTable = none := rfl
@[simp] theorem Session.empty_ghash : Session.empty.ghash = none := rfl
@[simp] theorem Session.empty_J0 : Session.empty.J0 = none := rfl
@[simp] theorem Session.empty_lenALenC : Session.empty.lenALenC = none := rfl
@[simp] theorem Session.empty_tagLen : Session.empty.tagLen = none := rfl
@[simp] theorem Session.empty_processed : Session.empty.processed = none := rfl
@[simp] theorem Session.empty_la : Session.empty.la = none := rfl

@[simp] theorem Session.withAcc_remainder (x : Session) (a : GcmAcc) : (x.withAcc a).remainder = x.remainder := rfl
@[simp] theorem Session.withAcc_cb (x : Session) (a : GcmAcc) : (x.withAcc a).cb = some a.cb := rfl
@[simp] theorem Session.withAcc_ctrBits (x : Session) (a : GcmAcc) : (x.withAcc a).ctrBits = x.ctrBits := rfl
@[simp] theorem Session.withAcc_H (x : Session) (a : GcmAcc) : (x.withAcc a).H = x.H := rfl
@[simp] theorem Session.withAcc_hTable (x : Session) (a : GcmAcc) : (x.withAcc a).hTable = x.hTable := rfl
@[simp] theorem Session.withAcc_ghash (x : Session) (a : GcmAcc) : (x.withAcc a).ghash = some a.ghash := rfl
@[simp] theorem Session.withAcc_J0 (x : Session) (a : GcmAcc) : (x.withAcc a).J0 = x.J0 := rfl
@[simp] theorem Session.withAcc_lenALenC (x : Session) (a : GcmAcc) : (x.withAcc a).lenALenC = x.lenALenC := rfl
@[simp] theorem Session.withAcc_tagLen (x : Session) (a : GcmAcc) : (x.withAcc a).tagLen = x.tagLen := rfl
@[simp] theorem Session.withAcc_processed (x : Session) (a : GcmAcc) : (x.withAcc a).processed = some a.processed := rfl
@[simp] theorem Session.withAcc_la (x : Session) (a : GcmAcc) : (x.withAcc a).la = x.la := rfl

@[simp] theorem State.slot_report (s : State) (st : Status) (n off : Nat) (k : BitVec 8) :
    (s.report st n off).slot k = s.slot k := rfl
@[simp] theorem State.slot_withMem (s : State) (m : Memory) (k : BitVec 8) : (s.withMem m).slot k = s.slot k := rfl
@[simp] theorem State.slot_withInputs (s : State) (q : List Input) (k : BitVec 8) :
    (s.withInputs q).slot k = s.slot k := rfl
@[simp] theorem State.slot_release (s : State) (ks : Addr) (k : BitVec 8) : (s.release ks).slot k = s.slot k := rfl
@[simp] theorem State.slot_refuse (s : State) (off : Addr) (k : BitVec 8) : (s.refuse off).slot k = s.slot k := rfl

/-- A slot that exists reads, after it was set, as what it was set to. -/
theorem State.slot_setSlot_self (s : State) (k : BitVec 8) (x y : Slot) (h : s.slot k = some y) :
    (s.setSlot k x).slot k = some x := by
  simp only [State.slot, State.setSlot_slots] at h ⊢
  rw [List.getElem?_eq_some_iff] at h
  obtain ⟨hk, -⟩ := h
  simp [hk]

/-- Setting one slot leaves every other as it was. -/
theorem State.slot_setSlot_ne (s : State) {k j : BitVec 8} (x : Slot) (h : j ≠ k) :
    (s.setSlot k x).slot j = s.slot j := by
  have hne : k.toNat ≠ j.toNat := fun e => h (BitVec.eq_of_toNat_eq e.symm)
  simp [State.slot, List.getElem?_set_ne hne]

/-- A slot that answers a context is one of the slots. -/
theorem State.mem_of_slot {s : State} {k : BitVec 8} {x : Slot} (h : s.slot k = some x) : x ∈ s.slots :=
  List.mem_of_getElem? h

end Sys2Proof.Machine
end

