-- ==== Sys2Proof/Laws/Memory.lean ====
section
/-! SUPPORT. Laws/Memory.lean: read after write, the frame of a write, and that every operation on memory keeps the
canonical form and the address range. -/

namespace Sys2Proof.Machine

/-! One byte. -/

theorem Memory.read_of_lt {m : Memory} {a : Nat} (h : ∀ e ∈ m, a < e.1) : m.read a = unlistedByte := by
  induction m with
  | nil => rfl
  | cons e m ih =>
    have h1 := h e (by simp)
    rw [Memory.read, if_neg (by omega)]
    exact ih (fun e' he => h e' (by simp [he]))

theorem Memory.wf_cons {x : Nat} {b : Byte} {m : Memory} :
    Memory.wf ((x, b) :: m) = true ↔ (∀ e ∈ m, x < e.1) ∧ b ≠ unlistedByte ∧ m.wf = true := by
  simp [Memory.wf, and_assoc]

theorem Memory.read_insert_same (m : Memory) (a : Nat) (b : Byte) : (m.insert a b).read a = b := by
  induction m with
  | nil => simp [Memory.insert, Memory.read]
  | cons e m ih =>
    obtain ⟨x, y⟩ := e
    rw [Memory.insert]
    split
    · simp [Memory.read]
    · split
      · simp [Memory.read]
      · next h => rw [Memory.read, if_neg (fun hx => h hx.symm), ih]

theorem Memory.read_insert_other {m : Memory} {a c : Nat} {b : Byte} (h : c ≠ a) :
    (m.insert a b).read c = m.read c := by
  induction m with
  | nil => simp [Memory.insert, Memory.read, h.symm]
  | cons e m ih =>
    obtain ⟨x, y⟩ := e
    rw [Memory.insert]
    split
    · simp [Memory.read, h.symm]
    · split
      · next hx => subst hx; simp [Memory.read, h.symm]
      · simp only [Memory.read, ih]

theorem Memory.mem_erase {m : Memory} {a : Nat} {e : Host.Cell} (h : e ∈ m.erase a) : e ∈ m := by
  induction m with
  | nil => exact h
  | cons f m ih =>
    obtain ⟨x, y⟩ := f
    rw [Memory.erase] at h
    split at h
    · exact List.mem_cons_of_mem _ h
    · rcases List.mem_cons.mp h with h | h
      · exact h ▸ List.mem_cons_self ..
      · exact List.mem_cons_of_mem _ (ih h)

theorem Memory.mem_insert {m : Memory} {a : Nat} {b : Byte} {e : Host.Cell} (h : e ∈ m.insert a b) :
    e = (a, b) ∨ e ∈ m := by
  induction m with
  | nil => exact .inl (by simpa [Memory.insert] using h)
  | cons f m ih =>
    obtain ⟨x, y⟩ := f
    rw [Memory.insert] at h
    split at h
    · simpa using h
    · split at h
      · rcases List.mem_cons.mp h with h | h
        · exact .inl h
        · exact .inr (List.mem_cons_of_mem _ h)
      · rcases List.mem_cons.mp h with h | h
        · exact .inr (h ▸ List.mem_cons_self ..)
        · exact (ih h).imp id (List.mem_cons_of_mem _)

theorem Memory.wf_erase {m : Memory} (a : Nat) (h : m.wf = true) : (m.erase a).wf = true := by
  induction m with
  | nil => rfl
  | cons f m ih =>
    obtain ⟨x, y⟩ := f
    obtain ⟨h1, h2, h3⟩ := Memory.wf_cons.mp h
    rw [Memory.erase]
    split
    · exact h3
    · exact Memory.wf_cons.mpr ⟨fun e he => h1 e (Memory.mem_erase he), h2, ih h3⟩

theorem Memory.wf_insert {m : Memory} (a : Nat) {b : Byte} (hb : b ≠ unlistedByte) (h : m.wf = true) :
    (m.insert a b).wf = true := by
  induction m with
  | nil => exact Memory.wf_cons.mpr ⟨by simp, hb, rfl⟩
  | cons f m ih =>
    obtain ⟨x, y⟩ := f
    obtain ⟨h1, h2, h3⟩ := Memory.wf_cons.mp h
    rw [Memory.insert]
    split
    · next hax =>
      refine Memory.wf_cons.mpr ⟨fun e he => ?_, hb, h⟩
      rcases List.mem_cons.mp he with rfl | he
      · exact hax
      · exact lt_trans hax (h1 e he)
    · split
      · next hax => subst hax; exact Memory.wf_cons.mpr ⟨h1, hb, h3⟩
      · refine Memory.wf_cons.mpr ⟨fun e he => ?_, h2, ih h3⟩
        rcases Memory.mem_insert he with rfl | he
        · show x < a; omega
        · exact h1 e he

/-- A write keeps the canonical form. -/
theorem Memory.wf_write {m : Memory} (a : Nat) (b : Byte) (h : m.wf = true) : (m.write a b).wf = true := by
  rw [Memory.write]
  split
  · exact Memory.wf_erase a h
  · next hb => exact Memory.wf_insert a hb h

theorem Memory.mem_write {m : Memory} {a : Nat} {b : Byte} {e : Host.Cell} (h : e ∈ m.write a b) :
    e = (a, b) ∨ e ∈ m := by
  rw [Memory.write] at h
  split at h
  · exact .inr (Memory.mem_erase h)
  · exact Memory.mem_insert h

theorem Memory.inRange_iff {m : Memory} : m.inRange = true ↔ ∀ e ∈ m, e.1 < addrSpace := by
  simp [Memory.inRange]

/-- R60: a write inside the address space keeps memory inside it. -/
theorem Memory.inRange_write {m : Memory} {a : Nat} (b : Byte) (ha : a < addrSpace) (h : m.inRange = true) :
    (m.write a b).inRange = true := by
  rw [Memory.inRange_iff] at h ⊢
  intro e he
  rcases Memory.mem_write he with rfl | he
  · exact ha
  · exact h e he

theorem Memory.read_erase_same {m : Memory} {a : Nat} (h : m.wf = true) : (m.erase a).read a = unlistedByte := by
  induction m with
  | nil => rfl
  | cons f m ih =>
    obtain ⟨x, y⟩ := f
    obtain ⟨h1, _, h3⟩ := Memory.wf_cons.mp h
    rw [Memory.erase]
    split
    · next hx => subst hx; exact Memory.read_of_lt h1
    · next hx => rw [Memory.read, if_neg hx, ih h3]

theorem Memory.read_erase_other {m : Memory} {a c : Nat} (h : c ≠ a) : (m.erase a).read c = m.read c := by
  induction m with
  | nil => rfl
  | cons f m ih =>
    obtain ⟨x, y⟩ := f
    rw [Memory.erase]
    split
    · next hx => subst hx; rw [Memory.read, if_neg h.symm]
    · simp only [Memory.read, ih]

/-- R62: a byte written is the byte read. -/
theorem Memory.read_write_same {m : Memory} (a : Nat) (b : Byte) (h : m.wf = true) : (m.write a b).read a = b := by
  rw [Memory.write]
  split
  · next hb => rw [Memory.read_erase_same h, hb]
  · exact Memory.read_insert_same m a b

/-- R62: a write of one byte leaves every other byte. -/
theorem Memory.read_write_other {m : Memory} {a c : Nat} (b : Byte) (h : c ≠ a) : (m.write a b).read c = m.read c := by
  rw [Memory.write]
  split
  · exact Memory.read_erase_other h
  · exact Memory.read_insert_other h

/-- Two memories in the canonical form that read alike everywhere are equal. -/
theorem Memory.ext_of_wf {m n : Memory} (hm : m.wf = true) (hn : n.wf = true) (h : ∀ a, m.read a = n.read a) :
    m = n := by
  induction m generalizing n with
  | nil =>
    cases n with
    | nil => rfl
    | cons f n =>
      obtain ⟨x, y⟩ := f
      have hx := h x
      rw [Memory.read, Memory.read, if_pos rfl] at hx
      exact absurd hx.symm (Memory.wf_cons.mp hn).2.1
  | cons e m ih =>
    obtain ⟨x, b⟩ := e
    obtain ⟨h1, h2, h3⟩ := Memory.wf_cons.mp hm
    cases n with
    | nil =>
      have hx := h x
      simp only [Memory.read, if_true] at hx
      exact absurd hx h2
    | cons f n =>
      obtain ⟨y, c⟩ := f
      obtain ⟨k1, k2, k3⟩ := Memory.wf_cons.mp hn
      have hxy : x = y := by
        rcases lt_trichotomy x y with hlt | heq | hlt
        · have hx := h x
          rw [Memory.read, if_pos rfl, Memory.read, if_neg (by omega),
            Memory.read_of_lt (fun e he => lt_trans hlt (k1 e he))] at hx
          exact absurd hx h2
        · exact heq
        · have hx := h y
          rw [Memory.read, if_neg (by omega), Memory.read_of_lt (fun e he => lt_trans hlt (h1 e he)), Memory.read,
            if_pos rfl] at hx
          exact absurd hx.symm k2
      subst hxy
      have hbc : b = c := by simpa [Memory.read] using h x
      subst hbc
      rw [ih h3 k3 fun a => ?_]
      by_cases ha : x = a
      · subst ha; rw [Memory.read_of_lt h1, Memory.read_of_lt k1]
      · simpa [Memory.read, ha] using h a

/-! Byte strings. -/

@[simp] theorem Memory.readBytes_length (m : Memory) (a n : Nat) : (m.readBytes a n).length = n := by
  induction n generalizing a with
  | zero => rfl
  | succ n ih => simp [Memory.readBytes, ih]

/-- R61: byte `i` of a read is the byte at `a + i`. -/
theorem Memory.readBytes_getElem? (m : Memory) (a n i : Nat) :
    (m.readBytes a n)[i]? = if i < n then some (m.read (a + i)) else none := by
  induction n generalizing a i with
  | zero => simp [Memory.readBytes]
  | succ n ih =>
    cases i with
    | zero => simp [Memory.readBytes]
    | succ i =>
      rw [Memory.readBytes, List.getElem?_cons_succ, ih, Nat.add_right_comm, Nat.add_assoc]
      simp

theorem Memory.wf_writeBytes {m : Memory} (a : Nat) (v : Bytes) (h : m.wf = true) :
    (m.writeBytes a v).wf = true := by
  induction v generalizing m a with
  | nil => exact h
  | cons b v ih => exact ih _ (Memory.wf_write a b h)

theorem Memory.inRange_writeBytes {m : Memory} {a : Nat} {v : Bytes} (hv : v.length = 0 ∨ a + v.length ≤ addrSpace)
    (h : m.inRange = true) : (m.writeBytes a v).inRange = true := by
  induction v generalizing m a with
  | nil => exact h
  | cons b v ih =>
    have hl : a + (v.length + 1) ≤ addrSpace := by simpa using hv
    exact ih (.inr (by omega)) (Memory.inRange_write b (by omega) h)

/-- R62: a write leaves every byte outside its range. -/
theorem Memory.read_writeBytes_outside {m : Memory} {a c : Nat} {v : Bytes} (h : c < a ∨ a + v.length ≤ c) :
    (m.writeBytes a v).read c = m.read c := by
  induction v generalizing m a with
  | nil => rfl
  | cons b v ih =>
    rw [List.length_cons] at h
    rw [Memory.writeBytes, ih (by omega), Memory.read_write_other b (by omega)]

/-- R62: after a write, byte `i` of it stands at `a + i`. -/
theorem Memory.read_writeBytes_inside {m : Memory} {a i : Nat} {v : Bytes} (hm : m.wf = true) (h : i < v.length) :
    (m.writeBytes a v).read (a + i) = v[i] := by
  induction v generalizing m a i with
  | nil => simp at h
  | cons b v ih =>
    rw [Memory.writeBytes]
    cases i with
    | zero => rw [Memory.read_writeBytes_outside (by omega), Nat.add_zero, Memory.read_write_same a b hm]; rfl
    | succ i =>
      have := ih (m := m.write a b) (a := a + 1) (i := i) (Memory.wf_write a b hm) (by simpa using h)
      rw [Nat.add_right_comm] at this
      simpa [Nat.add_assoc] using this

/-! Sinks. -/

theorem wf_sinkWrite {gs : List Seg} {v : Bytes} (off : Nat) {m : Memory} (h : m.wf = true) :
    (sinkWrite gs off v m).wf = true := by
  induction v generalizing off m with
  | nil => exact h
  | cons b v ih =>
    rw [sinkWrite]
    apply ih
    split
    · exact Memory.wf_write _ b h
    · exact h

/-- R70: a write through a sink leaves every byte that is not one of its addresses. -/
theorem read_sinkWrite_outside {gs : List Seg} {v : Bytes} {off c : Nat} {m : Memory}
    (h : ∀ t < v.length, sinkAddr gs (off + t) ≠ some c) : (sinkWrite gs off v m).read c = m.read c := by
  induction v generalizing off m with
  | nil => rfl
  | cons b v ih =>
    rw [sinkWrite, ih (fun t ht => ?_)]
    · have h0 := h 0 (by simp)
      rw [Nat.add_zero] at h0
      split
      · next a ha => exact Memory.read_write_other b (fun hc => h0 (by rw [ha, hc]))
      · rfl
    · have := h (t + 1) (by simpa using ht)
      rwa [Nat.add_assoc, Nat.add_comm 1 t]

/-- R68: the cursor stands in a segment of the sink, inside it. -/
theorem cursor_mem {gs : List Seg} {off o : Nat} {g : Seg} (h : cursor gs off = some (g, o)) :
    g ∈ gs ∧ o < g.len.toNat := by
  induction gs generalizing off with
  | nil => simp [cursor] at h
  | cons f gs ih =>
    rw [cursor] at h
    split at h
    · cases h; exact ⟨by simp, by assumption⟩
    · have := ih h; exact ⟨by simp [this.1], this.2⟩

/-- R70: "never writes outside" the segments: an address the sink gives lies in one of them. -/
theorem sinkAddr_mem {gs : List Seg} {off a : Nat} (h : sinkAddr gs off = some a) :
    ∃ g ∈ gs, g.ptr.toNat ≤ a ∧ a < g.ptr.toNat + g.len.toNat := by
  unfold sinkAddr at h
  cases hc : cursor gs off with
  | none => simp [hc] at h
  | some c =>
    obtain ⟨g, o⟩ := c
    have := cursor_mem hc
    simp [hc] at h
    exact ⟨g, this.1, by omega, by omega⟩

theorem inRange_sinkWrite {gs : List Seg} (hgs : ∀ g ∈ gs, g.ptr.toNat + g.len.toNat ≤ addrSpace) {v : Bytes}
    (off : Nat) {m : Memory} (h : m.inRange = true) : (sinkWrite gs off v m).inRange = true := by
  induction v generalizing off m with
  | nil => exact h
  | cons b v ih =>
    rw [sinkWrite]
    apply ih
    split
    · next a ha =>
      obtain ⟨g, hg, h1, h2⟩ := sinkAddr_mem ha
      have := hgs g hg
      exact Memory.inRange_write b (by omega) h
    · exact h

/-! Targets. -/

theorem Target.wf_emit {tg : Target} {v : Bytes} {m : Memory} (h : m.wf = true) : (tg.emit v m).wf = true := by
  cases tg with
  | nowhere => exact h
  | chunk p => exact Memory.wf_writeBytes _ _ h
  | sink k => exact wf_sinkWrite _ h

theorem Target.wf_scatter {tg : Target} {f : Nat → Option Byte} {n : Nat} {m : Memory} (h : m.wf = true) :
    (tg.scatter f n m).wf = true := by
  induction n with
  | zero => exact h
  | succ n ih =>
    rw [Target.scatter]
    split
    · exact Memory.wf_write _ _ ih
    · exact ih

/-- The frame of a command's output: a byte that is not the address of an output byte stays. -/
theorem Target.read_emit_outside {tg : Target} {v : Bytes} {m : Memory} {c : Nat}
    (h : ∀ t < v.length, tg.addrOf t ≠ some c) : (tg.emit v m).read c = m.read c := by
  cases tg with
  | nowhere => rfl
  | chunk p =>
    apply Memory.read_writeBytes_outside
    by_contra hc
    exact h (c - p.toNat) (by omega) (by simp only [Target.addrOf, Option.some.injEq]; omega)
  | sink k => exact read_sinkWrite_outside h

/-- R288: the bytes a failed command may have written are among the addresses of its output. -/
theorem Target.read_scatter_outside {tg : Target} {f : Nat → Option Byte} {n : Nat} {m : Memory} {c : Nat}
    (h : ∀ t < n, tg.addrOf t ≠ some c) : (tg.scatter f n m).read c = m.read c := by
  induction n with
  | zero => rfl
  | succ n ih =>
    rw [Target.scatter]
    have ih := ih (fun t ht => h t (by omega))
    split
    · next a b ha hb =>
      rw [Memory.read_write_other b (fun hc => h n (by omega) (by rw [ha, hc])), ih]
    · exact ih

/-- Where a target's addresses all lie in the address space, its output keeps memory in it. -/
theorem Target.inRange_scatter {tg : Target} {f : Nat → Option Byte} {n : Nat} {m : Memory}
    (hn : ∀ t < n, ∀ a, tg.addrOf t = some a → a < addrSpace) (h : m.inRange = true) :
    (tg.scatter f n m).inRange = true := by
  induction n with
  | zero => exact h
  | succ n ih =>
    rw [Target.scatter]
    have ih := ih (fun t ht => hn t (by omega))
    split
    · next a b ha hb => exact Memory.inRange_write b (hn n (by omega) a ha) ih
    · exact ih

theorem Target.inRange_emit {tg : Target} {v : Bytes} {m : Memory}
    (hv : ∀ t < v.length, ∀ a, tg.addrOf t = some a → a < addrSpace) (h : m.inRange = true) :
    (tg.emit v m).inRange = true := by
  cases tg with
  | nowhere => exact h
  | chunk p =>
    refine Memory.inRange_writeBytes ?_ h
    by_cases h0 : v.length = 0
    · exact .inl h0
    · have := hv (v.length - 1) (by omega) _ rfl
      exact .inr (by omega)
  | sink k =>
    have key : ∀ (w : Bytes) (off : Nat) (m : Memory), m.inRange = true →
        (∀ t < w.length, ∀ a, sinkAddr k.segs (off + t) = some a → a < addrSpace) →
        (sinkWrite k.segs off w m).inRange = true := by
      intro w
      induction w with
      | nil => intro _ _ h _; exact h
      | cons b w ih =>
        intro off m hm hw
        rw [sinkWrite]
        refine ih _ _ ?_ fun t ht a ha => hw (t + 1) (by simpa using ht) a (by rwa [Nat.add_right_comm] at ha)
        split
        · next a ha => exact Memory.inRange_write b (hw 0 (by simp) a ha) hm
        · exact hm
    exact key v _ m h hv

/-- The memory after reset has the canonical form. -/
theorem State.reset_mem_wf : State.reset.mem.wf = true := rfl

end Sys2Proof.Machine
end

