-- ==== Sys2Proof/Laws/Ops.lean ====
section
/-! SUPPORT. Laws/Ops.lean: one lemma per shared operation that says everything it can answer, for every instruction
built on it: OPEN, INIT, PROCESS, FINISH, PROCESS_LAST, DESTROY. -/

namespace Sys2Proof.Machine

/-- Running a rule on a context: no context there, another row's context, or the rule. -/
theorem State.onContext_next {s t : State} {k : BitVec 8} {sel : Mode → Dir → Bool} {off : Addr}
    {f : ModeContext → Host.Outcome State Fault Refusal} (h : s.onContext k sel off f = .next t) :
    ((∀ c, s.slot k ≠ some (.held c)) ∧ t = s.refuse off) ∨
    ∃ c, s.slot k = some (.held c) ∧ sel c.mode c.dir = true ∧ f c = .next t := by
  unfold State.onContext at h
  split at h
  · next c hc =>
    split at h
    · next hs => exact .inr ⟨c, hc, hs, h⟩
    · cases h
  · next hn =>
    refine .inl ⟨fun c hc => hn c hc, ?_⟩
    cases h; rfl

theorem State.onContext_held {s : State} {k : BitVec 8} {sel : Mode → Dir → Bool} {off : Addr} {c : ModeContext}
    {f : ModeContext → Host.Outcome State Fault Refusal} (hc : s.slot k = some (.held c))
    (hs : sel c.mode c.dir = true) : s.onContext k sel off f = f c := by
  simp only [State.onContext, hc, hs, if_true]

theorem State.onContext_refuse {s : State} {k : BitVec 8} {sel : Mode → Dir → Bool} {off : Addr}
    {f : ModeContext → Host.Outcome State Fault Refusal} (hc : ∀ c, s.slot k ≠ some (.held c)) :
    s.onContext k sel off f = .next (s.refuse off) := by
  unfold State.onContext
  split
  · next c h => exact absurd h (hc c)
  · rfl

theorem State.onContext_other {s : State} {k : BitVec 8} {sel : Mode → Dir → Bool} {off : Addr} {c : ModeContext}
    {f : ModeContext → Host.Outcome State Fault Refusal} (hc : s.slot k = some (.held c))
    (hs : sel c.mode c.dir = false) : s.onContext k sel off f = .refused .rowNotSelected := by
  simp [State.onContext, hc, hs]

/-- A stopped computation that answers raised an error. -/
theorem State.stop_next {s t : State} {k : BitVec 8} {c : ModeContext} {tg : Target} {n : Nat} {e : Stop}
    (h : s.stop k c tg n e = .next t) : ∃ r, e = .raise r ∧ t = s.raise k c tg n r := by
  cases e with
  | raise r => cases h; exact ⟨r, rfl, rfl⟩
  | noValue f => cases h

/-- R125: what OPEN can answer. -/
theorem openContext_next {P : Params} {mode : Mode} {k : BitVec 8} {d : Dir} {w : Bool} {ks : Addr} {s t : State}
    (h : openContext P mode k d w ks s = .next t) :
    (s.slot k ≠ some .free ∧ t = s.refuse 0) ∨
    (s.slot k = some .free ∧ t = s.complete k
      { state := .alloc, mode := mode, dir := d, ks := ks, ksOwned := w, blockSize := (P.cipher ks).bs,
        sess := Session.empty } .nowhere []) := by
  unfold openContext at h
  split at h
  · next hf => cases h; exact .inr ⟨hf, rfl⟩
  · next hn => cases h; exact .inl ⟨hn, rfl⟩

/-- R126 to R128, R211: what INIT can answer. -/
theorem runInit_next {P : Params} {R : InitRule} {k : BitVec 8} {o : InitOperands} {s t : State}
    (h : runInit P R k o s = .next t) :
    ((∀ c, s.slot k ≠ some (.held c)) ∧ t = s.refuse 0) ∨
    ∃ c, s.slot k = some (.held c) ∧ R.sel c.mode c.dir = true ∧
      ((∃ e, initSession P R c o s.mem = .error (.raise e) ∧ t = s.raise k c .nowhere 0 e) ∨
       (∃ x, initSession P R c o s.mem = .ok x ∧
          t = s.complete k ((c.withSess x).withState .ready) .nowhere [])) := by
  rcases State.onContext_next h with h | ⟨c, hc, hs, h⟩
  · exact .inl h
  · refine .inr ⟨c, hc, hs, ?_⟩
    split at h
    · next e he =>
      obtain ⟨r, rfl, rfl⟩ := State.stop_next h
      exact .inl ⟨r, he, rfl⟩
    · next x hx => cases h; exact .inr ⟨x, hx, rfl⟩

/-- R129: what PROCESS can answer. -/
theorem runProcess_next {P : Params} {R : ProcessRule} {k : BitVec 8} {p : Addr} {l : Len} {d : Dest} {s t : State}
    (h : runProcess P R k p l d s = .next t) :
    ((∀ c, s.slot k ≠ some (.held c)) ∧ t = s.refuse d.passedOff) ∨
    ∃ c, s.slot k = some (.held c) ∧ R.sel c.mode c.dir = true ∧
      ((∃ e, processChecks P (outLenProcess c l.toNat) (R.lengthOk c l.toNat) c p l d = .error (.raise e) ∧
          t = s.raise k c (targetOf p d) 0 e) ∨
       ∃ n, processChecks P (outLenProcess c l.toNat) (R.lengthOk c l.toNat) c p l d = .ok n ∧
        ((∃ e, R.body (P.cipher c.ks) c (s.mem.readBytes p.toNat l.toNat) = .error (.raise e) ∧
            t = s.raise k c (targetOf p d) n e) ∨
         (∃ x out, R.body (P.cipher c.ks) c (s.mem.readBytes p.toNat l.toNat) = .ok (x, out) ∧
            t = s.complete k (c.withSess x) (targetOf p d) out))) := by
  rcases State.onContext_next h with h | ⟨c, hc, hs, h⟩
  · exact .inl h
  · refine .inr ⟨c, hc, hs, ?_⟩
    split at h
    · next e he =>
      obtain ⟨r, rfl, rfl⟩ := State.stop_next h
      exact .inl ⟨r, he, rfl⟩
    · next n hn =>
      refine .inr ⟨n, hn, ?_⟩
      split at h
      · next e he =>
        obtain ⟨r, rfl, rfl⟩ := State.stop_next h
        exact .inl ⟨r, he, rfl⟩
      · next x out hx => cases h; exact .inr ⟨x, out, hx, rfl⟩

/-- R132: what FINISH can answer. -/
theorem runFinish_next {P : Params} {R : FinishRule} {k : BitVec 8} {snk : SinkOperand} {s t : State}
    (h : runFinish P R k snk s = .next t) :
    ((∀ c, s.slot k ≠ some (.held c)) ∧ t = s.refuse snk.off) ∨
    ∃ c, s.slot k = some (.held c) ∧ R.sel c.mode c.dir = true ∧
      ((∃ e, finishChecks P c snk = .error (.raise e) ∧ t = s.raise k c (.sink snk) 0 e) ∨
       ∃ n, finishChecks P c snk = .ok n ∧
        ((∃ e, R.body (P.cipher c.ks) c = .error (.raise e) ∧ t = s.raise k c (.sink snk) n e) ∨
         (∃ x out, R.body (P.cipher c.ks) c = .ok (x, out) ∧
            t = s.complete k ((c.withSess x).withState .closed) (.sink snk) out))) := by
  rcases State.onContext_next h with h | ⟨c, hc, hs, h⟩
  · exact .inl h
  · refine .inr ⟨c, hc, hs, ?_⟩
    split at h
    · next e he =>
      obtain ⟨r, rfl, rfl⟩ := State.stop_next h
      exact .inl ⟨r, he, rfl⟩
    · next n hn =>
      refine .inr ⟨n, hn, ?_⟩
      split at h
      · next e he =>
        obtain ⟨r, rfl, rfl⟩ := State.stop_next h
        exact .inl ⟨r, he, rfl⟩
      · next x out hx => cases h; exact .inr ⟨x, out, hx, rfl⟩

/-- R133: what PROCESS_LAST can answer. -/
theorem runLast_next {P : Params} {R : Mode → Dir → ProcessRule} {F : Mode → Dir → FinishRule} {k : BitVec 8}
    {p : Addr} {l : Len} {d : Dest} {s t : State} (h : runLast P R F k p l d s = .next t) :
    ((∀ c, s.slot k ≠ some (.held c)) ∧ t = s.refuse d.passedOff) ∨
    ∃ c, s.slot k = some (.held c) ∧
      ((∃ e, processChecks P (outLenLast c l.toNat) (lastLengthOk c l.toNat) c p l d = .error (.raise e) ∧
          t = s.raise k c (targetOf p d) 0 e) ∨
       ∃ n, processChecks P (outLenLast c l.toNat) (lastLengthOk c l.toNat) c p l d = .ok n ∧
        ((∃ e, lastBody (R c.mode c.dir) (F c.mode c.dir) (P.cipher c.ks) c (s.mem.readBytes p.toNat l.toNat) =
              .error (.raise e) ∧ t = s.raise k c (targetOf p d) n e) ∨
         (∃ x out, lastBody (R c.mode c.dir) (F c.mode c.dir) (P.cipher c.ks) c
              (s.mem.readBytes p.toNat l.toNat) = .ok (x, out) ∧
            t = s.complete k ((c.withSess x).withState .closed) (targetOf p d) out))) := by
  rcases State.onContext_next h with h | ⟨c, hc, -, h⟩
  · exact .inl h
  · refine .inr ⟨c, hc, ?_⟩
    split at h
    · next e he =>
      obtain ⟨r, rfl, rfl⟩ := State.stop_next h
      exact .inl ⟨r, he, rfl⟩
    · next n hn =>
      refine .inr ⟨n, hn, ?_⟩
      split at h
      · next e he =>
        obtain ⟨r, rfl, rfl⟩ := State.stop_next h
        exact .inl ⟨r, he, rfl⟩
      · next x out hx => cases h; exact .inr ⟨x, out, hx, rfl⟩

/-- R134: what DESTROY can answer. -/
theorem execDestroy_next {k : BitVec 8} {s t : State} (h : execDestroy k s = .next t) :
    ((∀ c, s.slot k ≠ some (.held c)) ∧ t = s.refuse 0) ∨
    ∃ c, s.slot k = some (.held c) ∧
      t = ((if c.ksOwned then s.release c.ks else s).setSlot k .free).report .ok 0 0 := by
  unfold execDestroy at h
  split at h
  · next c hc => cases h; exact .inr ⟨c, hc, rfl⟩
  · next hn => cases h; exact .inl ⟨fun c hc => hn c hc, rfl⟩

/-- R129, steps 2 to 5: the operand checks pass exactly on admitted operands of a ready context. -/
theorem operandChecks_ok {P : Params} {c : ModeContext} {p : Addr} {l : Len} {d : Dest} {u : Unit} :
    operandChecks P c p l d = .ok u ↔ c.state = .ready ∧ OperandsAdmitted P c p l d := by
  have hin : inPlaceOk c p l d = .ok true ↔
      (isInPlace p l d = true → (c.mode = .ecb ∨ c.mode = .cbc) ∧ c.sess.remainder = some []) := by
    unfold inPlaceOk
    cases hi : isInPlace p l d
    · simp
    · cases hm : c.mode <;> cases hr : c.sess.remainder <;>
        simp [remainderLen, need, hr]
  simp only [operandChecks, Run.bind_ok, check_eq_ok, exists_and_left, exists_const, beq_iff_eq,
    Bool.or_eq_true, Bool.not_eq_true']
  constructor
  · rintro ⟨h1, h2, h3, b, h4, rfl, h5⟩
    exact ⟨h1, h2, h3, hin.mp h4, h5⟩
  · rintro ⟨h1, h2, h3, h4, h5⟩
    exact ⟨h1, h2, h3, true, hin.mpr h4, rfl, h5⟩

/-- R129, steps 1 to 8: the checks of PROCESS pass exactly when the context is ready, the operands are admitted, the
output fits and the length check passes. -/
theorem processChecks_ok {P : Params} {outLen : Run Nat} {lengthOk : Run Bool} {c : ModeContext} {p : Addr}
    {l : Len} {d : Dest} {n : Nat} :
    processChecks P outLen lengthOk c p l d = .ok n ↔
      c.state = .ready ∧ OperandsAdmitted P c p l d ∧ outLen = .ok n ∧ (targetOf p d).fits n = true ∧
        lengthOk = .ok true := by
  simp only [processChecks, Run.bind_ok, operandChecks_ok, check_eq_ok]
  constructor
  · rintro ⟨_, ⟨h1, h2⟩, m, h3, _, h4, b, h5, _, h6, h7⟩
    cases h7; subst h6
    exact ⟨h1, h2, h3, h4, h5⟩
  · rintro ⟨h1, h2, h3, h4, h5⟩
    exact ⟨(), ⟨h1, h2⟩, n, h3, (), h4, true, h5, (), rfl, rfl⟩

/-- R132, steps 1 to 4: the checks of FINISH pass exactly when the context is ready, the sink well formed and the
output fits. -/
theorem finishChecks_ok {P : Params} {c : ModeContext} {snk : SinkOperand} {n : Nat} :
    finishChecks P c snk = .ok n ↔
      c.state = .ready ∧ sinkWf P.segMax c.blockSize snk = true ∧ outLenFinish c = .ok n ∧
        (Target.sink snk).fits n = true := by
  simp only [finishChecks, Run.bind_ok, check_eq_ok, beq_iff_eq]
  constructor
  · rintro ⟨_, h1, _, h2, m, h3, _, h4, h5⟩
    cases h5
    exact ⟨h1, h2, h3, h4⟩
  · rintro ⟨h1, h2, h3, h4⟩
    exact ⟨(), h1, (), h2, n, h3, (), h4, rfl⟩

/-! Raising. -/

/-- Every error leaves the slots, but for the context's own, which keeps what OPEN wrote. -/
theorem State.raise_slots (s : State) (k : BitVec 8) (c : ModeContext) (tg : Target) (n : Nat) (e : Raise) :
    (s.raise k c tg n e).slots = s.slots ∨
    ∃ x, (s.raise k c tg n e).slots = s.slots.set k.toNat (.held ((c.withSess x).withState .closed)) := by
  cases e with
  | protocol => exact .inl rfl
  | config => exact .inl rfl
  | bufferTooSmall => exact .inl rfl
  | lengthRange => exact .inr ⟨c.sess, rfl⟩
  | cipher => exact .inr ⟨_, rfl⟩
  | authFail x out => exact .inr ⟨x, rfl⟩

@[simp] theorem State.raise_inputs (s : State) (k : BitVec 8) (c : ModeContext) (tg : Target) (n : Nat) (e : Raise) :
    (s.raise k c tg n e).inputs = s.inputs := by
  cases e <;> rfl

@[simp] theorem State.raise_releases (s : State) (k : BitVec 8) (c : ModeContext) (tg : Target) (n : Nat)
    (e : Raise) : (s.raise k c tg n e).releases = s.releases := by
  cases e <;> rfl

@[simp] theorem State.raise_freeIx (s : State) (k : BitVec 8) (c : ModeContext) (tg : Target) (n : Nat)
    (e : Raise) : (s.raise k c tg n e).freeIx = s.freeIx + 1 := by
  cases e <;> rfl

/-- R293: every error but AUTH_FAIL and CIPHER leaves memory as it was. -/
theorem State.raise_mem (s : State) (k : BitVec 8) (c : ModeContext) (tg : Target) (n : Nat) (e : Raise) :
    (s.raise k c tg n e).mem = match e with
      | .authFail _ out => tg.emit out s.mem
      | .cipher => tg.scatter (Config.cipherFailure s.freeIx).bytes n s.mem
      | _ => s.mem := by
  cases e <;> rfl

@[simp] theorem State.complete_slots (s : State) (k : BitVec 8) (c : ModeContext) (tg : Target) (out : Bytes) :
    (s.complete k c tg out).slots = s.slots.set k.toNat (.held c) := rfl
@[simp] theorem State.complete_status (s : State) (k : BitVec 8) (c : ModeContext) (tg : Target) (out : Bytes) :
    (s.complete k c tg out).status = 0 := rfl
@[simp] theorem State.complete_outLen (s : State) (k : BitVec 8) (c : ModeContext) (tg : Target) (out : Bytes) :
    (s.complete k c tg out).outLen = outLenReg s.freeIx out.length := rfl
@[simp] theorem State.complete_sinkOff (s : State) (k : BitVec 8) (c : ModeContext) (tg : Target) (out : Bytes) :
    (s.complete k c tg out).sinkOff = sinkOffReg s.freeIx (tg.offAfter out.length) := rfl
@[simp] theorem State.complete_mem (s : State) (k : BitVec 8) (c : ModeContext) (tg : Target) (out : Bytes) :
    (s.complete k c tg out).mem = tg.emit out s.mem := rfl
@[simp] theorem State.complete_releases (s : State) (k : BitVec 8) (c : ModeContext) (tg : Target) (out : Bytes) :
    (s.complete k c tg out).releases = s.releases := rfl
@[simp] theorem State.complete_inputs (s : State) (k : BitVec 8) (c : ModeContext) (tg : Target) (out : Bytes) :
    (s.complete k c tg out).inputs = s.inputs := rfl
@[simp] theorem State.complete_freeIx (s : State) (k : BitVec 8) (c : ModeContext) (tg : Target) (out : Bytes) :
    (s.complete k c tg out).freeIx = s.freeIx + 1 := rfl

end Sys2Proof.Machine
end

