-- ==== Sys2Proof/Laws/Bodies.lean ====
section
/-! SUPPORT. Laws/Bodies.lean: what the bodies of PROCESS and FINISH answer, one lemma for all rows: which session
fields a body may change, and that it writes no more than `out_len` (R142). -/

namespace Sys2Proof.Machine

/-- R43(b), R47: the session fields no PROCESS or FINISH changes. -/
structure Session.SameFixed (x y : Session) : Prop where
  ctrBits : y.ctrBits = x.ctrBits
  H : y.H = x.H
  hTable : y.hTable = x.hTable
  J0 : y.J0 = x.J0
  tagLen : y.tagLen = x.tagLen

theorem Session.SameFixed.refl (x : Session) : x.SameFixed x := ⟨rfl, rfl, rfl, rfl, rfl⟩

theorem Session.SameFixed.trans {x y z : Session} (h : x.SameFixed y) (k : y.SameFixed z) : x.SameFixed z :=
  ⟨k.ctrBits.trans h.ctrBits, k.H.trans h.H, k.hTable.trans h.hTable, k.J0.trans h.J0, k.tagLen.trans h.tagLen⟩

theorem assemble_ok {bs : Nat} {c : ModeContext} {data : Bytes} {Xs : List Bytes} {rest : Bytes}
    (h : assemble bs c data = .ok (Xs, rest)) :
    ∃ r, c.sess.remainder = some r ∧ Xs = blocksOf bs ((r ++ data).length / bs) (r ++ data) ∧
      rest = (r ++ data).drop ((r ++ data).length / bs * bs) := by
  obtain ⟨r, hr, h⟩ := Run.bind_ok.mp h
  cases h
  exact ⟨r, need_eq_ok.mp hr, rfl, rfl⟩

theorem assemble_error {bs : Nat} {c : ModeContext} {data : Bytes} {e : Stop} (h : assemble bs c data = .error e) :
    c.sess.remainder = none := by
  rcases Run.bind_error.mp h with h | ⟨r, -, h⟩
  · exact (need_eq_error.mp h).1
  · cases h

theorem assemble_some {c : ModeContext} {r : Bytes} (bs : Nat) (data : Bytes) (h : c.sess.remainder = some r) :
    assemble bs c data = .ok (blocksOf bs ((r ++ data).length / bs) (r ++ data),
      (r ++ data).drop ((r ++ data).length / bs * bs)) := by
  simp [assemble, h]

theorem remainderLen_some {c : ModeContext} {r : Bytes} (h : c.sess.remainder = some r) :
    remainderLen c = .ok r.length := by simp [remainderLen, h]

theorem laLen_some {c : ModeContext} {a : Bytes} (h : c.sess.la = some a) : laLen c = .ok a.length := by
  simp [laLen, h]

theorem tagLen_some {c : ModeContext} {g : Nat} (h : c.sess.tagLen = some g) : tagLen c = .ok g := by
  simp [tagLen, h]

theorem processedLen_some {c : ModeContext} {p : BitVec 64} (h : c.sess.processed = some p) :
    processedLen c = .ok p.toNat := by simp [processedLen, h]

theorem gcmAcc_ok {c : ModeContext} {a : GcmAcc} : gcmAcc c = .ok a ↔
    c.sess.cb = some a.cb ∧ c.sess.ghash = some a.ghash ∧ c.sess.processed = some a.processed := by
  simp only [gcmAcc, Run.bind_ok, need_eq_ok]
  constructor
  · rintro ⟨x, h1, y, h2, z, h3, h4⟩; cases h4; exact ⟨h1, h2, h3⟩
  · rintro ⟨h1, h2, h3⟩; exact ⟨_, h1, _, h2, _, h3, rfl⟩

/-! PROCESS. -/

/-- R47: PROCESS leaves the fixed fields and the length block. -/
theorem processBody_fixed {C : Cipher} {c : ModeContext} {m : Mode} {d : Dir} {data out : Bytes} {x : Session}
    (h : (processRuleOf m d).body C c data = .ok (x, out)) :
    c.sess.SameFixed x ∧ x.lenALenC = c.sess.lenALenC := by
  have ecb : ∀ F, ecbBody F c data = .ok (x, out) → c.sess.SameFixed x ∧ x.lenALenC = c.sess.lenALenC := by
    intro F h
    obtain ⟨⟨Xs, rest⟩, -, h⟩ := Run.bind_ok.mp h
    obtain ⟨Ys, -, h⟩ := Run.bind_ok.mp h
    cases h
    exact ⟨⟨rfl, rfl, rfl, rfl, rfl⟩, rfl⟩
  have cbc : ∀ F, cbcBody F c data = .ok (x, out) → c.sess.SameFixed x ∧ x.lenALenC = c.sess.lenALenC := by
    intro F h
    obtain ⟨cb, -, h⟩ := Run.bind_ok.mp h
    obtain ⟨⟨Xs, rest⟩, -, h⟩ := Run.bind_ok.mp h
    obtain ⟨⟨cb', Ys⟩, -, h⟩ := Run.bind_ok.mp h
    cases h
    exact ⟨⟨rfl, rfl, rfl, rfl, rfl⟩, rfl⟩
  have ctr : ctrBody C c data = .ok (x, out) → c.sess.SameFixed x ∧ x.lenALenC = c.sess.lenALenC := by
    intro h
    obtain ⟨cb, -, h⟩ := Run.bind_ok.mp h
    obtain ⟨n, -, h⟩ := Run.bind_ok.mp h
    obtain ⟨⟨Xs, rest⟩, -, h⟩ := Run.bind_ok.mp h
    obtain ⟨⟨cb', Ys⟩, -, h⟩ := Run.bind_ok.mp h
    cases h
    exact ⟨⟨rfl, rfl, rfl, rfl, rfl⟩, rfl⟩
  cases m <;> cases d
  · exact ecb _ h
  · exact ecb _ h
  · exact cbc _ h
  · exact cbc _ h
  · exact ctr h
  · exact ctr h
  · obtain ⟨H, -, h⟩ := Run.bind_ok.mp h
    obtain ⟨a, -, h⟩ := Run.bind_ok.mp h
    obtain ⟨⟨Xs, rest⟩, -, h⟩ := Run.bind_ok.mp h
    obtain ⟨⟨cb', Ys⟩, -, h⟩ := Run.bind_ok.mp h
    cases h
    exact ⟨⟨rfl, rfl, rfl, rfl, rfl⟩, rfl⟩
  · obtain ⟨H, -, h⟩ := Run.bind_ok.mp h
    obtain ⟨a, -, h⟩ := Run.bind_ok.mp h
    obtain ⟨la, -, h⟩ := Run.bind_ok.mp h
    obtain ⟨g, -, h⟩ := Run.bind_ok.mp h
    obtain ⟨⟨a', Ps⟩, -, h⟩ := Run.bind_ok.mp h
    cases h
    exact ⟨⟨rfl, rfl, rfl, rfl, rfl⟩, rfl⟩
  · cases h; exact ⟨.refl _, rfl⟩
  · obtain ⟨la, -, h⟩ := Run.bind_ok.mp h
    cases h
    exact ⟨⟨rfl, rfl, rfl, rfl, rfl⟩, rfl⟩

/-- R142: PROCESS writes no more than `out_len`, in any context. -/
theorem processBody_le {C : Cipher} {c : ModeContext} {data out : Bytes} {x : Session}
    (h : (processRuleOf c.mode c.dir).body C c data = .ok (x, out)) :
    out.length ≤ countOf (outLenProcess c data.length) := by
  have blocks : ∀ (r : Bytes), c.sess.remainder = some r →
      (blocksOf c.blockSize ((r ++ data).length / c.blockSize) (r ++ data)).flatten.length ≤
        c.blockSize * ((r.length + data.length) / c.blockSize) := by
    intro r _
    have := blocksOf_flatten_le c.blockSize ((r ++ data).length / c.blockSize) (r ++ data)
    rwa [List.length_append] at this ⊢
  have ecb : ∀ F, BlockFn F → ecbBody F c data = .ok (x, out) → ∃ r, c.sess.remainder = some r ∧
      out.length ≤ c.blockSize * ((r.length + data.length) / c.blockSize) := by
    intro F hF h
    obtain ⟨⟨Xs, rest⟩, h1, h⟩ := Run.bind_ok.mp h
    obtain ⟨Ys, h2, h⟩ := Run.bind_ok.mp h
    cases h
    obtain ⟨r, hr, rfl, -⟩ := assemble_ok h1
    exact ⟨r, hr, (ecbLoop_length hF h2).le.trans (blocks r hr)⟩
  have cbc : ∀ F : Bytes → List Bytes → Run (Bytes × List Bytes),
      (∀ {cb cb' Xs Ys}, F cb Xs = .ok (cb', Ys) → Ys.flatten.length ≤ Xs.flatten.length) →
      cbcBody F c data = .ok (x, out) → ∃ r, c.sess.remainder = some r ∧
      out.length ≤ c.blockSize * ((r.length + data.length) / c.blockSize) := by
    intro F hF h
    obtain ⟨cb, -, h⟩ := Run.bind_ok.mp h
    obtain ⟨⟨Xs, rest⟩, h1, h⟩ := Run.bind_ok.mp h
    obtain ⟨⟨cb', Ys⟩, h2, h⟩ := Run.bind_ok.mp h
    cases h
    obtain ⟨r, hr, rfl, -⟩ := assemble_ok h1
    exact ⟨r, hr, (hF h2).trans (blocks r hr)⟩
  have ctr : ctrBody C c data = .ok (x, out) → ∃ r, c.sess.remainder = some r ∧
      out.length ≤ c.blockSize * ((r.length + data.length) / c.blockSize) := by
    intro h
    obtain ⟨cb, -, h⟩ := Run.bind_ok.mp h
    obtain ⟨n, -, h⟩ := Run.bind_ok.mp h
    obtain ⟨⟨Xs, rest⟩, h1, h⟩ := Run.bind_ok.mp h
    obtain ⟨⟨cb', Ys⟩, h2, h⟩ := Run.bind_ok.mp h
    cases h
    obtain ⟨r, hr, rfl, -⟩ := assemble_ok h1
    exact ⟨r, hr, (ctrLoop_le h2).trans (blocks r hr)⟩
  cases hm : c.mode <;> cases hd : c.dir <;> rw [hm, hd] at h <;> simp only [outLenProcess, hm, hd]
  · obtain ⟨r, hr, hl⟩ := ecb _ (.enc C) h
    simpa [remainderLen_some hr, countOf] using hl
  · obtain ⟨r, hr, hl⟩ := ecb _ (.dec C) h
    simpa [remainderLen_some hr, countOf] using hl
  · obtain ⟨r, hr, hl⟩ := cbc _ (fun h => cbcEncLoop_le h) h
    simpa [remainderLen_some hr, countOf] using hl
  · obtain ⟨r, hr, hl⟩ := cbc _ (fun h => cbcDecLoop_le h) h
    simpa [remainderLen_some hr, countOf] using hl
  · obtain ⟨r, hr, hl⟩ := ctr h
    simpa [remainderLen_some hr, countOf] using hl
  · obtain ⟨r, hr, hl⟩ := ctr h
    simpa [remainderLen_some hr, countOf] using hl
  · obtain ⟨H, -, h⟩ := Run.bind_ok.mp h
    obtain ⟨a, -, h⟩ := Run.bind_ok.mp h
    obtain ⟨⟨Xs, rest⟩, h1, h⟩ := Run.bind_ok.mp h
    obtain ⟨⟨a', Ys⟩, h2, h⟩ := Run.bind_ok.mp h
    cases h
    obtain ⟨r, hr, rfl, -⟩ := assemble_ok h1
    have h3 := (gcmEncLoop_le h2).trans (blocksOf_flatten_le 16 ((r ++ data).length / 16) (r ++ data))
    rw [List.length_append] at h3
    simpa [remainderLen_some hr, countOf] using h3
  · obtain ⟨H, -, h⟩ := Run.bind_ok.mp h
    obtain ⟨a, -, h⟩ := Run.bind_ok.mp h
    obtain ⟨la, hla, h⟩ := Run.bind_ok.mp h
    obtain ⟨g, hg, h⟩ := Run.bind_ok.mp h
    obtain ⟨⟨a', Ps⟩, h2, h⟩ := Run.bind_ok.mp h
    cases h
    have h3 := (gcmDecLoop_le h2).trans (blocksOf_flatten_le 16 _ _)
    rw [List.length_append] at h3
    simpa [laLen_some (need_eq_ok.mp hla), hg, countOf] using h3
  · cases h; simp
  · obtain ⟨la, -, h⟩ := Run.bind_ok.mp h
    cases h; simp

/-! FINISH. -/

theorem gcmTag_ok {K : Cipher} {H T : Bytes} {x y : Session} {a : GcmAcc} (h : gcmTag K H x a = .ok (y, T)) :
    ∃ l J M, x.lenALenC = some l ∧ x.J0 = some J ∧ cipherEnc K J = .ok M ∧
      y = { x.withAcc { a with ghash := ghashAcc H a.ghash (l.take 8 ++ beBytes 8 (8 * a.processed.toNat)) } with
            lenALenC := some (l.take 8 ++ beBytes 8 (8 * a.processed.toNat)) } ∧
      T = xorBytes (ghashAcc H a.ghash (l.take 8 ++ beBytes 8 (8 * a.processed.toNat))) M := by
  obtain ⟨l, hl, h⟩ := Run.bind_ok.mp h
  obtain ⟨J, hJ, h⟩ := Run.bind_ok.mp h
  obtain ⟨M, hM, h⟩ := Run.bind_ok.mp h
  cases h
  exact ⟨l, J, M, need_eq_ok.mp hl, need_eq_ok.mp hJ, hM, rfl, rfl⟩

theorem gcmTag_stops {K : Cipher} {H : Bytes} {x : Session} {a : GcmAcc} {Q : Stop → Prop} (hc : Q (.raise .cipher))
    (hl : x.lenALenC = none → Q (.noValue .lenALenC)) (hJ : x.J0 = none → Q (.noValue .J0)) :
    (gcmTag K H x a).Stops Q :=
  .bind (fun e he => by obtain ⟨h1, rfl⟩ := need_eq_error.mp he; exact hl h1) fun _ _ =>
    .bind (fun e he => by obtain ⟨h1, rfl⟩ := need_eq_error.mp he; exact hJ h1) fun _ _ =>
      .bind (.enc hc) fun _ _ => .ok _

theorem gcmEncPartial_le {K : Cipher} {H : Bytes} {a a' : GcmAcc} {r Y : Bytes}
    (h : gcmEncPartial K H a r = .ok (a', Y)) : Y.length ≤ r.length := by
  unfold gcmEncPartial at h
  split at h
  · cases h; simp
  · obtain ⟨KS, -, h⟩ := Run.bind_ok.mp h
    cases h; simp

theorem gcmDecPartial_le {K : Cipher} {H : Bytes} {a a' : GcmAcc} {r P : Bytes}
    (h : gcmDecPartial K H a r = .ok (a', P)) : P.length ≤ r.length := by
  unfold gcmDecPartial at h
  split at h
  · cases h; simp
  · obtain ⟨KS, -, h⟩ := Run.bind_ok.mp h
    cases h; simp

theorem gcmEncPartial_stops {K : Cipher} {H : Bytes} {a : GcmAcc} {r : Bytes} {Q : Stop → Prop}
    (hc : Q (.raise .cipher)) : (gcmEncPartial K H a r).Stops Q := by
  unfold gcmEncPartial
  split
  · exact .ok _
  · exact .bind (.enc hc) fun _ _ => .ok _

theorem gcmDecPartial_stops {K : Cipher} {H : Bytes} {a : GcmAcc} {r : Bytes} {Q : Stop → Prop}
    (hc : Q (.raise .cipher)) : (gcmDecPartial K H a r).Stops Q := by
  unfold gcmDecPartial
  split
  · exact .ok _
  · exact .bind (.enc hc) fun _ _ => .ok _

/-- R221: what FINISH of encryption answers. -/
theorem gcmFinishEnc_ok {K : Cipher} {c : ModeContext} {r out : Bytes} {x : Session}
    (h : gcmFinishEnc K c r = .ok (x, out)) :
    ∃ H a g a' Y T, c.sess.H = some H ∧ gcmAcc c = .ok a ∧ c.sess.tagLen = some g ∧
      gcmEncPartial K H a r = .ok (a', Y) ∧ gcmTag K H c.sess a' = .ok (x, T) ∧ out = Y ++ T.take g := by
  obtain ⟨H, hH, h⟩ := Run.bind_ok.mp h
  obtain ⟨a, ha, h⟩ := Run.bind_ok.mp h
  obtain ⟨g, hg, h⟩ := Run.bind_ok.mp h
  obtain ⟨⟨a', Y⟩, hY, h⟩ := Run.bind_ok.mp h
  obtain ⟨⟨y, T⟩, hT, h⟩ := Run.bind_ok.mp h
  cases h
  exact ⟨H, a, g, a', Y, T, need_eq_ok.mp hH, ha, need_eq_ok.mp hg, hY, hT, rfl⟩

/-- R222: what FINISH of decryption answers: the plaintext when the tags agree. -/
theorem gcmFinishDec_ok {K : Cipher} {c : ModeContext} {r t out : Bytes} {x : Session}
    (h : gcmFinishDec K c r t = .ok (x, out)) :
    ∃ H a g a' T, c.sess.H = some H ∧ gcmAcc c = .ok a ∧ c.sess.tagLen = some g ∧
      gcmDecPartial K H a r = .ok (a', out) ∧ gcmTag K H c.sess a' = .ok (x, T) ∧ tagEqual (T.take g) t = true := by
  obtain ⟨H, hH, h⟩ := Run.bind_ok.mp h
  obtain ⟨a, ha, h⟩ := Run.bind_ok.mp h
  obtain ⟨g, hg, h⟩ := Run.bind_ok.mp h
  obtain ⟨⟨a', P⟩, hY, h⟩ := Run.bind_ok.mp h
  obtain ⟨⟨y, T⟩, hT, h⟩ := Run.bind_ok.mp h
  obtain ⟨u, hu, h⟩ := Run.bind_ok.mp h
  cases h
  exact ⟨H, a, g, a', T, need_eq_ok.mp hH, ha, need_eq_ok.mp hg, hY, hT, check_eq_ok.mp hu⟩

theorem gcmTag_fixed {K : Cipher} {H T : Bytes} {x y : Session} {a : GcmAcc} (h : gcmTag K H x a = .ok (y, T)) :
    x.SameFixed y := by
  obtain ⟨l, J, M, -, -, -, rfl, -⟩ := gcmTag_ok h
  exact ⟨rfl, rfl, rfl, rfl, rfl⟩

/-- R284: how FINISH stops: CIPHER; LENGTH_RANGE; AUTH_FAIL, which leaves the fixed fields and writes nothing; or a
read of what holds no value. -/
inductive FinishStop (x : Session) : Stop → Prop where
  | cipher : FinishStop x (.raise .cipher)
  | lengthRange : FinishStop x (.raise .lengthRange)
  | authFail (y : Session) (h : x.SameFixed y) : FinishStop x (.raise (.authFail y []))
  | noValue (f : Field) : FinishStop x (.noValue f)

theorem gcmAcc_stops {c : ModeContext} : (gcmAcc c).Stops (FinishStop c.sess) :=
  .bind (.need (.noValue _)) fun _ _ => .bind (.need (.noValue _)) fun _ _ =>
    .bind (.need (.noValue _)) fun _ _ => .ok _

theorem gcmFinishEnc_stops {K : Cipher} {c : ModeContext} {r : Bytes} :
    (gcmFinishEnc K c r).Stops (FinishStop c.sess) :=
  .bind (.need (.noValue _)) fun _ _ => .bind gcmAcc_stops fun _ _ => .bind (.need (.noValue _)) fun _ _ =>
    .bind (gcmEncPartial_stops .cipher) fun _ _ =>
      .bind (gcmTag_stops .cipher (fun _ => .noValue _) (fun _ => .noValue _)) fun _ _ => .ok _

theorem gcmFinishDec_stops {K : Cipher} {c : ModeContext} {r t : Bytes} :
    (gcmFinishDec K c r t).Stops (FinishStop c.sess) :=
  .bind (.need (.noValue _)) fun _ _ => .bind gcmAcc_stops fun _ _ => .bind (.need (.noValue _)) fun _ _ =>
    .bind (gcmDecPartial_stops .cipher) fun _ _ =>
      .bind (gcmTag_stops .cipher (fun _ => .noValue _) (fun _ => .noValue _)) fun _ h =>
        .bind (.check fun _ => .authFail _ (gcmTag_fixed h)) fun _ _ => .ok _

theorem remainderLen_stops {c : ModeContext} : (remainderLen c).Stops (FinishStop c.sess) :=
  .bind (.need (.noValue _)) fun _ _ => .ok _

/-- How any FINISH body stops. -/
theorem finishBody_stops {C : Cipher} {c : ModeContext} {m : Mode} {d : Dir} :
    ((finishRuleOf m d).body C c).Stops (FinishStop c.sess) := by
  cases m
  · exact .bind remainderLen_stops fun _ _ => .bind (.check fun _ => .lengthRange) fun _ _ => .ok _
  · exact .bind remainderLen_stops fun _ _ => .bind (.check fun _ => .lengthRange) fun _ _ => .ok _
  · refine .bind (.need (.noValue _)) fun r _ => ?_
    split
    · exact .ok _
    · exact .bind (.need (.noValue _)) fun _ _ => .bind (.enc .cipher) fun _ _ => .ok _
  · cases d
    · exact .bind (.need (.noValue _)) fun _ _ => gcmFinishEnc_stops
    · exact .bind (.need (.noValue _)) fun _ _ => .bind (.need (.noValue _)) fun _ _ =>
        .bind (.check fun _ => .lengthRange) fun _ _ => gcmFinishDec_stops
  · cases d
    · exact gcmFinishEnc_stops
    · exact .bind (.need (.noValue _)) fun _ _ => .bind (.need (.noValue _)) fun _ _ =>
        .bind (.check fun _ => .lengthRange) fun _ _ => gcmFinishDec_stops

/-- R47: FINISH leaves the fixed fields. -/
theorem finishBody_fixed {C : Cipher} {c : ModeContext} {m : Mode} {d : Dir} {x : Session} {out : Bytes}
    (h : (finishRuleOf m d).body C c = .ok (x, out)) : c.sess.SameFixed x := by
  cases m
  · obtain ⟨_, -, h⟩ := Run.bind_ok.mp h
    obtain ⟨_, -, h⟩ := Run.bind_ok.mp h
    cases h; exact .refl _
  · obtain ⟨_, -, h⟩ := Run.bind_ok.mp h
    obtain ⟨_, -, h⟩ := Run.bind_ok.mp h
    cases h; exact .refl _
  · obtain ⟨r, -, h⟩ := Run.bind_ok.mp h
    split at h
    · cases h; exact .refl _
    · obtain ⟨_, -, h⟩ := Run.bind_ok.mp h
      obtain ⟨_, -, h⟩ := Run.bind_ok.mp h
      cases h; exact .refl _
  · cases d
    · obtain ⟨r, -, h⟩ := Run.bind_ok.mp h
      obtain ⟨H, a, g, a', Y, T, -, -, -, -, hT, -⟩ := gcmFinishEnc_ok h
      exact gcmTag_fixed hT
    · obtain ⟨la, -, h⟩ := Run.bind_ok.mp h
      obtain ⟨g, -, h⟩ := Run.bind_ok.mp h
      obtain ⟨u, -, h⟩ := Run.bind_ok.mp h
      obtain ⟨H, a, g, a', T, -, -, -, -, hT, -⟩ := gcmFinishDec_ok h
      exact gcmTag_fixed hT
  · cases d
    · obtain ⟨H, a, g, a', Y, T, -, -, -, -, hT, -⟩ := gcmFinishEnc_ok h
      exact gcmTag_fixed hT
    · obtain ⟨la, -, h⟩ := Run.bind_ok.mp h
      obtain ⟨g, -, h⟩ := Run.bind_ok.mp h
      obtain ⟨u, -, h⟩ := Run.bind_ok.mp h
      obtain ⟨H, a, g, a', T, -, -, -, -, hT, -⟩ := gcmFinishDec_ok h
      exact gcmTag_fixed hT

/-- R142: FINISH writes no more than `out_len`, in any context. -/
theorem finishBody_le {C : Cipher} {c : ModeContext} {x : Session} {out : Bytes}
    (h : (finishRuleOf c.mode c.dir).body C c = .ok (x, out)) : out.length ≤ countOf (outLenFinish c) := by
  have ecb : (do
      let r ← remainderLen c
      check (r == 0) .lengthRange
      .ok (c.sess, []) : Run (Session × Bytes)) = .ok (x, out) → out = [] := by
    intro h
    obtain ⟨_, -, h⟩ := Run.bind_ok.mp h
    obtain ⟨_, -, h⟩ := Run.bind_ok.mp h
    cases h; rfl
  have enc : ∀ r, gcmFinishEnc C c r = .ok (x, out) → ∃ g, c.sess.tagLen = some g ∧ out.length ≤ r.length + g := by
    intro r h
    obtain ⟨H, a, g, a', Y, T, -, -, hg, hY, -, rfl⟩ := gcmFinishEnc_ok h
    have := gcmEncPartial_le hY
    refine ⟨g, hg, ?_⟩
    rw [List.length_append, List.length_take]
    omega
  cases hm : c.mode <;> cases hd : c.dir <;> rw [hm, hd] at h <;> simp only [outLenFinish, hm, hd]
  · simp [ecb h]
  · simp [ecb h]
  · simp [ecb h]
  · simp [ecb h]
  · obtain ⟨r, hr, h⟩ := Run.bind_ok.mp h
    have hr := need_eq_ok.mp hr
    split at h
    · cases h; simp
    · obtain ⟨_, -, h⟩ := Run.bind_ok.mp h
      obtain ⟨_, -, h⟩ := Run.bind_ok.mp h
      cases h
      simp [remainderLen_some hr, countOf]
  · obtain ⟨r, hr, h⟩ := Run.bind_ok.mp h
    have hr := need_eq_ok.mp hr
    split at h
    · cases h; simp
    · obtain ⟨_, -, h⟩ := Run.bind_ok.mp h
      obtain ⟨_, -, h⟩ := Run.bind_ok.mp h
      cases h
      simp [remainderLen_some hr, countOf]
  · obtain ⟨r, hr, h⟩ := Run.bind_ok.mp h
    have hr := need_eq_ok.mp hr
    obtain ⟨g, hg, hl⟩ := enc _ h
    simpa [remainderLen_some hr, tagLen_some hg, countOf] using hl
  · obtain ⟨la, hla, h⟩ := Run.bind_ok.mp h
    obtain ⟨g, hg, h⟩ := Run.bind_ok.mp h
    obtain ⟨u, hu, h⟩ := Run.bind_ok.mp h
    have hu : g ≤ la.length := by simpa using hu
    obtain ⟨H, a, g', a', T, -, -, -, hP, -, -⟩ := gcmFinishDec_ok h
    have := gcmDecPartial_le hP
    rw [List.length_take] at this
    simp [laLen_some (need_eq_ok.mp hla), hg, countOf, hu]
    omega
  · obtain ⟨g, hg, hl⟩ := enc _ h
    simpa [tagLen_some hg, countOf] using hl
  · obtain ⟨la, hla, h⟩ := Run.bind_ok.mp h
    obtain ⟨g, hg, h⟩ := Run.bind_ok.mp h
    obtain ⟨u, hu, h⟩ := Run.bind_ok.mp h
    obtain ⟨H, a, g', a', T, -, -, -, hP, -, -⟩ := gcmFinishDec_ok h
    have := gcmDecPartial_le hP
    simp only [List.length_nil, Nat.le_zero, List.length_eq_zero_iff] at this
    simp [this]

/-! PROCESS_LAST. -/

/-- How any PROCESS body stops: CIPHER, or a read of what holds no value. -/
theorem processBody_stops {C : Cipher} {c : ModeContext} {m : Mode} {d : Dir} {data : Bytes} :
    ((processRuleOf m d).body C c data).Stops (fun e => e = .raise .cipher ∨ ∃ f, e = .noValue f) := by
  have asm : ∀ bs, (assemble bs c data).Stops (fun e => e = .raise .cipher ∨ ∃ f, e = .noValue f) := fun bs =>
    .bind (.need (.inr ⟨_, rfl⟩)) fun _ _ => .ok _
  have ecb : ∀ F, BlockFn F → (ecbBody F c data).Stops (fun e => e = .raise .cipher ∨ ∃ f, e = .noValue f) :=
    fun F hF => .bind (asm _) fun _ _ => .bind (fun e he => .inl (ecbLoop_error hF he)) fun _ _ => .ok _
  have acc : (gcmAcc c).Stops (fun e => e = .raise .cipher ∨ ∃ f, e = .noValue f) :=
    .bind (.need (.inr ⟨_, rfl⟩)) fun _ _ => .bind (.need (.inr ⟨_, rfl⟩)) fun _ _ =>
      .bind (.need (.inr ⟨_, rfl⟩)) fun _ _ => .ok _
  have ctr : (ctrBody C c data).Stops (fun e => e = .raise .cipher ∨ ∃ f, e = .noValue f) :=
    .bind (.need (.inr ⟨_, rfl⟩)) fun _ _ => .bind (.need (.inr ⟨_, rfl⟩)) fun _ _ => .bind (asm _) fun _ _ =>
      .bind (fun e he => .inl (ctrLoop_error he)) fun _ _ => .ok _
  cases m <;> cases d
  · exact ecb _ (.enc C)
  · exact ecb _ (.dec C)
  · exact .bind (.need (.inr ⟨_, rfl⟩)) fun _ _ => .bind (asm _) fun _ _ =>
      .bind (fun e he => .inl (cbcEncLoop_error he)) fun _ _ => .ok _
  · exact .bind (.need (.inr ⟨_, rfl⟩)) fun _ _ => .bind (asm _) fun _ _ =>
      .bind (fun e he => .inl (cbcDecLoop_error he)) fun _ _ => .ok _
  · exact ctr
  · exact ctr
  · exact .bind (.need (.inr ⟨_, rfl⟩)) fun _ _ => .bind acc fun _ _ => .bind (asm _) fun _ _ =>
      .bind (fun e he => .inl (gcmEncLoop_error he)) fun _ _ => .ok _
  · exact .bind (.need (.inr ⟨_, rfl⟩)) fun _ _ => .bind acc fun _ _ => .bind (.need (.inr ⟨_, rfl⟩)) fun _ _ =>
      .bind (.need (.inr ⟨_, rfl⟩)) fun _ _ => .bind (fun e he => .inl (gcmDecLoop_error he)) fun _ _ => .ok _
  · exact .ok _
  · exact .bind (.need (.inr ⟨_, rfl⟩)) fun _ _ => .ok _

/-- R133: what the body of PROCESS_LAST answers: PROCESS, then FINISH on what it leaves. -/
theorem lastBody_ok {R : ProcessRule} {F : FinishRule} {C : Cipher} {c : ModeContext} {data out : Bytes} {y : Session}
    (h : lastBody R F C c data = .ok (y, out)) :
    ∃ x o1 o2, R.body C c data = .ok (x, o1) ∧ F.body C (c.withSess x) = .ok (y, o2) ∧ out = o1 ++ o2 := by
  obtain ⟨⟨x, o1⟩, h1, h⟩ := Run.bind_ok.mp h
  obtain ⟨⟨y', o2⟩, h2, h⟩ := Run.bind_ok.mp h
  cases h
  refine ⟨x, o1, o2, h1, ?_, rfl⟩
  unfold afterOutput at h2
  split at h2
  · cases h2
  · exact h2

/-- R133, R284: how the body of PROCESS_LAST stops: in PROCESS, or in FINISH; an AUTH_FAIL carries the bytes of the
PROCESS part. -/
theorem lastBody_error {R : ProcessRule} {F : FinishRule} {C : Cipher} {c : ModeContext} {data : Bytes} {e : Stop}
    (h : lastBody R F C c data = .error e) :
    R.body C c data = .error e ∨ ∃ x o1, R.body C c data = .ok (x, o1) ∧
      ((∃ y o, F.body C (c.withSess x) = .error (.raise (.authFail y o)) ∧ e = .raise (.authFail y (o1 ++ o))) ∨
       (F.body C (c.withSess x) = .error e ∧ ∀ y o, e ≠ .raise (.authFail y o))) := by
  rcases Run.bind_error.mp h with h | ⟨⟨x, o1⟩, h1, h⟩
  · exact .inl h
  · refine .inr ⟨x, o1, h1, ?_⟩
    rcases Run.bind_error.mp h with h | ⟨_, -, h⟩
    · unfold afterOutput at h
      split at h
      · next y o hF => cases h; exact .inl ⟨y, o, hF, rfl⟩
      · next hn => exact .inr ⟨h, fun y o he => hn y o (he ▸ h)⟩
    · cases h

/-- R142: `out_len` of PROCESS and then of FINISH make up no more than `out_len` of PROCESS_LAST. -/
theorem outLen_last_le {C : Cipher} {c : ModeContext} {data out : Bytes} {x : Session} {n : Nat}
    (hn : outLenLast c data.length = .ok n) (h : (processRuleOf c.mode c.dir).body C c data = .ok (x, out)) :
    countOf (outLenProcess c data.length) + countOf (outLenFinish (c.withSess x)) ≤ n := by
  have hn' : n = countOf (outLenLast c data.length) := by rw [hn]; rfl
  rw [hn']
  have ecb : ∀ F, ecbBody F c data = .ok (x, out) → ∃ r, c.sess.remainder = some r := by
    intro F h
    obtain ⟨⟨Xs, rest⟩, h1, h⟩ := Run.bind_ok.mp h
    obtain ⟨r, hr, -⟩ := assemble_ok h1
    exact ⟨r, hr⟩
  have cbc : ∀ F, cbcBody F c data = .ok (x, out) → ∃ r, c.sess.remainder = some r := by
    intro F h
    obtain ⟨cb, -, h⟩ := Run.bind_ok.mp h
    obtain ⟨⟨Xs, rest⟩, h1, h⟩ := Run.bind_ok.mp h
    obtain ⟨r, hr, -⟩ := assemble_ok h1
    exact ⟨r, hr⟩
  have ctr : ctrBody C c data = .ok (x, out) → ∃ r, c.sess.remainder = some r ∧
      x.remainder = some ((r ++ data).drop ((r ++ data).length / c.blockSize * c.blockSize)) := by
    intro h
    obtain ⟨cb, -, h⟩ := Run.bind_ok.mp h
    obtain ⟨n, -, h⟩ := Run.bind_ok.mp h
    obtain ⟨⟨Xs, rest⟩, h1, h⟩ := Run.bind_ok.mp h
    obtain ⟨⟨cb', Ys⟩, -, h⟩ := Run.bind_ok.mp h
    cases h
    obtain ⟨r, hr, -, rfl⟩ := assemble_ok h1
    exact ⟨r, hr, rfl⟩
  have hfix := (processBody_fixed h).1
  cases hm : c.mode <;> cases hd : c.dir <;> rw [hm, hd] at h <;>
    simp only [outLenProcess, outLenFinish, outLenLast, hm, hd, ModeContext.withSess_mode, ModeContext.withSess_dir]
  · obtain ⟨r, hr⟩ := ecb _ h
    have := Nat.mul_div_le (r.length + data.length) c.blockSize
    simpa [remainderLen_some hr, countOf] using this
  · obtain ⟨r, hr⟩ := ecb _ h
    have := Nat.mul_div_le (r.length + data.length) c.blockSize
    simpa [remainderLen_some hr, countOf] using this
  · obtain ⟨r, hr⟩ := cbc _ h
    have := Nat.mul_div_le (r.length + data.length) c.blockSize
    simpa [remainderLen_some hr, countOf] using this
  · obtain ⟨r, hr⟩ := cbc _ h
    have := Nat.mul_div_le (r.length + data.length) c.blockSize
    simpa [remainderLen_some hr, countOf] using this
  · obtain ⟨r, hr, hx⟩ := ctr h
    have := Nat.div_mul_le_self (r.length + data.length) c.blockSize
    simp [remainderLen_some hr, remainderLen_some (c := c.withSess x) hx, countOf, Nat.mul_comm c.blockSize]
    omega
  · obtain ⟨r, hr, hx⟩ := ctr h
    have := Nat.div_mul_le_self (r.length + data.length) c.blockSize
    simp [remainderLen_some hr, remainderLen_some (c := c.withSess x) hx, countOf, Nat.mul_comm c.blockSize]
    omega
  · obtain ⟨H, -, h⟩ := Run.bind_ok.mp h
    obtain ⟨a, -, h⟩ := Run.bind_ok.mp h
    obtain ⟨⟨Xs, rest⟩, h1, h⟩ := Run.bind_ok.mp h
    obtain ⟨⟨a', Ys⟩, h2, h⟩ := Run.bind_ok.mp h
    obtain ⟨r, hr, -, rfl⟩ := assemble_ok h1
    cases h
    cases hg : c.sess.tagLen with
    | none => simp [outLenLast, hm, hd, remainderLen, tagLen, hr, hg, need] at hn
    | some g =>
      simp [remainderLen, tagLen, hr, hg, countOf]
      omega
  · obtain ⟨H, -, h⟩ := Run.bind_ok.mp h
    obtain ⟨a, -, h⟩ := Run.bind_ok.mp h
    obtain ⟨la, hla, h⟩ := Run.bind_ok.mp h
    obtain ⟨g, hg, h⟩ := Run.bind_ok.mp h
    obtain ⟨⟨a', Ps⟩, h2, h⟩ := Run.bind_ok.mp h
    have hla := need_eq_ok.mp hla
    have hg := need_eq_ok.mp hg
    cases h
    simp [laLen, tagLen, hla, hg, countOf, releasedBlocks]
    split <;> split <;> omega
  · cases h
    simp [countOf, tagLen]
  · simp [countOf]

/-- R142: PROCESS_LAST writes no more than `out_len`, also when it ends in AUTH_FAIL. -/
theorem lastBody_le {C : Cipher} {c : ModeContext} {data out : Bytes} {x : Session} {n : Nat}
    (hn : outLenLast c data.length = .ok n)
    (h : lastBody (processRuleOf c.mode c.dir) (finishRuleOf c.mode c.dir) C c data = .ok (x, out) ∨
      lastBody (processRuleOf c.mode c.dir) (finishRuleOf c.mode c.dir) C c data =
        .error (.raise (.authFail x out))) : out.length ≤ n := by
  rcases h with h | h
  · obtain ⟨y, o1, o2, h1, h2, rfl⟩ := lastBody_ok h
    have k1 := processBody_le h1
    have k2 := finishBody_le (c := c.withSess y) h2
    have k3 := outLen_last_le hn h1
    rw [List.length_append]; omega
  · rcases lastBody_error h with h | ⟨y, o1, h1, ⟨z, o, h2, he⟩ | ⟨h2, he⟩⟩
    · rcases processBody_stops _ h with h | ⟨f, h⟩ <;> cases h
    · cases he
      have k0 : o = [] := by
        cases finishBody_stops _ h2; rfl
      have k1 := processBody_le h1
      have k3 := outLen_last_le hn h1
      subst k0
      rw [List.append_nil]; omega
    · exact absurd rfl (he x out)

/-! The checks. -/

/-- How the checks of PROCESS and PROCESS_LAST stop (R129, R133). -/
inductive CheckStop : Stop → Prop where
  | protocol : CheckStop (.raise .protocol)
  | bufferTooSmall : CheckStop (.raise .bufferTooSmall)
  | lengthRange : CheckStop (.raise .lengthRange)
  | noValue (f : Field) : CheckStop (.noValue f)

theorem CheckStop.ne_authFail {e : Stop} (h : CheckStop e) (x : Session) (out : Bytes) :
    e ≠ .raise (.authFail x out) := by
  rintro rfl; cases h

theorem processChecks_stops {P : Params} {outLen : Run Nat} {lengthOk : Run Bool} {c : ModeContext} {p : Addr}
    {l : Len} {d : Dest} (h1 : outLen.Stops CheckStop) (h2 : lengthOk.Stops CheckStop) :
    (processChecks P outLen lengthOk c p l d).Stops CheckStop := by
  have hin : (inPlaceOk c p l d).Stops CheckStop := by
    unfold inPlaceOk
    split
    · split
      · exact .bind (.bind (.need (.noValue _)) fun _ _ => .ok _) fun _ _ => .ok _
      · exact .bind (.bind (.need (.noValue _)) fun _ _ => .ok _) fun _ _ => .ok _
      · exact .ok _
    · exact .ok _
  have hop : (operandChecks P c p l d).Stops CheckStop :=
    .bind (.check fun _ => .protocol) fun _ _ => .bind (.check fun _ => .protocol) fun _ _ =>
      .bind (.check fun _ => .protocol) fun _ _ => .bind hin fun _ _ => .bind (.check fun _ => .protocol) fun _ _ =>
        .check fun _ => .protocol
  exact .bind hop fun _ _ => .bind h1 fun _ _ => .bind (.check fun _ => .bufferTooSmall) fun _ _ =>
    .bind h2 fun _ _ => .bind (.check fun _ => .lengthRange) fun _ _ => .ok _

theorem remainderLen_checkStops {c : ModeContext} : (remainderLen c).Stops CheckStop :=
  .bind (.need (.noValue _)) fun _ _ => .ok _

theorem laLen_checkStops {c : ModeContext} : (laLen c).Stops CheckStop :=
  .bind (.need (.noValue _)) fun _ _ => .ok _

theorem processedLen_checkStops {c : ModeContext} : (processedLen c).Stops CheckStop :=
  .bind (.need (.noValue _)) fun _ _ => .ok _

theorem tagLen_checkStops {c : ModeContext} : (tagLen c).Stops CheckStop := .need (.noValue _)

theorem outLenProcess_stops (c : ModeContext) (L : Nat) : (outLenProcess c L).Stops CheckStop := by
  unfold outLenProcess
  split
  · exact .bind remainderLen_checkStops fun _ _ => .ok _
  · exact .bind remainderLen_checkStops fun _ _ => .ok _
  · exact .bind remainderLen_checkStops fun _ _ => .ok _
  · exact .bind remainderLen_checkStops fun _ _ => .ok _
  · exact .bind laLen_checkStops fun _ _ => .bind tagLen_checkStops fun _ _ => .ok _
  · exact .ok _

theorem outLenFinish_stops (c : ModeContext) : (outLenFinish c).Stops CheckStop := by
  unfold outLenFinish
  split
  · exact .ok _
  · exact .ok _
  · exact remainderLen_checkStops
  · exact .bind remainderLen_checkStops fun _ _ => .bind tagLen_checkStops fun _ _ => .ok _
  · exact .bind laLen_checkStops fun _ _ => .bind tagLen_checkStops fun _ _ => .ok _
  · exact tagLen_checkStops
  · exact .ok _

theorem outLenLast_stops (c : ModeContext) (L : Nat) : (outLenLast c L).Stops CheckStop := by
  unfold outLenLast
  split
  · exact .bind remainderLen_checkStops fun _ _ => .ok _
  · exact .bind remainderLen_checkStops fun _ _ => .ok _
  · exact .bind remainderLen_checkStops fun _ _ => .ok _
  · exact .bind remainderLen_checkStops fun _ _ => .bind tagLen_checkStops fun _ _ => .ok _
  · exact .bind laLen_checkStops fun _ _ => .bind tagLen_checkStops fun _ _ => .ok _
  · exact tagLen_checkStops
  · exact .ok _

theorem blocksLeft_stops (c : ModeContext) : (blocksLeft c).Stops CheckStop :=
  .bind (.need (.noValue _)) fun _ _ => .bind (.need (.noValue _)) fun _ _ => .ok _

theorem ctrLengthOk_stops (c : ModeContext) (L : Nat) : (ctrLengthOk c L).Stops CheckStop :=
  .bind remainderLen_checkStops fun _ _ => .bind (blocksLeft_stops c) fun _ _ => .ok _

theorem gcmEncLengthOk_stops (c : ModeContext) (L : Nat) : (gcmEncLengthOk c L).Stops CheckStop :=
  .bind processedLen_checkStops fun _ _ => .bind remainderLen_checkStops fun _ _ => .ok _

theorem gcmDecLengthOk_stops (c : ModeContext) (L : Nat) : (gcmDecLengthOk c L).Stops CheckStop :=
  .bind processedLen_checkStops fun _ _ => .bind laLen_checkStops fun _ _ => .bind tagLen_checkStops fun _ _ => .ok _

theorem lengthOk_stops (m : Mode) (d : Dir) (c : ModeContext) (L : Nat) :
    ((processRuleOf m d).lengthOk c L).Stops CheckStop := by
  cases m <;> cases d
  · exact .ok _
  · exact .ok _
  · exact .ok _
  · exact .ok _
  · exact ctrLengthOk_stops c L
  · exact ctrLengthOk_stops c L
  · exact gcmEncLengthOk_stops c L
  · exact gcmDecLengthOk_stops c L
  · exact .ok _
  · exact .bind laLen_checkStops fun _ _ => .bind tagLen_checkStops fun _ _ => .ok _

theorem lastLengthOk_stops (c : ModeContext) (L : Nat) : (lastLengthOk c L).Stops CheckStop := by
  unfold lastLengthOk
  split
  · exact .bind remainderLen_checkStops fun _ _ => .ok _
  · exact .bind remainderLen_checkStops fun _ _ => .ok _
  · exact ctrLengthOk_stops c L
  · exact gcmEncLengthOk_stops c L
  · exact .bind laLen_checkStops fun _ _ => .bind tagLen_checkStops fun _ _ => .bind processedLen_checkStops
      fun _ _ => .ok _
  · exact .ok _
  · exact .bind laLen_checkStops fun _ _ => .bind tagLen_checkStops fun _ _ => .ok _

theorem finishChecks_stops {P : Params} {c : ModeContext} {snk : SinkOperand} :
    (finishChecks P c snk).Stops CheckStop :=
  .bind (.check fun _ => .protocol) fun _ _ => .bind (.check fun _ => .protocol) fun _ _ =>
    .bind (outLenFinish_stops c) fun _ _ => .bind (.check fun _ => .bufferTooSmall) fun _ _ => .ok _

/-- How INIT stops (R282, R288). -/
inductive InitStop : Stop → Prop where
  | protocol : InitStop (.raise .protocol)
  | config : InitStop (.raise .config)
  | cipher : InitStop (.raise .cipher)

end Sys2Proof.Machine
end

