-- ==== Sys2Proof/Laws/Ready.lean ====
section
/-! SUPPORT. Laws/Ready.lean: on a context that holds what R43 says a `ready` context holds, the checks and bodies
never read a field without a value, the output has the length R142 gives, and PROCESS leaves such a context. -/

namespace Sys2Proof.Machine

theorem ReadyContext.remainder {c : ModeContext} (h : ReadyContext c) : ∃ r, c.sess.remainder = some r := by
  obtain ⟨-, h⟩ := h
  cases hm : c.mode <;> rw [hm] at h
  · obtain ⟨r, hr, -⟩ := h; exact ⟨r, hr⟩
  · obtain ⟨⟨r, hr, -⟩, -⟩ := h; exact ⟨r, hr⟩
  · obtain ⟨⟨r, hr, -⟩, -⟩ := h; exact ⟨r, hr⟩
  · obtain ⟨-, g, p, -, h⟩ := h
    cases hd : c.dir <;> rw [hd] at h
    · obtain ⟨-, r, hr, -⟩ := h; exact ⟨r, hr⟩
    · exact ⟨[], h.1⟩
  · obtain ⟨-, g, p, -, -, hr, -⟩ := h; exact ⟨[], hr⟩

/-- R142: in a ready context every `out_len` is defined. -/
theorem ReadyContext.outLen {c : ModeContext} (h : ReadyContext c) (L : Nat) :
    (∃ n, outLenProcess c L = .ok n) ∧ (∃ n, outLenFinish c = .ok n) ∧ (∃ n, outLenLast c L = .ok n) ∧
    (∃ b, (processRuleOf c.mode c.dir).lengthOk c L = .ok b) ∧ (∃ b, lastLengthOk c L = .ok b) := by
  obtain ⟨r, hr⟩ := h.remainder
  obtain ⟨-, h⟩ := h
  cases hm : c.mode <;> rw [hm] at h
  · simp [outLenProcess, outLenFinish, outLenLast, lastLengthOk, hm, remainderLen, hr]
    cases c.dir <;> simp [processRuleOf, processEcbEncRule, processEcbDecRule, noLengthCheck]
  · simp [outLenProcess, outLenFinish, outLenLast, lastLengthOk, hm, remainderLen, hr]
    cases c.dir <;> simp [processRuleOf, processCbcEncRule, processCbcDecRule, noLengthCheck]
  · obtain ⟨-, ⟨b, hb, -⟩, n, hn, -⟩ := h
    simp [outLenProcess, outLenFinish, outLenLast, lastLengthOk, hm, remainderLen, hr, ctrLengthOk, blocksLeft, hb, hn,
      processRuleOf, processCtrRule]
  · obtain ⟨-, g, p, hg, h⟩ := h
    obtain ⟨q, hq, -⟩ := hg.processed
    cases hd : c.dir <;> rw [hd] at h
    · simp [outLenProcess, outLenFinish, outLenLast, lastLengthOk, hm, hd, remainderLen, hr, tagLen, hg.tagLen,
        gcmEncLengthOk, processedLen, hq, processRuleOf, processGcmEncRule]
    · obtain ⟨-, a, ha, -⟩ := h
      simp [outLenProcess, outLenFinish, outLenLast, lastLengthOk, hm, hd, laLen, ha, tagLen, hg.tagLen,
        gcmDecLengthOk, processedLen, hq, processRuleOf, processGcmDecRule]
  · obtain ⟨-, g, p, hg, -, -, h⟩ := h
    cases hd : c.dir <;> rw [hd] at h
    · simp [outLenProcess, outLenFinish, outLenLast, lastLengthOk, hm, hd, tagLen, hg.tagLen, gmacEncLengthOk,
        processRuleOf, processGmacEncRule]
    · obtain ⟨a, ha, -⟩ := h
      simp [outLenProcess, outLenFinish, outLenLast, lastLengthOk, hm, hd, laLen, ha, tagLen, hg.tagLen,
        gmacDecLengthOk, processRuleOf, processGmacDecRule]

/-- R133: the length check of PROCESS_LAST is at least that of PROCESS. -/
theorem lengthOk_of_last {c : ModeContext} {L : Nat} (h : lastLengthOk c L = .ok true) :
    (processRuleOf c.mode c.dir).lengthOk c L = .ok true := by
  cases hm : c.mode <;> cases hd : c.dir <;> simp only [lastLengthOk, hm, hd] at h
  · rfl
  · rfl
  · rfl
  · rfl
  · exact h
  · exact h
  · exact h
  · obtain ⟨a, ha, h⟩ := Run.bind_ok.mp h
    obtain ⟨g, hg, h⟩ := Run.bind_ok.mp h
    obtain ⟨p, hp, h⟩ := Run.bind_ok.mp h
    have h : g ≤ a + L ∧ p + (a + L - g) ≤ gcmDataMax := by simpa using h
    show gcmDecLengthOk c L = .ok true
    simp only [gcmDecLengthOk, ha, hg, hp, Run.pure_bind]
    simp only [Except.ok.injEq, decide_eq_true_eq]
    omega
  · exact h
  · obtain ⟨a, ha, h⟩ := Run.bind_ok.mp h
    obtain ⟨g, hg, h⟩ := Run.bind_ok.mp h
    have h : a + L = g := by simpa using h
    show gmacDecLengthOk c L = .ok true
    simp only [gmacDecLengthOk, ha, hg, Run.pure_bind]
    simp only [Except.ok.injEq, decide_eq_true_eq]
    omega

theorem length_blocks {bs : Nat} {buf X : Bytes} (hX : X ∈ blocksOf bs (buf.length / bs) buf) : X.length = bs :=
  length_of_mem_blocksOf (Nat.div_mul_le_self _ _) hX

theorem length_flatten_blocks (bs : Nat) (buf : Bytes) :
    (blocksOf bs (buf.length / bs) buf).flatten.length = bs * (buf.length / bs) :=
  blocksOf_flatten_length (Nat.div_mul_le_self _ _)

theorem length_rest {bs : Nat} (h : 0 < bs) (buf : Bytes) :
    (buf.drop (buf.length / bs * bs)).length < bs := by
  rw [List.length_drop]
  have h1 := Nat.div_add_mod buf.length bs
  have h2 := Nat.mod_lt buf.length h
  rw [Nat.mul_comm] at h1
  omega

theorem LegalBlockSize.pos {c : ModeContext} (h : LegalBlockSize c) : 0 < c.blockSize := by
  rcases h with h | h <;> omega

/-- The loop's fields of a GCM context after `n` more blocks. -/
theorem GcmFields.moved {x : Session} {g p n : Nat} {a a' : GcmAcc} {y : Session} (h : GcmFields x g p)
    (ha : x.cb = some a.cb ∧ x.ghash = some a.ghash ∧ x.processed = some a.processed) (m : a.Moved a' n)
    (hfix : x.SameFixed y) (hl : y.lenALenC = x.lenALenC)
    (hy : y.cb = some a'.cb ∧ y.ghash = some a'.ghash ∧ y.processed = some a'.processed)
    (hp : p + 16 * n < 2 ^ 64) : GcmFields y g (p + 16 * n) := by
  obtain ⟨H, hH, hH16, hT⟩ := h.hashKey
  obtain ⟨hh, hgh, hg16⟩ := h.accumulator
  obtain ⟨l, hlen, hl8⟩ := h.lengths
  obtain ⟨J, hJ, hJ16, hcb⟩ := h.counter
  obtain ⟨q, hq, hqp⟩ := h.processed
  have hgg : a.ghash.length = 16 := by
    have := ha.2.1; rw [hgh] at this; cases this; exact hg16
  have hcc : a.cb = (incLow 32)^[p / 16] J := by
    have := ha.1; rw [hcb] at this; exact (Option.some.inj this).symm
  have hpp : a.processed.toNat = p := by
    have := ha.2.2; rw [hq] at this; cases this; exact hqp
  have hw := h.wholeBlocks
  exact {
    hashKey := ⟨H, hfix.H.trans hH, hH16, hfix.hTable.trans hT⟩
    accumulator := ⟨a'.ghash, hy.2.1, m.ghash hgg⟩
    lengths := ⟨l, hl.trans hlen, hl8⟩
    counter := ⟨J, hfix.J0.trans hJ, hJ16, by
      rw [hy.1, m.cb, hcc, ← Function.iterate_add_apply]
      congr 2; omega⟩
    ctrBits := hfix.ctrBits.trans h.ctrBits
    tagLen := hfix.tagLen.trans h.tagLen
    tagLegal := h.tagLegal
    processed := ⟨a'.processed, hy.2.2, by
      rw [m.processed, BitVec.toNat_add, BitVec.toNat_ofNat, hpp, Nat.add_mod_mod, Nat.mod_eq_of_lt hp]⟩
    wholeBlocks := by omega }

theorem gcmDataMax_lt : gcmDataMax < 2 ^ 36 := by decide

theorem tagLens_le {g : Nat} (h : g ∈ tagLens) : 4 ≤ g ∧ g ≤ 16 := by
  simp [tagLens] at h; omega

/-- PROCESS on a ready context whose length check passed stops only by CIPHER. -/
theorem processBody_ready_stops {C : Cipher} {c : ModeContext} (data : Bytes) (h : ReadyContext c) :
    ((processRuleOf c.mode c.dir).body C c data).Stops (fun e => e = .raise .cipher) := by
  obtain ⟨r, hr⟩ := h.remainder
  obtain ⟨-, h⟩ := h
  have asm : ∀ bs, (assemble bs c data).Stops (fun e => e = .raise .cipher) := fun bs =>
    .bind (.need_some hr) fun _ _ => .ok _
  have ecb : ∀ F, BlockFn F → (ecbBody F c data).Stops (fun e => e = .raise .cipher) :=
    fun F hF => .bind (asm _) fun _ _ => .bind (fun e he => ecbLoop_error hF he) fun _ _ => .ok _
  cases hm : c.mode <;> rw [hm] at h
  · cases c.dir
    · exact ecb _ (.enc C)
    · exact ecb _ (.dec C)
  · obtain ⟨-, b, hb, -⟩ := h
    cases c.dir
    · exact .bind (.need_some hb) fun _ _ => .bind (asm _) fun _ _ =>
        .bind (fun e he => cbcEncLoop_error he) fun _ _ => .ok _
    · exact .bind (.need_some hb) fun _ _ => .bind (asm _) fun _ _ =>
        .bind (fun e he => cbcDecLoop_error he) fun _ _ => .ok _
  · obtain ⟨-, ⟨b, hb, -⟩, n, hn, -⟩ := h
    exact .bind (.need_some hb) fun _ _ => .bind (.need_some hn) fun _ _ => .bind (asm _) fun _ _ =>
      .bind (fun e he => ctrLoop_error he) fun _ _ => .ok _
  · obtain ⟨-, g, p, hg, h⟩ := h
    obtain ⟨H, hH, -⟩ := hg.hashKey
    obtain ⟨hh, hgh, -⟩ := hg.accumulator
    obtain ⟨J, -, -, hcb⟩ := hg.counter
    obtain ⟨q, hq, -⟩ := hg.processed
    have acc : (gcmAcc c).Stops (fun e => e = .raise .cipher) :=
      .bind (.need_some hcb) fun _ _ => .bind (.need_some hgh) fun _ _ => .bind (.need_some hq) fun _ _ => .ok _
    cases hd : c.dir <;> rw [hd] at h
    · exact .bind (.need_some hH) fun _ _ => .bind acc fun _ _ => .bind (asm _) fun _ _ =>
        .bind (fun e he => gcmEncLoop_error he) fun _ _ => .ok _
    · obtain ⟨-, a, ha, -⟩ := h
      exact .bind (.need_some hH) fun _ _ => .bind acc fun _ _ => .bind (.need_some ha) fun _ _ =>
        .bind (.need_some hg.tagLen) fun _ _ => .bind (fun e he => gcmDecLoop_error he) fun _ _ => .ok _
  · obtain ⟨-, g, p, hg, -, -, h⟩ := h
    cases hd : c.dir <;> rw [hd] at h
    · exact .ok _
    · obtain ⟨a, ha, -⟩ := h
      exact .bind (.need_some ha) fun _ _ => .ok _

/-- PROCESS on a ready context whose length check passed leaves a ready context and writes `out_len` bytes (R43,
R142). -/
theorem processBody_ready_ok {C : Cipher} {c : ModeContext} {data out : Bytes} {x : Session} (h : ReadyContext c)
    (hL : (processRuleOf c.mode c.dir).lengthOk c data.length = .ok true)
    (hb : (processRuleOf c.mode c.dir).body C c data = .ok (x, out)) :
    ReadyContext (c.withSess x) ∧ outLenProcess c data.length = .ok out.length := by
  obtain ⟨hfix, hlen⟩ := processBody_fixed hb
  obtain ⟨hbs, h⟩ := h
  have hpos := hbs.pos
  cases hm : c.mode <;> rw [hm] at h hb hL
  · obtain ⟨r, hr, -⟩ := h
    have ecb : ∀ F, BlockFn F → ecbBody F c data = .ok (x, out) →
        RemainderOk (c.withSess x) ∧ outLenProcess c data.length = .ok out.length := by
      intro F hF h
      simp only [ecbBody, assemble_some _ _ hr, Run.pure_bind] at h
      obtain ⟨Ys, hY, h⟩ := Run.bind_ok.mp h
      cases h
      refine ⟨⟨_, rfl, length_rest hpos _⟩, ?_⟩
      simp only [outLenProcess, hm, remainderLen_some hr, Run.pure_bind]
      rw [ecbLoop_length hF hY, length_flatten_blocks, List.length_append]
    have : RemainderOk (c.withSess x) ∧ outLenProcess c data.length = .ok out.length := by
      cases hd : c.dir <;> rw [hd] at hb
      · exact ecb _ (.enc C) hb
      · exact ecb _ (.dec C) hb
    exact ⟨⟨hbs, by rw [ModeContext.withSess_mode, hm]; exact this.1⟩, this.2⟩
  · obtain ⟨⟨r, hr, -⟩, cb, hcb, hcbl⟩ := h
    have cbc : ∀ F : Bytes → List Bytes → Run (Bytes × List Bytes),
        (∀ {cb cb' Xs Ys}, cb.length = c.blockSize → (∀ X ∈ Xs, List.length X = c.blockSize) →
          F cb Xs = .ok (cb', Ys) → Ys.flatten.length = Xs.flatten.length ∧ cb'.length = c.blockSize) →
        cbcBody F c data = .ok (x, out) →
        (RemainderOk (c.withSess x) ∧ CbOk (c.withSess x)) ∧ outLenProcess c data.length = .ok out.length := by
      intro F hF h
      simp only [cbcBody, assemble_some _ _ hr, hcb, need_some, Run.pure_bind] at h
      obtain ⟨⟨cb', Ys⟩, hY, h⟩ := Run.bind_ok.mp h
      cases h
      have hl := hF hcbl (fun X hX => length_blocks hX) hY
      refine ⟨⟨⟨_, rfl, length_rest hpos _⟩, ⟨_, rfl, hl.2⟩⟩, ?_⟩
      simp only [outLenProcess, hm, remainderLen_some hr, Run.pure_bind]
      rw [hl.1, length_flatten_blocks, List.length_append]
    have : (RemainderOk (c.withSess x) ∧ CbOk (c.withSess x)) ∧ outLenProcess c data.length = .ok out.length := by
      cases hd : c.dir <;> rw [hd] at hb
      · exact cbc _ (fun h1 h2 h3 => cbcEncLoop_length h1 h2 h3) hb
      · exact cbc _ (fun h1 h2 h3 => cbcDecLoop_length h1 h2 h3) hb
    exact ⟨⟨hbs, by rw [ModeContext.withSess_mode, hm]; exact this.1⟩, this.2⟩
  · obtain ⟨⟨r, hr, -⟩, ⟨cb, hcb, hcbl⟩, n, hn, hn1, hn2⟩ := h
    have hb : ctrBody C c data = .ok (x, out) := by cases hd : c.dir <;> rw [hd] at hb <;> exact hb
    simp only [ctrBody, assemble_some _ _ hr, hcb, hn, need_some, Run.pure_bind] at hb
    obtain ⟨⟨cb', Ys⟩, hY, hb⟩ := Run.bind_ok.mp hb
    cases hb
    have hl := ctrLoop_length hcbl (fun X hX => length_blocks hX) hY
    have hc := ctrLoop_cb hY
    refine ⟨⟨hbs, ?_⟩, ?_⟩
    · rw [ModeContext.withSess_mode, hm]
      exact ⟨⟨_, rfl, length_rest hpos _⟩, ⟨_, rfl, by rw [hc]; simpa using hcbl⟩, n, rfl, hn1, hn2⟩
    · simp only [outLenProcess, hm, remainderLen_some hr, Run.pure_bind]
      rw [hl, length_flatten_blocks, List.length_append]
  · obtain ⟨h16, g, p, hg, h⟩ := h
    obtain ⟨H, hH, -⟩ := hg.hashKey
    obtain ⟨J, hJ, hJ16, hcb⟩ := hg.counter
    obtain ⟨q, hq, hqp⟩ := hg.processed
    have hmax := gcmDataMax_lt
    have htag := tagLens_le hg.tagLegal
    cases hd : c.dir <;> rw [hd] at h hb hL
    · obtain ⟨hla, r, hr, hrl, hp⟩ := h
      have hL : p + r.length + data.length ≤ gcmDataMax := by
        have : gcmEncLengthOk c data.length = .ok true := hL
        simpa [gcmEncLengthOk, processedLen_some hq, hqp, remainderLen_some hr] using this
      have hb : gcmEncBody C c data = .ok (x, out) := hb
      unfold gcmEncBody at hb
      rw [hH, need_some, Run.pure_bind] at hb
      obtain ⟨a, ha, hb⟩ := Run.bind_ok.mp hb
      rw [assemble_some _ _ hr, Run.pure_bind] at hb
      obtain ⟨⟨a', Ys⟩, hY, hb⟩ := Run.bind_ok.mp hb
      cases hb
      have ha := gcmAcc_ok.mp ha
      have hacb : a.cb.length = 16 := by
        have := ha.1; rw [hcb] at this; rw [← Option.some.inj this]; simpa using hJ16
      have hmv := gcmEncLoop_moved hY
      rw [blocksOf_length, List.length_append] at hmv
      have hl := gcmEncLoop_length hacb (fun X hX => length_blocks hX) hY
      refine ⟨⟨hbs, ?_⟩, ?_⟩
      · rw [ModeContext.withSess_mode, hm, ModeContext.withSess_dir, hd]
        refine ⟨h16, g, p + 16 * ((r.length + data.length) / 16), ?_, ?_⟩
        · exact hg.moved ha hmv hfix hlen ⟨rfl, rfl, rfl⟩ (by omega)
        · refine ⟨hla, _, rfl, length_rest (by omega) _, ?_⟩
          rw [List.length_drop, List.length_append]
          omega
      · simp only [outLenProcess, hm, hd, remainderLen_some hr, Run.pure_bind]
        rw [hl, length_flatten_blocks, List.length_append]
    · obtain ⟨hrem, la, hla, hlal, hkeep, hp⟩ := h
      have hL : p + la.length + data.length ≤ gcmDataMax + g := by
        have : gcmDecLengthOk c data.length = .ok true := hL
        simpa [gcmDecLengthOk, processedLen_some hq, hqp, laLen_some hla, tagLen_some hg.tagLen] using this
      have hb : gcmDecBody C c data = .ok (x, out) := hb
      unfold gcmDecBody at hb
      rw [hH, need_some, Run.pure_bind] at hb
      obtain ⟨a, ha, hb⟩ := Run.bind_ok.mp hb
      rw [hla, need_some, Run.pure_bind, tagLen_some hg.tagLen, Run.pure_bind] at hb
      obtain ⟨⟨a', Ys⟩, hY, hb⟩ := Run.bind_ok.mp hb
      cases hb
      have ha := gcmAcc_ok.mp ha
      have hacb : a.cb.length = 16 := by
        have := ha.1; rw [hcb] at this; rw [← Option.some.inj this]; simpa using hJ16
      have hmv := gcmDecLoop_moved hY
      rw [blocksOf_length, List.length_append] at hmv
      have hle : releasedBlocks (la.length + data.length) g * 16 ≤ (la ++ data).length := by
        rw [List.length_append]; unfold releasedBlocks; split <;> omega
      have hl := gcmDecLoop_length hacb (fun X hX => length_of_mem_blocksOf (by rwa [List.length_append] at hle ⊢) hX) hY
      refine ⟨⟨hbs, ?_⟩, ?_⟩
      · rw [ModeContext.withSess_mode, hm, ModeContext.withSess_dir, hd]
        refine ⟨h16, g, p + 16 * releasedBlocks (la.length + data.length) g, ?_, ?_⟩
        · exact hg.moved ha hmv hfix hlen ⟨rfl, rfl, rfl⟩ (by rw [List.length_append] at hle; omega)
        · refine ⟨hrem, _, rfl, ?_, ?_, ?_⟩
          · rw [List.length_drop, List.length_append]
            unfold releasedBlocks; split <;> omega
          · rw [List.length_drop, List.length_append]
            unfold releasedBlocks; split <;> omega
          · rw [List.length_drop, List.length_append]
            rw [List.length_append] at hle
            omega
      · simp only [outLenProcess, hm, hd, laLen_some hla, tagLen_some hg.tagLen, Run.pure_bind]
        rw [hl, List.length_append, blocksOf_flatten_length hle]
  · obtain ⟨h16, g, p, hg, hp, hrem, h⟩ := h
    cases hd : c.dir <;> rw [hd] at h hb hL
    · cases hb
      refine ⟨⟨hbs, ?_⟩, ?_⟩
      · rw [ModeContext.withSess_mode, hm, ModeContext.withSess_dir, hd]
        exact ⟨h16, g, p, hg, hp, hrem, h⟩
      · simp [outLenProcess, hm]
    · obtain ⟨la, hla, hlal⟩ := h
      have hb : gmacDecBody C c data = .ok (x, out) := hb
      have hL : la.length + data.length ≤ g := by
        have : gmacDecLengthOk c data.length = .ok true := hL
        simpa [gmacDecLengthOk, laLen_some hla, tagLen_some hg.tagLen] using this
      simp only [gmacDecBody, hla, need_some, Run.pure_bind] at hb
      cases hb
      refine ⟨⟨hbs, ?_⟩, ?_⟩
      · rw [ModeContext.withSess_mode, hm, ModeContext.withSess_dir, hd]
        refine ⟨h16, g, p, ⟨hg.hashKey, hg.accumulator, hg.lengths, hg.counter, hg.ctrBits, hg.tagLen, hg.tagLegal,
          hg.processed, hg.wholeBlocks⟩, hp, hrem, _, rfl, ?_⟩
        rw [List.length_append]
        exact hL
      · simp [outLenProcess, hm]

/-- How FINISH stops on a ready context: never for a missing value. -/
theorem finishBody_ready_stops {C : Cipher} {c : ModeContext} (h : ReadyContext c) :
    ((finishRuleOf c.mode c.dir).body C c).Stops (fun e => ∃ r, e = .raise r) := by
  obtain ⟨r, hr⟩ := h.remainder
  obtain ⟨-, h⟩ := h
  have rl : (remainderLen c).Stops (fun e => ∃ r, e = .raise r) := .bind (.need_some hr) fun _ _ => .ok _
  cases hm : c.mode <;> rw [hm] at h
  · exact .bind rl fun _ _ => .bind (.check fun _ => ⟨_, rfl⟩) fun _ _ => .ok _
  · exact .bind rl fun _ _ => .bind (.check fun _ => ⟨_, rfl⟩) fun _ _ => .ok _
  · obtain ⟨-, ⟨b, hb, -⟩, -⟩ := h
    refine .bind (.need_some hr) fun _ _ => ?_
    split
    · exact .ok _
    · exact .bind (.need_some hb) fun _ _ => .bind (.enc ⟨_, rfl⟩) fun _ _ => .ok _
  all_goals
    obtain ⟨-, g, p, hg, h⟩ := h
    obtain ⟨H, hH, -⟩ := hg.hashKey
    obtain ⟨hh, hgh, -⟩ := hg.accumulator
    obtain ⟨l, hl, -⟩ := hg.lengths
    obtain ⟨J, hJ, -, hcb⟩ := hg.counter
    obtain ⟨q, hq, -⟩ := hg.processed
    have acc : (gcmAcc c).Stops (fun e => ∃ r, e = .raise r) :=
      .bind (.need_some hcb) fun _ _ => .bind (.need_some hgh) fun _ _ => .bind (.need_some hq) fun _ _ => .ok _
    have tag : ∀ H a, (gcmTag C H c.sess a).Stops (fun e => ∃ r, e = .raise r) := fun H a =>
      gcmTag_stops ⟨_, rfl⟩ (fun h => by simp [hl] at h) (fun h => by simp [hJ] at h)
    have enc : ∀ r, (gcmFinishEnc C c r).Stops (fun e => ∃ r, e = .raise r) := fun r =>
      .bind (.need_some hH) fun _ _ => .bind acc fun _ _ => .bind (.need_some hg.tagLen) fun _ _ =>
        .bind (gcmEncPartial_stops ⟨_, rfl⟩) fun _ _ => .bind (tag _ _) fun _ _ => .ok _
    have dec : ∀ r t, (gcmFinishDec C c r t).Stops (fun e => ∃ r, e = .raise r) := fun r t =>
      .bind (.need_some hH) fun _ _ => .bind acc fun _ _ => .bind (.need_some hg.tagLen) fun _ _ =>
        .bind (gcmDecPartial_stops ⟨_, rfl⟩) fun _ _ => .bind (tag _ _) fun _ _ =>
          .bind (.check fun _ => ⟨_, rfl⟩) fun _ _ => .ok _
  · cases hd : c.dir <;> rw [hd] at h
    · exact .bind (.need_some hr) fun _ _ => enc _
    · obtain ⟨-, a, ha, -⟩ := h
      exact .bind (.need_some ha) fun _ _ => .bind (.need_some hg.tagLen) fun _ _ =>
        .bind (.check fun _ => ⟨_, rfl⟩) fun _ _ => dec _ _
  · obtain ⟨-, -, h⟩ := h
    cases hd : c.dir <;> rw [hd] at h
    · exact enc _
    · obtain ⟨a, ha, -⟩ := h
      exact .bind (.need_some ha) fun _ _ => .bind (.need_some hg.tagLen) fun _ _ =>
        .bind (.check fun _ => ⟨_, rfl⟩) fun _ _ => dec _ _

/-- R133: once the length check of PROCESS_LAST has passed and PROCESS has run, FINISH finds no length error: it stops
by CIPHER, or by AUTH_FAIL with nothing written. -/
theorem finishBody_last_stops {C : Cipher} {c : ModeContext} {data out : Bytes} {x : Session} (h : ReadyContext c)
    (hL : lastLengthOk c data.length = .ok true)
    (hb : (processRuleOf c.mode c.dir).body C c data = .ok (x, out)) :
    ((finishRuleOf c.mode c.dir).body C (c.withSess x)).Stops
      (fun e => e = .raise .cipher ∨ ∃ y, e = .raise (.authFail y [])) := by
  have hready := (processBody_ready_ok h (lengthOk_of_last hL) hb).1
  suffices hne : ((finishRuleOf c.mode c.dir).body C (c.withSess x)).Stops (fun e => e ≠ .raise .lengthRange) by
    intro e he
    have hst : ∃ r, e = .raise r := finishBody_ready_stops hready e he
    have hne := hne e he
    cases finishBody_stops e he with
    | cipher => exact .inl rfl
    | lengthRange => exact absurd rfl hne
    | authFail y _ => exact .inr ⟨y, rfl⟩
    | noValue f => obtain ⟨r, hr⟩ := hst; cases hr
  obtain ⟨r, hr⟩ := h.remainder
  have whole : ∀ {y : Session}, y.remainder = some ((r ++ data).drop ((r ++ data).length / c.blockSize * c.blockSize)) →
      (r.length + data.length) % c.blockSize = 0 → (do
        let n ← remainderLen (c.withSess y)
        check (n == 0) .lengthRange
        .ok (y, []) : Run (Session × Bytes)).Stops (fun e => e ≠ .raise .lengthRange) := by
    intro y hy hw
    have : ((r ++ data).drop ((r ++ data).length / c.blockSize * c.blockSize)).length = 0 := by
      rw [List.length_drop, List.length_append]
      have := Nat.div_add_mod (r.length + data.length) c.blockSize
      rw [Nat.mul_comm] at this
      omega
    have hl := remainderLen_some (c := c.withSess y) hy
    rw [this] at hl
    rw [hl]
    exact .ok _
  have acc : ∀ c : ModeContext, (gcmAcc c).Stops (fun e => e ≠ .raise .lengthRange) := fun c =>
    .bind (.need (by simp)) fun _ _ => .bind (.need (by simp)) fun _ _ => .bind (.need (by simp)) fun _ _ => .ok _
  have enc : ∀ (c : ModeContext) r, (gcmFinishEnc C c r).Stops (fun e => e ≠ .raise .lengthRange) := fun c r =>
    .bind (.need (by simp)) fun _ _ => .bind (acc c) fun _ _ => .bind (.need (by simp)) fun _ _ =>
      .bind (gcmEncPartial_stops (by simp)) fun _ _ =>
        .bind (gcmTag_stops (by simp) (fun _ => by simp) (fun _ => by simp)) fun _ _ => .ok _
  have dec : ∀ (c : ModeContext) r t, (gcmFinishDec C c r t).Stops (fun e => e ≠ .raise .lengthRange) := fun c r t =>
    .bind (.need (by simp)) fun _ _ => .bind (acc c) fun _ _ => .bind (.need (by simp)) fun _ _ =>
      .bind (gcmDecPartial_stops (by simp)) fun _ _ =>
        .bind (gcmTag_stops (by simp) (fun _ => by simp) (fun _ => by simp)) fun _ _ =>
          .bind (.check fun _ => by simp) fun _ _ => .ok _
  have tail : ∀ {a' : Bytes} {g : Nat} (f : Bytes → Nat → Run (Session × Bytes)),
      (∀ a g, (f a g).Stops (fun e => e ≠ .raise .lengthRange)) → x.la = some a' → x.tagLen = some g → g ≤ a'.length →
      (do
        let la ← need .la (c.withSess x).sess.la
        let g ← tagLen (c.withSess x)
        check (decide (g ≤ la.length)) .lengthRange
        f la g : Run (Session × Bytes)).Stops (fun e => e ≠ .raise .lengthRange) := by
    intro a' g f hf ha hg hle
    rw [ModeContext.withSess_sess, ha, need_some, Run.pure_bind, tagLen_some (c := c.withSess x) hg, Run.pure_bind]
    exact .bind (.check fun hc => by simp at hc; omega) fun _ _ => hf _ _
  cases hm : c.mode <;> rw [hm] at hb
  · have hw : (r.length + data.length) % c.blockSize = 0 := by
      simpa [lastLengthOk, hm, remainderLen_some hr] using hL
    have ecb : ∀ F, ecbBody F c data = .ok (x, out) →
        x.remainder = some ((r ++ data).drop ((r ++ data).length / c.blockSize * c.blockSize)) := by
      intro F h
      simp only [ecbBody, assemble_some _ _ hr, Run.pure_bind] at h
      obtain ⟨Ys, -, h⟩ := Run.bind_ok.mp h
      cases h; rfl
    have hx := by cases hd : c.dir <;> rw [hd] at hb <;> exact ecb _ hb
    exact whole hx hw
  · have hw : (r.length + data.length) % c.blockSize = 0 := by
      simpa [lastLengthOk, hm, remainderLen_some hr] using hL
    have cbc : ∀ F, cbcBody F c data = .ok (x, out) →
        x.remainder = some ((r ++ data).drop ((r ++ data).length / c.blockSize * c.blockSize)) := by
      intro F h
      obtain ⟨cb, -, h⟩ := Run.bind_ok.mp h
      simp only [assemble_some _ _ hr, Run.pure_bind] at h
      obtain ⟨Ys, -, h⟩ := Run.bind_ok.mp h
      cases h; rfl
    have hx := by cases hd : c.dir <;> rw [hd] at hb <;> exact cbc _ hb
    exact whole hx hw
  · refine .bind (.need (by simp)) fun r _ => ?_
    split
    · exact .ok _
    · exact .bind (.need (by simp)) fun _ _ => .bind (.enc (by simp)) fun _ _ => .ok _
  · cases hd : c.dir <;> rw [hd] at hb
    · exact .bind (.need (by simp)) fun _ _ => enc _ _
    · obtain ⟨-, hreq⟩ := h
      rw [hm, hd] at hreq
      obtain ⟨-, g, p, hg, -, a, ha, -⟩ := hreq
      obtain ⟨q, hq, -⟩ := hg.processed
      have hL : g ≤ a.length + data.length ∧ q.toNat + (a.length + data.length - g) ≤ gcmDataMax := by
        simpa [lastLengthOk, hm, hd, laLen_some ha, tagLen_some hg.tagLen, processedLen_some hq] using hL
      have hb : gcmDecBody C c data = .ok (x, out) := hb
      unfold gcmDecBody at hb
      obtain ⟨_, -, hb⟩ := Run.bind_ok.mp hb
      obtain ⟨_, -, hb⟩ := Run.bind_ok.mp hb
      rw [ha, need_some, Run.pure_bind, tagLen_some hg.tagLen, Run.pure_bind] at hb
      obtain ⟨_, -, hb⟩ := Run.bind_ok.mp hb
      cases hb
      refine tail _ (fun _ _ => dec _ _ _) rfl hg.tagLen ?_
      rw [List.length_drop, List.length_append]
      unfold releasedBlocks
      split <;> omega
  · cases hd : c.dir <;> rw [hd] at hb
    · exact enc _ _
    · obtain ⟨-, hreq⟩ := h
      rw [hm, hd] at hreq
      obtain ⟨-, g, p, hg, -, -, a, ha, -⟩ := hreq
      have hL : a.length + data.length = g := by
        simpa [lastLengthOk, hm, hd, laLen_some ha, tagLen_some hg.tagLen] using hL
      have hb : gmacDecBody C c data = .ok (x, out) := hb
      simp only [gmacDecBody, ha, need_some, Run.pure_bind] at hb
      cases hb
      refine tail _ (fun _ _ => dec _ _ _) rfl hg.tagLen ?_
      rw [List.length_append]; omega
/-- INIT of a fresh context leaves a ready one. -/
theorem initSession_ready {P : Params} {R : InitRule} {c : ModeContext} {o : InitOperands} {m : Memory} {x : Session}
    (hR : R = initEcbRule ∨ R = initCbcRule ∨ R = initCtrRule ∨ R = initGcmRule ∨ R = initGmacRule)
    (hs : R.sel c.mode c.dir = true) (h : initSession P R c o m = .ok x) : ReadyContext (c.withSess x) := by
  obtain ⟨_, -, h⟩ := Run.bind_ok.mp h
  have legal : ∀ {u : Unit}, check (blockSizeOk c) .config = .ok u → LegalBlockSize (c.withSess x) := by
    intro u h
    have := check_eq_ok.mp h
    simpa [blockSizeOk, LegalBlockSize] using this
  have gcm : ∀ C, gcmInitBody C c o m = .ok x → c.blockSize = 16 ∧ ∃ g, GcmFields x g 0 ∧ x.remainder = some [] ∧
      x.la = lookAheadAtInit c.dir := by
    intro C h
    obtain ⟨_, -, h⟩ := Run.bind_ok.mp h
    obtain ⟨_, -, h⟩ := Run.bind_ok.mp h
    obtain ⟨_, h16, h⟩ := Run.bind_ok.mp h
    obtain ⟨_, ht, h⟩ := Run.bind_ok.mp h
    obtain ⟨_, -, h⟩ := Run.bind_ok.mp h
    obtain ⟨H, hH, h⟩ := Run.bind_ok.mp h
    have h16 := check_eq_ok.mp h16
    have ht := check_eq_ok.mp ht
    have hHl := cipherEnc_length hH
    rw [zeros_length] at hHl
    have hJ : ∀ iv, (ivCounter H iv).length = 16 := by
      intro iv
      unfold ivCounter
      split
      · next hiv => simp [shortIvCounter, hiv]
      · simp [longIvCounter]
    cases h
    refine ⟨by simpa using h16, o.tagBits.toNat / 8, ⟨⟨H, rfl, hHl, rfl⟩, ⟨_, rfl, ?_⟩, ⟨_, rfl, by simp⟩,
      ⟨_, rfl, hJ _, rfl⟩, rfl, rfl, ?_, ⟨_, rfl, rfl⟩, rfl⟩, rfl, rfl⟩
    · exact ghashFold_length _ _ _ (by simp)
    · simp only [tagBitsOk, List.contains_eq_mem, decide_eq_true_eq, List.mem_cons, List.not_mem_nil, or_false] at ht
      simp only [tagLens, List.mem_cons, List.not_mem_nil, or_false]
      omega
  rcases hR with rfl | rfl | rfl | rfl | rfl
  · have hm : c.mode = .ecb := by simpa [initEcbRule] using hs
    obtain ⟨_, hb, h⟩ := Run.bind_ok.mp h
    obtain ⟨_, -, h⟩ := Run.bind_ok.mp h
    have hl := legal hb
    cases h
    refine ⟨hl, ?_⟩
    rw [ModeContext.withSess_mode, hm]
    exact ⟨[], rfl, hl.pos⟩
  · have hm : c.mode = .cbc := by simpa [initCbcRule] using hs
    obtain ⟨_, -, h⟩ := Run.bind_ok.mp h
    obtain ⟨_, hb, h⟩ := Run.bind_ok.mp h
    obtain ⟨_, -, h⟩ := Run.bind_ok.mp h
    obtain ⟨_, -, h⟩ := Run.bind_ok.mp h
    have hl := legal hb
    cases h
    refine ⟨hl, ?_⟩
    rw [ModeContext.withSess_mode, hm]
    exact ⟨⟨[], rfl, hl.pos⟩, ⟨_, rfl, by simp⟩⟩
  · have hm : c.mode = .ctr := by simpa [initCtrRule] using hs
    obtain ⟨_, -, h⟩ := Run.bind_ok.mp h
    obtain ⟨_, hb, h⟩ := Run.bind_ok.mp h
    obtain ⟨_, -, h⟩ := Run.bind_ok.mp h
    obtain ⟨_, hn, h⟩ := Run.bind_ok.mp h
    have hl := legal hb
    have hn := check_eq_ok.mp hn
    rw [decide_eq_true_eq] at hn
    cases h
    refine ⟨hl, ?_⟩
    rw [ModeContext.withSess_mode, hm]
    exact ⟨⟨[], rfl, hl.pos⟩, ⟨_, rfl, by simp⟩, _, rfl, hn⟩
  · have hm : c.mode = .gcm := by simpa [initGcmRule] using hs
    obtain ⟨h16, g, hg, hr, ha⟩ := gcm _ h
    refine ⟨.inr h16, ?_⟩
    rw [ModeContext.withSess_mode, hm]
    refine ⟨h16, g, 0, hg, ?_⟩
    have := tagLens_le hg.tagLegal
    cases hd : c.dir <;> rw [hd] at ha <;> rw [ModeContext.withSess_dir, hd]
    · exact ⟨ha, [], hr, by simp, by simp⟩
    · exact ⟨hr, [], ha, by simp, by simp, by simp⟩
  · have hm : c.mode = .gmac := by simpa [initGmacRule] using hs
    obtain ⟨h16, g, hg, hr, ha⟩ := gcm _ h
    refine ⟨.inr h16, ?_⟩
    rw [ModeContext.withSess_mode, hm]
    refine ⟨h16, g, 0, hg, rfl, hr, ?_⟩
    cases hd : c.dir <;> rw [hd] at ha <;> rw [ModeContext.withSess_dir, hd]
    · exact ha
    · exact ⟨[], ha, Nat.zero_le _⟩

/-! R31 to R39: the fields of other modes, and R30: the cipher. -/

/-- A context that is not `ready`, or is in GCM or GMAC, has no other mode's fields to speak of. -/
theorem OtherFieldsAbsent.of_not_ready {c : ModeContext} (h : c.state ≠ .ready) : OtherFieldsAbsent c :=
  fun hr => absurd hr h

/-- INIT of a context as OPEN left it gives no value to another mode's field. -/
theorem initSession_absent {P : Params} {R : InitRule} {c : ModeContext} {o : InitOperands} {m : Memory} {x : Session}
    (hR : R = initEcbRule ∨ R = initCbcRule ∨ R = initCtrRule ∨ R = initGcmRule ∨ R = initGmacRule)
    (hs : R.sel c.mode c.dir = true) (he : c.sess = Session.empty) (h : initSession P R c o m = .ok x) (l : Lifecycle) :
    OtherFieldsAbsent ((c.withSess x).withState l) := by
  intro _
  obtain ⟨_, -, h⟩ := Run.bind_ok.mp h
  rw [ModeContext.withState_mode, ModeContext.withSess_mode]
  rcases hR with rfl | rfl | rfl | rfl | rfl
  · rw [show c.mode = .ecb by simpa [initEcbRule] using hs]
    obtain ⟨_, -, h⟩ := Run.bind_ok.mp h
    obtain ⟨_, -, h⟩ := Run.bind_ok.mp h
    cases h; rw [he]; rfl
  · rw [show c.mode = .cbc by simpa [initCbcRule] using hs]
    obtain ⟨_, -, h⟩ := Run.bind_ok.mp h
    obtain ⟨_, -, h⟩ := Run.bind_ok.mp h
    obtain ⟨_, -, h⟩ := Run.bind_ok.mp h
    obtain ⟨_, -, h⟩ := Run.bind_ok.mp h
    cases h; rw [he]; rfl
  · rw [show c.mode = .ctr by simpa [initCtrRule] using hs]
    obtain ⟨_, -, h⟩ := Run.bind_ok.mp h
    obtain ⟨_, -, h⟩ := Run.bind_ok.mp h
    obtain ⟨_, -, h⟩ := Run.bind_ok.mp h
    obtain ⟨_, -, h⟩ := Run.bind_ok.mp h
    cases h; rw [he]; rfl
  · rw [show c.mode = .gcm by simpa [initGcmRule] using hs]; trivial
  · rw [show c.mode = .gmac by simpa [initGmacRule] using hs]; trivial

/-- PROCESS gives no value to another mode's field. -/
theorem processBody_absent {C : Cipher} {c : ModeContext} {data out : Bytes} {x : Session} (hr : c.state = .ready)
    (ha : OtherFieldsAbsent c) (hb : (processRuleOf c.mode c.dir).body C c data = .ok (x, out)) :
    OtherFieldsAbsent (c.withSess x) := by
  intro _
  have ha := ha hr
  rw [ModeContext.withSess_mode]
  cases hm : c.mode <;> rw [hm] at ha hb
  · have ecb : ∀ F, ecbBody F c data = .ok (x, out) → ∃ rest, x = { c.sess with remainder := some rest } := by
      intro F h
      obtain ⟨⟨Xs, rest⟩, -, h⟩ := Run.bind_ok.mp h
      obtain ⟨Ys, -, h⟩ := Run.bind_ok.mp h
      cases h; exact ⟨rest, rfl⟩
    obtain ⟨rest, rfl⟩ : ∃ rest, x = { c.sess with remainder := some rest } := by
      cases hd : c.dir <;> rw [hd] at hb <;> exact ecb _ hb
    show ({ c.sess with remainder := some rest } : Session) = _
    rw [ha]; rfl
  · have cbc : ∀ F, cbcBody F c data = .ok (x, out) →
        ∃ rest cb, x = { c.sess with remainder := some rest, cb := some cb } := by
      intro F h
      obtain ⟨_, -, h⟩ := Run.bind_ok.mp h
      obtain ⟨⟨Xs, rest⟩, -, h⟩ := Run.bind_ok.mp h
      obtain ⟨⟨cb, Ys⟩, -, h⟩ := Run.bind_ok.mp h
      cases h; exact ⟨rest, cb, rfl⟩
    obtain ⟨rest, cb, rfl⟩ : ∃ rest cb, x = { c.sess with remainder := some rest, cb := some cb } := by
      cases hd : c.dir <;> rw [hd] at hb <;> exact cbc _ hb
    show ({ c.sess with remainder := some rest, cb := some cb } : Session) = _
    rw [ha]; rfl
  · have hb : ctrBody C c data = .ok (x, out) := by cases hd : c.dir <;> rw [hd] at hb <;> exact hb
    obtain ⟨_, -, hb⟩ := Run.bind_ok.mp hb
    obtain ⟨_, -, hb⟩ := Run.bind_ok.mp hb
    obtain ⟨⟨Xs, rest⟩, -, hb⟩ := Run.bind_ok.mp hb
    obtain ⟨⟨cb, Ys⟩, -, hb⟩ := Run.bind_ok.mp hb
    cases hb
    show ({ c.sess with cb := some cb, remainder := some rest } : Session) = _
    rw [ha]; rfl
  · trivial
  · trivial

/-- R30: the binding to the cipher rests on what OPEN wrote and on the lifecycle state alone. -/
theorem CipherBound.moved {P : Params} {c c' : ModeContext} (h : CipherBound P c) (hm : c'.mode = c.mode)
    (hd : c'.dir = c.dir) (hk : c'.ks = c.ks) (hb : c'.blockSize = c.blockSize)
    (hs : c'.state = .ready → c.state = .ready) : CipherBound P c' :=
  ⟨by rw [hb, hk]; exact h.blockSize, fun h1 h2 h3 => by
    rw [hk]; exact h.decrypts (hs h1) (by rwa [hm] at h2) (by rwa [hd] at h3)⟩

/-- R126, R127: INIT of a decrypting ECB or CBC context has checked that its cipher has `D`. -/
theorem initSession_decrypts {P : Params} {R : InitRule} {c : ModeContext} {o : InitOperands} {m : Memory} {x : Session}
    (hR : R = initEcbRule ∨ R = initCbcRule ∨ R = initCtrRule ∨ R = initGcmRule ∨ R = initGmacRule)
    (hs : R.sel c.mode c.dir = true) (h : initSession P R c o m = .ok x) (hm : c.mode = .ecb ∨ c.mode = .cbc)
    (hd : c.dir = .dec) : (P.cipher c.ks).hasD = true := by
  obtain ⟨_, -, h⟩ := Run.bind_ok.mp h
  have dec : ∀ {u : Unit}, check (decryptOk (P.cipher c.ks) c) .config = .ok u → (P.cipher c.ks).hasD = true := by
    intro u h
    simpa [decryptOk, hd] using check_eq_ok.mp h
  rcases hR with rfl | rfl | rfl | rfl | rfl
  · obtain ⟨_, -, h⟩ := Run.bind_ok.mp h
    obtain ⟨_, hc, h⟩ := Run.bind_ok.mp h
    exact dec hc
  · obtain ⟨_, -, h⟩ := Run.bind_ok.mp h
    obtain ⟨_, -, h⟩ := Run.bind_ok.mp h
    obtain ⟨_, hc, h⟩ := Run.bind_ok.mp h
    exact dec hc
  all_goals rcases hm with hm | hm <;> simp [initCtrRule, initGcmRule, initGmacRule, hm] at hs

end Sys2Proof.Machine
end

