-- ==== Sys2Proof/Laws/Exec.lean ====
section
/-! SUPPORT. Laws/Exec.lean: everything an instruction that answers a next state can have done: five ways. Statements
about every instruction follow from this list. -/

namespace Sys2Proof.Machine

/-- The fields OPEN writes, which no later command changes (R25, R26, R29, R30). -/
structure ModeContext.SameCreation (c c' : ModeContext) : Prop where
  mode : c'.mode = c.mode
  dir : c'.dir = c.dir
  ks : c'.ks = c.ks
  ksOwned : c'.ksOwned = c.ksOwned
  blockSize : c'.blockSize = c.blockSize

/-- Every byte an instruction may write lies in the address space (R60, R67(d), R80). -/
def InSpace (i : Instr) (c : ModeContext) : Prop :=
  ∀ j < outLenOf c i, ∀ a, (outputTarget i).addrOf j = some a → a < addrSpace

/-- The ways a next state arises. -/
inductive Ended (i : Instr) (s : State) : State → Prop where
  /-- PROTOCOL, no effect: no such slot, a free one, or for OPEN one that is not free -/
  | refused : Ended i s (s.report .protocol 0 (outputTarget i).passedOff)
  /-- OPEN of a free slot -/
  | opened (c : ModeContext) (hf : s.slot i.ctx = some .free) (ha : c.state = .alloc) (hx : c.sess = Session.empty)
      (hb : c.blockSize = (Config.params.cipher c.ks).bs) :
      Ended i s (s.complete i.ctx c (outputTarget i) [])
  /-- an error, with at most `out_len` bytes written -/
  | raised (c : ModeContext) (e : Raise) (n : Nat) (hc : s.slot i.ctx = some (.held c)) (hn : n ≤ outLenOf c i)
      (he : ∀ x out, e = .authFail x out → out.length ≤ outLenOf c i)
      (hw : (n = 0 ∧ ∀ x out, e ≠ .authFail x out) ∨ InSpace i c) :
      Ended i s (s.raise i.ctx c (outputTarget i) n e)
  /-- success of INIT, PROCESS, FINISH or PROCESS_LAST, with at most `out_len` bytes written -/
  | completed (c c' : ModeContext) (out : Bytes) (hc : s.slot i.ctx = some (.held c)) (hs : c.SameCreation c')
      (ho : out.length ≤ outLenOf c i) (ha : c.state = .alloc ∨ c.state = .ready)
      (hr : c'.state = .ready ∨ c'.state = .closed) (hw : InSpace i c)
      (hl : LegalHeld Config.params c → LegalHeld Config.params c') :
      Ended i s (s.complete i.ctx c' (outputTarget i) out)
  /-- DESTROY of a context -/
  | destroyed (c : ModeContext) (hi : i = .destroy i.ctx) (hc : s.slot i.ctx = some (.held c)) :
      Ended i s (((if c.ksOwned then s.release c.ks else s).setSlot i.ctx .free).report .ok 0 0)

theorem processRule_selected {R : ProcessRule} {m : Mode} {d : Dir}
    (hR : R = processEcbEncRule ∨ R = processEcbDecRule ∨ R = processCbcEncRule ∨ R = processCbcDecRule ∨
      R = processCtrRule ∨ R = processGcmEncRule ∨ R = processGcmDecRule ∨ R = processGmacEncRule ∨
      R = processGmacDecRule) (h : R.sel m d = true) : R = processRuleOf m d := by
  rcases hR with rfl | rfl | rfl | rfl | rfl | rfl | rfl | rfl | rfl <;> cases m <;> cases d <;>
    first | rfl | exact absurd h (by decide)

theorem finishRule_selected {R : FinishRule} {m : Mode} {d : Dir}
    (hR : R = finishEcbRule ∨ R = finishCbcRule ∨ R = finishCtrRule ∨ R = finishGcmEncRule ∨ R = finishGcmDecRule ∨
      R = finishGmacEncRule ∨ R = finishGmacDecRule) (h : R.sel m d = true) : R = finishRuleOf m d := by
  rcases hR with rfl | rfl | rfl | rfl | rfl | rfl | rfl <;> cases m <;> cases d <;>
    first | rfl | exact absurd h (by decide)

theorem targetOf_passedOff (p : Addr) (d : Dest) : (targetOf p d).passedOff = d.passedOff.toNat := by
  cases d <;> rfl

theorem sink_inSpace {i : Instr} {c : ModeContext} {snk : SinkOperand} {sm bs : Nat} (hi : outputTarget i = .sink snk)
    (h : sinkWf sm bs snk = true) : InSpace i c := by
  intro j _ a ha
  rw [hi] at ha
  obtain ⟨g, hg, h1, h2⟩ := sinkAddr_mem ha
  simp only [sinkWf, Bool.and_eq_true, List.all_eq_true, decide_eq_true_eq] at h
  have := h.1.1.2 g hg
  omega

/-- R73: in place, what a command writes lies inside its chunk. -/
theorem inPlace_le {P : Params} {c : ModeContext} {p : Addr} {l : Len}
    (h : OperandsAdmitted P c p l .inPlace) : countOf (outLenProcess c l.toNat) ≤ l.toNat ∧
      countOf (outLenLast c l.toNat) ≤ l.toNat := by
  obtain ⟨hm, hr⟩ := h.inPlace rfl
  have := Nat.mul_div_le l.toNat c.blockSize
  rcases hm with hm | hm <;> simp [outLenProcess, outLenLast, hm, remainderLen_some hr, countOf, this]

theorem chunk_inSpace {i : Instr} {c : ModeContext} {p : Addr} {l : Len} (hi : outputTarget i = .chunk p)
    (hl : outLenOf c i ≤ l.toNat) (h : rangeFits p l = true) : InSpace i c := by
  intro j hj a ha
  rw [hi] at ha
  simp only [Target.addrOf, Option.some.injEq] at ha
  simp only [rangeFits, Bool.or_eq_true, beq_iff_eq, decide_eq_true_eq] at h
  rcases h with h | h
  · rw [h] at hl; simp at hl; omega
  · omega

theorem open_ended {i : Instr} {s t : State} {mode : Mode} {d : Dir} {w : Bool} {ks : Addr}
    (hi : outputTarget i = .nowhere) (h : openContext Config.params mode i.ctx d w ks s = .next t) : Ended i s t := by
  rcases openContext_next h with ⟨-, rfl⟩ | ⟨hf, rfl⟩
  · have := Ended.refused (i := i) (s := s)
    rwa [hi] at this
  · rw [← hi]
    exact Ended.opened _ hf rfl rfl rfl

/-- R126 to R128, R211: how the session of each INIT row stops. -/
theorem initSession_stops {P : Params} {R : InitRule} {c : ModeContext} {o : InitOperands} {m : Memory}
    (hR : R = initEcbRule ∨ R = initCbcRule ∨ R = initCtrRule ∨ R = initGcmRule ∨ R = initGmacRule) :
    (initSession P R c o m).Stops InitStop := by
  have gcm : ∀ C, (gcmInitBody C c o m).Stops InitStop := fun C =>
    .bind (.check fun _ => .protocol) fun _ _ => .bind (.check fun _ => .protocol) fun _ _ =>
      .bind (.check fun _ => .config) fun _ _ => .bind (.check fun _ => .config) fun _ _ =>
        .bind (.check fun _ => .config) fun _ _ => .bind (.enc .cipher) fun _ _ => .ok _
  refine .bind (.check fun _ => .protocol) fun _ _ => ?_
  rcases hR with rfl | rfl | rfl | rfl | rfl
  · exact .bind (.check fun _ => .config) fun _ _ => .bind (.check fun _ => .config) fun _ _ => .ok _
  · exact .bind (.check fun _ => .protocol) fun _ _ => .bind (.check fun _ => .config) fun _ _ =>
      .bind (.check fun _ => .config) fun _ _ => .bind (.check fun _ => .config) fun _ _ => .ok _
  · exact .bind (.check fun _ => .protocol) fun _ _ => .bind (.check fun _ => .config) fun _ _ =>
      .bind (.check fun _ => .config) fun _ _ => .bind (.check fun _ => .config) fun _ _ => .ok _
  · exact gcm _
  · exact gcm _

theorem init_ended {i : Instr} {s t : State} {R : InitRule} {o : InitOperands}
    (hi : outputTarget i = .nowhere)
    (hR : R = initEcbRule ∨ R = initCbcRule ∨ R = initCtrRule ∨ R = initGcmRule ∨ R = initGmacRule)
    (h : runInit Config.params R i.ctx o s = .next t) : Ended i s t := by
  rcases runInit_next h with ⟨-, rfl⟩ | ⟨c, hc, hsel, ⟨e, he, rfl⟩ | ⟨x, hx, rfl⟩⟩
  · have := Ended.refused (i := i) (s := s)
    rwa [hi] at this
  · rw [← hi]
    have hna : ∀ y out, e ≠ .authFail y out := by
      rintro y out rfl
      cases initSession_stops hR _ he
    exact .raised c e 0 hc (Nat.zero_le _) (fun y out h => absurd h (hna y out)) (.inl ⟨rfl, hna⟩)
  · rw [← hi]
    obtain ⟨_, h1, -⟩ := Run.bind_ok.mp hx
    have ha : c.state = .alloc := by simpa using check_eq_ok.mp h1
    refine .completed c _ [] hc ⟨rfl, rfl, rfl, rfl, rfl⟩ (Nat.zero_le _) (.inl ha)
      (.inl rfl) (fun j _ a ha => by rw [hi] at ha; cases ha) (fun hl => ⟨?_, ?_, hl.cipher.blockSize, ?_⟩)
    · have := initSession_ready hR hsel hx
      exact this
    · exact initSession_absent hR hsel (by simpa [LegalContext, ha] using hl.fields) hx _
    · have := initSession_decrypts hR hsel hx
      exact fun _ => this

theorem process_ended {i : Instr} {s t : State} {R : ProcessRule} {p : Addr} {l : Len} {d : Dest}
    (hi : outputTarget i = targetOf p d) (hl : ∀ c, outLenOf c i = countOf (outLenProcess c l.toNat))
    (hR : ∀ {m d}, R.sel m d = true → R = processRuleOf m d)
    (h : runProcess Config.params R i.ctx p l d s = .next t) : Ended i s t := by
  have space : ∀ {c : ModeContext} {n : Nat}, processChecks Config.params (outLenProcess c l.toNat)
      (R.lengthOk c l.toNat) c p l d = .ok n → InSpace i c := by
    intro c n hn
    obtain ⟨-, hadm, -⟩ := processChecks_ok.mp hn
    cases d with
    | inPlace => exact chunk_inSpace hi (by rw [hl]; exact (inPlace_le hadm).1) hadm.range
    | sink k => exact sink_inSpace hi hadm.sinkForm
  rcases runProcess_next h with ⟨-, rfl⟩ | ⟨c, hc, hs, ⟨e, he, rfl⟩ | ⟨n, hn, ⟨e, he, rfl⟩ | ⟨x, out, hx, rfl⟩⟩⟩
  · have := Ended.refused (i := i) (s := s)
    rwa [hi, targetOf_passedOff] at this
  · rw [← hi]
    have hna : ∀ x out, e ≠ .authFail x out := by
      rintro x out rfl
      rw [hR hs] at he
      cases processChecks_stops (outLenProcess_stops _ _) (lengthOk_stops _ _ _ _) _ he
    exact .raised c e 0 hc (Nat.zero_le _) (fun x out h => absurd h (hna x out)) (.inl ⟨rfl, hna⟩)
  · have hcount : n = outLenOf c i := by
      rw [hl, (processChecks_ok.mp hn).2.2.1]; rfl
    rw [← hi]
    refine .raised c e n hc hcount.le ?_ (.inr (space hn))
    rintro x out rfl
    rw [hR hs] at he
    rcases processBody_stops _ he with h | ⟨f, h⟩ <;> cases h
  · rw [← hi]
    rw [hR hs] at hx
    have := processBody_le hx
    rw [Memory.readBytes_length] at this
    have hst := (processChecks_ok.mp hn).1
    have hlen := (processChecks_ok.mp hn).2.2.2.2
    rw [hR hs, ← Memory.readBytes_length s.mem p.toNat l.toNat] at hlen
    refine .completed c _ out hc ⟨rfl, rfl, rfl, rfl, rfl⟩ (by rw [hl]; exact this) (.inr hst) (.inl hst) (space hn) ?_
    intro hl
    have hready : ReadyContext c := by simpa [LegalContext, hst] using hl.fields
    refine ⟨?_, processBody_absent hst hl.absent hx, hl.cipher.moved rfl rfl rfl rfl id⟩
    simp only [LegalContext, hst, ModeContext.withSess_state]
    exact (processBody_ready_ok hready hlen hx).1

theorem finish_ended {i : Instr} {s t : State} {R : FinishRule} {snk : SinkOperand}
    (hi : outputTarget i = .sink snk) (hl : ∀ c, outLenOf c i = countOf (outLenFinish c))
    (hR : ∀ {m d}, R.sel m d = true → R = finishRuleOf m d)
    (h : runFinish Config.params R i.ctx snk s = .next t) : Ended i s t := by
  rcases runFinish_next h with ⟨-, rfl⟩ | ⟨c, hc, hs, ⟨e, he, rfl⟩ | ⟨n, hn, ⟨e, he, rfl⟩ | ⟨x, out, hx, rfl⟩⟩⟩
  · have := Ended.refused (i := i) (s := s)
    rwa [hi] at this
  · rw [← hi]
    have hna : ∀ x out, e ≠ .authFail x out := by
      rintro x out rfl
      cases finishChecks_stops _ he
    exact .raised c e 0 hc (Nat.zero_le _) (fun x out h => absurd h (hna x out)) (.inl ⟨rfl, hna⟩)
  · have hcount : n = outLenOf c i := by
      rw [hl, (finishChecks_ok.mp hn).2.2.1]; rfl
    rw [← hi]
    refine .raised c e n hc hcount.le ?_ (.inr (sink_inSpace hi (finishChecks_ok.mp hn).2.1))
    rintro x out rfl
    rw [hR hs] at he
    cases finishBody_stops _ he
    exact Nat.zero_le _
  · rw [← hi]
    rw [hR hs] at hx
    exact .completed c _ out hc ⟨rfl, rfl, rfl, rfl, rfl⟩ (by rw [hl]; exact finishBody_le hx)
      (.inr (finishChecks_ok.mp hn).1) (.inr rfl) (sink_inSpace hi (finishChecks_ok.mp hn).2.1)
      (fun hl => ⟨trivial, .of_not_ready (by simp), hl.cipher.moved rfl rfl rfl rfl (fun h => by simp at h)⟩)

theorem last_ended {k : BitVec 8} {p : Addr} {l : Len} {d : Dest} {s t : State}
    (h : execProcessLast k p l d s = .next t) : Ended (.processLast k p l d) s t := by
  have space : ∀ {c : ModeContext} {n : Nat}, processChecks Config.params (outLenLast c l.toNat)
      (lastLengthOk c l.toNat) c p l d = .ok n → InSpace (.processLast k p l d) c := by
    intro c n hn
    obtain ⟨-, hadm, -⟩ := processChecks_ok.mp hn
    cases d with
    | inPlace => exact chunk_inSpace rfl (inPlace_le hadm).2 hadm.range
    | sink k => exact sink_inSpace rfl hadm.sinkForm
  rcases runLast_next h with ⟨-, rfl⟩ | ⟨c, hc, ⟨e, he, rfl⟩ | ⟨n, hn, ⟨e, he, rfl⟩ | ⟨x, out, hx, rfl⟩⟩⟩
  · have := Ended.refused (i := .processLast k p l d) (s := s)
    rwa [show outputTarget (.processLast k p l d) = targetOf p d from rfl, targetOf_passedOff] at this
  · have hna : ∀ x out, e ≠ .authFail x out := by
      rintro x out rfl
      cases processChecks_stops (outLenLast_stops _ _) (lastLengthOk_stops _ _) _ he
    exact .raised (i := .processLast k p l d) c e 0 hc (Nat.zero_le _) (fun x out h => absurd h (hna x out))
      (.inl ⟨rfl, hna⟩)
  · have hcount : n = outLenOf c (.processLast k p l d) := by
      show n = countOf (outLenLast c l.toNat)
      rw [(processChecks_ok.mp hn).2.2.1]; rfl
    refine .raised (i := .processLast k p l d) c e n hc hcount.le ?_ (.inr (space hn))
    rintro x out rfl
    rw [← hcount]
    have hlen := (processChecks_ok.mp hn).2.2.1
    rw [← Memory.readBytes_length s.mem p.toNat l.toNat] at hlen
    exact lastBody_le hlen (.inr he)
  · have hcount : n = outLenOf c (.processLast k p l d) := by
      show n = countOf (outLenLast c l.toNat)
      rw [(processChecks_ok.mp hn).2.2.1]; rfl
    have hlen := (processChecks_ok.mp hn).2.2.1
    rw [← Memory.readBytes_length s.mem p.toNat l.toNat] at hlen
    exact .completed (i := .processLast k p l d) c _ out hc ⟨rfl, rfl, rfl, rfl, rfl⟩
      (hcount ▸ lastBody_le hlen (.inl hx)) (.inr (processChecks_ok.mp hn).1) (.inr rfl) (space hn)
      (fun hl => ⟨trivial, .of_not_ready (by simp), hl.cipher.moved rfl rfl rfl rfl (fun h => by simp at h)⟩)

/-- Whatever the instruction, a next state arises in one of the ways of `Ended`. -/
theorem exec_ended {i : Instr} {s t : State} (h : exec i s = .next t) : Ended i s t := by
  cases i with
  | openEcb k d w ks => exact open_ended (i := .openEcb k d w ks) rfl h
  | openCbc k d w ks => exact open_ended (i := .openCbc k d w ks) rfl h
  | openCtr k d w ks => exact open_ended (i := .openCtr k d w ks) rfl h
  | openGcm k d w ks => exact open_ended (i := .openGcm k d w ks) rfl h
  | openGmac k d w ks => exact open_ended (i := .openGmac k d w ks) rfl h
  | initEcb k o => exact init_ended (i := .initEcb k o) rfl (by simp) h
  | initCbc k o => exact init_ended (i := .initCbc k o) rfl (by simp) h
  | initCtr k o => exact init_ended (i := .initCtr k o) rfl (by simp) h
  | initGcm k o => exact init_ended (i := .initGcm k o) rfl (by simp) h
  | initGmac k o => exact init_ended (i := .initGmac k o) rfl (by simp) h
  | processEcbEnc k p l d =>
    exact process_ended (i := .processEcbEnc k p l d) rfl (fun _ => rfl) (processRule_selected (by simp)) h
  | processEcbDec k p l d =>
    exact process_ended (i := .processEcbDec k p l d) rfl (fun _ => rfl) (processRule_selected (by simp)) h
  | processCbcEnc k p l d =>
    exact process_ended (i := .processCbcEnc k p l d) rfl (fun _ => rfl) (processRule_selected (by simp)) h
  | processCbcDec k p l d =>
    exact process_ended (i := .processCbcDec k p l d) rfl (fun _ => rfl) (processRule_selected (by simp)) h
  | processCtr k p l d =>
    exact process_ended (i := .processCtr k p l d) rfl (fun _ => rfl) (processRule_selected (by simp)) h
  | processGcmEnc k p l d =>
    exact process_ended (i := .processGcmEnc k p l d) rfl (fun _ => rfl) (processRule_selected (by simp)) h
  | processGcmDec k p l d =>
    exact process_ended (i := .processGcmDec k p l d) rfl (fun _ => rfl) (processRule_selected (by simp)) h
  | processGmacEnc k p l d =>
    exact process_ended (i := .processGmacEnc k p l d) rfl (fun _ => rfl) (processRule_selected (by simp)) h
  | processGmacDec k p l d =>
    exact process_ended (i := .processGmacDec k p l d) rfl (fun _ => rfl) (processRule_selected (by simp)) h
  | processLast k p l d => exact last_ended h
  | finishEcb k snk =>
    exact finish_ended (i := .finishEcb k snk) rfl (fun _ => rfl) (finishRule_selected (by simp)) h
  | finishCbc k snk =>
    exact finish_ended (i := .finishCbc k snk) rfl (fun _ => rfl) (finishRule_selected (by simp)) h
  | finishCtr k snk =>
    exact finish_ended (i := .finishCtr k snk) rfl (fun _ => rfl) (finishRule_selected (by simp)) h
  | finishGcmEnc k snk =>
    exact finish_ended (i := .finishGcmEnc k snk) rfl (fun _ => rfl) (finishRule_selected (by simp)) h
  | finishGcmDec k snk =>
    exact finish_ended (i := .finishGcmDec k snk) rfl (fun _ => rfl) (finishRule_selected (by simp)) h
  | finishGmacEnc k snk =>
    exact finish_ended (i := .finishGmacEnc k snk) rfl (fun _ => rfl) (finishRule_selected (by simp)) h
  | finishGmacDec k snk =>
    exact finish_ended (i := .finishGmacDec k snk) rfl (fun _ => rfl) (finishRule_selected (by simp)) h
  | destroy k =>
    rcases execDestroy_next h with ⟨-, rfl⟩ | ⟨c, hc, rfl⟩
    · exact Ended.refused (i := .destroy k)
    · exact Ended.destroyed (i := .destroy k) c rfl hc

end Sys2Proof.Machine
end

