-- ==== Sys2Proof/Tests/Slice0.lean ====
section
/-! SUPPORT. Tests/Slice0.lean: tests against the words and vectors of 95_test_vectors.md (section numbers and row ids
in the comments), and for each obligation with hypotheses a theorem `witness_…` that meets them. -/

namespace Sys2Proof.Machine.Tests

-- One theorem after the other: the many short kernel evaluations would each hold a thread.
set_option Elab.async false

/-! Section 2.1: the test ciphers T (16 bytes) and U (8 bytes). -/

/-- The key schedule of T and U: the bytes `10 11 12 …`. -/
def key (i : Nat) : Byte := BitVec.ofNat 8 (16 + i)

def encT (n : Nat) (x : Bytes) : Bytes :=
  (List.range n).map fun i => (x.getD ((i + 1) % n) 0 ^^^ key ((i + 1) % n)) + BitVec.ofNat 8 (17 * i + 1)

def decT (n : Nat) (y : Bytes) : Bytes :=
  (List.range n).map fun j =>
    (y.getD ((j + n - 1) % n) 0 - BitVec.ofNat 8 (17 * ((j + n - 1) % n) + 1)) ^^^ key j

/-- T for `bs` = 16, U for `bs` = 8; `hasD` says whether `D` is present. -/
def cipherT (bs : Nat) (hasD : Bool) : Cipher :=
  { bs := bs, E := fun n x => some ⟨encT n x.val, by simp [encT]⟩, D := fun n y => some ⟨decT n y.val, by simp [decT]⟩,
    hasD := hasD, hasEcb := false, hasCbcEnc := false, hasCbcDec := false, hasCtr := false }

/-- A cipher whose `E` and `D` are the identity, and one whose `E` fails. -/
def cipherId : Cipher := { cipherT 16 true with E := fun _ x => some x, D := fun _ x => some x, hasEcb := true }
def cipherFail : Cipher := { cipherT 16 true with E := fun _ _ => none }

/-- Two slots, three segments at most; handle 8 is U, 7 is T without `D`, 6 fails, any other is T. -/
def P : Params :=
  { extraSlots := 1, extraSegs := 2,
    cipher := fun ks => if ks = 8 then cipherT 8 true else if ks = 7 then cipherT 16 false
      else if ks = 6 then cipherFail else cipherT 16 true }

/-- `M[0..n)`, the bytes 0, 1, 2, … -/
def msg (n : Nat) : Bytes := (List.range n).map (BitVec.ofNat 8)

/-- A state of two slots, the first holding `x`, with the bytes `v` at 1000H and `w` at 1100H. -/
def st (x : Slot) (v w : Bytes) : State :=
  { slots := [x, .free], status := 0, outLen := 0, sinkOff := 0,
    mem := Memory.writeBytes (Memory.writeBytes [] 0x1000 v) 0x1100 w, releases := [], inputs := [], freeIx := 0 }

def ctx (l : Lifecycle) (m : Mode) (d : Dir) (ks : Addr) (bs : Nat) (x : Session) : ModeContext :=
  { state := l, mode := m, dir := d, ks := ks, ksOwned := false, blockSize := bs, sess := x }

/-- STATUS, OUT_LEN, SINK_OFF and `n` bytes of memory from `a` on, after a next state. -/
def obs (a n : Nat) : Host.Outcome State Fault Refusal → Option (Nat × Nat × Nat × Bytes)
  | .next t => some (t.status.toNat, t.outLen.toNat, t.sinkOff.toNat, t.mem.readBytes a n)
  | _ => none

/-- The lifecycle state and the session of slot 0 after a next state. -/
def sess0 : Host.Outcome State Fault Refusal → Option (Lifecycle × Session)
  | .next t =>
    match t.slot 0 with
    | some (.held c) => some (c.state, c.sess)
    | _ => none
  | _ => none

/-- A sink of one buffer at 2000H. -/
def buf (l : Len) (off : Addr) : SinkOperand := .contiguous 0x2000 l off

/-- The sink of program P1: segments of 5, 16 and 20 bytes. -/
def segs3 : SinkOperand := .segments [⟨0x2000, 5⟩, ⟨0x3000, 16⟩, ⟨0x4000, 20⟩] 0

def init0 : InitOperands := ⟨0, 0, 0, 0, 0, 0⟩

/-! Section 2.1, the table of the test cipher: the tests below rest on it. -/

theorem test_cipher_zero : encT 16 (zeros 16) = beBytes 16 0x122436485a6c7e90a2b4c6d8eafc0e10 := by decide +kernel
theorem test_cipher_inverse : decT 16 (zeros 16) = beBytes 16 0x10eefcced8aebc8e906e7c4e582e3c0e := by decide +kernel
theorem test_cipher_u : encT 8 (msg 8) = beBytes 8 0x1122334455667788 := by decide +kernel

/-! Section 2.2: command words, written out from R91. -/

/-- Two slots, slot 0 and 1 holding a context of this mode and direction. -/
def sel (m : Mode) (d : Dir) (k : BitVec 8) : Option Selection := if k.toNat < 2 then some ⟨m, d⟩ else none

/-- Every operand at a value of its own. -/
def ops : Operands := ⟨0xA, ⟨1, 2, 3, 4, 5, 6⟩, 0xB, 12, 0xD, 14, [⟨15, 16⟩], 17⟩

theorem test_decode_open :
    decode (sel .ecb .enc) ⟨0x00000001#32, ops⟩ = .ok (.openEcb 0 .enc false 0xA) ∧
    decode (sel .ecb .enc) ⟨0x00000091#32, ops⟩ = .ok (.openCbc 0 .dec false 0xA) ∧
    decode (sel .ecb .enc) ⟨0x00000421#32, ops⟩ = .ok (.openCtr 0 .enc true 0xA) ∧
    decode (sel .ecb .enc) ⟨0x000100B1#32, ops⟩ = .ok (.openGcm 1 .dec false 0xA) ∧
    decode (sel .ecb .enc) ⟨0x00010041#32, ops⟩ = .ok (.openGmac 1 .enc false 0xA) := by decide

theorem test_decode_init :
    decode (sel .ecb .dec) ⟨0x00000002#32, ops⟩ = .ok (.initEcb 0 ⟨1, 2, 3, 4, 5, 6⟩) ∧
    decode (sel .cbc .enc) ⟨0x00000002#32, ops⟩ = .ok (.initCbc 0 ⟨1, 2, 3, 4, 5, 6⟩) ∧
    decode (sel .ctr .enc) ⟨0x00010002#32, ops⟩ = .ok (.initCtr 1 ⟨1, 2, 3, 4, 5, 6⟩) ∧
    decode (sel .gcm .dec) ⟨0x00010002#32, ops⟩ = .ok (.initGcm 1 ⟨1, 2, 3, 4, 5, 6⟩) ∧
    decode (sel .gmac .enc) ⟨0x00010002#32, ops⟩ = .ok (.initGmac 1 ⟨1, 2, 3, 4, 5, 6⟩) := by decide

theorem test_decode_process :
    decode (sel .ecb .enc) ⟨0x00010003#32, ops⟩ = .ok (.processEcbEnc 1 0xB 12 (.sink (.contiguous 0xD 14 17))) ∧
    decode (sel .ecb .dec) ⟨0x00000203#32, ops⟩ = .ok (.processEcbDec 0 0xB 12 (.sink (.segments [⟨15, 16⟩] 17))) ∧
    decode (sel .cbc .enc) ⟨0x00000103#32, ops⟩ = .ok (.processCbcEnc 0 0xB 12 .inPlace) ∧
    decode (sel .cbc .dec) ⟨0x00000103#32, ops⟩ = .ok (.processCbcDec 0 0xB 12 .inPlace) ∧
    decode (sel .ctr .dec) ⟨0x00000103#32, ops⟩ = .ok (.processCtr 0 0xB 12 .inPlace) ∧
    decode (sel .gcm .enc) ⟨0x00000003#32, ops⟩ = .ok (.processGcmEnc 0 0xB 12 (.sink (.contiguous 0xD 14 17))) ∧
    decode (sel .gcm .dec) ⟨0x00000003#32, ops⟩ = .ok (.processGcmDec 0 0xB 12 (.sink (.contiguous 0xD 14 17))) ∧
    decode (sel .gmac .enc) ⟨0x00000103#32, ops⟩ = .ok (.processGmacEnc 0 0xB 12 .inPlace) ∧
    decode (sel .gmac .dec) ⟨0x00000203#32, ops⟩ = .ok (.processGmacDec 0 0xB 12 (.sink (.segments [⟨15, 16⟩] 17))) ∧
    decode (sel .gmac .dec) ⟨0x00000104#32, ops⟩ = .ok (.processLast 0 0xB 12 .inPlace) := by decide

theorem test_decode_finish_destroy :
    decode (sel .ecb .dec) ⟨0x00000205#32, ops⟩ = .ok (.finishEcb 0 (.segments [⟨15, 16⟩] 17)) ∧
    decode (sel .cbc .enc) ⟨0x00000005#32, ops⟩ = .ok (.finishCbc 0 (.contiguous 0xD 14 17)) ∧
    decode (sel .ctr .enc) ⟨0x00000005#32, ops⟩ = .ok (.finishCtr 0 (.contiguous 0xD 14 17)) ∧
    decode (sel .gcm .enc) ⟨0x00010005#32, ops⟩ = .ok (.finishGcmEnc 1 (.contiguous 0xD 14 17)) ∧
    decode (sel .gcm .dec) ⟨0x00010005#32, ops⟩ = .ok (.finishGcmDec 1 (.contiguous 0xD 14 17)) ∧
    decode (sel .gmac .enc) ⟨0x00010005#32, ops⟩ = .ok (.finishGmacEnc 1 (.contiguous 0xD 14 17)) ∧
    decode (sel .gmac .dec) ⟨0x00010005#32, ops⟩ = .ok (.finishGmacDec 1 (.contiguous 0xD 14 17)) ∧
    decode (sel .gmac .dec) ⟨0x00010006#32, ops⟩ = .ok (.destroy 1) := by decide

/-- The thirteen illegal words of section 2.2. -/
theorem test_decode_illegal :
    ([0x00000000, 0x00000007, 0x00000051, 0x00000201, 0x00000013, 0x00000083, 0x00000303, 0x00000105, 0x00000402,
      0x00000206, 0x00000803, 0x01000003, 0x00020001] : List Nat).map
        (fun w => (decode (sel .ecb .enc) ⟨BitVec.ofNat 32 w, ops⟩).toOption) = List.replicate 13 none := by decide

/-- The words the encoder writes, against section 2.2. -/
theorem test_encode_words :
    (encode (.openCtr 0 .enc true 0)).word = 0x00000421#32 ∧ (encode (.initGcm 0 init0)).word = 0x00000002#32 ∧
    (encode (.processCtr 0 0 0 .inPlace)).word = 0x00000103#32 ∧
    (encode (.processLast 0 0 0 (.sink segs3))).word = 0x00000204#32 ∧
    (encode (.finishCbc 0 segs3)).word = 0x00000205#32 ∧ (encode (.destroy 1)).word = 0x00010006#32 := by decide

/-! WellFormed: each check refuses an ill-formed term (R96, R113). -/

theorem test_wellFormed_missing_slot : (Instr.destroy 2).wellFormed (sel .ecb .enc) = false := by decide

/-- Each row on a context of another mode or another direction. -/
theorem test_wellFormed_other_row :
    (Instr.initEcb 0 init0).wellFormed (sel .cbc .enc) = false ∧ (Instr.initCbc 0 init0).wellFormed (sel .ecb .enc) = false ∧
    (Instr.initCtr 0 init0).wellFormed (sel .gcm .enc) = false ∧ (Instr.initGcm 0 init0).wellFormed (sel .gmac .enc) = false ∧
    (Instr.initGmac 0 init0).wellFormed (sel .gcm .enc) = false ∧
    (Instr.processEcbEnc 0 0 0 .inPlace).wellFormed (sel .ecb .dec) = false ∧
    (Instr.processEcbDec 0 0 0 .inPlace).wellFormed (sel .ecb .enc) = false ∧
    (Instr.processCbcEnc 0 0 0 .inPlace).wellFormed (sel .cbc .dec) = false ∧
    (Instr.processCbcDec 0 0 0 .inPlace).wellFormed (sel .cbc .enc) = false ∧
    (Instr.processCtr 0 0 0 .inPlace).wellFormed (sel .ecb .enc) = false ∧
    (Instr.processGcmEnc 0 0 0 .inPlace).wellFormed (sel .gcm .dec) = false ∧
    (Instr.processGcmDec 0 0 0 .inPlace).wellFormed (sel .gcm .enc) = false ∧
    (Instr.processGmacEnc 0 0 0 .inPlace).wellFormed (sel .gmac .dec) = false ∧
    (Instr.processGmacDec 0 0 0 .inPlace).wellFormed (sel .gmac .enc) = false ∧
    (Instr.finishEcb 0 segs3).wellFormed (sel .cbc .enc) = false ∧ (Instr.finishCbc 0 segs3).wellFormed (sel .ecb .enc) = false ∧
    (Instr.finishCtr 0 segs3).wellFormed (sel .gcm .enc) = false ∧
    (Instr.finishGcmEnc 0 segs3).wellFormed (sel .gcm .dec) = false ∧
    (Instr.finishGcmDec 0 segs3).wellFormed (sel .gmac .dec) = false ∧
    (Instr.finishGmacEnc 0 segs3).wellFormed (sel .gmac .dec) = false ∧
    (Instr.finishGmacDec 0 segs3).wellFormed (sel .gmac .enc) = false := by decide

/-! The table word of the host's questions, and the step that runs it. -/

theorem test_table_word : decodeTableWord 32 0x00000001 = some (.openEcb 0 .enc false 0) ∧
    decodeTableWord 32 0 = none := by decide
theorem test_withFetchWord_runs :
    step (State.reset.withFetchWord 32 0x00000001) = exec (.openEcb 0 .enc false 0) State.reset := by rfl

/-! OPEN and INIT (sections 2.4 to 2.10). -/

/-- R125: OPEN in the five modes: the context created. -/
def openedAs (m : Mode) (d : Dir) : Option Slot :=
  match openContext P m 0 d true 8 (st .free [] []) with
  | .next t => t.slot 0
  | _ => none

theorem test_open_modes : ∀ m ∈ [Mode.ecb, .cbc, .ctr, .gcm, .gmac],
    openedAs m .dec = some (.held ⟨.alloc, m, .dec, 8, true, 8, Session.empty⟩) := by decide
theorem test_open_taken :
    obs 0 0 (openContext P .ecb 0 .enc false 8 (st (.held (ctx .alloc .ctr .enc 9 16 Session.empty)) [] [])) =
      some (4, 0, 0, []) := by decide +kernel

def alloc (m : Mode) (d : Dir) (ks : Addr) (bs : Nat) : Slot := .held (ctx .alloc m d ks bs Session.empty)

theorem test_init_ecb : sess0 (runInit P initEcbRule 0 init0 (st (alloc .ecb .enc 9 16) [] [])) =
    some (.ready, { Session.empty with remainder := some [] }) := by decide +kernel
/-- E12: DEC with a cipher that has no `D`. -/
theorem test_init_ecb_no_decrypt : obs 0 0 (runInit P initEcbRule 0 init0 (st (alloc .ecb .dec 7 16) [] [])) =
    some (1, 0, 0, []) := by decide +kernel

theorem test_init_cbc :
    sess0 (runInit P initCbcRule 0 ⟨0x1100, 16, 0, 0, 0, 0⟩
      (st (alloc .cbc .dec 9 16) [] (beBytes 16 0xa0a1a2a3a4a5a6a7a8a9aaabacadaeaf))) =
    some (.ready, { Session.empty with cb := some (beBytes 16 0xa0a1a2a3a4a5a6a7a8a9aaabacadaeaf),
                                       remainder := some [] }) := by decide +kernel
/-- B6: `IV_LEN` = 12. -/
theorem test_init_cbc_iv_length :
    obs 0 0 (runInit P initCbcRule 0 ⟨0x1100, 12, 0, 0, 0, 0⟩ (st (alloc .cbc .dec 9 16) [] [])) =
      some (1, 0, 0, []) := by decide +kernel

theorem test_init_ctr :
    sess0 (runInit P initCtrRule 0 ⟨0x1100, 16, 0, 0, 0, 32⟩
      (st (alloc .ctr .enc 9 16) [] (beBytes 16 0xc0c1c2c3c4c5c6c7c8c9cacbfffffffe))) =
    some (.ready, { Session.empty with cb := some (beBytes 16 0xc0c1c2c3c4c5c6c7c8c9cacbfffffffe),
                                       ctrBits := some 32, remainder := some [] }) := by decide +kernel
/-- T11: `CTR_BITS` = 0 and 129 are refused, 1 and 128 are not (R128). -/
theorem test_init_ctr_bits : ([0, 1, 128, 129] : List Nat).map (fun n =>
      (obs 0 0 (runInit P initCtrRule 0 ⟨0x1100, 16, 0, 0, 0, BitVec.ofNat 32 n⟩ (st (alloc .ctr .enc 9 16) [] []))).map
        (·.1)) = [some 1, some 0, some 0, some 1] := by decide +kernel

/-! Section 2.8: the IV, the AAD, and the state after INIT. -/

def iv12 : Bytes := beBytes 12 0xd0d1d2d3d4d5d6d7d8d9dadb
def aad20 : Bytes := beBytes 20 0x808182838485868788898a8b8c8d8e8f90919293
def hashKey : Bytes := beBytes 16 0x122436485a6c7e90a2b4c6d8eafc0e10
def counter0 : Bytes := beBytes 16 0xd0d1d2d3d4d5d6d7d8d9dadb00000001

/-- The session after the INIT of section 2.8; only a decrypting one has a look-ahead buffer (R39). -/
def gcm0 (d : Dir) : Session :=
  { remainder := some [], cb := some counter0, ctrBits := some 32, H := some hashKey,
    hTable := some (Config.hTableOf hashKey), ghash := some (beBytes 16 0xb5731b9e12cc5e9ee58d748b42f1e560),
    J0 := some counter0, lenALenC := some (beBytes 8 0xa0), tagLen := some 16, processed := some 0,
    la := if d = .dec then some [] else none }

/-- The fields of a session that a vector of section 2.8 gives. -/
def gcmView (x : Session) : List (Option Bytes) × Option Nat × Option (BitVec 64) :=
  ([x.remainder, x.cb, x.H, x.ghash, x.J0, x.lenALenC, x.la], x.tagLen, x.processed)

theorem test_init_gcm :
    (sess0 (runInit P initGcmRule 0 ⟨0x1000, 12, 0x1100, 20, 128, 0⟩ (st (alloc .gcm .enc 9 16) iv12 aad20))).map
      (fun r => (r.1, gcmView r.2)) = some (.ready, gcmView (gcm0 .enc)) := by decide +kernel
/-- GC17: an IV of 8 bytes. -/
theorem test_init_gcm_long_iv :
    ivCounter hashKey (beBytes 8 0xe0e1e2e3e4e5e6e7) = beBytes 16 0xf69ddc59d13173e657928d1917d2cf89 := by
  decide +kernel
theorem test_init_gmac :
    (sess0 (runInit P initGmacRule 0 ⟨0x1000, 12, 0x1100, 20, 128, 0⟩ (st (alloc .gmac .dec 9 16) iv12 aad20))).map
      (fun r => (r.1, gcmView r.2)) = some (.ready, gcmView (gcm0 .dec)) := by decide +kernel
/-- GC20: `TAG_BITS` = 40, no IV, a cipher of 8-byte blocks. -/
theorem test_init_gmac_config :
    obs 0 0 (runInit P initGmacRule 0 ⟨0x1000, 12, 0, 0, 40, 0⟩ (st (alloc .gmac .enc 9 16) [] [])) = some (1, 0, 0, []) ∧
    obs 0 0 (runInit P initGmacRule 0 ⟨0x1000, 0, 0, 0, 128, 0⟩ (st (alloc .gmac .enc 9 16) [] [])) = some (1, 0, 0, []) ∧
    obs 0 0 (runInit P initGmacRule 0 ⟨0x1000, 12, 0, 0, 128, 0⟩ (st (alloc .gmac .enc 8 8) [] [])) = some (1, 0, 0, []) := by
  decide +kernel

/-! ECB, CBC and CTR (sections 2.3 to 2.6). -/

def ecb0 (r : Bytes) : Session := { Session.empty with remainder := some r }
def cbc0 : Session := { ecb0 [] with cb := some (beBytes 16 0xa0a1a2a3a4a5a6a7a8a9aaabacadaeaf) }
def ctr0 (n cb : Nat) : Session := { ecb0 [] with cb := some (beBytes 16 cb), ctrBits := some n }
def ready (m : Mode) (d : Dir) (x : Session) : Slot := .held (ctx .ready m d 9 16 x)

/-- K1: two blocks across three segments; the third segment's bytes. -/
theorem test_process_ecb_enc_straddles :
    obs 0x4000 11 (runProcess P processEcbEncRule 0 0x1000 32 (.sink segs3) (st (ready .ecb .enc (ecb0 [])) (msg 32) [])) =
      some (0, 32, 32, beBytes 11 0x566778899aabbccddeef00) := by decide +kernel
/-- E9: explicit in place, 20 bytes. -/
theorem test_process_ecb_enc_in_place :
    obs 0x1000 20 (runProcess P processEcbEncRule 0 0x1000 20 .inPlace (st (ready .ecb .enc (ecb0 [])) (msg 20) [])) =
      some (0, 16, 0, beBytes 20 0x112233445566778899aabbccddeeff1010111213) := by decide +kernel
/-- E3, first chunk. -/
theorem test_process_ecb_dec :
    obs 0x2000 16 (runProcess P processEcbDecRule 0 0x1000 20 (.sink (buf 32 0))
      (st (ready .ecb .dec (ecb0 [])) (beBytes 20 0x112233445566778899aabbccddeeff1001122334) [])) =
      some (0, 16, 16, msg 16) := by decide +kernel
/-- B1. -/
theorem test_process_cbc_enc :
    obs 0x2000 32 (runProcess P processCbcEncRule 0 0x1000 32 (.sink (buf 32 0)) (st (ready .cbc .enc cbc0) (msg 32) [])) =
      some (0, 32, 32, beBytes 32 0xb2c4d6e8fa0c1e30425466788a9caeb0c5e80b2e517497badd002346698c9fb2) := by
  decide +kernel
/-- B5, as PROCESS: in place, and `cb` is the last ciphertext block. -/
theorem test_process_cbc_dec :
    let o := runProcess P processCbcDecRule 0 0x1000 32 .inPlace (st (ready .cbc .dec cbc0)
      (beBytes 32 0xb2c4d6e8fa0c1e30425466788a9caeb0c5e80b2e517497badd002346698c9fb2) [])
    obs 0x1000 32 o = some (0, 32, 0, msg 32) ∧
    (sess0 o).map (·.2.cb) = some (some (beBytes 16 0xc5e80b2e517497badd002346698c9fb2)) := by decide +kernel
/-- T10: a 16-bit counter field carries into its second byte. -/
theorem test_process_ctr :
    let o := runProcess P processCtrRule 0 0x1000 16 (.sink (buf 16 0)) (st (ready .ctr .dec (ctr0 16 0x1ff)) (msg 16) [])
    obs 0x2000 16 o = some (0, 16, 16, beBytes 16 0x1225344b5e697897aabdccd3e6f0c11f) ∧
    (sess0 o).map (·.2.cb) = some (some (beBytes 16 0x200)) := by decide +kernel
/-- T9: a full counter field: LENGTH_RANGE, and the context closes. -/
theorem test_process_ctr_wrap :
    let o := runProcess P processCtrRule 0 0x1000 16 (.sink (buf 16 0)) (st (ready .ctr .enc (ctr0 8 0x1ff)) (msg 16) [])
    obs 0x2000 0 o = some (2, 0, 0, []) ∧ (sess0 o).map (·.1) = some .closed := by decide +kernel
/-- E5 and E8: FINISH in ECB with a partial block and with none. -/
theorem test_finish_ecb :
    obs 0 0 (runFinish P finishEcbRule 0 (buf 64 32) (st (ready .ecb .enc (ecb0 [0x20])) [] [])) = some (2, 0, 32, []) ∧
    obs 0 0 (runFinish P finishEcbRule 0 (buf 64 0) (st (ready .ecb .enc (ecb0 [])) [] [])) = some (0, 0, 0, []) := by
  decide +kernel
/-- B4: FINISH in CBC with a partial block. -/
theorem test_finish_cbc :
    obs 0 0 (runFinish P finishCbcRule 0 (buf 64 16)
      (st (ready .cbc .enc { cbc0 with remainder := some [0x10] }) [] [])) = some (2, 0, 16, []) := by decide +kernel
/-- T1: FINISH in CTR with four bytes left. -/
theorem test_finish_ctr :
    obs 0x2010 4 (runFinish P finishCtrRule 0 (buf 20 16)
      (st (ready .ctr .enc { ctr0 32 0xc0c1c2c3c4c5c6c7c8c9cacbffffffff with remainder := some [0x10, 0x11, 0x12, 0x13] })
        [] [])) = some (0, 4, 20, beBytes 4 0xc1f3e117) := by decide +kernel

/-! GCM and GMAC (sections 2.7 to 2.9). -/

/-- GH7: the product commutes. -/
theorem test_gfMul :
    gfMul 0x000102030405060708090a0b0c0d0e0f 0x101112131415161718191a1b1c1d1e1f = 0x1bc91888448608ef543b5852045c4835 ∧
    gfMul 0x101112131415161718191a1b1c1d1e1f 0x000102030405060708090a0b0c0d0e0f = 0x1bc91888448608ef543b5852045c4835 := by
  decide +kernel

def out36 : Bytes := beBytes 36 0xc1d3e1f70113213f415361d3e6f102cfd1c3f1e72c6d51407d86f6d93e163491886b1ae0

/-- The session of GC1 after PROCESS. -/
def gcm1 (r : Bytes) (la : Option Bytes) : Session :=
  { gcm0 .enc with
    remainder := some r, cb := some (beBytes 16 0xd0d1d2d3d4d5d6d7d8d9dadb00000002),
    ghash := some (beBytes 16 0x833f103826fcd94df220d24d742abcba), processed := some 16, la := la }

/-- GC1. -/
theorem test_process_gcm_enc :
    let o := runProcess P processGcmEncRule 0 0x1000 20 (.sink (buf 36 0)) (st (ready .gcm .enc (gcm0 .enc)) (msg 20) [])
    obs 0x2000 16 o = some (0, 16, 16, out36.take 16) ∧
    (sess0 o).map (fun r => gcmView r.2) = some (gcmView (gcm1 ((msg 20).drop 16) none)) := by decide +kernel
/-- GC4. -/
theorem test_process_gcm_dec :
    let o := runProcess P processGcmDecRule 0 0x1000 36 (.sink (buf 36 0)) (st (ready .gcm .dec (gcm0 .dec)) out36 [])
    obs 0x2000 16 o = some (0, 16, 16, msg 16) ∧
    (sess0 o).map (fun r => gcmView r.2) = some (gcmView (gcm1 [] (some (out36.drop 16)))) := by decide +kernel
/-- GC6: 31 bytes release nothing with a 16-byte tag. -/
theorem test_process_gcm_dec_holds_back :
    obs 0 0 (runProcess P processGcmDecRule 0 0x1000 31 (.sink (buf 36 0)) (st (ready .gcm .dec (gcm0 .dec)) out36 [])) =
      some (0, 0, 0, []) := by decide +kernel
/-- GC1: the end of encryption. -/
theorem test_finish_gcm_enc :
    let o := runFinish P finishGcmEncRule 0 (buf 36 16) (st (ready .gcm .enc (gcm1 ((msg 20).drop 16) none)) [] [])
    obs 0x2010 20 o = some (0, 20, 36, out36.drop 16) ∧
    (sess0 o).map (fun r => (r.1, r.2.lenALenC, r.2.processed)) =
      some (.closed, some (beBytes 16 0xa000000000000000a0), some 20) := by decide +kernel
/-- GC21: one byte of room too little. -/
theorem test_finish_gcm_enc_room :
    obs 0 0 (runFinish P finishGcmEncRule 0 (buf 35 16) (st (ready .gcm .enc (gcm1 ((msg 20).drop 16) none)) [] [])) =
      some (5, 0, 16, []) := by decide +kernel
/-- GC4: the end of decryption. -/
theorem test_finish_gcm_dec :
    obs 0x2010 4 (runFinish P finishGcmDecRule 0 (buf 36 16) (st (ready .gcm .dec (gcm1 [] (some (out36.drop 16)))) [] [])) =
      some (0, 4, 20, (msg 20).drop 16) := by decide +kernel
/-- GC8: the last tag byte changed: AUTH_FAIL, and nothing is written. -/
theorem test_finish_gcm_dec_tag :
    obs 0x2010 4 (runFinish P finishGcmDecRule 0 (buf 36 16)
      (st (ready .gcm .dec (gcm1 [] (some ((out36.drop 16).take 19 ++ [0x60])))) [] [])) = some (3, 0, 16, zeros 4) := by
  decide +kernel
/-- Q5 and Q1: one byte of data, and none. -/
theorem test_process_gmac_enc :
    obs 0 0 (runProcess P processGmacEncRule 0 0x1000 1 (.sink (buf 16 0)) (st (ready .gmac .enc (gcm0 .enc)) [] [])) =
      some (2, 0, 0, []) ∧
    obs 0 0 (runProcess P processGmacEncRule 0 0x1000 0 (.sink (buf 16 0)) (st (ready .gmac .enc (gcm0 .enc)) [] [])) =
      some (0, 0, 0, []) := by decide +kernel

def tagQ1 : Bytes := beBytes 16 0xfbd88ae81b18b05f73b086e8fb998884

/-- Q2, first chunk; Q3, 17 bytes. -/
theorem test_process_gmac_dec :
    let o := runProcess P processGmacDecRule 0 0x1000 9 (.sink (buf 1 0)) (st (ready .gmac .dec (gcm0 .dec)) tagQ1 [])
    obs 0 0 o = some (0, 0, 0, []) ∧ (sess0 o).map (·.2.la) = some (some (tagQ1.take 9)) ∧
    obs 0 0 (runProcess P processGmacDecRule 0 0x1000 17 (.sink (buf 1 0)) (st (ready .gmac .dec (gcm0 .dec)) tagQ1 [])) =
      some (2, 0, 0, []) := by decide +kernel
/-- Q1. -/
theorem test_finish_gmac_enc :
    obs 0x2000 16 (runFinish P finishGmacEncRule 0 (buf 16 0) (st (ready .gmac .enc (gcm0 .enc)) [] [])) =
      some (0, 16, 16, tagQ1) := by decide +kernel
/-- Q2, Q4 and Q6: the tag, a byte too few, a bit flipped. -/
theorem test_finish_gmac_dec :
    ([tagQ1, tagQ1.take 15, tagQ1.take 15 ++ [0x85]] : List Bytes).map (fun t =>
      (obs 0 0 (runFinish P finishGmacDecRule 0 (buf 16 0)
        (st (ready .gmac .dec { gcm0 .dec with la := some t }) [] []))).map (·.1)) =
      [some 0, some 2, some 3] := by decide +kernel

/-- S3: 33 bytes of ECB as the last input. GC3: PROCESS_LAST of encryption. -/
theorem test_processLast_ecb_gcm :
    obs 0x2000 0 (runLast P processRuleOf finishRuleOf 0 0x1000 33 (.sink (buf 64 0))
      (st (ready .ecb .enc (ecb0 [])) (msg 33) [])) = some (2, 0, 0, []) ∧
    obs 0x2000 36 (runLast P processRuleOf finishRuleOf 0 0x1000 20 (.sink (buf 36 0))
      (st (ready .gcm .enc (gcm0 .enc)) (msg 20) [])) = some (0, 36, 36, out36) := by decide +kernel
/-- GC13: the verdict comes after a whole block was written, which the results count. -/
theorem test_processLast_authFail :
    let bad := out36.take 3 ++ [0xf6] ++ out36.drop 4
    obs 0x2000 0 (runLast P processRuleOf finishRuleOf 0 0x1000 36 (.sink (buf 36 0))
      (st (ready .gcm .dec (gcm0 .dec)) bad [])) = some (3, 16, 16, []) := by decide +kernel

theorem test_destroy_releases :
    (match execDestroy 0 (st (.held { ctx .ready .ecb .enc 9 16 (ecb0 []) with ksOwned := true }) [] []) with
      | .next t => (t.slot 0, t.releases)
      | _ => (none, [])) = (some .free, [9]) := by decide +kernel
/-- Section 2.10, step 2: DESTROY of a free slot. -/
theorem test_destroy_free : obs 0 0 (execDestroy 0 (st .free [] [])) = some (4, 0, 0, []) := by decide +kernel

/-- R122, R288: a cipher that fails closes the context with CIPHER. -/
theorem test_cipher_failure :
    (match runFinish P finishCtrRule 0 (buf 20 16) (st (.held (ctx .ready .ctr .enc 6 16
        { ctr0 32 5 with remainder := some [1] })) [] []) with
      | .next t => t.status
      | _ => 0) = 6 := by rfl

/-! Section 2.3: sinks. -/

/-- K5 to K8: ill-formed sinks; K12: a sink filled to the end is well formed. -/
theorem test_sink_forms :
    sinkWf 3 16 (.segments [⟨0x2000, 16⟩, ⟨0x3000, 4⟩, ⟨0x4000, 16⟩] 0) = false ∧
    sinkWf 3 16 (.segments [⟨0x2000, 16⟩, ⟨0x2008, 16⟩] 0) = false ∧ sinkWf 3 16 (buf 16 17) = false ∧
    sinkWf 3 16 (buf 0 0) = false ∧ sinkWf 3 16 (buf 16 16) = true ∧ sinkWf 3 16 segs3 = true ∧
    sinkWf 2 16 segs3 = false := by decide +kernel
/-- K9 and K11: an overlap that is no identity, a range past the end of the address space. -/
theorem test_operand_ranges :
    chunkOverlaps 0x2008 16 (.sink (buf 32 0)) = true ∧ isInPlace 0x2008 16 (.sink (buf 32 0)) = false ∧
    isInPlace 0x2000 16 (.sink (buf 32 0)) = true ∧ rangeFits 0xfffffffffffffff8 16 = false ∧
    rangeFits 0xfffffffffffffff0 16 = true := by decide

/-! Witnesses. exec runs on the open parameters of Config.params, so these states make no call of the cipher. -/

/-- Whether an outcome is a next state with status OK. -/
def isOk : Host.Outcome State Fault Refusal → Bool
  | .next t => t.status == 0
  | _ => false

theorem next_of_isOk {o : Host.Outcome State Fault Refusal} (h : isOk o = true) : ∃ t, o = .next t ∧ t.status = 0 := by
  cases o with
  | next t => exact ⟨t, rfl, by simpa [isOk] using h⟩
  | fault f => cases h
  | refused r => cases h

/-- A contiguous sink with one byte at least, inside the address space, is well formed whatever the parameters. -/
theorem sinkWf_contiguous (Q : Params) (bs : Nat) (p : Addr) (l : Len) (off : Addr)
    (h : (1 ≤ l.toNat ∧ p.toNat + l.toNat ≤ addrSpace) ∧ off.toNat ≤ l.toNat) :
    sinkWf Q.segMax bs (.contiguous p l off) = true := by
  simp [sinkWf, SinkOperand.segs, SinkOperand.off, middleSegs, allDisjoint, sinkTotal, Params.segMax, h.1.1, h.1.2, h.2]

/-- Operands that every context admits: a chunk and a sink buffer apart from each other. -/
theorem admitted (c : ModeContext) (p : Addr) (l : Len) (sl : Len) (off : Addr)
    (h : rangeFits p l = true ∧ ((1 ≤ sl.toNat ∧ (0x2000 : Addr).toNat + sl.toNat ≤ addrSpace) ∧ off.toNat ≤ sl.toNat) ∧
      isInPlace p l (.sink (buf sl off)) = false ∧ chunkOverlaps p l (.sink (buf sl off)) = false) :
    OperandsAdmitted Config.params c p l (.sink (buf sl off)) :=
  ⟨h.1, sinkWf_contiguous _ _ _ _ _ h.2.1, fun hi => absurd hi (by rw [h.2.2.1]; decide), .inr h.2.2.2⟩

def cEcb (d : Dir) (r : Bytes) : ModeContext := ctx .ready .ecb d 9 16 (ecb0 r)
def cCbc (d : Dir) : ModeContext := ctx .ready .cbc d 9 16 cbc0
def cCtr (r : Bytes) : ModeContext := ctx .ready .ctr .enc 9 16 { ctr0 32 1 with remainder := some r }
def cGcm (m : Mode) (d : Dir) (r la : Bytes) : ModeContext :=
  ctx .ready m d 9 16 { gcm0 d with remainder := some r, la := if d = .dec then some la else none }

theorem legal_cEcb (d : Dir) (r : Bytes) (h : r.length < 16) : LegalContext (cEcb d r) := ⟨.inr rfl, r, rfl, h⟩
theorem legal_cCbc (d : Dir) : LegalContext (cCbc d) :=
  ⟨.inr rfl, ⟨[], rfl, show 0 < 16 by decide⟩, ⟨_, rfl, beBytes_length 16 _⟩⟩
theorem legal_cCtr (r : Bytes) (h : r.length < 16) : LegalContext (cCtr r) :=
  ⟨.inr rfl, ⟨r, rfl, h⟩, ⟨_, rfl, beBytes_length 16 _⟩, ⟨32, rfl, by decide, show 32 ≤ 8 * 16 by decide⟩⟩
theorem fields_gcm0 (m : Mode) (d : Dir) (r la : Bytes) : GcmFields (cGcm m d r la).sess 16 0 :=
  ⟨⟨_, rfl, by decide +kernel, rfl⟩, ⟨_, rfl, by decide +kernel⟩, ⟨_, rfl, by decide +kernel⟩,
    ⟨_, rfl, by decide +kernel, rfl⟩, rfl, rfl, by decide, ⟨0, rfl, rfl⟩, rfl⟩
theorem legal_gcmEnc (r : Bytes) (h : r.length < 16) : LegalContext (cGcm .gcm .enc r []) :=
  ⟨.inr rfl, rfl, 16, 0, fields_gcm0 _ _ _ _, rfl, r, rfl, h, by unfold gcmDataMax; omega⟩
theorem legal_gcmDec (la : Bytes) (h : la.length < 32) : LegalContext (cGcm .gcm .dec [] la) :=
  ⟨.inr rfl, rfl, 16, 0, fields_gcm0 _ _ _ _, rfl, la, rfl, by omega, by omega, by unfold gcmDataMax; omega⟩
theorem legal_gmacEnc : LegalContext (cGcm .gmac .enc [] []) :=
  ⟨.inr rfl, rfl, 16, 0, fields_gcm0 _ _ _ _, rfl, rfl, rfl⟩
theorem legal_gmacDec (la : Bytes) (h : la.length ≤ 16) : LegalContext (cGcm .gmac .dec [] la) :=
  ⟨.inr rfl, rfl, 16, 0, fields_gcm0 _ _ _ _, rfl, rfl, la, rfl, h⟩

/-- The state with `c` in slot 0 and 64 bytes of message at 1000H. -/
def on (c : ModeContext) : State := st (.held c) (msg 64) []

theorem witness_DecodeReadsEncode :
    (Instr.openGmac 255 .dec true 7).wellFormed (fun _ => some ⟨.ecb, .enc⟩) = true ∧
    (Instr.initCtr 0 init0).wellFormed (sel .ctr .dec) = true ∧
    (Instr.processGcmDec 1 5 6 (.sink segs3)).wellFormed (sel .gcm .dec) = true ∧
    (Instr.processLast 1 5 6 .inPlace).wellFormed (sel .gmac .dec) = true ∧
    (Instr.finishCbc 0 segs3).wellFormed (sel .cbc .dec) = true := by decide

theorem witness_DecodedWordIsEncoded :
    decode (sel .ctr .dec) ⟨0x00000203#32, ops⟩ = .ok (.processCtr 0 0xB 12 (.sink (.segments [⟨15, 16⟩] 17))) := by decide

/-- For StepRunsDecoded, IllegalWordRaisesProtocol, ResetStateAndHostWrites and ResetEventEffect: a state with a legal
command waiting (its two clauses), one with an illegal one, one with a host write, one with a reset. -/
theorem witness_steps :
    (let s := (on (cEcb .enc [])).withInputs [.command ⟨0x00000203#32, ops⟩];
      s.inputs = .command ⟨0x00000203#32, ops⟩ :: [] ∧
      decode s.selection ⟨0x00000203#32, ops⟩ = .ok (.processEcbEnc 0 0xB 12 (.sink (.segments [⟨15, 16⟩] 17)))) ∧
    (let s := (on (cEcb .enc [])).withInputs [.command (encode (.destroy 0))];
      s.inputs = .command (encode (.destroy 0)) :: [] ∧ (Instr.destroy 0).wellFormed s.selection = true) ∧
    (let s := (on (cEcb .enc [])).withInputs [.command ⟨0x00020001#32, ops⟩];
      s.inputs = .command ⟨0x00020001#32, ops⟩ :: [] ∧ decode s.selection ⟨0x00020001#32, ops⟩ = .error .noSuchSlot) ∧
    (let s := (on (cEcb .enc [])).withInputs [.hostWrite 0x1000 5];
      s.inputs = .hostWrite 0x1000 5 :: [] ∧ s.mem.wf = true) ∧
    (let s := (on (cEcb .enc [])).withInputs [.reset];
      s.inputs = .reset :: []) := by
  refine ⟨?_, ?_, ?_, ?_, ?_⟩ <;> decide +kernel

/-- For OpenResult, DestroyResult and RefusedOutsideLifecycle: a free slot, one that holds a context, none; and a
context in each state, with a command it refuses. -/
theorem witness_lifecycle :
    (st .free [] []).slot 0 = some .free ∧ (on (cEcb .enc [])).slot 0 = some (.held (cEcb .enc [])) ∧
    (on (cEcb .enc [])).slot 2 = none ∧ (on (cEcb .enc [])).slot 255 = none ∧
    (∀ c ∈ [cEcb .enc [], ctx .closed .ecb .enc 9 16 (ecb0 [])], (on c).slot 0 = some (.held c) ∧
      (Instr.initEcb 0 init0).selectedBy ⟨c.mode, c.dir⟩ = true ∧ (wordOp (encode (.initEcb 0 init0)).word).toNat = 2 ∧
      c.state ≠ .alloc) ∧
    (∀ c ∈ [ctx .alloc .ecb .enc 9 16 Session.empty, ctx .closed .ecb .enc 9 16 (ecb0 [])],
      (on c).slot 0 = some (.held c) ∧ (Instr.finishEcb 0 segs3).selectedBy ⟨c.mode, c.dir⟩ = true ∧
      (wordOp (encode (.finishEcb 0 segs3)).word).toNat = 5 ∧ c.state ≠ .ready) := by decide +kernel

/-- For InitEcbResult, InitCbcResult, InitCtrResult and InitGcmResult: an `alloc` context of each mode. -/
theorem witness_Init :
    (∀ m ∈ [Mode.ecb, .cbc, .ctr, .gcm, .gmac], (on (ctx .alloc m .enc 9 16 Session.empty)).slot 0 =
      some (.held (ctx .alloc m .enc 9 16 Session.empty)) ∧ (ctx .alloc m .enc 9 16 Session.empty).mode = m) := by
  decide +kernel

theorem witness_InitialCounterBlock : iv12.length = 12 ∧ (iv12 ++ [0]).length ≠ 12 ∧ ([] : Bytes).length ≠ 12 := by
  decide +kernel

/-- INIT.ECB, OPEN and DESTROY on the open parameters: each answers a next state. -/
theorem witness_exec_answers :
    (∃ t, exec (.initEcb 0 init0) (on (ctx .alloc .ecb .enc 9 16 Session.empty)) = .next t ∧ t.status = 0) ∧
    (∃ t, exec (.openEcb 1 .enc true 9) (on (cEcb .enc [])) = .next t ∧ t.status = 0) ∧
    (∃ t, exec (.destroy 0) (on (cEcb .enc [])) = .next t ∧ t.status = 0) :=
  ⟨next_of_isOk (by rfl), next_of_isOk (by rfl), next_of_isOk (by rfl)⟩

/-- For LifecycleTransitions, FixedFieldsKept, OtherSlotsUnchanged, MemoryFrame and ResultRegisters: a PROCESS of 15
bytes, which completes no block, and a FINISH. -/
theorem witness_exec_frames :
    (on (cEcb .enc [])).slot 0 = some (.held (cEcb .enc [])) ∧ LegalContext (cEcb .enc []) ∧
    (∃ t, exec (.processEcbEnc 0 0x1000 15 (.sink (buf 16 0))) (on (cEcb .enc [])) = .next t ∧ t.status = 0 ∧
      t.status ≠ 6) ∧
    (∃ t, exec (.finishEcb 0 (buf 16 0)) (on (cEcb .enc [])) = .next t ∧ t.status = 0 ∧ t.status ≠ 6) := by
  refine ⟨by decide +kernel, legal_cEcb _ _ (by decide), ?_, ?_⟩
  · obtain ⟨t, h, h0⟩ := next_of_isOk (o := exec (.processEcbEnc 0 0x1000 15 (.sink (buf 16 0))) (on (cEcb .enc []))) (by rfl)
    exact ⟨t, h, h0, by rw [h0]; decide⟩
  · obtain ⟨t, h, h0⟩ := next_of_isOk (o := exec (.finishEcb 0 (buf 16 0)) (on (cEcb .enc []))) (by rfl)
    exact ⟨t, h, h0, by rw [h0]; decide⟩

theorem witness_UnselectedRowRefused :
    (on (cEcb .enc [])).slot 0 = some (.held (cEcb .enc [])) ∧
    (Instr.processEcbDec 0 0x1000 15 .inPlace).selectedBy ⟨(cEcb .enc []).mode, (cEcb .enc []).dir⟩ = false := by
  decide +kernel

/-- For ProcessPrelude and EmptyChunkDoesNothing: a legal ready context of every row, with an empty chunk and a full
sink. -/
theorem witness_legal_contexts :
    ∀ c ∈ [cEcb .enc [1], cEcb .dec [], cCbc .enc, cCbc .dec, cCtr [1, 2], cGcm .gcm .enc [3] [],
        cGcm .gcm .dec [] tagQ1, cGcm .gmac .enc [] [], cGcm .gmac .dec [] tagQ1],
      (on c).slot 0 = some (.held c) ∧ c.state = .ready ∧ LegalContext c ∧
        OperandsAdmitted Config.params c 0x1000 0 (.sink (buf 16 16)) := by
  have ad : ∀ c, OperandsAdmitted Config.params c 0x1000 0 (.sink (buf 16 16)) :=
    fun c => admitted c _ _ _ _ (by decide)
  intro c hc
  simp only [List.mem_cons, List.not_mem_nil, or_false] at hc
  rcases hc with rfl | rfl | rfl | rfl | rfl | rfl | rfl | rfl | rfl <;> refine ⟨rfl, rfl, ?_, ad _⟩
  · exact legal_cEcb _ _ (by decide)
  · exact legal_cEcb _ _ (by decide)
  · exact legal_cCbc _
  · exact legal_cCbc _
  · exact legal_cCtr _ (by decide)
  · exact legal_gcmEnc _ (by decide)
  · exact legal_gcmDec _ (by decide +kernel)
  · exact legal_gmacEnc
  · exact legal_gmacDec _ (by decide +kernel)

/-- For ProcessEcbResult, ProcessCbcResult and ProcessCtrResult: three bytes pending, a chunk of 29, room for exactly 32. -/
theorem witness_ProcessBlocks :
    ∀ m ∈ [Mode.ecb, .cbc, .ctr], ∀ d ∈ [Dir.enc, .dec],
      let c := ctx .ready m d 9 16 { ctr0 32 1 with remainder := some [0, 1, 2] }
      (on c).slot 0 = some (.held c) ∧ c.mode = m ∧ c.dir = d ∧ c.state = .ready ∧ c.sess.remainder = some [0, 1, 2] ∧
        c.sess.cb = some (beBytes 16 1) ∧ c.sess.ctrBits = some 32 ∧
        OperandsAdmitted Config.params c 0x1000 29 (.sink (buf 32 0)) ∧
        (targetOf 0x1000 (.sink (buf 32 0))).fits
          (c.blockSize * ((([0, 1, 2] : Bytes).length + (29 : Len).toNat) / c.blockSize)) = true := by
  intro m _ d _
  exact ⟨rfl, rfl, rfl, rfl, rfl, rfl, rfl, admitted _ _ _ _ _ (by decide),
    show (Target.sink (buf 32 0)).fits (16 * ((3 + 29) / 16)) = true by decide⟩

/-- For ProcessGcmEncResult, ProcessGcmDecResult, ProcessGmacResult and FinishTagResult: the session of section 2.8
with room for exactly one block or one tag. -/
theorem witness_ProcessGcm :
    ∀ m ∈ [Mode.gcm, .gmac], ∀ d ∈ [Dir.enc, .dec],
      let c := cGcm m d [] []
      (on c).slot 0 = some (.held c) ∧ c.mode = m ∧ c.dir = d ∧ c.state = .ready ∧ c.sess.remainder = some [] ∧
        (d = .dec → c.sess.la = some []) ∧ c.sess.tagLen = some 16 ∧ c.sess.H = some hashKey ∧
        c.sess.cb = some counter0 ∧ c.sess.ghash = some (beBytes 16 0xb5731b9e12cc5e9ee58d748b42f1e560) ∧ c.sess.processed = some 0 ∧
        c.sess.J0 = some counter0 ∧ counter0.length = 16 ∧ c.sess.lenALenC = some (beBytes 8 0xa0) ∧
        (∀ l ∈ [(0 : Len), 16, 31, 32, 36], OperandsAdmitted Config.params c 0x1000 l (.sink (buf 16 0))) ∧
        (targetOf 0x1000 (.sink (buf 16 0))).fits 16 = true ∧
        sinkWf Config.params.segMax c.blockSize (buf 16 0) = true ∧ (Target.sink (buf 16 0)).fits 16 = true := by
  intro m _ d _
  refine ⟨rfl, rfl, rfl, rfl, rfl, fun h => by rw [h]; rfl, rfl, rfl, rfl, rfl, rfl, rfl, by decide +kernel, rfl, ?_,
    by decide,
    sinkWf_contiguous _ _ _ _ _ (by decide), by decide⟩
  intro l hl
  simp only [List.mem_cons, List.not_mem_nil, or_false] at hl
  rcases hl with rfl | rfl | rfl | rfl | rfl <;> exact admitted _ _ _ _ _ (by decide)

/-- LookAheadBounds at its edges: 15 bytes pending, fewer than a tag; 31, one less than would release a block. -/
theorem witness_LookAheadBounds :
    ∀ l ∈ [(15 : Len), 16, 31],
      let c := cGcm .gcm .dec [] []
      (on c).slot 0 = some (.held c) ∧ LegalContext c ∧ c.sess.la = some [] ∧ c.sess.tagLen = some 16 ∧
        ∃ t, exec (.processGcmDec 0 0x1000 l (.sink (buf 16 0))) (on c) = .next t ∧ t.status = 0 := by
  intro l hl
  refine ⟨rfl, legal_gcmDec _ (by decide), rfl, rfl, ?_⟩
  simp only [List.mem_cons, List.not_mem_nil, or_false] at hl
  rcases hl with rfl | rfl | rfl <;> exact next_of_isOk (by rfl)

/-- FinishPrelude, clause by clause: a closed context; an offset past the sink; a sink one byte too short. -/
theorem witness_FinishPrelude :
    (let c := ctx .closed .ctr .enc 9 16 (ecb0 []);
      (on c).slot 0 = some (.held c) ∧ LegalContext c ∧ c.state ≠ .ready) ∧
    (let c := cCtr [1, 2, 3, 4];
      (on c).slot 0 = some (.held c) ∧ LegalContext c ∧ c.state = .ready ∧
        sinkWf Config.params.segMax c.blockSize (buf 16 17) = false ∧
        sinkWf Config.params.segMax c.blockSize (buf 16 13) = true ∧
        sinkTotal (buf 16 13).segs - (buf 16 13).off.toNat < countOf (outLenFinish c)) := by
  refine ⟨⟨rfl, trivial, by decide⟩, rfl, legal_cCtr _ (by decide), rfl, ?_, sinkWf_contiguous _ _ _ _ _ (by decide),
    by decide⟩
  simp [sinkWf, buf, SinkOperand.segs, SinkOperand.off, sinkTotal]

/-- For FinishEcbCbcResult and FinishCtrResult: a partial block and none, with a sink filled exactly. -/
theorem witness_FinishBlocks :
    ∀ m ∈ [Mode.ecb, .cbc, .ctr], ∀ r ∈ [[], [1, 2, 3, 4]],
      let c := ctx .ready m .enc 9 16 { ctr0 32 1 with remainder := some r }
      (on c).slot 0 = some (.held c) ∧ c.mode = m ∧ c.state = .ready ∧ c.sess.remainder = some r ∧
        c.sess.cb = some (beBytes 16 1) ∧ sinkWf Config.params.segMax c.blockSize (buf 4 0) = true ∧
        (Target.sink (buf 4 0)).fits r.length = true := by
  intro m _ r hr
  refine ⟨rfl, rfl, rfl, rfl, rfl, sinkWf_contiguous _ _ _ _ _ (by decide), ?_⟩
  simp only [List.mem_cons, List.not_mem_nil, or_false] at hr
  rcases hr with rfl | rfl <;> decide

/-- FinishVerifyResult at its edges, in both modes: one byte less than a tag, a tag, and in GCM a tag and one
ciphertext byte, with a sink of one byte. -/
theorem witness_FinishVerifyResult :
    ∀ m ∈ [Mode.gcm, .gmac], ∀ n ∈ [15, 16, 17],
      let c := cGcm m .dec [] (msg n)
      (on c).slot 0 = some (.held c) ∧ c.mode = m ∧ c.dir = .dec ∧ c.state = .ready ∧ c.sess.la = some (msg n) ∧
        c.sess.H = some hashKey ∧ c.sess.J0 = some counter0 ∧ counter0.length = 16 ∧
        c.sess.lenALenC = some (beBytes 8 0xa0) ∧ c.sess.tagLen = some 16 ∧ 16 ≤ 16 ∧ c.sess.cb = some counter0 ∧
        c.sess.ghash = some (beBytes 16 0xb5731b9e12cc5e9ee58d748b42f1e560) ∧ c.sess.processed = some 0 ∧
        sinkWf Config.params.segMax c.blockSize (buf 1 0) = true ∧
        (Target.sink (buf 1 0)).fits ((msg n).length - 16) = true := by
  intro m _ n hn
  refine ⟨rfl, rfl, rfl, rfl, rfl, rfl, rfl, by decide +kernel, rfl, rfl, by decide, rfl, rfl, rfl,
    sinkWf_contiguous _ _ _ _ _ (by decide), ?_⟩
  simp only [List.mem_cons, List.not_mem_nil, or_false] at hn
  rcases hn with rfl | rfl | rfl <;> decide +kernel

/-- ProcessLastResult, its second part: contexts with the fields of each mode; the length check at its edge. The chain
of checks holds for the contexts of witness_legal_contexts. -/
theorem witness_ProcessLastResult :
    (let c := cEcb .enc (msg 15);
      c.mode = .ecb ∧ c.sess.remainder = some (msg 15) ∧ lastLengthOk c 1 = .ok true ∧ lastLengthOk c 2 = .ok false) ∧
    (let c := cCtr [];
      c.mode = .ctr ∧ c.sess.remainder = some [] ∧ c.sess.cb = some (beBytes 16 1) ∧ c.sess.ctrBits = some 32 ∧
        lastLengthOk c (16 * (2 ^ 32 - 1) - 1) = .ok true ∧ lastLengthOk c (16 * (2 ^ 32 - 1)) = .ok false) ∧
    (let c := cGcm .gcm .enc [3] [];
      c.sess.remainder = some [3] ∧ c.sess.tagLen = some 16 ∧ c.sess.processed = some 0 ∧
        lastLengthOk c (2 ^ 36 - 33) = .ok true ∧ lastLengthOk c (2 ^ 36 - 32) = .ok false) ∧
    (let c := cGcm .gcm .dec [] [];
      c.sess.la = some [] ∧ c.sess.tagLen = some 16 ∧ c.sess.processed = some 0 ∧ lastLengthOk c 15 = .ok false ∧
        lastLengthOk c 16 = .ok true ∧ lastLengthOk c (2 ^ 36 - 16) = .ok true ∧
        lastLengthOk c (2 ^ 36 - 15) = .ok false) ∧
    (let c := cGcm .gmac .enc [] [];
      c.sess.tagLen = some 16 ∧ lastLengthOk c 0 = .ok true ∧ lastLengthOk c 1 = .ok false) ∧
    (let c := cGcm .gmac .dec [] [];
      c.sess.la = some [] ∧ c.sess.tagLen = some 16 ∧ lastLengthOk c 15 = .ok false ∧ lastLengthOk c 16 = .ok true ∧
        lastLengthOk c 17 = .ok false) := by
  decide +kernel

/-- ProcessLastIsProcessThenFinish, into a sink and in place: an empty chunk in ECB, where every one of the three
commands answers OK. -/
theorem witness_ProcessLastIsProcessThenFinish :
    let c := cEcb .enc []
    (on c).slot 0 = some (.held c) ∧ LegalContext c ∧ outLenProcess c (0 : Len).toNat = .ok 0 ∧
      (buf 16 3).segs = (buf 16 3).segs ∧ (buf 16 3).off.toNat = (buf 16 3).off.toNat + 0 ∧
      sinkWf Config.params.segMax c.blockSize (buf 16 3) = true ∧
      ∀ d ∈ [Dest.sink (buf 16 3), .inPlace],
        (∃ t u, exec (processRow ⟨c.mode, c.dir⟩ 0 0x1000 0 d) (on c) = .next t ∧ t.status = 0 ∧
          exec (finishRow ⟨c.mode, c.dir⟩ 0 (buf 16 3)) t = .next u ∧ u.status = 0) ∧
        ∃ v, exec (.processLast 0 0x1000 0 d) (on c) = .next v ∧ v.status = 0 := by
  refine ⟨rfl, legal_cEcb _ _ (by decide), by decide +kernel, rfl, rfl, sinkWf_contiguous _ _ _ _ _ (by decide), ?_⟩
  intro d hd
  simp only [List.mem_cons, List.not_mem_nil, or_false] at hd
  rcases hd with rfl | rfl <;> exact ⟨⟨_, _, rfl, rfl, rfl, rfl⟩, _, rfl, rfl⟩

theorem witness_CounterIncrement : 1 ≤ 1 ∧ 128 ≤ 8 * counter0.length ∧ 1 ≤ 128 := by decide +kernel

/-- CounterNonReuse: in CTR a field of two bits at 1 lets two blocks through and no third, over three commands; in GCM
two commands of the session of section 2.8, in each direction. -/
theorem witness_CounterNonReuse :
    (let c := ctx .ready .ctr .enc 9 16 (ctr0 2 1);
      c.sess.cb = some (beBytes 16 1) ∧ c.sess.ctrBits = some 2 ∧ c.sess.remainder = some [] ∧
        ([] : Bytes).length < c.blockSize ∧ 2 ≤ 8 * (beBytes 16 1).length ∧
        (∃ c', sessionRun processCtrRule (cipherT 16 false) c [msg 16, msg 17, msg 14] = .ok c') ∧
        sessionRun processCtrRule (cipherT 16 false) c [msg 16, msg 17, msg 15] = .error (.raise .lengthRange)) ∧
    (∀ d ∈ [Dir.enc, .dec],
      let c := cGcm .gcm d [] []
      ReadyContext c ∧ c.mode = .gcm ∧ c.sess.J0 = some counter0 ∧
        ∃ c', sessionRun (processRuleOf .gcm c.dir) (cipherT 16 false) c [msg 20, msg 30] = .ok c') := by
  refine ⟨⟨rfl, rfl, rfl, by decide, by decide +kernel, ⟨_, rfl⟩, by rfl⟩, ?_⟩
  intro d hd
  simp only [List.mem_cons, List.not_mem_nil, or_false] at hd
  rcases hd with rfl | rfl
  · exact ⟨legal_gcmEnc [] (by decide), rfl, rfl, _, rfl⟩
  · exact ⟨legal_gcmDec [] (by decide), rfl, rfl, _, rfl⟩

theorem cipherId_inverse : CipherInverse cipherId := by
  intro _ n X Y
  exact ⟨fun h => by cases h; rfl, fun h => by cases h; rfl⟩

theorem witness_BlockLoopsRoundTrip :
    CipherInverse cipherId ∧ cipherId.hasD = true ∧ (∀ X ∈ [msg 16, zeros 16], X.length = counter0.length) ∧
    (∃ Ys, ecbLoop (cipherEnc cipherId) [msg 16, zeros 16] = .ok Ys) ∧
    (∃ cb Ys, cbcEncLoop cipherId counter0 [msg 16, zeros 16] = .ok (cb, Ys)) ∧
    (∃ cb Ys, ctrLoop (cipherT 16 false) 32 counter0 [msg 16, zeros 16] = .ok (cb, Ys)) ∧
    (let c := cCtr [];
      c.sess.remainder = some [] ∧ c.sess.cb = some (beBytes 16 1) ∧ (beBytes 16 1).length = c.blockSize ∧
        0 < c.blockSize ∧
        ∃ x out, lastBody processCtrRule finishCtrRule (cipherT 16 false) c (msg 20) = .ok (x, out)) :=
  ⟨cipherId_inverse, rfl, by decide +kernel, ⟨_, rfl⟩, ⟨_, _, rfl⟩, ⟨_, _, rfl⟩, rfl, rfl, by decide +kernel,
    by decide +kernel, _, _, rfl⟩

/-- GcmRoundTrip: GC3. -/
theorem witness_GcmRoundTrip :
    let c := ctx .ready .gcm .enc 9 16 (gcm0 .enc)
    c.sess.remainder = some [] ∧ c.sess.tagLen = some 16 ∧ c.sess.J0 = some counter0 ∧
      counter0.length = 16 ∧ c.sess.cb = some counter0 ∧
      ∃ x out, lastBody processGcmEncRule finishGcmEncRule (cipherT 16 false) c (msg 20) = .ok (x, out) :=
  ⟨rfl, rfl, rfl, by decide +kernel, rfl, _, _, rfl⟩

/-- FastPathEquivalence: two blocks in one segment, for a cipher with the bulk entry: the fast route. -/
theorem witness_FastPathEquivalence :
    ReadyContext (cEcb .enc []) ∧ (msg 32).length = (32 : Len).toNat ∧
      outLenProcess (cEcb .enc []) (32 : Len).toNat = .ok 32 ∧
      (processRuleOf (cEcb .enc []).mode (cEcb .enc []).dir).lengthOk (cEcb .enc []) (32 : Len).toNat = .ok true ∧
      processRoute cipherId (cEcb .enc []) 0x1000 32 (.sink (buf 32 0)) 32 = .fast :=
  ⟨legal_cEcb _ _ (by decide), by decide +kernel, by decide +kernel, rfl, by decide +kernel⟩

/-- For GhashAccumulate, FieldLaws and TagComparisonIsEquality: strings of 16 bytes. -/
theorem witness_lengths_of_blocks : hashKey.length = 16 ∧ counter0.length = 16 ∧ tagQ1.length = hashKey.length := by
  decide +kernel

/-- For MemoryReadAfterWrite, SinkWritePlacesBytes and ReserveAgreesWithSinkWrite: a write over three segments, and one of a block over two. -/
theorem witness_sinks :
    sinkWf 3 16 segs3 = true ∧ (on (cEcb .enc [])).mem.wf = true ∧
    segs3.off.toNat + (msg 41).length ≤ sinkTotal segs3.segs ∧
    1 ≤ (msg 16).length ∧ (msg 16).length ≤ 16 ∧ segs3.off.toNat + (msg 16).length ≤ sinkTotal segs3.segs := by
  decide +kernel

theorem witness_CipherFailureConfined : (on (cCtr [])).slot 0 = some (.held (cCtr [])) := rfl

/-- InPlaceIsPointerIdentity: 20 bytes at offset 16 of a buffer that ends with them. -/
theorem witness_InPlaceIsPointerIdentity :
    (on (cCbc .dec)).slot 0 = some (.held (cCbc .dec)) ∧ (cCbc .dec).mode = .cbc ∧ (cCbc .dec).state = .ready ∧
      LegalContext (cCbc .dec) ∧ (cCbc .dec).sess.remainder = some [] ∧ 0 < (20 : Len).toNat ∧
      (0x1000 : Addr).toNat + (16 : Addr).toNat = (0x1010 : Addr).toNat ∧
      (16 : Addr).toNat + (20 : Len).toNat ≤ (36 : Len).toNat ∧ (0x1000 : Addr).toNat + (36 : Len).toNat ≤ 2 ^ 64 :=
  ⟨rfl, rfl, rfl, legal_cCbc _, rfl, by decide, by decide, by decide, by decide⟩

/-- StepKeepsLegal and LegalStepCompletes: the reset state with an OPEN waiting is legal and its step answers. -/
theorem witness_Legal :
    let s := State.reset.withInputs [.command ⟨0x00000001#32, Operands.none⟩]
    s.Legal ∧ ∃ t, step s = .next t := by
  refine ⟨⟨?_, ?_, rfl, rfl⟩, ?_⟩
  · simp [State.reset, State.withInputs, Params.nCtx]
  · intro c hc
    simp [State.reset, State.withInputs, List.mem_replicate] at hc
  · obtain ⟨t, h, -⟩ := next_of_isOk (o := step (State.reset.withInputs [.command ⟨0x00000001#32, Operands.none⟩]))
      (by rfl)
    exact ⟨t, h⟩

end Sys2Proof.Machine.Tests
end

section
/-! The reset state (R8, R45) and the step that takes a host write (R76). -/

namespace Sys2Proof.Machine

/-- R8, R20: the engine has `N_CTX` slots after reset. -/
@[simp] theorem State.reset_slots_length : State.reset.slots.length = Config.params.nCtx := by
  simp [State.reset, Params.nCtx]

/-- R45: no slot holds a context after reset. -/
theorem State.eq_free_of_mem_reset_slots {x : Slot} (h : x ∈ State.reset.slots) : x = .free := by
  obtain rfl | hx := List.mem_cons.mp h
  · rfl
  · exact List.eq_of_mem_replicate hx

/-- R8: at least one slot. -/
theorem Params.one_le_nCtx (P : Params) : 1 ≤ P.nCtx := Nat.succ_pos _

/-- R8: at most 256 slots, so that a context number of 8 bits reaches each. -/
theorem Params.nCtx_le (P : Params) : P.nCtx ≤ 256 := P.extraSlots.isLt

/-- R76: the step that takes a host write is `Memory.write` of its byte, and runs no instruction. -/
theorem step_hostWrite {s : State} {a : Addr} {b : Byte} {q : List Input} (h : s.inputs = .hostWrite a b :: q) :
    step s = .next ((s.withMem (s.mem.write a.toNat b)).withInputs q) := by
  have hfetch : s.fetch = .done ((s.withMem (s.mem.write a.toNat b)).withInputs q) := by
    rw [State.fetch, h]
  rw [step, hfetch]

/-- Settles O8: the slot count from the range of `Params.extraSlots`, the host write from the read-after-write laws of
memory (R62). -/
theorem resetStateAndHostWrites : Obligations.ResetStateAndHostWrites := by
  refine ⟨⟨?_, ?_, fun _ => State.eq_free_of_mem_reset_slots, rfl, rfl, rfl⟩, fun s a b q hin hwf => ?_⟩
  · rw [State.reset_slots_length]
    exact Params.one_le_nCtx _
  · rw [State.reset_slots_length]
    exact Params.nCtx_le _
  · exact ⟨s.mem.write a.toNat b, step_hostWrite hin, Memory.read_write_same a.toNat b hwf,
      fun _ hx => Memory.read_write_other b hx⟩

end Sys2Proof.Machine
end

section
/-! What a step does, one equation per kind of input, and what `exec` runs for each group of rows: the shared operation,
its `op` (R92), and the contexts that select the row (R113). -/

namespace Sys2Proof.Machine

/-- R310: with nothing waiting the engine waits. -/
theorem step_idle {s : State} (h : s.inputs = []) : step s = .next s := by
  rw [step, State.fetch, h]

/-- R310: the reset event is taken like any input. -/
theorem step_reset {s : State} {q : List Input} (h : s.inputs = .reset :: q) :
    step s = .next (s.resetEvent.withInputs q) := by
  rw [step, State.fetch, h]

/-- R97, R120: an illegal word is refused before any context is touched. -/
theorem step_illegal {s : State} {c : Command} {q : List Input} {e : Illegal} (h : s.inputs = .command c :: q)
    (hd : decode s.selection c = .error e) : step s = .next ((s.withInputs q).refuse c.passedOff) := by
  have hfetch : s.fetch = .done ((s.withInputs q).refuse c.passedOff) := by simp only [State.fetch, h, hd]
  rw [step, hfetch]

/-- R3, R120: a legal command runs its instruction on the state from which it has been taken. -/
theorem step_command {s : State} {c : Command} {q : List Input} {i : Instr} (h : s.inputs = .command c :: q)
    (hd : decode s.selection c = .ok i) : step s = exec i (s.withInputs q) := by
  have hfetch : s.fetch = .run i (s.withInputs q) := by simp only [State.fetch, h, hd]
  rw [step, hfetch]

/-- R92: the `op` of an instruction's command word. -/
abbrev opOf (i : Instr) : Nat := (wordOp (encode i).word).toNat

/-- R91: the field `op` of a packed word. -/
theorem wordOp_packWord (op : BitVec 4) (mode : BitVec 3) (dir inplace sgl owned : Bool) (ctx : BitVec 8) :
    wordOp (packWord op mode dir inplace sgl owned ctx) = op := by
  rw [wordOp, packWord]
  exact BitVec.extractLsb'_append_eq_right

theorem opOf_eq {i : Instr} {op : BitVec 4} {mode : BitVec 3} {dir inplace sgl owned : Bool} {ctx : BitVec 8} {n : Nat}
    (h : (encode i).word = packWord op mode dir inplace sgl owned ctx) (hn : op.toNat = n) : opOf i = n := by
  rw [opOf, h, wordOp_packWord, hn]

/-- R91, R113: what `exec` runs for an instruction: one of six shared operations, by its `op`, with the rule of its
row; the row's rule is selected by the contexts that select the row. -/
inductive Runs (i : Instr) (s : State) : Prop where
  | opens (m : Mode) (d : Dir) (w : Bool) (ks : Addr) (hop : opOf i = 1)
      (hrun : exec i s = openContext Config.params m i.ctx d w ks s)
  | inits (R : InitRule) (o : InitOperands) (hop : opOf i = 2)
      (hR : R = initEcbRule ∨ R = initCbcRule ∨ R = initCtrRule ∨ R = initGcmRule ∨ R = initGmacRule)
      (hsel : ∀ m d, R.sel m d = i.selectedBy ⟨m, d⟩) (hrun : exec i s = runInit Config.params R i.ctx o s)
  | processes (R : ProcessRule) (p : Addr) (l : Len) (d : Dest) (hop : opOf i = 3)
      (hR : ∀ {m d}, R.sel m d = true → R = processRuleOf m d) (hsel : ∀ m d, R.sel m d = i.selectedBy ⟨m, d⟩)
      (hrun : exec i s = runProcess Config.params R i.ctx p l d s)
  | last (p : Addr) (l : Len) (d : Dest) (hop : opOf i = 4)
      (hrun : exec i s = runLast Config.params processRuleOf finishRuleOf i.ctx p l d s)
  | finishes (R : FinishRule) (snk : SinkOperand) (hop : opOf i = 5)
      (hR : ∀ {m d}, R.sel m d = true → R = finishRuleOf m d) (hsel : ∀ m d, R.sel m d = i.selectedBy ⟨m, d⟩)
      (hrun : exec i s = runFinish Config.params R i.ctx snk s)
  | destroys (hop : opOf i = 6) (hrun : exec i s = execDestroy i.ctx s)

/-- Each arm of `exec` is one of the six. -/
theorem runs (i : Instr) (s : State) : Runs i s := by
  cases i with
  | openEcb k d w ks => exact .opens _ d w ks (opOf_eq rfl rfl) rfl
  | openCbc k d w ks => exact .opens _ d w ks (opOf_eq rfl rfl) rfl
  | openCtr k d w ks => exact .opens _ d w ks (opOf_eq rfl rfl) rfl
  | openGcm k d w ks => exact .opens _ d w ks (opOf_eq rfl rfl) rfl
  | openGmac k d w ks => exact .opens _ d w ks (opOf_eq rfl rfl) rfl
  | initEcb k o => exact .inits initEcbRule o (opOf_eq rfl rfl) (by simp) (fun _ _ => rfl) rfl
  | initCbc k o => exact .inits initCbcRule o (opOf_eq rfl rfl) (by simp) (fun _ _ => rfl) rfl
  | initCtr k o => exact .inits initCtrRule o (opOf_eq rfl rfl) (by simp) (fun _ _ => rfl) rfl
  | initGcm k o => exact .inits initGcmRule o (opOf_eq rfl rfl) (by simp) (fun _ _ => rfl) rfl
  | initGmac k o => exact .inits initGmacRule o (opOf_eq rfl rfl) (by simp) (fun _ _ => rfl) rfl
  | processEcbEnc k p l d =>
    exact .processes processEcbEncRule p l d (opOf_eq rfl rfl) (processRule_selected (by simp)) (fun _ _ => rfl) rfl
  | processEcbDec k p l d =>
    exact .processes processEcbDecRule p l d (opOf_eq rfl rfl) (processRule_selected (by simp)) (fun _ _ => rfl) rfl
  | processCbcEnc k p l d =>
    exact .processes processCbcEncRule p l d (opOf_eq rfl rfl) (processRule_selected (by simp)) (fun _ _ => rfl) rfl
  | processCbcDec k p l d =>
    exact .processes processCbcDecRule p l d (opOf_eq rfl rfl) (processRule_selected (by simp)) (fun _ _ => rfl) rfl
  | processCtr k p l d =>
    exact .processes processCtrRule p l d (opOf_eq rfl rfl) (processRule_selected (by simp)) (fun _ _ => rfl) rfl
  | processGcmEnc k p l d =>
    exact .processes processGcmEncRule p l d (opOf_eq rfl rfl) (processRule_selected (by simp)) (fun _ _ => rfl) rfl
  | processGcmDec k p l d =>
    exact .processes processGcmDecRule p l d (opOf_eq rfl rfl) (processRule_selected (by simp)) (fun _ _ => rfl) rfl
  | processGmacEnc k p l d =>
    exact .processes processGmacEncRule p l d (opOf_eq rfl rfl) (processRule_selected (by simp)) (fun _ _ => rfl) rfl
  | processGmacDec k p l d =>
    exact .processes processGmacDecRule p l d (opOf_eq rfl rfl) (processRule_selected (by simp)) (fun _ _ => rfl) rfl
  | processLast k p l d => exact .last p l d (opOf_eq rfl rfl) rfl
  | finishEcb k snk =>
    exact .finishes finishEcbRule snk (opOf_eq rfl rfl) (finishRule_selected (by simp)) (fun _ _ => rfl) rfl
  | finishCbc k snk =>
    exact .finishes finishCbcRule snk (opOf_eq rfl rfl) (finishRule_selected (by simp)) (fun _ _ => rfl) rfl
  | finishCtr k snk =>
    exact .finishes finishCtrRule snk (opOf_eq rfl rfl) (finishRule_selected (by simp)) (fun _ _ => rfl) rfl
  | finishGcmEnc k snk =>
    exact .finishes finishGcmEncRule snk (opOf_eq rfl rfl) (finishRule_selected (by simp)) (fun _ _ => rfl) rfl
  | finishGcmDec k snk =>
    exact .finishes finishGcmDecRule snk (opOf_eq rfl rfl) (finishRule_selected (by simp)) (fun _ _ => rfl) rfl
  | finishGmacEnc k snk =>
    exact .finishes finishGmacEncRule snk (opOf_eq rfl rfl) (finishRule_selected (by simp)) (fun _ _ => rfl) rfl
  | finishGmacDec k snk =>
    exact .finishes finishGmacDecRule snk (opOf_eq rfl rfl) (finishRule_selected (by simp)) (fun _ _ => rfl) rfl
  | destroy k => exact .destroys (opOf_eq rfl rfl) rfl

end Sys2Proof.Machine
end

section
/-! R23, R280: from a legal state every command answers a next state. The decoder selects the row of the context it
addresses (R113), and on a legal context the checks and bodies of that row only raise errors. -/

namespace Sys2Proof.Machine

/-! The decoder selects the row of the context. -/

theorem initRow_selected (m : Selection) (k : BitVec 8) (o : InitOperands) :
    (initRow m k o).ctx = k ∧ (initRow m k o).selectedBy m = true := by
  obtain ⟨mode, dir⟩ := m
  cases mode <;> exact ⟨rfl, rfl⟩

theorem processRow_selected (m : Selection) (k : BitVec 8) (p : Addr) (l : Len) (d : Dest) :
    (processRow m k p l d).ctx = k ∧ (processRow m k p l d).selectedBy m = true := by
  obtain ⟨mode, dir⟩ := m
  cases mode <;> cases dir <;> exact ⟨rfl, rfl⟩

theorem finishRow_selected (m : Selection) (k : BitVec 8) (snk : SinkOperand) :
    (finishRow m k snk).ctx = k ∧ (finishRow m k snk).selectedBy m = true := by
  obtain ⟨mode, dir⟩ := m
  cases mode <;> cases dir <;> exact ⟨rfl, rfl⟩

theorem decodeOpen_selected {c : Command} {i : Instr} (m : Selection) (h : decodeOpen c = .ok i) :
    i.ctx = wordCtx c.word ∧ i.selectedBy m = true := by
  simp only [decodeOpen] at h
  split at h
  · cases h
  · split at h <;> cases h <;> exact ⟨rfl, rfl⟩

/-- R112, R113: for a selection `m` each operation is decoded to a row that `m` selects, on the slot of the word. -/
theorem decodeOp_selected {m : Selection} {c : Command} {i : Instr} (h : decodeOp m c = .ok i) :
    i.ctx = wordCtx c.word ∧ i.selectedBy m = true := by
  unfold decodeOp at h
  split at h
  · exact decodeOpen_selected m h
  · simp only [decodeInit] at h
    split at h <;> cases h
    exact initRow_selected _ _ _
  · simp only [decodeProcess] at h
    split at h <;> cases h
    exact processRow_selected _ _ _ _ _
  · simp only [decodeProcessLast] at h
    split at h <;> cases h
    exact ⟨rfl, rfl⟩
  · simp only [decodeFinish] at h
    split at h <;> cases h
    exact finishRow_selected _ _ _
  · simp only [decodeDestroy] at h
    split at h <;> cases h
    exact ⟨rfl, rfl⟩
  · cases h

/-- R112: what the decoder reads is well formed: its slot exists and selects its row. -/
theorem decode_selected {sel : BitVec 8 → Option Selection} {c : Command} {i : Instr} (h : decode sel c = .ok i) :
    ∃ m, sel i.ctx = some m ∧ i.selectedBy m = true := by
  unfold decode at h
  split at h
  · cases h
  · split at h
    · split at h <;> cases h
    · next m hm =>
      obtain ⟨hctx, hsel⟩ := decodeOp_selected h
      exact ⟨m, by rw [hctx, hm], hsel⟩

theorem State.selection_held {s : State} {k : BitVec 8} {c : ModeContext} (h : s.slot k = some (.held c)) :
    s.selection k = some ⟨c.mode, c.dir⟩ := by
  rw [State.selection, h]

/-! On a legal context every stop is an error. -/

/-- R280: a stop that is an error of R281, no read of what holds no value. -/
def Raised (e : Stop) : Prop := ∃ r, e = .raise r

theorem Raised.raise (r : Raise) : Raised (.raise r) := ⟨r, rfl⟩

theorem Run.Stops.of_ok {α : Type} {r : Run α} {Q : Stop → Prop} (h : ∃ a, r = .ok a) : r.Stops Q := by
  obtain ⟨a, rfl⟩ := h
  exact .ok a

theorem LegalContext.ready {c : ModeContext} (h : LegalContext c) (hr : c.state = .ready) : ReadyContext c := by
  simpa [LegalContext, hr] using h

theorem inPlaceOk_raises {c : ModeContext} (p : Addr) (l : Len) (d : Dest) (h : ReadyContext c) :
    (inPlaceOk c p l d).Stops Raised := by
  obtain ⟨r, hr⟩ := h.remainder
  unfold inPlaceOk
  split
  · split
    · exact .bind (.of_ok ⟨_, remainderLen_some hr⟩) fun _ _ => .ok _
    · exact .bind (.of_ok ⟨_, remainderLen_some hr⟩) fun _ _ => .ok _
    · exact .ok _
  · exact .ok _

/-- R129, steps 1 to 8: after the check for `ready` the context holds what the other checks read. -/
theorem processChecks_raises {P : Params} {outLen : Run Nat} {lengthOk : Run Bool} {c : ModeContext} {p : Addr}
    {l : Len} {d : Dest} (h : LegalContext c)
    (hdefined : ReadyContext c → (∃ n, outLen = .ok n) ∧ ∃ b, lengthOk = .ok b) :
    (processChecks P outLen lengthOk c p l d).Stops Raised := by
  have hop : (operandChecks P c p l d).Stops Raised :=
    .bind (.check fun _ => .raise _) fun _ h1 =>
      have hr := h.ready (by simpa using check_eq_ok.mp h1)
      .bind (.check fun _ => .raise _) fun _ _ => .bind (.check fun _ => .raise _) fun _ _ =>
        .bind (inPlaceOk_raises p l d hr) fun _ _ => .bind (.check fun _ => .raise _) fun _ _ =>
          .check fun _ => .raise _
  refine .bind hop fun _ h1 => ?_
  obtain ⟨hn, hb⟩ := hdefined (h.ready (operandChecks_ok.mp h1).1)
  exact .bind (.of_ok hn) fun _ _ => .bind (.check fun _ => .raise _) fun _ _ => .bind (.of_ok hb) fun _ _ =>
    .bind (.check fun _ => .raise _) fun _ _ => .ok _

theorem finishChecks_raises {P : Params} {c : ModeContext} {snk : SinkOperand} (h : LegalContext c) :
    (finishChecks P c snk).Stops Raised := by
  refine .bind (.check fun _ => .raise _) fun _ h1 => ?_
  obtain ⟨-, hn, -⟩ := (h.ready (by simpa using check_eq_ok.mp h1)).outLen 0
  exact .bind (.check fun _ => .raise _) fun _ _ => .bind (.of_ok hn) fun _ _ =>
    .bind (.check fun _ => .raise _) fun _ _ => .ok _

theorem lastBody_raises {C : Cipher} {c : ModeContext} {data : Bytes} (h : ReadyContext c)
    (hL : lastLengthOk c data.length = .ok true) :
    (lastBody (processRuleOf c.mode c.dir) (finishRuleOf c.mode c.dir) C c data).Stops Raised := by
  intro e he
  obtain hb | ⟨x, out, hx, ⟨y, o, -, rfl⟩ | ⟨hf, -⟩⟩ := lastBody_error he
  · exact ⟨_, processBody_ready_stops data h e hb⟩
  · exact .raise _
  · exact finishBody_ready_stops (processBody_ready_ok h (lengthOk_of_last hL) hx).1 e hf

/-! The shared operations. -/

theorem State.stop_completes {s : State} {k : BitVec 8} {c : ModeContext} {tg : Target} {n : Nat} {e : Stop}
    (h : Raised e) : ∃ t, s.stop k c tg n e = .next t := by
  obtain ⟨r, rfl⟩ := h
  exact ⟨_, rfl⟩

theorem State.onContext_completes {s : State} {k : BitVec 8} {sel : Mode → Dir → Bool} {off : Addr}
    {f : ModeContext → Host.Outcome State Fault Refusal}
    (h : ∀ c, s.slot k = some (.held c) → sel c.mode c.dir = true ∧ ∃ t, f c = .next t) :
    ∃ t, s.onContext k sel off f = .next t := by
  by_cases hc : ∃ c, s.slot k = some (.held c)
  · obtain ⟨c, hc⟩ := hc
    obtain ⟨hsel, t, ht⟩ := h c hc
    exact ⟨t, by rw [State.onContext_held hc hsel, ht]⟩
  · exact ⟨_, State.onContext_refuse fun c h => hc ⟨c, h⟩⟩

theorem openContext_completes (P : Params) (m : Mode) (k : BitVec 8) (d : Dir) (w : Bool) (ks : Addr) (s : State) :
    ∃ t, openContext P m k d w ks s = .next t := by
  unfold openContext
  split <;> exact ⟨_, rfl⟩

theorem execDestroy_completes (k : BitVec 8) (s : State) : ∃ t, execDestroy k s = .next t := by
  unfold execDestroy
  split <;> exact ⟨_, rfl⟩

theorem runInit_completes {P : Params} {R : InitRule} {k : BitVec 8} {o : InitOperands} {s : State}
    (hR : R = initEcbRule ∨ R = initCbcRule ∨ R = initCtrRule ∨ R = initGcmRule ∨ R = initGmacRule)
    (hsel : ∀ c, s.slot k = some (.held c) → R.sel c.mode c.dir = true) : ∃ t, runInit P R k o s = .next t := by
  refine State.onContext_completes fun c hc => ⟨hsel c hc, ?_⟩
  split
  · next e he =>
    refine State.stop_completes ?_
    cases initSession_stops hR e he <;> exact .raise _
  · exact ⟨_, rfl⟩

theorem runProcess_completes {P : Params} {R : ProcessRule} {k : BitVec 8} {p : Addr} {l : Len} {d : Dest} {s : State}
    (hR : ∀ {m d}, R.sel m d = true → R = processRuleOf m d)
    (hc : ∀ c, s.slot k = some (.held c) → R.sel c.mode c.dir = true ∧ LegalContext c) :
    ∃ t, runProcess P R k p l d s = .next t := by
  refine State.onContext_completes fun c hk => ⟨(hc c hk).1, ?_⟩
  obtain ⟨hsel, hlegal⟩ := hc c hk
  rw [hR hsel]
  split
  · next e he =>
    refine State.stop_completes (processChecks_raises hlegal (fun h => ?_) e he)
    obtain ⟨hn, -, -, hb, -⟩ := h.outLen l.toNat
    exact ⟨hn, hb⟩
  · next n hn =>
    split
    · next e he =>
      have hready := hlegal.ready (processChecks_ok.mp hn).1
      exact State.stop_completes ⟨_, processBody_ready_stops _ hready e he⟩
    · exact ⟨_, rfl⟩

theorem runFinish_completes {P : Params} {R : FinishRule} {k : BitVec 8} {snk : SinkOperand} {s : State}
    (hR : ∀ {m d}, R.sel m d = true → R = finishRuleOf m d)
    (hc : ∀ c, s.slot k = some (.held c) → R.sel c.mode c.dir = true ∧ LegalContext c) :
    ∃ t, runFinish P R k snk s = .next t := by
  refine State.onContext_completes fun c hk => ⟨(hc c hk).1, ?_⟩
  obtain ⟨hsel, hlegal⟩ := hc c hk
  rw [hR hsel]
  split
  · next e he => exact State.stop_completes (finishChecks_raises hlegal e he)
  · next n hn =>
    split
    · next e he =>
      exact State.stop_completes (finishBody_ready_stops (hlegal.ready (finishChecks_ok.mp hn).1) e he)
    · exact ⟨_, rfl⟩

theorem runLast_completes {P : Params} {k : BitVec 8} {p : Addr} {l : Len} {d : Dest} {s : State}
    (hc : ∀ c, s.slot k = some (.held c) → LegalContext c) :
    ∃ t, runLast P processRuleOf finishRuleOf k p l d s = .next t := by
  refine State.onContext_completes fun c hk => ⟨rfl, ?_⟩
  have hlegal := hc c hk
  split
  · next e he =>
    refine State.stop_completes (processChecks_raises hlegal (fun h => ?_) e he)
    obtain ⟨-, -, hn, -, hb⟩ := h.outLen l.toNat
    exact ⟨hn, hb⟩
  · next n hn =>
    split
    · next e he =>
      obtain ⟨hst, -, -, -, hlen⟩ := processChecks_ok.mp hn
      rw [← Memory.readBytes_length s.mem p.toNat l.toNat] at hlen
      exact State.stop_completes (lastBody_raises (hlegal.ready hst) hlen e he)
    · exact ⟨_, rfl⟩

/-- R280: an instruction on a legal context that selects its row answers a next state. -/
theorem exec_completes {i : Instr} {s : State} (hlegal : ∀ c, s.slot i.ctx = some (.held c) → LegalContext c)
    (hsel : ∀ c, s.slot i.ctx = some (.held c) → i.selectedBy ⟨c.mode, c.dir⟩ = true) :
    ∃ t, exec i s = .next t := by
  cases runs i s with
  | opens m d w ks _ hrun => rw [hrun]; exact openContext_completes _ _ _ _ _ _ _
  | inits R o _ hR hrow hrun =>
    rw [hrun]
    exact runInit_completes hR fun c hc => (hrow _ _).trans (hsel c hc)
  | processes R p l d _ hR hrow hrun =>
    rw [hrun]
    exact runProcess_completes hR fun c hc => ⟨(hrow _ _).trans (hsel c hc), hlegal c hc⟩
  | last p l d _ hrun => rw [hrun]; exact runLast_completes hlegal
  | finishes R snk _ hR hrow hrun =>
    rw [hrun]
    exact runFinish_completes hR fun c hc => ⟨(hrow _ _).trans (hsel c hc), hlegal c hc⟩
  | destroys _ hrun => rw [hrun]; exact execDestroy_completes _ _

/-- A context in a slot of a legal state is legal. -/
theorem State.Legal.held {s : State} (h : s.Legal) {k : BitVec 8} {c : ModeContext} (hc : s.slot k = some (.held c)) :
    LegalHeld Config.params c := h.contexts c (State.mem_of_slot hc)

/-- Settles O58: one case for each kind of input; a command that decodes has the row of its context. -/
theorem legalStepCompletes : Obligations.LegalStepCompletes := by
  intro s hs
  cases hin : s.inputs with
  | nil => exact ⟨_, step_idle hin⟩
  | cons input q =>
    cases input with
    | hostWrite a b => exact ⟨_, step_hostWrite hin⟩
    | reset => exact ⟨_, step_reset hin⟩
    | command c =>
      cases hd : decode s.selection c with
      | error e => exact ⟨_, step_illegal hin hd⟩
      | ok i =>
        rw [step_command hin hd]
        obtain ⟨m, hm, hsel⟩ := decode_selected hd
        refine exec_completes (fun c hc => (hs.held hc).fields) fun c hc => ?_
        rw [State.slot_withInputs] at hc
        rw [State.selection_held hc] at hm
        cases hm
        exact hsel

end Sys2Proof.Machine
end

section
/-! R20, R23, R43, R60: the legal states: the reset state is one, and every step keeps them. Which slot an ended
instruction may have changed, and to what, comes first; every command touches no other. -/

namespace Sys2Proof.Machine

/-! What an ended instruction did to the slots, the releases and memory. -/

/-- R20: an instruction changes at most the slot it addresses; what it leaves there is free or a context, legal where
the one it found was. -/
theorem Ended.slots {i : Instr} {s t : State} (h : Ended i s t) :
    t.slots = s.slots ∨ ∃ x, t.slots = s.slots.set i.ctx.toNat x ∧
      ∀ c', x = .held c' → (∀ c, s.slot i.ctx = some (.held c) → LegalHeld Config.params c) →
        LegalHeld Config.params c' := by
  cases h with
  | refused => exact .inl rfl
  | opened c _ ha hx hb =>
    refine .inr ⟨_, rfl, ?_⟩
    rintro _ ⟨⟩ -
    exact ⟨by simpa [LegalContext, ha] using hx, .of_not_ready (by simp [ha]), hb, fun hr => by simp [ha] at hr⟩
  | raised c e n hc =>
    rcases State.raise_slots s i.ctx c (outputTarget i) n e with h | ⟨x, h⟩
    · exact .inl h
    · refine .inr ⟨_, h, ?_⟩
      rintro _ ⟨⟩ hl
      exact ⟨trivial, .of_not_ready (by simp), (hl c hc).cipher.moved rfl rfl rfl rfl (fun h => by simp at h)⟩
  | completed c c' out hc _ _ _ _ _ hl =>
    refine .inr ⟨_, rfl, ?_⟩
    rintro _ ⟨⟩ hs
    exact hl (hs c hc)
  | destroyed c =>
    refine .inr ⟨.free, ?_, fun _ h => by cases h⟩
    rw [State.report_slots, State.setSlot_slots]
    split <;> rfl

theorem Ended.slots_length {i : Instr} {s t : State} (h : Ended i s t) : t.slots.length = s.slots.length := by
  obtain h | ⟨x, h, -⟩ := h.slots
  · rw [h]
  · rw [h, List.length_set]

/-- R20, R295: the other slots are as they were. -/
theorem Ended.slot_other {i : Instr} {s t : State} (h : Ended i s t) {j : BitVec 8} (hj : j ≠ i.ctx) :
    t.slot j = s.slot j := by
  obtain h | ⟨x, h, -⟩ := h.slots
  · rw [State.slot, State.slot, h]
  · calc t.slot j = (s.setSlot i.ctx x).slot j := by rw [State.slot, State.slot, h, State.setSlot_slots]
      _ = s.slot j := State.slot_setSlot_ne s x hj

theorem Ended.inputs {i : Instr} {s t : State} (h : Ended i s t) : t.inputs = s.inputs := by
  cases h with
  | refused => rfl
  | opened => rfl
  | raised => exact State.raise_inputs _ _ _ _ _ _
  | completed => rfl
  | destroyed c =>
    rw [State.report_inputs, State.setSlot_inputs]
    split <;> rfl

/-- R134: only DESTROY sends a release signal. -/
theorem Ended.releases {i : Instr} {s t : State} (h : Ended i s t) (hi : i ≠ .destroy i.ctx) :
    t.releases = s.releases := by
  cases h with
  | refused => rfl
  | opened => rfl
  | raised => exact State.raise_releases _ _ _ _ _ _
  | completed => rfl
  | destroyed c hd => exact absurd hd hi

theorem Target.emit_nil (tg : Target) (m : Memory) : tg.emit [] m = m := by
  cases tg <;> rfl

/-- R60: an instruction keeps the form of memory: what it writes of its output lies in the address space. -/
theorem Ended.memory {i : Instr} {s t : State} (h : Ended i s t) (hwf : s.mem.wf = true) (hin : s.mem.inRange = true) :
    t.mem.wf = true ∧ t.mem.inRange = true := by
  cases h with
  | refused => exact ⟨hwf, hin⟩
  | opened c =>
    rw [State.complete_mem, Target.emit_nil]
    exact ⟨hwf, hin⟩
  | raised c e n _ hn he hw =>
    rw [State.raise_mem]
    cases e with
    | authFail x out =>
      have hspace : InSpace i c := hw.resolve_left fun h => h.2 x out rfl
      exact ⟨Target.wf_emit hwf, Target.inRange_emit (fun j hj => hspace j (hj.trans_le (he x out rfl))) hin⟩
    | cipher =>
      refine ⟨Target.wf_scatter hwf, Target.inRange_scatter (fun j hj => ?_) hin⟩
      obtain ⟨h0, -⟩ | hspace := hw
      · omega
      · exact hspace j (hj.trans_le hn)
    | protocol => exact ⟨hwf, hin⟩
    | config => exact ⟨hwf, hin⟩
    | bufferTooSmall => exact ⟨hwf, hin⟩
    | lengthRange => exact ⟨hwf, hin⟩
  | completed c c' out _ _ ho _ _ hw =>
    exact ⟨Target.wf_emit hwf, Target.inRange_emit (fun j hj => hw j (hj.trans_le ho)) hin⟩
  | destroyed c =>
    rw [State.report_mem, State.setSlot_mem]
    split <;> exact ⟨hwf, hin⟩

/-! Legal states. -/

/-- An instruction that answers a next state keeps legal states. -/
theorem Ended.legal {i : Instr} {s t : State} (h : Ended i s t) (hs : s.Legal) : t.Legal := by
  obtain ⟨hwf, hin⟩ := h.memory hs.memoryForm hs.memoryRange
  refine ⟨h.slots_length.trans hs.slotCount, fun c hc => ?_, hwf, hin⟩
  obtain heq | ⟨x, heq, hx⟩ := h.slots
  · rw [heq] at hc
    exact hs.contexts c hc
  · rw [heq] at hc
    obtain hc | hc := List.mem_or_eq_of_mem_set hc
    · exact hs.contexts c hc
    · exact hx c hc.symm fun c' hc' => hs.held hc'

/-- The waiting inputs are no part of what makes a state legal. -/
theorem State.Legal.withInputs {s : State} (h : s.Legal) (q : List Input) : (s.withInputs q).Legal :=
  ⟨h.slotCount, h.contexts, h.memoryForm, h.memoryRange⟩

/-- R286: nor are the result registers. -/
theorem State.Legal.refuse {s : State} (h : s.Legal) (off : Addr) : (s.refuse off).Legal :=
  ⟨h.slotCount, h.contexts, h.memoryForm, h.memoryRange⟩

/-- R60, R76: a host write stays within the address space. -/
theorem State.Legal.hostWrite {s : State} (h : s.Legal) (a : Addr) (b : Byte) :
    (s.withMem (s.mem.write a.toNat b)).Legal :=
  ⟨h.slotCount, h.contexts, Memory.wf_write _ b h.memoryForm, Memory.inRange_write b a.isLt h.memoryRange⟩

/-- R310: the reset event leaves free slots alone. -/
theorem State.Legal.resetEvent {s : State} (h : s.Legal) : s.resetEvent.Legal where
  slotCount := List.length_replicate.trans h.slotCount
  contexts c hc := by cases List.eq_of_mem_replicate hc
  memoryForm := h.memoryForm
  memoryRange := h.memoryRange

/-- Settles O57: one case for each kind of input; for a command that decodes, the five ways `Ended` lists. -/
theorem stepKeepsLegal : Obligations.StepKeepsLegal := by
  intro s t hs h
  cases hin : s.inputs with
  | nil =>
    rw [step_idle hin] at h
    cases h
    exact hs
  | cons input q =>
    cases input with
    | hostWrite a b =>
      rw [step_hostWrite hin] at h
      cases h
      exact (hs.hostWrite a b).withInputs q
    | reset =>
      rw [step_reset hin] at h
      cases h
      exact hs.resetEvent.withInputs q
    | command c =>
      cases hd : decode s.selection c with
      | error e =>
        rw [step_illegal hin hd] at h
        cases h
        exact (hs.withInputs q).refuse _
      | ok i =>
        rw [step_command hin hd] at h
        exact (exec_ended h).legal (hs.withInputs q)

/-- Settles O56: no slot holds a context and memory lists nothing. -/
theorem resetIsLegal : Obligations.ResetIsLegal where
  slotCount := State.reset_slots_length
  contexts c hc := by cases State.eq_free_of_mem_reset_slots hc
  memoryForm := State.reset_mem_wf
  memoryRange := rfl

end Sys2Proof.Machine
end

section
/-! R25, R43(b), R47: the frame of a command inside its own slot: what OPEN and INIT fixed stays. The checks and bodies
of PROCESS and FINISH change no fixed session field, and FINISH completes the length block behind its first 8 bytes. -/

namespace Sys2Proof.Machine

/-- R134: DESTROY alone has `op` 6. -/
theorem ne_destroy_of_op {i : Instr} (h : opOf i ≠ 6) : i ≠ .destroy i.ctx := by
  intro hi
  rw [hi] at h
  exact h (opOf_eq rfl rfl)

/-- Settles O18: from the slots, the releases and the inputs of the five ways an instruction ends. -/
theorem otherSlotsUnchanged : Obligations.OtherSlotsUnchanged := by
  intro s t i h
  have hend := exec_ended h
  exact ⟨hend.slots_length, fun j hj => hend.slot_other hj, hend.inputs,
    fun hop => hend.releases (ne_destroy_of_op hop)⟩

/-! The session fields that stay. -/

/-- R36, R43(b), R47: the fields INIT fixes for the session, the first 8 bytes of `len_a_len_c` among them. -/
structure Session.KeepsFixed (x y : Session) : Prop where
  same : x.SameFixed y
  lengths : y.lenALenC.map (List.take 8) = x.lenALenC.map (List.take 8)

theorem Session.KeepsFixed.refl (x : Session) : x.KeepsFixed x := ⟨.refl x, rfl⟩

theorem Session.KeepsFixed.trans {x y z : Session} (h : x.KeepsFixed y) (k : y.KeepsFixed z) : x.KeepsFixed z :=
  ⟨h.same.trans k.same, k.lengths.trans h.lengths⟩

theorem processBody_keepsFixed {C : Cipher} {c : ModeContext} {m : Mode} {d : Dir} {data out : Bytes} {x : Session}
    (h : (processRuleOf m d).body C c data = .ok (x, out)) : c.sess.KeepsFixed x := by
  obtain ⟨hsame, hlen⟩ := processBody_fixed h
  exact ⟨hsame, by rw [hlen]⟩

/-- R36: INIT has written the first half of `len_a_len_c` in a ready GCM or GMAC context. -/
theorem ReadyContext.lengthBlock {c : ModeContext} (h : ReadyContext c) (hm : c.mode = .gcm ∨ c.mode = .gmac) :
    ∃ l, c.sess.lenALenC = some l ∧ l.length = 8 := by
  obtain ⟨-, h⟩ := h
  rcases hm with hm | hm <;> rw [hm] at h <;> obtain ⟨-, g, p, hg, -⟩ := h <;> exact hg.lengths

/-- R221: the length block keeps its first half. -/
theorem gcmTag_keepsFixed {K : Cipher} {H T l : Bytes} {x y : Session} {a : GcmAcc} (hl : x.lenALenC = some l)
    (h8 : l.length = 8) (h : gcmTag K H x a = .ok (y, T)) : x.KeepsFixed y := by
  refine ⟨gcmTag_fixed h, ?_⟩
  obtain ⟨l', J, M, hl', -, -, rfl, -⟩ := gcmTag_ok h
  rw [hl] at hl'
  cases hl'
  simp [hl, h8]

/-! What a body leaves in the session. -/

/-- R284: a stop that is no AUTH_FAIL, so that it computes no session. -/
def NoAuthFail (e : Stop) : Prop := ∀ y o, e ≠ .raise (.authFail y o)

theorem NoAuthFail.lengthRange : NoAuthFail (.raise .lengthRange) := by
  intro y o h; cases h

theorem NoAuthFail.cipher : NoAuthFail (.raise .cipher) := by
  intro y o h; cases h

theorem NoAuthFail.noValue (f : Field) : NoAuthFail (.noValue f) := by
  intro y o h; cases h

/-- R284: the session that a body answers, or that its AUTH_FAIL leaves, is as `Q` says. -/
structure Run.Leaves (r : Run (Session × Bytes)) (Q : Session → Prop) : Prop where
  ok : ∀ {x out}, r = .ok (x, out) → Q x
  authFail : ∀ {x out}, r = .error (.raise (.authFail x out)) → Q x

theorem Run.Leaves.answer {Q : Session → Prop} {x : Session} (out : Bytes) (h : Q x) :
    Run.Leaves (.ok (x, out)) Q :=
  ⟨fun he => (by cases he; exact h), fun he => (by cases he)⟩

theorem Run.Leaves.bind {α : Type} {r : Run α} {f : α → Run (Session × Bytes)} {Q : Session → Prop}
    (h1 : r.Stops NoAuthFail) (h2 : ∀ a, r = .ok a → (f a).Leaves Q) : Run.Leaves (r >>= f) Q where
  ok h := by
    obtain ⟨a, ha, h⟩ := Run.bind_ok.mp h
    exact (h2 a ha).ok h
  authFail h := by
    obtain h | ⟨a, ha, h⟩ := Run.bind_error.mp h
    · exact absurd rfl (h1 _ h _ _)
    · exact (h2 a ha).authFail h

theorem Run.Leaves.need {α : Type} {fld : Field} {o : Option α} {f : α → Run (Session × Bytes)}
    {Q : Session → Prop} (h : ∀ a, o = some a → (f a).Leaves Q) : Run.Leaves (Machine.need fld o >>= f) Q :=
  .bind (.need (.noValue _)) fun a ha => h a (need_eq_ok.mp ha)

/-- R222: the comparison of tags leaves the session the tag was computed in, whatever it finds. -/
theorem Run.Leaves.tagCheck {Q : Session → Prop} {x : Session} (b : Bool) (out : Bytes) (h : Q x) :
    Run.Leaves (check b (.authFail x []) >>= fun _ => .ok (x, out)) Q := by
  cases b
  · exact ⟨fun he => (by cases he), fun he => by cases he; exact h⟩
  · exact .answer out h

theorem gcmAcc_noAuthFail (c : ModeContext) : (gcmAcc c).Stops NoAuthFail :=
  .bind (.need (.noValue _)) fun _ _ => .bind (.need (.noValue _)) fun _ _ =>
    .bind (.need (.noValue _)) fun _ _ => .ok _

theorem gcmTag_noAuthFail (K : Cipher) (H : Bytes) (x : Session) (a : GcmAcc) : (gcmTag K H x a).Stops NoAuthFail :=
  gcmTag_stops .cipher (fun _ => .noValue _) fun _ => .noValue _

theorem gcmFinishEnc_leaves {K : Cipher} {c : ModeContext} {l : Bytes} (r : Bytes) (hl : c.sess.lenALenC = some l)
    (h8 : l.length = 8) : (gcmFinishEnc K c r).Leaves c.sess.KeepsFixed :=
  .need fun _ _ => .bind (gcmAcc_noAuthFail c) fun _ _ => .need fun _ _ =>
    .bind (gcmEncPartial_stops .cipher) fun _ _ => .bind (gcmTag_noAuthFail _ _ _ _) fun _ hT =>
      .answer _ (gcmTag_keepsFixed hl h8 hT)

theorem gcmFinishDec_leaves {K : Cipher} {c : ModeContext} {l : Bytes} (r t : Bytes) (hl : c.sess.lenALenC = some l)
    (h8 : l.length = 8) : (gcmFinishDec K c r t).Leaves c.sess.KeepsFixed :=
  .need fun _ _ => .bind (gcmAcc_noAuthFail c) fun _ _ => .need fun _ _ =>
    .bind (gcmDecPartial_stops .cipher) fun _ _ => .bind (gcmTag_noAuthFail _ _ _ _) fun _ hT =>
      .tagCheck _ _ (gcmTag_keepsFixed hl h8 hT)

/-- R43(b), R47: FINISH on a ready context, all seven rows. -/
theorem finishBody_leaves {C : Cipher} {c : ModeContext} (h : ReadyContext c) :
    ((finishRuleOf c.mode c.dir).body C c).Leaves c.sess.KeepsFixed := by
  have whole : (do
      let r ← remainderLen c
      check (r == 0) .lengthRange
      .ok (c.sess, []) : Run (Session × Bytes)).Leaves c.sess.KeepsFixed :=
    .bind (.bind (.need (.noValue _)) fun _ _ => .ok _) fun _ _ =>
      .bind (.check fun _ => .lengthRange) fun _ _ => .answer _ (.refl _)
  cases hm : c.mode with
  | ecb => exact whole
  | cbc => exact whole
  | ctr =>
    refine .need fun r _ => ?_
    split
    · exact .answer _ (.refl _)
    · exact .need fun _ _ => .bind (.enc .cipher) fun _ _ => .answer _ (.refl _)
  | gcm =>
    obtain ⟨l, hl, h8⟩ := h.lengthBlock (.inl hm)
    cases c.dir with
    | enc => exact .need fun r _ => gcmFinishEnc_leaves r hl h8
    | dec =>
      exact .need fun la _ => .need fun g _ => .bind (.check fun _ => .lengthRange) fun _ _ =>
        gcmFinishDec_leaves _ _ hl h8
  | gmac =>
    obtain ⟨l, hl, h8⟩ := h.lengthBlock (.inr hm)
    cases c.dir with
    | enc => exact gcmFinishEnc_leaves [] hl h8
    | dec =>
      exact .need fun la _ => .need fun g _ => .bind (.check fun _ => .lengthRange) fun _ _ =>
        gcmFinishDec_leaves _ _ hl h8

/-- R47: PROCESS, all nine rows; it never raises AUTH_FAIL. -/
theorem processBody_leaves {C : Cipher} {c : ModeContext} {m : Mode} {d : Dir} {data : Bytes} :
    ((processRuleOf m d).body C c data).Leaves c.sess.KeepsFixed where
  ok := processBody_keepsFixed
  authFail h := by obtain h | ⟨f, h⟩ := processBody_stops _ h <;> cases h

/-- R133: PROCESS_LAST, whose FINISH runs on the ready context that its PROCESS leaves. -/
theorem lastBody_leaves {C : Cipher} {c : ModeContext} {data : Bytes} (h : ReadyContext c)
    (hL : lastLengthOk c data.length = .ok true) :
    (lastBody (processRuleOf c.mode c.dir) (finishRuleOf c.mode c.dir) C c data).Leaves c.sess.KeepsFixed := by
  have finish : ∀ {x out}, (processRuleOf c.mode c.dir).body C c data = .ok (x, out) →
      ((finishRuleOf c.mode c.dir).body C (c.withSess x)).Leaves x.KeepsFixed := fun hx =>
    finishBody_leaves (processBody_ready_ok h (lengthOk_of_last hL) hx).1
  constructor
  · intro y out hy
    obtain ⟨x, o1, o2, hx, hf, -⟩ := lastBody_ok hy
    exact (processBody_leaves.ok hx).trans ((finish hx).ok hf)
  · intro y out hy
    obtain hx | ⟨x, o1, hx, ⟨z, o, hf, he⟩ | ⟨-, hne⟩⟩ := lastBody_error hy
    · exact processBody_leaves.authFail hx
    · cases he
      exact (processBody_leaves.ok hx).trans ((finish hx).authFail hf)
    · exact absurd rfl (hne y out)

/-! What a command leaves in its slot. -/

/-- After a command the slot `k`, which held `c`, holds a context as OPEN created `c`, and unless the command ended in
CIPHER its session is as `Q` says. -/
def HeldAfter (k : BitVec 8) (c : ModeContext) (Q : Session → Prop) (t : State) : Prop :=
  ∃ c', t.slot k = some (.held c') ∧ c.SameCreation c' ∧ (t.status ≠ 6 → Q c'.sess)

theorem ModeContext.SameCreation.refl (c : ModeContext) : c.SameCreation c := ⟨rfl, rfl, rfl, rfl, rfl⟩

section

variable {s : State} {k : BitVec 8} {c : ModeContext} {Q : Session → Prop}

theorem HeldAfter.report (hc : s.slot k = some (.held c)) (hQ : Q c.sess) (st : Status) (n off : Nat) :
    HeldAfter k c Q (s.report st n off) := ⟨c, hc, .refl c, fun _ => hQ⟩

theorem HeldAfter.complete (hc : s.slot k = some (.held c)) {c' : ModeContext} (hs : c.SameCreation c')
    (hQ : Q c'.sess) (tg : Target) (out : Bytes) : HeldAfter k c Q (s.complete k c' tg out) :=
  ⟨c', State.slot_setSlot_self _ k _ _ hc, hs, fun _ => hQ⟩

/-- R290: every error, by the state change of its rule. -/
theorem HeldAfter.raise (hc : s.slot k = some (.held c)) (hQ : Q c.sess) {e : Raise}
    (he : ∀ x out, e = .authFail x out → Q x) (tg : Target) (n : Nat) : HeldAfter k c Q (s.raise k c tg n e) := by
  cases e with
  | protocol => exact .report hc hQ _ _ _
  | config => exact .report hc hQ _ _ _
  | bufferTooSmall => exact .report hc hQ _ _ _
  | lengthRange =>
    exact ⟨c.withState .closed, State.slot_setSlot_self _ k _ _ hc, ⟨rfl, rfl, rfl, rfl, rfl⟩, fun _ => hQ⟩
  | authFail x out =>
    exact ⟨(c.withSess x).withState .closed, State.slot_setSlot_self _ k _ _ hc, ⟨rfl, rfl, rfl, rfl, rfl⟩,
      fun _ => he x out rfl⟩
  | cipher =>
    exact ⟨(c.withSess _).withState .closed, State.slot_setSlot_self _ k _ _ hc, ⟨rfl, rfl, rfl, rfl, rfl⟩,
      fun h => absurd rfl h⟩

/-- A slot holds one context. -/
theorem State.held_unique {c' : ModeContext} (h : s.slot k = some (.held c)) (h' : s.slot k = some (.held c')) :
    c = c' := by
  rw [h] at h'
  cases h'
  rfl

variable {P : Params} {t : State}

/-- INIT, of which nothing is said here but what OPEN wrote. -/
theorem runInit_heldAfter {R : InitRule} {o : InitOperands} (hc : s.slot k = some (.held c))
    (h : runInit P R k o s = .next t) : HeldAfter k c (fun _ => True) t := by
  obtain ⟨hno, -⟩ | ⟨c', hc', -, hend⟩ := runInit_next h
  · exact absurd hc (hno c)
  · obtain rfl := State.held_unique hc hc'
    obtain ⟨e, -, rfl⟩ | ⟨x, -, rfl⟩ := hend
    · exact .raise hc trivial (fun _ _ _ => trivial) _ _
    · exact .complete (c' := (c.withSess x).withState .ready) hc ⟨rfl, rfl, rfl, rfl, rfl⟩ trivial _ _

theorem runProcess_heldAfter {R : ProcessRule} {p : Addr} {l : Len} {d : Dest}
    (hR : ∀ {m d}, R.sel m d = true → R = processRuleOf m d) (hc : s.slot k = some (.held c))
    (h : runProcess P R k p l d s = .next t) : HeldAfter k c c.sess.KeepsFixed t := by
  obtain ⟨hno, -⟩ | ⟨c', hc', hsel, hend⟩ := runProcess_next h
  · exact absurd hc (hno c)
  · obtain rfl := State.held_unique hc hc'
    rw [hR hsel] at hend
    obtain ⟨e, he, rfl⟩ | ⟨n, -, ⟨e, he, rfl⟩ | ⟨x, out, hx, rfl⟩⟩ := hend
    · refine .raise hc (.refl _) (fun x out hx => ?_) _ _
      have hstop := processChecks_stops (outLenProcess_stops _ _) (lengthOk_stops _ _ _ _) _ he
      exact absurd (congrArg Stop.raise hx) (hstop.ne_authFail x out)
    · exact .raise hc (.refl _) (fun x out hx => processBody_leaves.authFail (hx ▸ he)) _ _
    · exact .complete (c' := c.withSess x) hc ⟨rfl, rfl, rfl, rfl, rfl⟩ (processBody_leaves.ok hx) _ _

theorem runFinish_heldAfter {R : FinishRule} {snk : SinkOperand}
    (hR : ∀ {m d}, R.sel m d = true → R = finishRuleOf m d) (hc : s.slot k = some (.held c))
    (h : runFinish P R k snk s = .next t) : HeldAfter k c (fun x => LegalContext c → c.sess.KeepsFixed x) t := by
  obtain ⟨hno, -⟩ | ⟨c', hc', hsel, hend⟩ := runFinish_next h
  · exact absurd hc (hno c)
  · obtain rfl := State.held_unique hc hc'
    rw [hR hsel] at hend
    obtain ⟨e, he, rfl⟩ | ⟨n, hn, hend⟩ := hend
    · refine .raise hc (fun _ => .refl _) (fun x out hx => ?_) _ _
      exact absurd (congrArg Stop.raise hx) ((finishChecks_stops _ he).ne_authFail x out)
    · have hbody := fun hl : LegalContext c =>
        finishBody_leaves (C := P.cipher c.ks) (hl.ready (finishChecks_ok.mp hn).1)
      obtain ⟨e, he, rfl⟩ | ⟨x, out, hx, rfl⟩ := hend
      · exact .raise hc (fun _ => .refl _) (fun x out hx hl => (hbody hl).authFail (hx ▸ he)) _ _
      · exact .complete (c' := (c.withSess x).withState .closed) hc ⟨rfl, rfl, rfl, rfl, rfl⟩
          (fun hl => (hbody hl).ok hx) _ _

theorem runLast_heldAfter {p : Addr} {l : Len} {d : Dest} (hc : s.slot k = some (.held c))
    (h : runLast P processRuleOf finishRuleOf k p l d s = .next t) :
    HeldAfter k c (fun x => LegalContext c → c.sess.KeepsFixed x) t := by
  obtain ⟨hno, -⟩ | ⟨c', hc', hend⟩ := runLast_next h
  · exact absurd hc (hno c)
  · obtain rfl := State.held_unique hc hc'
    obtain ⟨e, he, rfl⟩ | ⟨n, hn, hend⟩ := hend
    · refine .raise hc (fun _ => .refl _) (fun x out hx => ?_) _ _
      have hstop := processChecks_stops (outLenLast_stops _ _) (lastLengthOk_stops _ _) _ he
      exact absurd (congrArg Stop.raise hx) (hstop.ne_authFail x out)
    · obtain ⟨hst, -, -, -, hlen⟩ := processChecks_ok.mp hn
      rw [← Memory.readBytes_length s.mem p.toNat l.toNat] at hlen
      have hbody := fun hl : LegalContext c => lastBody_leaves (C := P.cipher c.ks) (hl.ready hst) hlen
      obtain ⟨e, he, rfl⟩ | ⟨x, out, hx, rfl⟩ := hend
      · exact .raise hc (fun _ => .refl _) (fun x out hx hl => (hbody hl).authFail (hx ▸ he)) _ _
      · exact .complete (c' := (c.withSess x).withState .closed) hc ⟨rfl, rfl, rfl, rfl, rfl⟩
          (fun hl => (hbody hl).ok hx) _ _

theorem openContext_heldAfter {m : Mode} {d : Dir} {w : Bool} {ks : Addr} (hc : s.slot k = some (.held c))
    (h : openContext P m k d w ks s = .next t) : HeldAfter k c (· = c.sess) t := by
  obtain ⟨-, rfl⟩ | ⟨hfree, -⟩ := openContext_next h
  · exact .report (Q := (· = c.sess)) hc rfl _ _ _
  · rw [hc] at hfree
    cases hfree

theorem HeldAfter.mono {Q' : Session → Prop} (h : HeldAfter k c Q t) (hQ : ∀ x, Q x → Q' x) :
    HeldAfter k c Q' t := by
  obtain ⟨c', hc', hs, hx⟩ := h
  exact ⟨c', hc', hs, fun h6 => hQ _ (hx h6)⟩

/-- R25, R43(b), R47: every command but DESTROY. -/
theorem exec_heldAfter {i : Instr} (hc : s.slot i.ctx = some (.held c)) (h6 : opOf i ≠ 6) (h : exec i s = .next t) :
    HeldAfter i.ctx c (fun x => LegalContext c → opOf i ≠ 2 → c.sess.KeepsFixed x) t := by
  cases runs i s with
  | opens m d w ks _ hrun =>
    rw [hrun] at h
    exact (openContext_heldAfter hc h).mono fun x hx _ _ => hx ▸ .refl _
  | inits R o hop _ _ hrun =>
    rw [hrun] at h
    exact (runInit_heldAfter hc h).mono fun x _ _ h2 => absurd hop h2
  | processes R p l d _ hR _ hrun =>
    rw [hrun] at h
    exact (runProcess_heldAfter hR hc h).mono fun x hx _ _ => hx
  | last p l d _ hrun =>
    rw [hrun] at h
    exact (runLast_heldAfter hc h).mono fun x hx hl _ => hx hl
  | finishes R snk _ hR _ hrun =>
    rw [hrun] at h
    exact (runFinish_heldAfter hR hc h).mono fun x hx hl _ => hx hl
  | destroys hop _ => exact absurd hop h6

end

/-- Settles O19: what `HeldAfter` says of the command's own slot, field by field. -/
theorem fixedFieldsKept : Obligations.FixedFieldsKept := by
  intro s t i c hc h op hop
  obtain ⟨c', hc', hs, hQ⟩ := exec_heldAfter hc hop h
  refine ⟨c', hc', hs.mode, hs.dir, hs.ks, hs.ksOwned, hs.blockSize, fun hl h2 h6 => ?_⟩
  have hk : c.sess.KeepsFixed c'.sess := hQ h6 hl h2
  exact ⟨hk.same.ctrBits, hk.same.H, hk.same.hTable, hk.same.J0, hk.same.tagLen, hk.lengths⟩

end Sys2Proof.Machine
end

section
/-! R211, R219: what INIT in GCM and GMAC writes, and what PROCESS.GCM.DEC leaves in the look-ahead buffer. -/

namespace Sys2Proof.Machine

/-! INIT.GCM and INIT.GMAC. -/

/-- R80: a range is refused when it is not empty and passes the end of the address space. -/
theorem rangeFits_eq_false {p : Addr} {l : Len} :
    rangeFits p l = false ↔ 0 < l.toNat ∧ 2 ^ 64 < p.toNat + l.toNat := by
  have hz : l = 0 ↔ l.toNat = 0 := by rw [← BitVec.toNat_inj]; rfl
  have hspace : addrSpace = 2 ^ 64 := rfl
  simp only [rangeFits, Bool.or_eq_false_iff, beq_eq_false_iff_ne, decide_eq_false_iff_not, ne_eq, hz]
  omega

/-- R101: the tag lengths that are not accepted. -/
theorem tagBitsOk_eq_false {t : BitVec 32} :
    tagBitsOk t = false ↔ t.toNat ∉ [32, 64, 96, 104, 112, 120, 128] := by
  rw [tagBitsOk, List.contains_eq_mem, decide_eq_false_iff_not]

theorem lookAheadAtInit_eq (d : Dir) : lookAheadAtInit d = if d = .dec then some [] else none := by
  cases d <;> rfl

/-- R126 to R128, R211: how INIT of the context `c` ends, by what its checks and body answer. -/
def initAnswer (s : State) (k : BitVec 8) (c : ModeContext) : Run Session → Host.Outcome State Fault Refusal
  | .error e => s.stop k c .nowhere 0 e
  | .ok x => .next (s.complete k ((c.withSess x).withState .ready) .nowhere [])

theorem runInit_held {P : Params} {R : InitRule} {k : BitVec 8} {o : InitOperands} {s : State} {c : ModeContext}
    (hc : s.slot k = some (.held c)) (hsel : R.sel c.mode c.dir = true) :
    runInit P R k o s = initAnswer s k c (initSession P R c o s.mem) := by
  rw [runInit, State.onContext_held hc hsel]
  cases initSession P R c o s.mem <;> rfl

/-- R16: one check at the head of INIT: its error when it fails, what follows when it passes. -/
theorem initAnswer_check {s u : State} {k : BitVec 8} {c : ModeContext} {b : Bool} {e : Raise}
    {f : Unit → Run Session} {p : Prop} [Decidable p] (hp : b = false ↔ p) (h : initAnswer s k c (f ()) = .next u) :
    initAnswer s k c (check b e >>= f) = .next (if p then s.raise k c .nowhere 0 e else u) := by
  cases b
  · rw [if_pos (hp.mp rfl)]; rfl
  · rw [if_neg fun hn => Bool.noConfusion (hp.mpr hn)]; exact h

/-- Settles O13: the checks of R211 one after the other, then the body, one rule for both rows. -/
theorem initGcmResult : Obligations.InitGcmResult := by
  intro s k o c hc answer
  have key : ∀ R : InitRule, R.body = gcmInitBody → R.sel c.mode c.dir = true →
      runInit Config.params R k o s = .next answer := by
    intro R hbody hsel
    rw [runInit_held hc hsel, initSession, hbody]
    refine initAnswer_check (by simp) ?_
    refine initAnswer_check rangeFits_eq_false ?_
    refine initAnswer_check rangeFits_eq_false ?_
    refine initAnswer_check (by simp) ?_
    refine initAnswer_check tagBitsOk_eq_false ?_
    refine initAnswer_check (by simp [← BitVec.toNat_inj]) ?_
    rw [← zeros, ← lookAheadAtInit_eq]
    cases hH : cipherEnc (Config.params.cipher c.ks) (zeros 16) with
    | error e =>
      obtain rfl := cipherEnc_error hH
      rw [Run.error_bind]
      rfl
    | ok H => rfl
  exact ⟨fun hm => key initGcmRule rfl (by simp [initGcmRule, hm]),
    fun hm => key initGmacRule rfl (by simp [initGmacRule, hm])⟩

/-! PROCESS.GCM.DEC. -/

/-- R219: what PROCESS.GCM.DEC leaves in the look-ahead buffer: the pending bytes behind the released blocks. -/
theorem gcmDecBody_la {K : Cipher} {c : ModeContext} {data out la : Bytes} {g : Nat} {x : Session}
    (hla : c.sess.la = some la) (hg : c.sess.tagLen = some g) (h : gcmDecBody K c data = .ok (x, out)) :
    x.la = some ((la ++ data).drop (16 * releasedBlocks (la ++ data).length g)) := by
  obtain ⟨H, -, h⟩ := Run.bind_ok.mp h
  obtain ⟨a, -, h⟩ := Run.bind_ok.mp h
  rw [hla, need_some, Run.pure_bind, tagLen_some hg, Run.pure_bind] at h
  obtain ⟨⟨a', Ps⟩, -, h⟩ := Run.bind_ok.mp h
  cases h
  rfl

/-- R219: of `t` pending bytes the released blocks leave fewer than a tag and a block, and a tag where there was one. -/
theorem releasedBlocks_bounds (t g : Nat) :
    16 * releasedBlocks t g ≤ t ∧ t < 16 * releasedBlocks t g + 16 + g ∧
      (g ≤ t → 16 * releasedBlocks t g + g ≤ t) := by
  unfold releasedBlocks
  split <;> omega

/-- R281: an error's status is not OK. -/
theorem State.raise_status_ne_ok (s : State) (k : BitVec 8) (c : ModeContext) (tg : Target) (n : Nat) (e : Raise) :
    (s.raise k c tg n e).status ≠ 0 := by
  cases e <;> simp [State.raise, Status.code]

/-- Settles O29: only the success of PROCESS returns OK, and there the buffer is what the released blocks leave. -/
theorem lookAheadBounds : Obligations.LookAheadBounds := by
  intro s t k p l d c la g hc _ hla hg h h0
  obtain ⟨hno, -⟩ | ⟨c', hc', -, hend⟩ := runProcess_next h
  · exact absurd hc (hno c)
  obtain rfl := State.held_unique hc hc'
  obtain ⟨e, -, rfl⟩ | ⟨n, -, ⟨e, -, rfl⟩ | ⟨x, out, hx, rfl⟩⟩ := hend
  · exact absurd h0 (State.raise_status_ne_ok _ _ _ _ _ _)
  · exact absurd h0 (State.raise_status_ne_ok _ _ _ _ _ _)
  · have hlen : (la ++ s.mem.readBytes p.toNat l.toNat).length = la.length + l.toNat := by simp
    obtain ⟨hle, hlt, hkeep⟩ := releasedBlocks_bounds (la.length + l.toNat) g
    refine ⟨c.withSess x, _, releasedBlocks (la.length + l.toNat) g, State.slot_setSlot_self _ k _ _ hc,
      gcmDecBody_la hla hg hx, ?_, fun hge => ?_, ?_, ?_⟩
    · rw [List.length_drop, hlen]
      omega
    · have := hkeep hge
      rw [List.length_drop, hlen]
      omega
    · rw [List.length_drop, hlen]
      omega
    · rw [hlen]

end Sys2Proof.Machine
end

section
/-! R61, R62, R66 to R70: memory through byte strings and sinks: what a read answers after a write, where a sink puts
each byte, and that the spans of `reserve` say the same. -/

namespace Sys2Proof.Machine

/-! Byte strings. -/

/-- R61, R62: what was written is read back. -/
theorem Memory.readBytes_writeBytes {m : Memory} (a : Nat) (v : Bytes) (h : m.wf = true) :
    (m.writeBytes a v).readBytes a v.length = v := by
  refine List.ext_getElem? fun i => ?_
  rw [Memory.readBytes_getElem?]
  split
  · next hi => rw [Memory.read_writeBytes_inside h hi, List.getElem?_eq_getElem hi]
  · next hi => exact (List.getElem?_eq_none (not_lt.mp hi)).symm

/-- Settles O49: the laws of byte strings, which rest on those of one byte. -/
theorem memoryReadAfterWrite : Obligations.MemoryReadAfterWrite := by
  intro m a v h
  refine ⟨Memory.wf_writeBytes a v h, Memory.readBytes_writeBytes a v h,
    fun x => Memory.read_writeBytes_outside, fun n => ⟨Memory.readBytes_length m a n, fun i hi => ?_⟩⟩
  rw [Memory.readBytes_getElem?, if_pos hi]

/-! The form of a sink. -/

/-- R67: the conditions on a sink by name; `l_i ≤ LEN_MAX` holds by the width of the operand. -/
structure SinkForm (segMax bs : Nat) (k : SinkOperand) : Prop where
  count : 1 ≤ k.segs.length ∧ k.segs.length ≤ segMax
  nonempty : ∀ g ∈ k.segs, 1 ≤ g.len.toNat
  middle : ∀ g ∈ middleSegs k.segs, bs ≤ g.len.toNat
  space : ∀ g ∈ k.segs, g.ptr.toNat + g.len.toNat ≤ addrSpace
  disjoint : allDisjoint k.segs = true
  offset : k.off.toNat ≤ sinkTotal k.segs

theorem sinkWf_iff {segMax bs : Nat} {k : SinkOperand} : sinkWf segMax bs k = true ↔ SinkForm segMax bs k := by
  simp only [sinkWf, Bool.and_eq_true, List.all_eq_true, decide_eq_true_eq]
  constructor
  · rintro ⟨⟨⟨⟨⟨h1, h2⟩, h3⟩, h4⟩, h5⟩, h6⟩
    exact ⟨h1, h2, h3, h4, h5, h6⟩
  · rintro ⟨h1, h2, h3, h4, h5, h6⟩
    exact ⟨⟨⟨⟨⟨h1, h2⟩, h3⟩, h4⟩, h5⟩, h6⟩

@[simp] theorem sinkTotal_nil : sinkTotal [] = 0 := rfl

@[simp] theorem sinkTotal_cons (g : Seg) (gs : List Seg) : sinkTotal (g :: gs) = g.len.toNat + sinkTotal gs := rfl

theorem allDisjoint_cons {g : Seg} {gs : List Seg} :
    allDisjoint (g :: gs) = true ↔ (∀ h ∈ gs, segsDisjoint g h = true) ∧ allDisjoint gs = true := by
  simp [allDisjoint]

/-- The middle segments of a sink without its first are middle segments of the sink. -/
theorem middleSegs_subset_cons (g : Seg) (gs : List Seg) : middleSegs gs ⊆ middleSegs (g :: gs) := by
  cases gs with
  | nil => simp [middleSegs]
  | cons h gs => cases gs <;> simp [middleSegs]

/-! The address of an offset. -/

theorem sinkAddr_head {g : Seg} {off : Nat} (gs : List Seg) (h : off < g.len.toNat) :
    sinkAddr (g :: gs) off = some (g.ptr.toNat + off) := by
  simp [sinkAddr, cursor, h]

theorem sinkAddr_tail {g : Seg} {off : Nat} (gs : List Seg) (h : g.len.toNat ≤ off) :
    sinkAddr (g :: gs) off = sinkAddr gs (off - g.len.toNat) := by
  simp [sinkAddr, cursor, not_lt.mpr h]

/-- R68: every offset below the total has an address. -/
theorem sinkAddr_defined {gs : List Seg} {off : Nat} (h : off < sinkTotal gs) : ∃ a, sinkAddr gs off = some a := by
  induction gs generalizing off with
  | nil => simp at h
  | cons g gs ih =>
    rcases lt_or_ge off g.len.toNat with hg | hg
    · exact ⟨_, sinkAddr_head gs hg⟩
    · rw [sinkAddr_tail gs hg]
      rw [sinkTotal_cons] at h
      exact ih (by omega)

/-- An address of the first segment is none of the others', where the segments are disjoint. -/
theorem sinkAddr_ne_of_disjoint {g : Seg} {gs : List Seg} {off u : Nat} (hd : ∀ h ∈ gs, segsDisjoint g h = true)
    (ho : off < g.len.toNat) : sinkAddr gs u ≠ some (g.ptr.toNat + off) := by
  intro hu
  obtain ⟨h, hh, hlo, hhi⟩ := sinkAddr_mem hu
  have hdis := hd h hh
  simp only [segsDisjoint, decide_eq_true_eq] at hdis
  omega

/-- R67(e): in a sink of disjoint segments different offsets have different addresses. -/
theorem sinkAddr_injective {gs : List Seg} (hd : allDisjoint gs = true) {t u a : Nat} (ht : sinkAddr gs t = some a)
    (hu : sinkAddr gs u = some a) : t = u := by
  induction gs generalizing t u with
  | nil => cases ht
  | cons g gs ih =>
    obtain ⟨hg, hgs⟩ := allDisjoint_cons.mp hd
    rcases lt_or_ge t g.len.toNat with h1 | h1 <;> rcases lt_or_ge u g.len.toNat with h2 | h2
    · rw [sinkAddr_head gs h1, ← hu, sinkAddr_head gs h2, Option.some.injEq] at ht
      omega
    · rw [sinkAddr_head gs h1, ← hu, sinkAddr_tail gs h2] at ht
      exact absurd ht.symm (sinkAddr_ne_of_disjoint hg h1)
    · rw [sinkAddr_tail gs h1, ← hu, sinkAddr_head gs h2] at ht
      exact absurd ht (sinkAddr_ne_of_disjoint hg h2)
    · rw [sinkAddr_tail gs h1] at ht
      rw [sinkAddr_tail gs h2] at hu
      have := ih hgs ht hu
      omega

/-! A write through a sink. -/

/-- R70: byte `t` of the string stands at the address of offset `off + t`. -/
theorem read_sinkWrite_inside {gs : List Seg} (hd : allDisjoint gs = true) {v : Bytes} {off t a : Nat} {m : Memory}
    (hm : m.wf = true) (ht : t < v.length) (ha : sinkAddr gs (off + t) = some a) :
    (sinkWrite gs off v m).read a = v[t] := by
  induction v generalizing off t m with
  | nil => simp at ht
  | cons b v ih =>
    rw [sinkWrite]
    cases t with
    | zero =>
      rw [Nat.add_zero] at ha
      have hlater : ∀ u < v.length, sinkAddr gs (off + 1 + u) ≠ some a := by
        intro u _ hu
        have := sinkAddr_injective hd ha hu
        omega
      rw [read_sinkWrite_outside hlater, ha]
      exact Memory.read_write_same a b hm
    | succ t =>
      refine ih ?_ (by simpa using ht) (by rwa [Nat.add_right_comm])
      split
      · exact Memory.wf_write _ b hm
      · exact hm

/-- Settles O50: a well-formed sink has an address for every offset below its total, and no two alike (R67(e)). -/
theorem sinkWritePlacesBytes : Obligations.SinkWritePlacesBytes := by
  intro segMax bs k v m hwf hm hroom m'
  have hform := sinkWf_iff.mp hwf
  refine ⟨fun t ht => ?_, fun t u a => sinkAddr_injective hform.disjoint, fun a => read_sinkWrite_outside⟩
  obtain ⟨a, ha⟩ := sinkAddr_defined (gs := k.segs) (off := k.off.toNat + t) (by omega)
  refine ⟨a, ha, ?_, sinkAddr_mem ha⟩
  rw [read_sinkWrite_inside hform.disjoint hm ht ha, List.getD_eq_getElem _ _ ht]

theorem sinkWrite_append (gs : List Seg) (off : Nat) (v w : Bytes) (m : Memory) :
    sinkWrite gs off (v ++ w) m = sinkWrite gs (off + v.length) w (sinkWrite gs off v m) := by
  induction v generalizing off m with
  | nil => rfl
  | cons b v ih =>
    rw [List.cons_append, sinkWrite, ih, sinkWrite, List.length_cons, Nat.add_right_comm, Nat.add_assoc]

/-- R70: a write that stays in the first segment is one write of its bytes. -/
theorem sinkWrite_head {g : Seg} (gs : List Seg) {off : Nat} {v : Bytes} (m : Memory)
    (h : off + v.length ≤ g.len.toNat) : sinkWrite (g :: gs) off v m = m.writeBytes (g.ptr.toNat + off) v := by
  induction v generalizing off m with
  | nil => rfl
  | cons b v ih =>
    rw [List.length_cons] at h
    rw [sinkWrite, sinkAddr_head gs (by omega), ih _ (by omega), Memory.writeBytes, Nat.add_assoc]

/-- R70: a write that begins behind the first segment does not see it. -/
theorem sinkWrite_tail {g : Seg} (gs : List Seg) {off : Nat} (v : Bytes) (m : Memory) (h : g.len.toNat ≤ off) :
    sinkWrite (g :: gs) off v m = sinkWrite gs (off - g.len.toNat) v m := by
  induction v generalizing off m with
  | nil => rfl
  | cons b v ih =>
    rw [sinkWrite, sinkAddr_tail gs h, ih _ (by omega), sinkWrite, Nat.sub_add_comm h]

/-! The spans of `reserve`. -/

theorem reserve_tail {g : Seg} (gs : List Seg) {off : Nat} (n : Nat) (h : g.len.toNat ≤ off) :
    reserve (g :: gs) off n = reserve gs (off - g.len.toNat) n := by
  rw [reserve, if_neg (not_lt.mpr h)]

/-- R69: one span where the cursor's segment has room for all. -/
theorem reserve_one {g : Seg} (gs : List Seg) {off n : Nat} (h : off < g.len.toNat) (hn : off + n ≤ g.len.toNat) :
    reserve (g :: gs) off n = [(g.ptr.toNat + off, n)] := by
  have hmin : min n (g.len.toNat - off) = n := by omega
  rw [reserve, if_pos h]
  simp only [hmin, lt_irrefl, if_false]

/-- R69: two spans where it has not. -/
theorem reserve_two {g h : Seg} (gs : List Seg) {off n : Nat} (ho : off < g.len.toNat) (hn : g.len.toNat < off + n) :
    reserve (g :: h :: gs) off n =
      [(g.ptr.toNat + off, g.len.toNat - off), (h.ptr.toNat, n - (g.len.toNat - off))] := by
  have hmin : min n (g.len.toNat - off) = g.len.toNat - off := by omega
  have hlt : g.len.toNat - off < n := by omega
  rw [reserve, if_pos ho]
  simp only [hmin, hlt, if_true]

/-- R69: there are at most two spans, whatever the sink. -/
theorem reserve_length_le (gs : List Seg) (off n : Nat) : (reserve gs off n).length ≤ 2 := by
  induction gs generalizing off with
  | nil => simp [reserve]
  | cons g gs ih =>
    rcases lt_or_ge off g.len.toNat with hg | hg
    · rcases le_or_gt (off + n) g.len.toNat with hn | hn
      · simp [reserve_one gs hg hn]
      · cases gs with
        | nil => simp [reserve, hg]
        | cons h gs => simp [reserve_two gs hg hn]
    · rw [reserve_tail gs n hg]
      exact ih _

/-- R69: the segment behind the cursor's takes the rest of a block: it is a middle segment, of a block at least, or the
last. -/
theorem rest_fits {g h : Seg} {gs : List Seg} {bs off n : Nat} (hmid : ∀ f ∈ middleSegs (g :: h :: gs), bs ≤ f.len.toNat)
    (hn : n ≤ bs) (hroom : off + n ≤ sinkTotal (g :: h :: gs)) : n - (g.len.toNat - off) ≤ h.len.toNat := by
  cases gs with
  | nil =>
    simp only [sinkTotal_cons, sinkTotal_nil] at hroom
    omega
  | cons f gs =>
    have := hmid h (by simp [middleSegs])
    omega

/-- R69, R70: writing at most a block into its spans is the write through the sink. -/
theorem writeSpans_reserve {gs : List Seg} {bs off : Nat} {v : Bytes} (m : Memory)
    (hmid : ∀ f ∈ middleSegs gs, bs ≤ f.len.toNat) (hv : v.length ≤ bs) (hroom : off + v.length ≤ sinkTotal gs) :
    writeSpans (reserve gs off v.length) v m = sinkWrite gs off v m := by
  induction gs generalizing off with
  | nil =>
    rw [sinkTotal_nil] at hroom
    obtain rfl : v = [] := List.length_eq_zero_iff.mp (by omega)
    rfl
  | cons g gs ih =>
    rcases lt_or_ge off g.len.toNat with hg | hg
    · rcases le_or_gt (off + v.length) g.len.toNat with hn | hn
      · rw [reserve_one gs hg hn, sinkWrite_head gs m hn]
        simp [writeSpans]
      · cases gs with
        | nil =>
          simp only [sinkTotal_cons, sinkTotal_nil] at hroom
          omega
        | cons h gs =>
          have hrest := rest_fits hmid hv hroom
          have htake : (v.take (g.len.toNat - off)).length = g.len.toNat - off := by
            rw [List.length_take]; omega
          have hend : off + (g.len.toNat - off) = g.len.toNat := by omega
          have hdrop : (v.drop (g.len.toNat - off)).length = v.length - (g.len.toNat - off) := List.length_drop
          calc writeSpans (reserve (g :: h :: gs) off v.length) v m
              = (m.writeBytes (g.ptr.toNat + off) (v.take (g.len.toNat - off))).writeBytes h.ptr.toNat
                  (v.drop (g.len.toNat - off)) := by
                rw [reserve_two gs hg hn]
                simp only [writeSpans]
                rw [← hdrop, List.take_length]
            _ = sinkWrite (g :: h :: gs) g.len.toNat (v.drop (g.len.toNat - off))
                  (sinkWrite (g :: h :: gs) off (v.take (g.len.toNat - off)) m) := by
                rw [sinkWrite_head _ m (by omega), sinkWrite_tail _ _ _ le_rfl, Nat.sub_self,
                  sinkWrite_head _ _ (by omega), Nat.add_zero]
            _ = sinkWrite (g :: h :: gs) off v m := by
                conv_rhs => rw [← List.take_append_drop (g.len.toNat - off) v, sinkWrite_append, htake, hend]
    · rw [reserve_tail gs _ hg, sinkWrite_tail gs v m hg]
      rw [sinkTotal_cons] at hroom
      exact ih (fun f hf => hmid f (middleSegs_subset_cons g gs hf)) (by omega)

/-- Settles O51: by the condition of R67(c) on the middle segments. -/
theorem reserveAgreesWithSinkWrite : Obligations.ReserveAgreesWithSinkWrite := by
  intro segMax bs k v m hwf _ hv hroom
  exact ⟨reserve_length_le _ _ _, writeSpans_reserve m (sinkWf_iff.mp hwf).middle hv hroom⟩

end Sys2Proof.Machine
end

section
/-! R60, R70, R73, R288, R293: which bytes of memory an instruction may change. -/

namespace Sys2Proof.Machine

/-- R288, R293: an error changes no byte but those of the output it writes all the same. -/
theorem State.read_raise_outside {s : State} {k : BitVec 8} {c : ModeContext} {tg : Target} {n len a : Nat} {e : Raise}
    (hn : n ≤ len) (he : ∀ x out, e = .authFail x out → out.length ≤ len) (h : ∀ j < len, tg.addrOf j ≠ some a) :
    (s.raise k c tg n e).mem.read a = s.mem.read a := by
  rw [State.raise_mem]
  cases e with
  | authFail x out => exact Target.read_emit_outside fun j hj => h j (hj.trans_le (he x out rfl))
  | cipher => exact Target.read_scatter_outside fun j hj => h j (hj.trans_le hn)
  | protocol => rfl
  | config => rfl
  | bufferTooSmall => rfl
  | lengthRange => rfl

/-- R60: of the ways an instruction ends, only an error and success have an output; it has at most `out_len` bytes. -/
theorem Ended.read_outside {i : Instr} {s t : State} (hend : Ended i s t) {a : Nat}
    (h : ∀ c, s.slot i.ctx = some (.held c) → ∀ j < outLenOf c i, (outputTarget i).addrOf j ≠ some a) :
    t.mem.read a = s.mem.read a := by
  cases hend with
  | refused => rfl
  | opened => rw [State.complete_mem, Target.emit_nil]
  | raised c e n hc hn he _ => exact State.read_raise_outside hn he (h c hc)
  | completed c c' out hc _ ho =>
    rw [State.complete_mem]
    exact Target.read_emit_outside fun j hj => h c hc j (hj.trans_le ho)
  | destroyed c =>
    rw [State.report_mem, State.setSlot_mem]
    split <;> rfl

/-- Settles O52: from the ways an instruction ends. -/
theorem memoryFrame : Obligations.MemoryFrame := fun _ _ _ h _ ha => (exec_ended h).read_outside ha

end Sys2Proof.Machine
end

section
/-! R73, R155: in place by the flag and by pointer identity. Both pass the checks of R129 and run the same body on the
same chunk, and a buffer whose cursor is at the chunk is written where the chunk is. -/

namespace Sys2Proof.Machine

/-! PROCESS of the row of a context. -/

/-- R113: `exec` runs the rule of the row that the context selects. -/
theorem exec_processRow (m : Mode) (dir : Dir) (k : BitVec 8) (p : Addr) (l : Len) (d : Dest) (s : State) :
    exec (processRow ⟨m, dir⟩ k p l d) s = runProcess Config.params (processRuleOf m dir) k p l d s := by
  cases m <;> cases dir <;> rfl

theorem processRuleOf_sel (m : Mode) (dir : Dir) : (processRuleOf m dir).sel m dir = true := by
  cases m <;> cases dir <;> rfl

/-- R129, step 9: how a PROCESS of the context `c` that passed its checks with `out_len` = `n` ends, by what its body
answers. -/
def processAnswer (s : State) (k : BitVec 8) (c : ModeContext) (tg : Target) (n : Nat) :
    Run (Session × Bytes) → Host.Outcome State Fault Refusal
  | .error e => s.stop k c tg n e
  | .ok (x, out) => .next (s.complete k (c.withSess x) tg out)

theorem runProcess_checked {P : Params} {R : ProcessRule} {k : BitVec 8} {p : Addr} {l : Len} {d : Dest} {s : State}
    {c : ModeContext} {n : Nat} (hc : s.slot k = some (.held c)) (hsel : R.sel c.mode c.dir = true)
    (hn : processChecks P (outLenProcess c l.toNat) (R.lengthOk c l.toNat) c p l d = .ok n) :
    runProcess P R k p l d s =
      processAnswer s k c (targetOf p d) n (R.body (P.cipher c.ks) c (s.mem.readBytes p.toNat l.toNat)) := by
  rw [runProcess, State.onContext_held hc hsel]
  simp only [hn]
  cases R.body (P.cipher c.ks) c (s.mem.readBytes p.toNat l.toNat) <;> rfl

/-! ECB and CBC with no remainder. -/

/-- R142: the whole blocks of the chunk. -/
theorem outLenProcess_noRemainder {c : ModeContext} (hm : c.mode = .ecb ∨ c.mode = .cbc)
    (hr : c.sess.remainder = some []) (L : Nat) : outLenProcess c L = .ok (c.blockSize * (L / c.blockSize)) := by
  rcases hm with hm | hm <;> simp [outLenProcess, hm, remainderLen_some hr]

/-- R151, R171: there is no length check. -/
theorem lengthOk_ecb_cbc {m : Mode} (hm : m = .ecb ∨ m = .cbc) (dir : Dir) (c : ModeContext) (L : Nat) :
    (processRuleOf m dir).lengthOk c L = .ok true := by
  rcases hm with rfl | rfl <;> cases dir <;> rfl

/-- R129: admitted operands pass all the checks when the whole blocks fit. -/
theorem processChecks_noRemainder {P : Params} {c : ModeContext} {p : Addr} {l : Len} {d : Dest}
    (hm : c.mode = .ecb ∨ c.mode = .cbc) (hst : c.state = .ready) (hr : c.sess.remainder = some [])
    (hadm : OperandsAdmitted P c p l d)
    (hfits : (targetOf p d).fits (c.blockSize * (l.toNat / c.blockSize)) = true) :
    processChecks P (outLenProcess c l.toNat) ((processRuleOf c.mode c.dir).lengthOk c l.toNat) c p l d =
      .ok (c.blockSize * (l.toNat / c.blockSize)) :=
  processChecks_ok.mpr ⟨hst, hadm, outLenProcess_noRemainder hm hr _, hfits, lengthOk_ecb_cbc hm _ _ _⟩

/-! A buffer of one segment. -/

/-- R67: one segment that is not empty and in the address space, with the offset inside it, is well formed. -/
theorem sinkForm_contiguous (P : Params) (bs : Nat) {q : Addr} {len : Len} {off : Addr} (hl : 1 ≤ len.toNat)
    (hspace : q.toNat + len.toNat ≤ addrSpace) (hoff : off.toNat ≤ len.toNat) :
    SinkForm P.segMax bs (.contiguous q len off) where
  count := ⟨le_rfl, Nat.succ_pos _⟩
  nonempty := by simpa [SinkOperand.segs] using hl
  middle := by simp [SinkOperand.segs, middleSegs]
  space := by simpa [SinkOperand.segs] using hspace
  disjoint := rfl
  offset := hoff

/-- R73: a chunk that is not empty and begins at the cursor is in place. -/
theorem isInPlace_contiguous {p q : Addr} {l : Len} {off : Addr} (len : Len) (hl : 0 < l.toNat)
    (hp : q.toNat + off.toNat = p.toNat) : isInPlace p l (.sink (.contiguous q len off)) = true := by
  have hl0 : l ≠ 0 := fun h => by simp [h] at hl
  simpa [isInPlace, SinkOperand.segs, SinkOperand.off, hp] using hl0

/-- R71: what fits behind the cursor. -/
theorem fits_contiguous {q : Addr} {len : Len} {off : Addr} {n : Nat} (h : off.toNat + n ≤ len.toNat) :
    (Target.sink (.contiguous q len off)).fits n = true := by
  have htotal : sinkTotal (SinkOperand.contiguous q len off).segs = len.toNat := rfl
  have hoff : (SinkOperand.contiguous q len off).off = off := rfl
  rw [Target.fits, htotal, hoff, decide_eq_true_eq]
  omega

/-- R70, R73: output that a buffer has room for lands where the cursor is, as it does in place there. -/
theorem emit_contiguous {p q : Addr} {len : Len} {off : Addr} {v : Bytes} (m : Memory)
    (hp : q.toNat + off.toNat = p.toNat) (h : off.toNat + v.length ≤ len.toNat) :
    (Target.sink (.contiguous q len off)).emit v m = (Target.chunk p).emit v m := by
  rw [Target.emit, Target.emit, ← hp]
  exact sinkWrite_head (g := ⟨q, len⟩) [] m h

/-- R73: an address outside the chunk's first `n` bytes is none of the output in place. -/
theorem Target.addrOf_chunk_ne {p : Addr} {n a : Nat} (h : a < p.toNat ∨ p.toNat + n ≤ a) :
    ∀ j < n, (Target.chunk p).addrOf j ≠ some a := by
  intro j hj ha
  rw [Target.addrOf, Option.some.injEq] at ha
  omega

/-- Settles O55: the two destinations pass the same checks with the same `out_len`; then one case for each way the body,
the same for both, ends. -/
theorem inPlaceIsPointerIdentity : Obligations.InPlaceIsPointerIdentity := by
  intro s k p q l len off c hc hm hst hlegal hr hl hcur hroom hspace
  have hspace' : q.toNat + len.toNat ≤ addrSpace := hspace
  have hrange : rangeFits p l = true := by
    simp only [rangeFits, Bool.or_eq_true, decide_eq_true_eq]
    exact .inr (by omega)
  have hchunk : OperandsAdmitted Config.params c p l .inPlace := ⟨hrange, rfl, fun _ => ⟨hm, hr⟩, .inl rfl⟩
  have hsink : OperandsAdmitted Config.params c p l (.sink (.contiguous q len off)) :=
    ⟨hrange, sinkWf_iff.mpr (sinkForm_contiguous _ _ (by omega) hspace' (by omega)), fun _ => ⟨hm, hr⟩,
      .inl (isInPlace_contiguous len hl hcur)⟩
  have hle : c.blockSize * (l.toNat / c.blockSize) ≤ l.toNat := Nat.mul_div_le _ _
  have hfits : (targetOf p (.sink (.contiguous q len off))).fits (c.blockSize * (l.toNat / c.blockSize)) = true :=
    fits_contiguous (by omega)
  rw [exec_processRow, exec_processRow,
    runProcess_checked hc (processRuleOf_sel _ _) (processChecks_noRemainder hm hst hr hchunk rfl),
    runProcess_checked hc (processRuleOf_sel _ _) (processChecks_noRemainder hm hst hr hsink hfits)]
  cases hbody : (processRuleOf c.mode c.dir).body (Config.params.cipher c.ks) c (s.mem.readBytes p.toNat l.toNat) with
  | error e =>
    obtain rfl := processBody_ready_stops _ (hlegal.ready hst) e hbody
    exact ⟨_, _, rfl, rfl, rfl, fun h6 => absurd rfl h6, fun a ha =>
      State.read_raise_outside le_rfl (fun x out h => by cases h) (Target.addrOf_chunk_ne ha)⟩
  | ok r =>
    obtain ⟨x, out⟩ := r
    have hout : out.length ≤ c.blockSize * (l.toNat / c.blockSize) := by
      have := processBody_le hbody
      rwa [Memory.readBytes_length, outLenProcess_noRemainder hm hr] at this
    refine ⟨_, _, rfl, rfl, rfl, fun _ => ⟨(emit_contiguous _ hcur (by omega)).symm, rfl, rfl⟩, fun a ha => ?_⟩
    exact Target.read_emit_outside fun j hj => Target.addrOf_chunk_ne ha j (hj.trans_le hout)

end Sys2Proof.Machine
end

section
/-! R91 to R97, R112, R113: the command word and its fields, the decoder operation by operation, and that decoder and
encoder undo each other. -/

namespace Sys2Proof.Machine

/-! The fields of a packed word (R91). -/

section

variable (op : BitVec 4) (mode : BitVec 3) (dir inplace sgl owned : Bool) (ctx : BitVec 8)

/-- R91: the layout of a packed word, bit by bit. -/
theorem getLsbD_packWord (i : Nat) : (packWord op mode dir inplace sgl owned ctx).getLsbD i =
    if i < 4 then op.getLsbD i else if i < 7 then mode.getLsbD (i - 4) else if i = 7 then dir else if i = 8 then inplace
    else if i = 9 then sgl else if i = 10 then owned else if i < 16 then false else ctx.getLsbD (i - 16) := by
  have ofBool : ∀ (b : Bool) (j : Nat), (BitVec.ofBool b).getLsbD j = (decide (j = 0) && b) := by
    intro b j
    cases b <;> simp [BitVec.ofBool]
  refine BitVec.getLsbD_append.trans ?_
  simp only [BitVec.getLsbD_append, ofBool, BitVec.getLsbD_zero]
  obtain hi | hi := Nat.lt_or_ge i 16
  · interval_cases i <;> simp
  · simp (disch := omega) only [if_neg]
    grind

@[simp] theorem wordMode_packWord : wordMode (packWord op mode dir inplace sgl owned ctx) = mode := by
  ext i hi
  rw [wordMode, BitVec.getElem_extractLsb', getLsbD_packWord, if_neg (by omega), if_pos (by omega),
    Nat.add_sub_cancel_left, BitVec.getLsbD_eq_getElem]

@[simp] theorem wordDir_packWord : wordDir (packWord op mode dir inplace sgl owned ctx) = dir := by
  rw [wordDir, getLsbD_packWord]
  rfl

@[simp] theorem wordInplace_packWord : wordInplace (packWord op mode dir inplace sgl owned ctx) = inplace := by
  rw [wordInplace, getLsbD_packWord]
  rfl

@[simp] theorem wordSgl_packWord : wordSgl (packWord op mode dir inplace sgl owned ctx) = sgl := by
  rw [wordSgl, getLsbD_packWord]
  rfl

@[simp] theorem wordOwned_packWord : wordOwned (packWord op mode dir inplace sgl owned ctx) = owned := by
  rw [wordOwned, getLsbD_packWord]
  rfl

@[simp] theorem wordReservedLow_packWord : wordReservedLow (packWord op mode dir inplace sgl owned ctx) = 0 := by
  ext i hi
  rw [wordReservedLow, BitVec.getElem_extractLsb', getLsbD_packWord]
  grind

@[simp] theorem wordCtx_packWord : wordCtx (packWord op mode dir inplace sgl owned ctx) = ctx := by
  ext i hi
  rw [wordCtx, BitVec.getElem_extractLsb', getLsbD_packWord]
  grind

@[simp] theorem wordReservedHigh_packWord : wordReservedHigh (packWord op mode dir inplace sgl owned ctx) = 0 := by
  ext i hi
  rw [wordReservedHigh, BitVec.getElem_extractLsb', getLsbD_packWord]
  grind

end

theorem packWord_fields {w : BitVec 32} (hlow : wordReservedLow w = 0) (hhigh : wordReservedHigh w = 0) :
    packWord (wordOp w) (wordMode w) (wordDir w) (wordInplace w) (wordSgl w) (wordOwned w) (wordCtx w) = w := by
  have low : ∀ j, 11 ≤ j → j < 16 → w.getLsbD j = false := by
    intro j h1 h2
    have h := congrArg (BitVec.getLsbD · (j - 11)) hlow
    simpa [wordReservedLow, show j - 11 < 5 by omega, h1] using h
  have high : ∀ j, 24 ≤ j → j < 32 → w.getLsbD j = false := by
    intro j h1 h2
    have h := congrArg (BitVec.getLsbD · (j - 24)) hhigh
    simpa [wordReservedHigh, show j - 24 < 8 by omega, h1] using h
  apply BitVec.eq_of_getLsbD_eq
  intro i hi
  rw [getLsbD_packWord]
  grind [wordOp, wordMode, wordDir, wordInplace, wordSgl, wordOwned, wordCtx]

/-! The decoder, operation by operation (R92). -/

section

variable {m : Selection} {c : Command}

theorem decodeOp_open (h : (wordOp c.word).toNat = 1) : decodeOp m c = decodeOpen c := by
  simp only [decodeOp, h]
theorem decodeOp_init (h : (wordOp c.word).toNat = 2) : decodeOp m c = decodeInit m c := by
  simp only [decodeOp, h]
theorem decodeOp_process (h : (wordOp c.word).toNat = 3) : decodeOp m c = decodeProcess m c := by
  simp only [decodeOp, h]
theorem decodeOp_last (h : (wordOp c.word).toNat = 4) : decodeOp m c = decodeProcessLast c := by
  simp only [decodeOp, h]
theorem decodeOp_finish (h : (wordOp c.word).toNat = 5) : decodeOp m c = decodeFinish m c := by
  simp only [decodeOp, h]
theorem decodeOp_destroy (h : (wordOp c.word).toNat = 6) : decodeOp m c = decodeDestroy c := by
  simp only [decodeOp, h]

/-- R97: "`op` is 0 or 7 to 15". -/
theorem decodeOp_badOp (h : (wordOp c.word).toNat = 0 ∨ 7 ≤ (wordOp c.word).toNat) :
    decodeOp m c = .error .badOp := by
  unfold decodeOp
  split <;> [omega; omega; omega; omega; omega; omega; rfl]

/-- R112: with the reserved bits 0 and a slot that exists, the decoder reads the operation. -/
theorem decode_eq_decodeOp {sel : BitVec 8 → Option Selection} (hlow : wordReservedLow c.word = 0)
    (hhigh : wordReservedHigh c.word = 0) (hsel : sel (wordCtx c.word) = some m) : decode sel c = decodeOp m c := by
  simp [decode, hlow, hhigh, hsel]

end

/-! Decoding what was encoded. -/

@[simp] theorem encodeOpen_word (mode : BitVec 3) (k : BitVec 8) (d : Dir) (w : Bool) (ks : Addr) :
    (encodeOpen mode k d w ks).word = packWord 1 mode d.bit false false w k := rfl
@[simp] theorem encodeInit_word (k : BitVec 8) (o : InitOperands) :
    (encodeInit k o).word = packWord 2 0 false false false false k := rfl
@[simp] theorem encodeProcess_word (op : BitVec 4) (k : BitVec 8) (p : Addr) (l : Len) (d : Dest) :
    (encodeProcess op k p l d).word = packWord op 0 false d.inplaceBit d.sglBit false k := rfl
@[simp] theorem encodeFinish_word (k : BitVec 8) (snk : SinkOperand) :
    (encodeFinish k snk).word = packWord 5 0 false false snk.sglBit false k := rfl

@[simp] theorem dirOfBit_bit (d : Dir) : dirOfBit d.bit = d := by cases d <;> rfl

@[simp] theorem bit_dirOfBit (b : Bool) : (dirOfBit b).bit = b := by cases b <;> rfl

/-- R102: the bit `sgl` and the operands give the sink back. -/
theorem sinkOf_ofSink {w : BitVec 32} {snk : SinkOperand} (h : wordSgl w = snk.sglBit) :
    sinkOf w (Operands.ofSink snk) = snk := by
  cases snk <;> simp [sinkOf, h, SinkOperand.sglBit, Operands.ofSink]

/-- R91, R95: the bits `inplace` and `sgl` and the operands give the destination back. -/
theorem destOf_ofProcess {w : BitVec 32} {d : Dest} (p : Addr) (l : Len) (hi : wordInplace w = d.inplaceBit)
    (hs : wordSgl w = d.sglBit) : destOf w (Operands.ofProcess p l d) = d := by
  cases d with
  | inPlace => simp [destOf, hi, Dest.inplaceBit]
  | sink snk =>
    have h : sinkOf w (Operands.ofProcess p l (.sink snk)) = sinkOf w (Operands.ofSink snk) := rfl
    simp [destOf, hi, Dest.inplaceBit, h, sinkOf_ofSink hs]

/-- R95: no encoded destination has `inplace` and `sgl` both 1. -/
theorem processFields_encodeProcess (op : BitVec 4) (k : BitVec 8) (p : Addr) (l : Len) (d : Dest) :
    processFields (encodeProcess op k p l d).word = .ok () := by
  cases d <;> simp [processFields, Dest.inplaceBit, Dest.sglBit]

section

variable (m : Selection) (k : BitVec 8)

theorem decodeOp_encodeInit (o : InitOperands) : decodeOp m (encodeInit k o) = .ok (initRow m k o) := by
  rw [decodeOp_init (by simp [wordOp_packWord])]
  simp [decodeInit]
  rfl

theorem destOf_encodeProcess (op : BitVec 4) (p : Addr) (l : Len) (d : Dest) :
    destOf (encodeProcess op k p l d).word (encodeProcess op k p l d).ops = d :=
  destOf_ofProcess p l (by simp) (by simp)

theorem decodeOp_encodeProcess (p : Addr) (l : Len) (d : Dest) :
    decodeOp m (encodeProcess 3 k p l d) = .ok (processRow m k p l d) := by
  have hops : (encodeProcess 3 k p l d).ops.dataPtr = p ∧ (encodeProcess 3 k p l d).ops.dataLen = l := by
    cases d <;> exact ⟨rfl, rfl⟩
  rw [decodeOp_process (by simp [wordOp_packWord]), decodeProcess, processFields_encodeProcess, destOf_encodeProcess,
    hops.1, hops.2, encodeProcess_word, wordCtx_packWord]

theorem decodeOp_encodeLast (p : Addr) (l : Len) (d : Dest) :
    decodeOp m (encodeProcess 4 k p l d) = .ok (.processLast k p l d) := by
  have hops : (encodeProcess 4 k p l d).ops.dataPtr = p ∧ (encodeProcess 4 k p l d).ops.dataLen = l := by
    cases d <;> exact ⟨rfl, rfl⟩
  rw [decodeOp_last (by simp [wordOp_packWord]), decodeProcessLast, processFields_encodeProcess, destOf_encodeProcess,
    hops.1, hops.2, encodeProcess_word, wordCtx_packWord]

theorem decodeOp_encodeFinish (snk : SinkOperand) :
    decodeOp m (encodeFinish k snk) = .ok (finishRow m k snk) := by
  have hsink : sinkOf (encodeFinish k snk).word (encodeFinish k snk).ops = snk := sinkOf_ofSink (by simp)
  rw [decodeOp_finish (by simp [wordOp_packWord])]
  simp only [decodeFinish, hsink]
  simp

/-- R93: the field `mode` of an OPEN word. -/
def modeField : Mode → BitVec 3
  | .ecb => 0
  | .cbc => 1
  | .ctr => 2
  | .gcm => 3
  | .gmac => 4

/-- R113: the OPEN row of a mode. -/
def openRow (a : Mode) (k : BitVec 8) (d : Dir) (w : Bool) (ks : Addr) : Instr :=
  match a with
  | .ecb => .openEcb k d w ks
  | .cbc => .openCbc k d w ks
  | .ctr => .openCtr k d w ks
  | .gcm => .openGcm k d w ks
  | .gmac => .openGmac k d w ks

theorem encode_openRow (a : Mode) (k : BitVec 8) (d : Dir) (w : Bool) (ks : Addr) :
    encode (openRow a k d w ks) = encodeOpen (modeField a) k d w ks := by
  cases a <;> rfl

/-- R91, R93: the decoder reads the OPEN row of the mode in the word. -/
theorem decodeOpen_ok {c : Command} {a : Mode} (hi : wordInplace c.word = false) (hs : wordSgl c.word = false)
    (ha : wordMode c.word = modeField a) : decodeOpen c =
      .ok (openRow a (wordCtx c.word) (dirOfBit (wordDir c.word)) (wordOwned c.word) c.ops.ks) := by
  cases a <;> simp [decodeOpen, hi, hs, ha, modeField, openRow]

theorem decodeOp_encodeOpen (a : Mode) (d : Dir) (w : Bool) (ks : Addr) :
    decodeOp m (encode (openRow a k d w ks)) = .ok (openRow a k d w ks) := by
  rw [encode_openRow, decodeOp_open (by simp [wordOp_packWord]), decodeOpen_ok (by simp) (by simp) (a := a) (by simp)]
  simp
  rfl

theorem decodeOp_encodeDestroy : decodeOp m (encode (.destroy k)) = .ok (.destroy k) := by
  have hword : (encode (.destroy k)).word = packWord 6 0 false false false false k := rfl
  rw [decodeOp_destroy (by simp [hword, wordOp_packWord])]
  simp [decodeDestroy, hword]

end

theorem eq_and_eq_of_beq {a a' : Mode} {d d' : Dir} (h : (a' == a && d' == d) = true) : a' = a ∧ d' = d := by
  obtain ⟨ha, hd⟩ := Bool.and_eq_true_iff.mp h
  exact ⟨eq_of_beq ha, eq_of_beq hd⟩

/-- R112, R113: for a selection that selects the instruction's row. -/
theorem decodeOp_encode {m : Selection} {i : Instr} (h : i.selectedBy m = true) : decodeOp m (encode i) = .ok i := by
  obtain ⟨mode, dir⟩ := m
  cases i with
  | openEcb k d w ks => exact decodeOp_encodeOpen _ k .ecb d w ks
  | openCbc k d w ks => exact decodeOp_encodeOpen _ k .cbc d w ks
  | openCtr k d w ks => exact decodeOp_encodeOpen _ k .ctr d w ks
  | openGcm k d w ks => exact decodeOp_encodeOpen _ k .gcm d w ks
  | openGmac k d w ks => exact decodeOp_encodeOpen _ k .gmac d w ks
  | initEcb k o | initCbc k o | initCtr k o | initGcm k o | initGmac k o =>
    obtain rfl := eq_of_beq h
    exact decodeOp_encodeInit _ k o
  | processCtr k p l d =>
    obtain rfl := eq_of_beq h
    exact decodeOp_encodeProcess _ k p l d
  | processEcbEnc k p l d | processEcbDec k p l d | processCbcEnc k p l d | processCbcDec k p l d
  | processGcmEnc k p l d | processGcmDec k p l d | processGmacEnc k p l d | processGmacDec k p l d =>
    obtain ⟨rfl, rfl⟩ := eq_and_eq_of_beq h
    exact decodeOp_encodeProcess _ k p l d
  | processLast k p l d => exact decodeOp_encodeLast _ k p l d
  | finishEcb k snk | finishCbc k snk | finishCtr k snk =>
    obtain rfl := eq_of_beq h
    exact decodeOp_encodeFinish _ k snk
  | finishGcmEnc k snk | finishGcmDec k snk | finishGmacEnc k snk | finishGmacDec k snk =>
    obtain ⟨rfl, rfl⟩ := eq_and_eq_of_beq h
    exact decodeOp_encodeFinish _ k snk
  | destroy k => exact decodeOp_encodeDestroy _ k

/-- R91: every encoded word has its reserved bits 0 and its slot number in `ctx`. -/
theorem encode_word_fields (i : Instr) : wordReservedLow (encode i).word = 0 ∧ wordReservedHigh (encode i).word = 0 ∧
    wordCtx (encode i).word = i.ctx := by
  cases i <;> exact ⟨wordReservedLow_packWord .., wordReservedHigh_packWord .., wordCtx_packWord ..⟩

/-- Settles O1: the fields of the encoded word, then the operation that `op` names. -/
theorem decodeReadsEncode : Obligations.DecodeReadsEncode := by
  intro sel i h
  obtain ⟨hlow, hhigh, hctx⟩ := encode_word_fields i
  unfold Instr.wellFormed at h
  split at h
  · cases h
  · next m hm =>
    rw [decode_eq_decodeOp hlow hhigh (hctx.symm ▸ hm)]
    exact decodeOp_encode h

/-! The word of what was decoded. -/

theorem encode_initRow (m : Selection) (k : BitVec 8) (o : InitOperands) :
    encode (initRow m k o) = encodeInit k o := by
  obtain ⟨mode, dir⟩ := m
  cases mode <;> rfl

theorem encode_processRow (m : Selection) (k : BitVec 8) (p : Addr) (l : Len) (d : Dest) :
    encode (processRow m k p l d) = encodeProcess 3 k p l d := by
  obtain ⟨mode, dir⟩ := m
  cases mode <;> cases dir <;> rfl

theorem encode_finishRow (m : Selection) (k : BitVec 8) (snk : SinkOperand) :
    encode (finishRow m k snk) = encodeFinish k snk := by
  obtain ⟨mode, dir⟩ := m
  cases mode <;> cases dir <;> rfl

@[simp] theorem sglBit_sinkOf (w : BitVec 32) (o : Operands) : (sinkOf w o).sglBit = wordSgl w := by
  unfold sinkOf
  split <;> simp_all [SinkOperand.sglBit]

@[simp] theorem inplaceBit_destOf (w : BitVec 32) (o : Operands) : (destOf w o).inplaceBit = wordInplace w := by
  unfold destOf
  split <;> simp_all [Dest.inplaceBit]

theorem sglBit_destOf {w : BitVec 32} (o : Operands) (h : wordInplace w = true → wordSgl w = false) :
    (destOf w o).sglBit = wordSgl w := by
  unfold destOf
  split <;> simp_all [Dest.sglBit]

/-- R91: the word with the fields of `w` and its reserved bits 0. -/
def repack (w : BitVec 32) : BitVec 32 :=
  packWord (wordOp w) (wordMode w) (wordDir w) (wordInplace w) (wordSgl w) (wordOwned w) (wordCtx w)

/-- R97: the fields of PROCESS and PROCESS_LAST that pass. -/
theorem processFields_ok {w : BitVec 32} {u : Unit} (h : processFields w = .ok u) :
    wordMode w = 0 ∧ wordDir w = false ∧ wordOwned w = false ∧ (wordInplace w = true → wordSgl w = false) := by
  unfold processFields at h
  split at h
  · cases h
  · split at h
    · cases h
    · simp_all

theorem encodeProcess_destOf {w : BitVec 32} {u : Unit} (h : processFields w = .ok u) (p : Addr) (l : Len)
    (o : Operands) : (encodeProcess (wordOp w) (wordCtx w) p l (destOf w o)).word = repack w := by
  obtain ⟨hm, hd, ho, his⟩ := processFields_ok h
  rw [encodeProcess_word, inplaceBit_destOf, sglBit_destOf o his, repack, hm, hd, ho]

theorem wordOp_eq {w : BitVec 32} {n : BitVec 4} (h : (wordOp w).toNat = n.toNat) : wordOp w = n :=
  BitVec.eq_of_toNat_eq h

/-- R93: five values of the field `mode` name a mode. -/
theorem exists_modeField {b : BitVec 3} (h : b.toNat < 5) : ∃ a : Mode, b = modeField a := by
  obtain h | h | h | h | h : b.toNat = 0 ∨ b.toNat = 1 ∨ b.toNat = 2 ∨ b.toNat = 3 ∨ b.toNat = 4 := by omega
  · exact ⟨.ecb, BitVec.eq_of_toNat_eq h⟩
  · exact ⟨.cbc, BitVec.eq_of_toNat_eq h⟩
  · exact ⟨.ctr, BitVec.eq_of_toNat_eq h⟩
  · exact ⟨.gcm, BitVec.eq_of_toNat_eq h⟩
  · exact ⟨.gmac, BitVec.eq_of_toNat_eq h⟩

/-- R97: the OPEN words that are refused. -/
theorem decodeOpen_error {c : Command}
    (h : wordInplace c.word = true ∨ wordSgl c.word = true ∨ 5 ≤ (wordMode c.word).toNat) :
    ∃ e, decodeOpen c = .error e := by
  simp only [decodeOpen]
  split
  · exact ⟨_, rfl⟩
  · next hz =>
    have hm : 5 ≤ (wordMode c.word).toNat := by simp_all
    split <;> [omega; omega; omega; omega; omega; exact ⟨_, rfl⟩]

theorem decodeOpen_word {c : Command} {i : Instr} (hop : wordOp c.word = 1) (h : decodeOpen c = .ok i) :
    (encode i).word = repack c.word := by
  by_cases hbad : wordInplace c.word = true ∨ wordSgl c.word = true ∨ 5 ≤ (wordMode c.word).toNat
  · obtain ⟨e, he⟩ := decodeOpen_error hbad
    rw [he] at h
    cases h
  · simp only [not_or, Bool.not_eq_true, not_le] at hbad
    obtain ⟨hi, hs, hm⟩ := hbad
    obtain ⟨a, ha⟩ := exists_modeField hm
    rw [decodeOpen_ok hi hs ha] at h
    cases h
    rw [encode_openRow, encodeOpen_word, bit_dirOfBit, repack, hop, hi, hs, ha]

/-- R112: no bit of a word that an operation reads is dropped. -/
theorem decodeOp_word {m : Selection} {c : Command} {i : Instr} (h : decodeOp m c = .ok i) :
    (encode i).word = repack c.word := by
  unfold decodeOp at h
  split at h
  · next hop => exact decodeOpen_word (wordOp_eq hop) h
  · next hop =>
    simp only [decodeInit] at h
    split at h <;> cases h
    next hz =>
    simp only [Bool.or_eq_true, decide_eq_true_eq, not_or, ne_eq, not_not, Bool.not_eq_true] at hz
    obtain ⟨⟨⟨⟨hm, hd⟩, hi⟩, hs⟩, ho⟩ := hz
    rw [encode_initRow, encodeInit_word, repack, wordOp_eq (n := 2) hop, hm, hd, hi, hs, ho]
  · next hop =>
    simp only [decodeProcess] at h
    split at h <;> cases h
    next hf => rw [encode_processRow, ← wordOp_eq (n := 3) hop, encodeProcess_destOf hf]
  · next hop =>
    simp only [decodeProcessLast] at h
    split at h <;> cases h
    next hf => rw [encode, ← wordOp_eq (n := 4) hop, encodeProcess_destOf hf]
  · next hop =>
    simp only [decodeFinish] at h
    split at h <;> cases h
    next hz =>
    simp only [Bool.or_eq_true, decide_eq_true_eq, not_or, ne_eq, not_not, Bool.not_eq_true] at hz
    obtain ⟨⟨⟨hm, hd⟩, hi⟩, ho⟩ := hz
    rw [encode_finishRow, encodeFinish_word, sglBit_sinkOf, repack, wordOp_eq (n := 5) hop, hm, hd, hi, ho]
  · next hop =>
    simp only [decodeDestroy] at h
    split at h <;> cases h
    next hz =>
    simp only [Bool.or_eq_true, decide_eq_true_eq, not_or, ne_eq, not_not, Bool.not_eq_true] at hz
    obtain ⟨⟨⟨⟨hm, hd⟩, hi⟩, hs⟩, ho⟩ := hz
    rw [encode, repack, wordOp_eq (n := 6) hop, hm, hd, hi, hs, ho]
  · cases h

/-- Settles O2: the operation drops no bit of the fields, and the reserved bits are 0. -/
theorem decodedWordIsEncoded : Obligations.DecodedWordIsEncoded := by
  intro sel c i h
  obtain ⟨m, hm, hsel⟩ := decode_selected h
  refine ⟨by rw [Instr.wellFormed, hm]; exact hsel, ?_⟩
  unfold decode at h
  split at h
  · cases h
  · next hres =>
    obtain ⟨hlow, hhigh⟩ : wordReservedLow c.word = 0 ∧ wordReservedHigh c.word = 0 := by simpa using hres
    split at h
    · split at h <;> cases h
    · exact (decodeOp_word h).trans (packWord_fields hlow hhigh)

/-! The illegal words of R97. -/

section

variable {c : Command}

theorem decodeOpen_error_iff : (∃ e, decodeOpen c = .error e) ↔
    wordInplace c.word = true ∨ wordSgl c.word = true ∨ 5 ≤ (wordMode c.word).toNat := by
  refine ⟨fun ⟨e, he⟩ => ?_, decodeOpen_error⟩
  by_contra hbad
  simp only [not_or, Bool.not_eq_true, not_le] at hbad
  obtain ⟨hi, hs, hm⟩ := hbad
  obtain ⟨a, ha⟩ := exists_modeField hm
  rw [decodeOpen_ok hi hs ha] at he
  cases he

theorem decodeInit_error_iff (m : Selection) : (∃ e, decodeInit m c = .error e) ↔
    wordMode c.word ≠ 0 ∨ wordDir c.word = true ∨ wordInplace c.word = true ∨ wordSgl c.word = true ∨
      wordOwned c.word = true := by
  simp only [decodeInit]
  split <;> simp_all [or_assoc]

theorem decodeDestroy_error_iff : (∃ e, decodeDestroy c = .error e) ↔
    wordMode c.word ≠ 0 ∨ wordDir c.word = true ∨ wordInplace c.word = true ∨ wordSgl c.word = true ∨
      wordOwned c.word = true := by
  simp only [decodeDestroy]
  split <;> simp_all [or_assoc]

theorem decodeFinish_error_iff (m : Selection) : (∃ e, decodeFinish m c = .error e) ↔
    wordMode c.word ≠ 0 ∨ wordDir c.word = true ∨ wordInplace c.word = true ∨ wordOwned c.word = true := by
  simp only [decodeFinish]
  split <;> simp_all [or_assoc]

theorem processFields_error_iff {w : BitVec 32} : (∃ e, processFields w = .error e) ↔
    wordMode w ≠ 0 ∨ wordDir w = true ∨ wordOwned w = true ∨ (wordInplace w = true ∧ wordSgl w = true) := by
  unfold processFields
  split
  · simp_all [or_assoc]
    tauto
  · split <;> simp_all

theorem decodeProcess_error_iff (m : Selection) : (∃ e, decodeProcess m c = .error e) ↔
    ∃ e, processFields c.word = .error e := by
  unfold decodeProcess
  split <;> simp_all

theorem decodeProcessLast_error_iff : (∃ e, decodeProcessLast c = .error e) ↔
    ∃ e, processFields c.word = .error e := by
  unfold decodeProcessLast
  split <;> simp_all

end

/-- R97: the conditions on `op` and on the fields of one operation. -/
def OpIllegal (w : BitVec 32) : Prop :=
  let op := (wordOp w).toNat
  (op = 0 ∨ 7 ≤ op) ∨
  (op ≠ 1 ∧ (wordMode w ≠ 0 ∨ wordDir w = true ∨ wordOwned w = true)) ∨
  (op ≠ 3 ∧ op ≠ 4 ∧ wordInplace w = true) ∨
  (op ≠ 3 ∧ op ≠ 4 ∧ op ≠ 5 ∧ wordSgl w = true) ∨
  (op = 1 ∧ 5 ≤ (wordMode w).toNat) ∨
  (wordInplace w = true ∧ wordSgl w = true)

theorem decodeOp_error_iff (m : Selection) (c : Command) : (∃ e, decodeOp m c = .error e) ↔ OpIllegal c.word := by
  obtain h | h | h | h | h | h | h : ((wordOp c.word).toNat = 0 ∨ 7 ≤ (wordOp c.word).toNat) ∨
      (wordOp c.word).toNat = 1 ∨ (wordOp c.word).toNat = 2 ∨ (wordOp c.word).toNat = 3 ∨
      (wordOp c.word).toNat = 4 ∨ (wordOp c.word).toNat = 5 ∨ (wordOp c.word).toNat = 6 := by omega
  · rw [decodeOp_badOp h]
    exact iff_of_true ⟨_, rfl⟩ (.inl h)
  · rw [decodeOp_open h, decodeOpen_error_iff]
    simp [OpIllegal, h]
    tauto
  · rw [decodeOp_init h, decodeInit_error_iff]
    simp [OpIllegal, h]
    tauto
  · rw [decodeOp_process h, decodeProcess_error_iff, processFields_error_iff]
    simp [OpIllegal, h]
    tauto
  · rw [decodeOp_last h, decodeProcessLast_error_iff, processFields_error_iff]
    simp [OpIllegal, h]
    tauto
  · rw [decodeOp_finish h, decodeFinish_error_iff]
    simp [OpIllegal, h]
    tauto
  · rw [decodeOp_destroy h, decodeDestroy_error_iff]
    simp [OpIllegal, h]
    tauto

/-- R97, R112: the reserved bits, the operation's own conditions, the slot. -/
theorem decode_error_iff (sel : BitVec 8 → Option Selection) (c : Command) : (∃ e, decode sel c = .error e) ↔
    (wordReservedLow c.word ≠ 0 ∨ wordReservedHigh c.word ≠ 0) ∨ OpIllegal c.word ∨ sel (wordCtx c.word) = none := by
  by_cases hres : wordReservedLow c.word ≠ 0 ∨ wordReservedHigh c.word ≠ 0
  · refine iff_of_true ⟨.reservedBit, ?_⟩ (.inl hres)
    rw [decode, if_pos (by simpa using hres)]
  · cases hsel : sel (wordCtx c.word) with
    | none =>
      refine iff_of_true ?_ (.inr (.inr rfl))
      cases hop : decodeOp ⟨.ecb, .enc⟩ c <;> simp_all [decode]
    | some m =>
      obtain ⟨hlow, hhigh⟩ := not_or.mp hres
      rw [decode_eq_decodeOp (not_not.mp hlow) (not_not.mp hhigh) hsel, decodeOp_error_iff]
      exact ⟨fun h => .inr (.inl h), fun h => (h.resolve_left hres).resolve_right (by simp)⟩

/-- Settles O3: `decode_error_iff`, its conditions in the order of R97. -/
theorem illegalWordsAreR97 : Obligations.IllegalWordsAreR97 := by
  intro sel c op mode
  have hmode : wordMode c.word ≠ 0 ↔ mode ≠ 0 := not_congr (by rw [← BitVec.toNat_inj]; rfl)
  rw [decode_error_iff, OpIllegal, hmode]
  refine (or_congr_right or_assoc).trans (or_left_comm.trans (or_congr_right (or_congr_right ?_)))
  exact or_assoc.trans (or_congr_right (or_assoc.trans (or_congr_right (or_assoc.trans (or_congr_right
    or_assoc)))))

end Sys2Proof.Machine
end

section
/-! R97, R112, R120, R125, R135: what a step does with the command it takes, OPEN, and the commands that are refused. -/

namespace Sys2Proof.Machine

/-- Settles O4: each word is computed. -/
theorem writtenWordsDecode : Obligations.WrittenWordsDecode :=
  ⟨rfl, rfl, rfl, rfl, rfl, rfl, rfl, rfl, rfl, rfl, rfl, rfl, rfl, rfl⟩

/-- Settles O5: a well-formed instruction's command decodes to it (R112). -/
theorem stepRunsDecoded : Obligations.StepRunsDecoded :=
  ⟨fun _ _ _ _ hin hd => step_command hin hd,
    fun s i _ hin hwf => step_command hin (decodeReadsEncode s.selection i hwf)⟩

/-- Settles O6: an illegal word never reaches a context. -/
theorem illegalWordRaisesProtocol : Obligations.IllegalWordRaisesProtocol :=
  fun _ _ _ _ hin hd => step_illegal hin hd

/-! OPEN (R125). -/

theorem openContext_eq (P : Params) (m : Mode) (k : BitVec 8) (d : Dir) (w : Bool) (ks : Addr) (s : State) :
    openContext P m k d w ks s = .next (
      if s.slot k = some .free then
        (s.setSlot k (.held { state := .alloc, mode := m, dir := d, ks := ks, ksOwned := w,
                              blockSize := (P.cipher ks).bs, sess := Session.empty })).report .ok 0 0
      else s.report .protocol 0 0) := by
  unfold openContext
  split
  · next h => rw [if_pos h]; rfl
  · next h => rw [if_neg h]; rfl

/-- R99: OPEN carries no sink (log 12). -/
theorem passedOff_open {c : Command} (h : wordOp c.word = 1) : c.passedOff = 0 := by
  simp [Command.passedOff, h]

/-- Settles O9: the two cases of R125, and an illegal word as in O6. -/
theorem openResult : Obligations.OpenResult := by
  refine ⟨fun s k d w ks => ⟨openContext_eq .., openContext_eq .., openContext_eq .., openContext_eq ..,
    openContext_eq ..⟩, fun s c q e hin hop hd => ?_, fun _ => rfl⟩
  rw [illegalWordRaisesProtocol s c q e hin hd, passedOff_open hop]
  rfl

/-! Rows that the context does not select (log 4). -/

/-- Settles O20: only INIT, PROCESS and FINISH have a row that a context may not select. -/
theorem unselectedRowRefused : Obligations.UnselectedRowRefused := by
  intro s i c hc hsel
  cases i with
  | openEcb | openCbc | openCtr | openGcm | openGmac | processLast | destroy => cases hsel
  | initEcb | initCbc | initCtr | initGcm | initGmac => exact State.onContext_other hc hsel
  | processEcbEnc | processEcbDec | processCbcEnc | processCbcDec | processCtr | processGcmEnc | processGcmDec
  | processGmacEnc | processGmacDec => exact State.onContext_other hc hsel
  | finishEcb | finishCbc | finishCtr | finishGcmEnc | finishGcmDec | finishGmacEnc | finishGmacDec =>
    exact State.onContext_other hc hsel

/-! Commands that the lifecycle refuses (R135). -/

/-- R286: PROTOCOL has no effect but the result registers, however it arises. -/
theorem Ended.of_protocol {i : Instr} {s t : State} (h : Ended i s t) (hst : t.status = Status.protocol.code) :
    t = s.report .protocol 0 (outputTarget i).passedOff := by
  cases h with
  | refused => rfl
  | opened => cases hst
  | raised c e =>
    cases e with
    | protocol => rfl
    | config | bufferTooSmall | lengthRange | cipher | authFail => cases hst
  | completed => cases hst
  | destroyed => cases hst

/-- R135: how a lifecycle state refuses the `op` of a command. -/
def OutsideLifecycle (op : Nat) (c : ModeContext) : Prop :=
  op = 1 ∨ (op = 2 ∧ c.state ≠ .alloc) ∨ ((op = 3 ∨ op = 4 ∨ op = 5) ∧ c.state ≠ .ready)

/-- An outcome that raises PROTOCOL. -/
def RaisesProtocol (r : Host.Outcome State Fault Refusal) : Prop :=
  ∃ t, r = .next t ∧ t.status = Status.protocol.code

theorem State.onContext_protocol {s : State} {k : BitVec 8} {sel : Mode → Dir → Bool} {off : Addr}
    {f : ModeContext → Host.Outcome State Fault Refusal}
    (h : ∀ c, s.slot k = some (.held c) → sel c.mode c.dir = true ∧ RaisesProtocol (f c)) :
    RaisesProtocol (s.onContext k sel off f) := by
  by_cases hc : ∃ c, s.slot k = some (.held c)
  · obtain ⟨c, hc⟩ := hc
    rw [State.onContext_held hc (h c hc).1]
    exact (h c hc).2
  · exact ⟨_, State.onContext_refuse fun c h => hc ⟨c, h⟩, rfl⟩

theorem check_state_ne {c : ModeContext} {l : Lifecycle} (h : c.state ≠ l) (e : Raise) :
    check (c.state == l) e = .error (.raise e) := by
  simp [h]

theorem openContext_protocol {P : Params} {m : Mode} {k : BitVec 8} {d : Dir} {w : Bool} {ks : Addr} {s : State}
    (h : s.slot k ≠ some .free) : RaisesProtocol (openContext P m k d w ks s) :=
  ⟨_, (openContext_eq P m k d w ks s).trans (by rw [if_neg h]), rfl⟩

/-- R126 to R128, R211: INIT of a context outside `alloc`. -/
theorem runInit_protocol {P : Params} {R : InitRule} {k : BitVec 8} {o : InitOperands} {s : State}
    (h : ∀ c, s.slot k = some (.held c) → R.sel c.mode c.dir = true ∧ c.state ≠ .alloc) :
    RaisesProtocol (runInit P R k o s) := by
  refine State.onContext_protocol fun c hc => ⟨(h c hc).1, ?_⟩
  rw [initSession, check_state_ne (h c hc).2]
  exact ⟨_, rfl, rfl⟩

/-- R129, step 1. -/
theorem processChecks_not_ready {P : Params} {outLen : Run Nat} {lengthOk : Run Bool} {c : ModeContext} (p : Addr)
    (l : Len) (d : Dest) (h : c.state ≠ .ready) :
    processChecks P outLen lengthOk c p l d = .error (.raise .protocol) := by
  rw [processChecks, operandChecks, check_state_ne h]
  rfl

theorem runProcess_protocol {P : Params} {R : ProcessRule} {k : BitVec 8} {p : Addr} {l : Len} {d : Dest} {s : State}
    (h : ∀ c, s.slot k = some (.held c) → R.sel c.mode c.dir = true ∧ c.state ≠ .ready) :
    RaisesProtocol (runProcess P R k p l d s) := by
  refine State.onContext_protocol fun c hc => ⟨(h c hc).1, ?_⟩
  rw [processChecks_not_ready p l d (h c hc).2]
  exact ⟨_, rfl, rfl⟩

theorem runLast_protocol {P : Params} {R : Mode → Dir → ProcessRule} {F : Mode → Dir → FinishRule} {k : BitVec 8}
    {p : Addr} {l : Len} {d : Dest} {s : State} (h : ∀ c, s.slot k = some (.held c) → c.state ≠ .ready) :
    RaisesProtocol (runLast P R F k p l d s) := by
  refine State.onContext_protocol fun c hc => ⟨rfl, ?_⟩
  rw [processChecks_not_ready p l d (h c hc)]
  exact ⟨_, rfl, rfl⟩

/-- R132, step 1. -/
theorem runFinish_protocol {P : Params} {R : FinishRule} {k : BitVec 8} {snk : SinkOperand} {s : State}
    (h : ∀ c, s.slot k = some (.held c) → R.sel c.mode c.dir = true ∧ c.state ≠ .ready) :
    RaisesProtocol (runFinish P R k snk s) := by
  refine State.onContext_protocol fun c hc => ⟨(h c hc).1, ?_⟩
  rw [finishChecks, check_state_ne (h c hc).2]
  exact ⟨_, rfl, rfl⟩

theorem execDestroy_protocol {k : BitVec 8} {s : State} (h : ∀ c, s.slot k ≠ some (.held c)) :
    RaisesProtocol (execDestroy k s) := by
  unfold execDestroy
  split
  · next c hc => exact absurd hc (h c)
  · exact ⟨_, rfl, rfl⟩

/-- Settles O16: each operation refuses by its first check; PROTOCOL then leaves what `Ended.of_protocol` says. -/
theorem refusedOutsideLifecycle : Obligations.RefusedOutsideLifecycle := by
  intro s i op h
  have held : ∀ c, s.slot i.ctx = some (.held c) →
      i.selectedBy ⟨c.mode, c.dir⟩ = true ∧ OutsideLifecycle (opOf i) c := by
    intro c hc
    obtain ⟨c', hc', hsel, hop⟩ | ⟨hfree, -⟩ | hnone := h
    · obtain rfl := State.held_unique hc hc'
      exact ⟨hsel, hop⟩
    · rw [hc] at hfree; cases hfree
    · rw [hc] at hnone; cases hnone
  suffices hp : RaisesProtocol (exec i s) by
    obtain ⟨t, ht, hst⟩ := hp
    rw [ht, (exec_ended ht).of_protocol hst]
  cases runs i s with
  | opens m d w ks hop hrun =>
    rw [hrun]
    refine openContext_protocol fun hfree => ?_
    obtain ⟨c, hc, -⟩ | ⟨-, hne⟩ | hnone := h
    · rw [hc] at hfree; cases hfree
    · exact hne hop
    · rw [hnone] at hfree; cases hfree
  | inits R o hop _ hrow hrun =>
    rw [hrun]
    refine runInit_protocol fun c hc => ⟨(hrow _ _).trans (held c hc).1, ?_⟩
    simpa [OutsideLifecycle, hop] using (held c hc).2
  | processes R p l d hop _ hrow hrun =>
    rw [hrun]
    refine runProcess_protocol fun c hc => ⟨(hrow _ _).trans (held c hc).1, ?_⟩
    simpa [OutsideLifecycle, hop] using (held c hc).2
  | last p l d hop hrun =>
    rw [hrun]
    refine runLast_protocol fun c hc => ?_
    simpa [OutsideLifecycle, hop] using (held c hc).2
  | finishes R snk hop _ hrow hrun =>
    rw [hrun]
    refine runFinish_protocol fun c hc => ⟨(hrow _ _).trans (held c hc).1, ?_⟩
    simpa [OutsideLifecycle, hop] using (held c hc).2
  | destroys hop hrun =>
    rw [hrun]
    refine execDestroy_protocol fun c hc => ?_
    simpa [OutsideLifecycle, hop] using (held c hc).2

end Sys2Proof.Machine
end

section
/-! R132, R221, R228: FINISH of the row of a context, and the last bytes and the tag of GCM and GMAC encryption. -/

namespace Sys2Proof.Machine

/-- R132: how a FINISH of the context `c` that passed its checks with `out_len` = `n` ends, by what its body answers. -/
def finishAnswer (s : State) (k : BitVec 8) (c : ModeContext) (snk : SinkOperand) (n : Nat) :
    Run (Session × Bytes) → Host.Outcome State Fault Refusal
  | .error e => s.stop k c (.sink snk) n e
  | .ok (x, out) => .next (s.complete k ((c.withSess x).withState .closed) (.sink snk) out)

theorem runFinish_checked {P : Params} {R : FinishRule} {k : BitVec 8} {snk : SinkOperand} {s : State}
    {c : ModeContext} {n : Nat} (hc : s.slot k = some (.held c)) (hsel : R.sel c.mode c.dir = true)
    (hn : finishChecks P c snk = .ok n) :
    runFinish P R k snk s = finishAnswer s k c snk n (R.body (P.cipher c.ks) c) := by
  rw [runFinish, State.onContext_held hc hsel]
  simp only [hn]
  cases R.body (P.cipher c.ks) c <;> rfl

/-- R142: `out_len` of FINISH in the two encrypting modes with a tag. -/
theorem outLenFinish_enc {c : ModeContext} {r : Bytes} {g : Nat} (hd : c.dir = .enc)
    (hr : c.sess.remainder = some r) (hg : c.sess.tagLen = some g) :
    (c.mode = .gcm → outLenFinish c = .ok (r.length + g)) ∧ (c.mode = .gmac → outLenFinish c = .ok g) := by
  constructor <;> intro hm <;> simp [outLenFinish, hm, hd, remainderLen_some hr, tagLen_some hg]

/-- R221: FINISH of encryption on a context that holds what it reads. -/
theorem gcmFinishEnc_some {K : Cipher} {c : ModeContext} {H : Bytes} {g : Nat} {a : GcmAcc} (r : Bytes)
    (hH : c.sess.H = some H) (ha : gcmAcc c = .ok a) (hg : c.sess.tagLen = some g) :
    gcmFinishEnc K c r = (do
      let (b, Y) ← gcmEncPartial K H a r
      let (x, T) ← gcmTag K H c.sess b
      .ok (x, Y ++ T.take g)) := by
  rw [gcmFinishEnc, hH, need_some, Run.pure_bind, ha, Run.pure_bind, tagLen_some hg, Run.pure_bind]

/-- R220: with no bytes left `E` is not called. -/
theorem gcmEncPartial_nil (K : Cipher) (H : Bytes) (a : GcmAcc) : gcmEncPartial K H a [] = .ok (a, []) := rfl

/-- R220, R221: the last block, under the next counter. -/
theorem gcmEncPartial_partial {r : Bytes} (K : Cipher) (H : Bytes) (a : GcmAcc) (h : r ≠ []) :
    gcmEncPartial K H a r = (do
      let KS ← cipherEnc K (incLow 32 a.cb)
      let Y := xorBytes r (KS.take r.length)
      .ok (⟨incLow 32 a.cb, ghashAcc H a.ghash (Y ++ zeros (16 - r.length)), a.processed + BitVec.ofNat 64 r.length⟩,
        Y)) := by
  rw [gcmEncPartial, if_neg (by simpa using h)]

/-- R221, R222: the tag of a session that holds what it reads. -/
theorem gcmTag_some {x : Session} {J lens : Bytes} (K : Cipher) (H : Bytes) (b : GcmAcc)
    (hlens : x.lenALenC = some lens) (hJ : x.J0 = some J) :
    gcmTag K H x b = (do
      let M ← cipherEnc K J
      let block := lens.take 8 ++ beBytes 8 (8 * b.processed.toNat)
      let h := ghashAcc H b.ghash block
      .ok ({ x.withAcc { b with ghash := h } with lenALenC := some block }, xorBytes h M)) := by
  rw [gcmTag, hlens, need_some, Run.pure_bind, hJ, need_some, Run.pure_bind]

/-- Settles O33: the checks of R132 pass; then the last block, if any, and the tag, each with its call of `E`. -/
theorem finishTagResult : Obligations.FinishTagResult := by
  intro s k snk c r H J lens g a hc hd hst hr hH hJ hlens hg hcb hgh hp hsink E finish
  have ha : gcmAcc c = .ok a := gcmAcc_ok.mpr ⟨hcb, hgh, hp⟩
  obtain ⟨hgcm, hgmac⟩ := outLenFinish_enc hd hr hg
  have tag : ∀ (n : Nat) (b : GcmAcc) (Y : Bytes), finishAnswer s k c snk n (do
      let (x, T) ← gcmTag (Config.params.cipher c.ks) H c.sess b
      .ok (x, Y ++ T.take g)) = .next (finish n b Y) := by
    intro n b Y
    rw [gcmTag_some _ H b hlens hJ]
    simp only [finish, E]
    cases hM : cipherEnc (Config.params.cipher c.ks) J with
    | error e =>
      obtain rfl := cipherEnc_error hM
      rfl
    | ok M =>
      simp only [Run.pure_bind, finishAnswer, Session.withAcc, ModeContext.withSess, ModeContext.withState]
  refine ⟨fun hm hfits => ?_, fun hm hfits => ?_⟩
  · have hn := finishChecks_ok.mpr ⟨hst, hsink, hgcm hm, hfits⟩
    have hbody : finishGcmEncRule.body (Config.params.cipher c.ks) c =
        gcmFinishEnc (Config.params.cipher c.ks) c r := by
      simp [finishGcmEncRule, finishGcmEncBody, hr]
    refine (runFinish_checked hc (by simp [finishGcmEncRule, hm, hd]) hn).trans ?_
    rw [hbody, gcmFinishEnc_some r hH ha hg]
    by_cases hnil : r = []
    · rw [if_pos hnil, hnil, gcmEncPartial_nil]
      exact tag _ a []
    · rw [if_neg hnil, gcmEncPartial_partial _ H a hnil]
      simp only [E]
      cases hKS : cipherEnc (Config.params.cipher c.ks) (incLow 32 a.cb) with
      | error e =>
        obtain rfl := cipherEnc_error hKS
        rfl
      | ok KS => exact tag _ _ _
  · have hn := finishChecks_ok.mpr ⟨hst, hsink, hgmac hm, hfits⟩
    have hbody : finishGmacEncRule.body (Config.params.cipher c.ks) c =
      gcmFinishEnc (Config.params.cipher c.ks) c [] := rfl
    refine (runFinish_checked hc (by simp [finishGmacEncRule, hm, hd]) hn).trans ?_
    rw [hbody, gcmFinishEnc_some [] hH ha hg, gcmEncPartial_nil]
    exact tag g a []

end Sys2Proof.Machine
end

section
/-! R142: on a ready context FINISH and PROCESS_LAST that end in OK write exactly `out_len` bytes. -/

namespace Sys2Proof.Machine

/-! The last block and the tag. -/

/-- R220: `E` of a block of 16 bytes covers a partial block. -/
theorem xorBytes_take_length {K : Cipher} {X KS r : Bytes} (hX : X.length = 16) (hr : r.length ≤ 16)
    (h : cipherEnc K X = .ok KS) : (xorBytes r (KS.take r.length)).length = r.length := by
  have hKS := cipherEnc_length h
  rw [xorBytes_length, List.length_take]
  omega

theorem gcmEncPartial_length {K : Cipher} {H : Bytes} {a a' : GcmAcc} {r Y : Bytes} (hcb : a.cb.length = 16)
    (hr : r.length ≤ 16) (h : gcmEncPartial K H a r = .ok (a', Y)) : Y.length = r.length := by
  unfold gcmEncPartial at h
  split at h
  · next hnil =>
    cases h
    simp [List.isEmpty_iff.mp hnil]
  · obtain ⟨KS, hKS, h⟩ := Run.bind_ok.mp h
    cases h
    exact xorBytes_take_length (by simpa using hcb) hr hKS

theorem gcmDecPartial_length {K : Cipher} {H : Bytes} {a a' : GcmAcc} {r P : Bytes} (hcb : a.cb.length = 16)
    (hr : r.length ≤ 16) (h : gcmDecPartial K H a r = .ok (a', P)) : P.length = r.length := by
  unfold gcmDecPartial at h
  split at h
  · next hnil =>
    cases h
    simp [List.isEmpty_iff.mp hnil]
  · obtain ⟨KS, hKS, h⟩ := Run.bind_ok.mp h
    cases h
    exact xorBytes_take_length (by simpa using hcb) hr hKS

/-- R221: the tag before it is cut is one block. -/
theorem gcmTag_length {K : Cipher} {H T J : Bytes} {x y : Session} {a : GcmAcc} (hJ : x.J0 = some J)
    (hJ16 : J.length = 16) (h : gcmTag K H x a = .ok (y, T)) : T.length = 16 := by
  obtain ⟨l, J', M, -, hJ', hM, -, hT⟩ := gcmTag_ok h
  rw [hJ] at hJ'
  cases hJ'
  have hlen := cipherEnc_length hM
  rw [hT, xorBytes_length, ghashAcc_length, hlen, hJ16, Nat.min_self]

/-- R28, R35: the counters of a GCM or GMAC context are one block. -/
theorem GcmFields.counter_length {c : ModeContext} {g p : Nat} {a : GcmAcc} (h : GcmFields c.sess g p)
    (ha : gcmAcc c = .ok a) : a.cb.length = 16 ∧ ∃ J, c.sess.J0 = some J ∧ J.length = 16 := by
  obtain ⟨J, hJ, hJ16, hcb⟩ := h.counter
  obtain ⟨hcb', -, -⟩ := gcmAcc_ok.mp ha
  rw [hcb] at hcb'
  exact ⟨by simpa [← Option.some.inj hcb'] using hJ16, J, hJ, hJ16⟩

theorem gcmFinishEnc_length {K : Cipher} {c : ModeContext} {g p : Nat} {r out : Bytes} {x : Session}
    (hg : GcmFields c.sess g p) (hr : r.length ≤ 16) (h : gcmFinishEnc K c r = .ok (x, out)) :
    out.length = r.length + g := by
  obtain ⟨H, a, g', a', Y, T, -, ha, hg', hY, hT, rfl⟩ := gcmFinishEnc_ok h
  rw [hg.tagLen] at hg'
  cases hg'
  obtain ⟨hcb, J, hJ, hJ16⟩ := hg.counter_length ha
  have htag := tagLens_le hg.tagLegal
  rw [List.length_append, List.length_take, gcmEncPartial_length hcb hr hY, gcmTag_length hJ hJ16 hT]
  omega

theorem gcmFinishDec_length {K : Cipher} {c : ModeContext} {g p : Nat} {r t out : Bytes} {x : Session}
    (hg : GcmFields c.sess g p) (hr : r.length ≤ 16) (h : gcmFinishDec K c r t = .ok (x, out)) :
    out.length = r.length := by
  obtain ⟨H, a, g', a', T, -, ha, -, hP, -, -⟩ := gcmFinishDec_ok h
  exact gcmDecPartial_length (hg.counter_length ha).1 hr hP

/-! FINISH. -/

/-- R142: FINISH on a ready context, all seven rows. -/
theorem finishBody_ready_length {C : Cipher} {c : ModeContext} {x : Session} {out : Bytes} (h : ReadyContext c)
    (hb : (finishRuleOf c.mode c.dir).body C c = .ok (x, out)) : outLenFinish c = .ok out.length := by
  have whole : (do
      let r ← remainderLen c
      check (r == 0) .lengthRange
      .ok (c.sess, []) : Run (Session × Bytes)) = .ok (x, out) → out = [] := by
    intro h
    obtain ⟨_, -, h⟩ := Run.bind_ok.mp h
    obtain ⟨_, -, h⟩ := Run.bind_ok.mp h
    cases h
    rfl
  obtain ⟨-, h⟩ := h
  cases hm : c.mode with
  | ecb =>
    rw [hm] at hb
    rw [outLenFinish, hm, whole hb]
    rfl
  | cbc =>
    rw [hm] at hb
    rw [outLenFinish, hm, whole hb]
    rfl
  | ctr =>
    rw [hm] at h hb
    obtain ⟨⟨r, hr, hrl⟩, ⟨cb, hcb, hcbl⟩, -⟩ := h
    have hb : finishCtrBody C c = .ok (x, out) := hb
    simp only [outLenFinish, hm, remainderLen_some hr]
    simp only [finishCtrBody, hr, need_some, Run.pure_bind] at hb
    split at hb
    · next hnil =>
      cases hb
      simp [List.isEmpty_iff.mp hnil]
    · rw [hcb, need_some, Run.pure_bind] at hb
      obtain ⟨KS, hKS, hb⟩ := Run.bind_ok.mp hb
      cases hb
      have := cipherEnc_length hKS
      simp
      omega
  | gcm =>
    rw [hm] at h hb
    obtain ⟨-, g, p, hg, h⟩ := h
    cases hd : c.dir with
    | enc =>
      rw [hd] at h hb
      obtain ⟨-, r, hr, hrl, -⟩ := h
      obtain ⟨r', hr', hb⟩ := Run.bind_ok.mp hb
      rw [hr] at hr'
      cases hr'
      simp only [outLenFinish, hm, hd, remainderLen_some hr, tagLen_some hg.tagLen, Run.pure_bind,
        gcmFinishEnc_length hg hrl.le hb]
    | dec =>
      rw [hd] at h hb
      obtain ⟨-, la, hla, hlal, -⟩ := h
      have hb : finishGcmDecBody C c = .ok (x, out) := hb
      rw [finishGcmDecBody, hla, need_some, Run.pure_bind, tagLen_some hg.tagLen, Run.pure_bind] at hb
      obtain ⟨_, hge, hb⟩ := Run.bind_ok.mp hb
      have hge : g ≤ la.length := by simpa using hge
      have hlen := gcmFinishDec_length hg (by rw [List.length_take]; omega) hb
      rw [List.length_take] at hlen
      simp only [outLenFinish, hm, hd, laLen_some hla, tagLen_some hg.tagLen, Run.pure_bind, if_pos hge, hlen,
        Nat.min_eq_left (Nat.sub_le _ _)]
  | gmac =>
    rw [hm] at h hb
    obtain ⟨-, g, p, hg, -, -, h⟩ := h
    cases hd : c.dir with
    | enc =>
      rw [hd] at hb
      have hlen := gcmFinishEnc_length hg (r := []) (Nat.zero_le _) hb
      simp only [outLenFinish, hm, hd, tagLen_some hg.tagLen, hlen, List.length_nil, Nat.zero_add]
    | dec =>
      have hle := finishBody_le (c := c) (by rw [hm]; exact hb)
      simp only [outLenFinish, hm, hd, countOf] at hle ⊢
      rw [Nat.le_zero.mp hle]

/-! PROCESS_LAST. -/

/-- R131: what CTR leaves in the remainder. -/
theorem ctrBody_remainder {C : Cipher} {c : ModeContext} {r data out : Bytes} {x : Session}
    (hr : c.sess.remainder = some r) (h : ctrBody C c data = .ok (x, out)) :
    x.remainder = some ((r ++ data).drop ((r ++ data).length / c.blockSize * c.blockSize)) := by
  obtain ⟨cb, -, h⟩ := Run.bind_ok.mp h
  obtain ⟨n, -, h⟩ := Run.bind_ok.mp h
  rw [assemble_some _ _ hr, Run.pure_bind] at h
  obtain ⟨⟨cb', Ys⟩, -, h⟩ := Run.bind_ok.mp h
  cases h
  rfl

/-- R131: what GCM encryption leaves in the remainder. -/
theorem gcmEncBody_remainder {C : Cipher} {c : ModeContext} {r data out : Bytes} {x : Session}
    (hr : c.sess.remainder = some r) (h : gcmEncBody C c data = .ok (x, out)) :
    x.remainder = some ((r ++ data).drop ((r ++ data).length / 16 * 16)) := by
  obtain ⟨H, -, h⟩ := Run.bind_ok.mp h
  obtain ⟨a, -, h⟩ := Run.bind_ok.mp h
  rw [assemble_some _ _ hr, Run.pure_bind] at h
  obtain ⟨⟨a', Ys⟩, -, h⟩ := Run.bind_ok.mp h
  cases h
  rfl

theorem length_drop_blocks (bs : Nat) (r data : Bytes) :
    bs * ((r.length + data.length) / bs) + ((r ++ data).drop ((r ++ data).length / bs * bs)).length =
      r.length + data.length := by
  have := Nat.div_mul_le_self (r.length + data.length) bs
  rw [List.length_drop, List.length_append, Nat.mul_comm bs]
  omega

/-- R133, R142: once the length check of PROCESS_LAST has passed, its `out_len` is that of PROCESS and then of
FINISH. -/
theorem outLenLast_eq {C : Cipher} {c : ModeContext} {data out : Bytes} {x : Session} (h : ReadyContext c)
    (hL : lastLengthOk c data.length = .ok true)
    (hb : (processRuleOf c.mode c.dir).body C c data = .ok (x, out)) :
    countOf (outLenLast c data.length) =
      countOf (outLenProcess c data.length) + countOf (outLenFinish (c.withSess x)) := by
  obtain ⟨r, hr⟩ := h.remainder
  obtain ⟨hfix, -⟩ := processBody_fixed hb
  have blocks : c.mode = .ecb ∨ c.mode = .cbc → countOf (outLenLast c data.length) =
      countOf (outLenProcess c data.length) + countOf (outLenFinish (c.withSess x)) := by
    intro hm
    have hw : (r.length + data.length) % c.blockSize = 0 := by
      rcases hm with hm | hm <;> simpa [lastLengthOk, hm, remainderLen_some hr] using hL
    have := Nat.div_add_mod (r.length + data.length) c.blockSize
    rcases hm with hm | hm <;>
      simp only [outLenLast, outLenProcess, outLenFinish, hm, ModeContext.withSess_mode, remainderLen_some hr,
        Run.pure_bind, countOf] <;> omega
  obtain ⟨-, h⟩ := h
  cases hm : c.mode with
  | ecb => exact blocks (.inl hm)
  | cbc => exact blocks (.inr hm)
  | ctr =>
    have hx := ctrBody_remainder hr (by rw [hm] at hb; exact hb)
    simp only [outLenLast, outLenProcess, outLenFinish, hm, ModeContext.withSess_mode, remainderLen_some hr,
      remainderLen_some (c := c.withSess x) hx, Run.pure_bind, countOf]
    exact (length_drop_blocks _ _ _).symm
  | gcm =>
    rw [hm] at h
    obtain ⟨-, g, p, hg, h⟩ := h
    have htag : tagLen (c.withSess x) = .ok g := tagLen_some (hfix.tagLen.trans hg.tagLen)
    cases hd : c.dir with
    | enc =>
      have hx := gcmEncBody_remainder hr (by rw [hm, hd] at hb; exact hb)
      have hsum := length_drop_blocks 16 r data
      simp only [outLenLast, outLenProcess, outLenFinish, hm, hd, ModeContext.withSess_mode, ModeContext.withSess_dir,
        remainderLen_some hr, remainderLen_some (c := c.withSess x) hx, tagLen_some hg.tagLen, htag, Run.pure_bind,
        countOf]
      omega
    | dec =>
      rw [hd] at h
      obtain ⟨-, la, hla, -⟩ := h
      obtain ⟨q, hq, -⟩ := hg.processed
      obtain ⟨hge, -⟩ : g ≤ la.length + data.length ∧ q.toNat + (la.length + data.length - g) ≤ gcmDataMax := by
        simpa [lastLengthOk, hm, hd, laLen_some hla, tagLen_some hg.tagLen, processedLen_some hq] using hL
      have hx := gcmDecBody_la hla hg.tagLen (by rw [hm, hd] at hb; exact hb)
      obtain ⟨hle, -, hkeep⟩ := releasedBlocks_bounds (la.length + data.length) g
      have hkeep := hkeep hge
      have hrest : ((la ++ data).drop (16 * releasedBlocks (la ++ data).length g)).length =
          la.length + data.length - 16 * releasedBlocks (la.length + data.length) g := by
        rw [List.length_drop, List.length_append]
      simp only [outLenLast, outLenProcess, outLenFinish, hm, hd, ModeContext.withSess_mode, ModeContext.withSess_dir,
        laLen_some hla, laLen_some (c := c.withSess x) hx, tagLen_some hg.tagLen, htag, Run.pure_bind, countOf, hrest,
        if_pos hge]
      rw [if_pos (by omega)]
      omega
  | gmac =>
    have htag : tagLen (c.withSess x) = tagLen c := congrArg (need .tagLen) hfix.tagLen
    cases hd : c.dir <;>
      simp [outLenLast, outLenProcess, outLenFinish, hm, hd, countOf, htag]

/-- R133, R142: PROCESS_LAST on a ready context whose length check passed. -/
theorem lastBody_ready_length {C : Cipher} {c : ModeContext} {data out : Bytes} {y : Session} (h : ReadyContext c)
    (hL : lastLengthOk c data.length = .ok true)
    (hb : lastBody (processRuleOf c.mode c.dir) (finishRuleOf c.mode c.dir) C c data = .ok (y, out)) :
    out.length = countOf (outLenLast c data.length) := by
  obtain ⟨x, o1, o2, hx, hy, rfl⟩ := lastBody_ok hb
  obtain ⟨hready, h1⟩ := processBody_ready_ok h (lengthOk_of_last hL) hx
  have h2 : outLenFinish (c.withSess x) = .ok o2.length := finishBody_ready_length hready hy
  rw [outLenLast_eq h hL hx, h1, h2, List.length_append]
  rfl

/-- R133, R284: an AUTH_FAIL of PROCESS_LAST writes what its PROCESS part released. -/
theorem lastBody_ready_authFail {C : Cipher} {c : ModeContext} {data out : Bytes} {y : Session} (h : ReadyContext c)
    (hL : lastLengthOk c data.length = .ok true)
    (hb : lastBody (processRuleOf c.mode c.dir) (finishRuleOf c.mode c.dir) C c data =
      .error (.raise (.authFail y out))) : out.length = countOf (outLenProcess c data.length) := by
  obtain hx | ⟨x, o1, hx, ⟨z, o, hy, he⟩ | ⟨-, hne⟩⟩ := lastBody_error hb
  · cases processBody_ready_stops data h _ hx
  · obtain ⟨-, h1⟩ := processBody_ready_ok h (lengthOk_of_last hL) hx
    cases finishBody_stops _ hy
    cases he
    rw [h1, List.append_nil]
    rfl
  · exact absurd rfl (hne y out)

end Sys2Proof.Machine
end

section
/-! R41, R99, R281: the result registers count the bytes a command wrote, unless it ended in CIPHER. -/

namespace Sys2Proof.Machine

/-- R99, R142, R281, R284, R293: from `s` the instruction ended in `t` with `m` bytes written. -/
structure Counted (i : Instr) (s t : State) (m : Nat) : Prop where
  outLen : t.outLen = outLenReg s.freeIx m
  sinkOff : t.sinkOff = sinkOffReg s.freeIx ((outputTarget i).offAfter m)
  error : t.status ≠ 0 ∧ t.status ≠ 3 → m = 0 ∧ t.mem = s.mem
  finishFail : t.status = 3 ∧ opOf i = 5 → m = 0 ∧ t.mem = s.mem
  lastFail : ∀ k p l d c, i = .processLast k p l d → t.status = 3 → s.slot k = some (.held c) → LegalContext c →
    m = countOf (outLenProcess c l.toNat)
  success : ∀ c, t.status = 0 → s.slot i.ctx = some (.held c) → LegalContext c → m = outLenOf c i

theorem opOf_processLast_ne (k : BitVec 8) (p : Addr) (l : Len) (d : Dest) : opOf (.processLast k p l d) ≠ 5 := by
  rw [opOf_eq (op := 4) rfl rfl]
  decide

theorem Target.offAfter_zero (tg : Target) : tg.offAfter 0 = tg.passedOff := by
  cases tg <;> rfl

section

variable {i : Instr} {s : State} {k : BitVec 8} {c : ModeContext}

/-- R282, R283, R286, R287: an error that writes nothing. -/
theorem Counted.silent {s' : State} {st : Status} (h0 : st.code ≠ 0) (h3 : st.code ≠ 3) (hix : s'.freeIx = s.freeIx)
    (hmem : s'.mem = s.mem) : Counted i s (s'.report st 0 (outputTarget i).passedOff) 0 where
  outLen := by rw [State.report_outLen, hix]
  sinkOff := by rw [State.report_sinkOff, hix, Target.offAfter_zero]
  error _ := ⟨rfl, hmem⟩
  finishFail h := absurd h.1 h3
  lastFail _ _ _ _ _ _ h := absurd h h3
  success _ h := absurd h h0

/-- R290: every error but AUTH_FAIL and CIPHER writes nothing. -/
theorem Counted.raise {n : Nat} {e : Raise} (hna : ∀ x out, e ≠ .authFail x out)
    (h6 : (s.raise k c (outputTarget i) n e).status ≠ 6) : Counted i s (s.raise k c (outputTarget i) n e) 0 := by
  cases e with
  | protocol => exact .silent (by decide) (by decide) rfl rfl
  | config => exact .silent (by decide) (by decide) rfl rfl
  | bufferTooSmall => exact .silent (by decide) (by decide) rfl rfl
  | lengthRange => exact .silent (by decide) (by decide) rfl rfl
  | cipher => exact absurd rfl h6
  | authFail x out => exact absurd rfl (hna x out)

/-- R284: AUTH_FAIL counts the bytes it writes all the same: none from FINISH, the released ones from PROCESS_LAST. -/
theorem Counted.authFail {x : Session} {out : Bytes} {n : Nat} (hfin : opOf i = 5 → out = [])
    (hlast : ∀ k p l d c, i = .processLast k p l d → s.slot k = some (.held c) → LegalContext c →
      out.length = countOf (outLenProcess c l.toNat)) :
    Counted i s (s.raise k c (outputTarget i) n (.authFail x out)) out.length where
  outLen := rfl
  sinkOff := rfl
  error h := absurd rfl h.2
  finishFail h := by
    obtain rfl := hfin h.2
    exact ⟨rfl, Target.emit_nil _ _⟩
  lastFail k p l d c hi _ hc hl := hlast k p l d c hi hc hl
  success _ h := absurd h (State.raise_status_ne_ok _ _ _ _ _ _)

/-- R99: success counts its output. -/
theorem Counted.complete {out : Bytes}
    (h : ∀ c, s.slot i.ctx = some (.held c) → LegalContext c → out.length = outLenOf c i) :
    Counted i s (s.complete k c (outputTarget i) out) out.length where
  outLen := rfl
  sinkOff := rfl
  error h := absurd rfl h.1
  finishFail h := absurd h.1 (by simp)
  lastFail _ _ _ _ _ _ h := absurd h (by simp)
  success c _ hc hl := h c hc hl

theorem Counted.refuse {off : Addr} (h : (outputTarget i).passedOff = off.toNat) : Counted i s (s.refuse off) 0 := by
  rw [State.refuse, ← h]
  exact .silent (by decide) (by decide) rfl rfl

/-! The shared operations. -/

variable {t : State}

theorem openContext_counted {P : Params} {m : Mode} {d : Dir} {w : Bool} {ks : Addr} (ht : outputTarget i = .nowhere)
    (hl : ∀ c, outLenOf c i = 0) (h : openContext P m k d w ks s = .next t) : ∃ m, Counted i s t m := by
  obtain ⟨-, rfl⟩ | ⟨-, rfl⟩ := openContext_next h
  · exact ⟨0, .refuse (by rw [ht]; rfl)⟩
  · rw [← ht]
    exact ⟨_, .complete fun c _ _ => (hl c).symm⟩

theorem runInit_counted {P : Params} {R : InitRule} {o : InitOperands} (ht : outputTarget i = .nowhere)
    (hl : ∀ c, outLenOf c i = 0)
    (hR : R = initEcbRule ∨ R = initCbcRule ∨ R = initCtrRule ∨ R = initGcmRule ∨ R = initGmacRule)
    (h : runInit P R k o s = .next t) (h6 : t.status ≠ 6) : ∃ m, Counted i s t m := by
  obtain ⟨-, rfl⟩ | ⟨c, -, -, ⟨e, he, rfl⟩ | ⟨x, -, rfl⟩⟩ := runInit_next h
  · exact ⟨0, .refuse (by rw [ht]; rfl)⟩
  · rw [← ht] at h6 ⊢
    refine ⟨0, .raise ?_ h6⟩
    rintro y out rfl
    cases initSession_stops hR _ he
  · rw [← ht]
    exact ⟨_, .complete fun c _ _ => (hl c).symm⟩

theorem runProcess_counted {P : Params} {R : ProcessRule} {p : Addr} {l : Len} {d : Dest}
    (ht : outputTarget i = targetOf p d) (hl : ∀ c, outLenOf c i = countOf (outLenProcess c l.toNat))
    (hR : ∀ {m d}, R.sel m d = true → R = processRuleOf m d) (h : runProcess P R i.ctx p l d s = .next t)
    (h6 : t.status ≠ 6) : ∃ m, Counted i s t m := by
  obtain ⟨-, rfl⟩ | ⟨c, hc, hsel, hend⟩ := runProcess_next h
  · exact ⟨0, .refuse (by rw [ht, targetOf_passedOff])⟩
  · rw [hR hsel, ← ht] at hend
    obtain ⟨e, he, rfl⟩ | ⟨n, hn, ⟨e, he, rfl⟩ | ⟨x, out, hx, rfl⟩⟩ := hend
    · refine ⟨0, .raise (fun x out hx => ?_) h6⟩
      have hstop := processChecks_stops (outLenProcess_stops _ _) (lengthOk_stops _ _ _ _) _ he
      exact hstop.ne_authFail x out (congrArg Stop.raise hx)
    · refine ⟨0, .raise (fun x out hx => ?_) h6⟩
      obtain h | ⟨f, h⟩ := processBody_stops _ he <;> cases h
      cases hx
    · refine ⟨_, .complete fun c' hc' hlegal => ?_⟩
      obtain rfl := State.held_unique hc hc'
      obtain ⟨hst, -, -, -, hlen⟩ := processChecks_ok.mp hn
      rw [← Memory.readBytes_length s.mem p.toNat l.toNat] at hlen
      obtain ⟨-, hout⟩ := processBody_ready_ok (hlegal.ready hst) hlen hx
      rw [Memory.readBytes_length] at hout
      rw [hl, hout]
      rfl

theorem runFinish_counted {P : Params} {R : FinishRule} {snk : SinkOperand} (hop : opOf i = 5)
    (ht : outputTarget i = .sink snk) (hl : ∀ c, outLenOf c i = countOf (outLenFinish c))
    (hR : ∀ {m d}, R.sel m d = true → R = finishRuleOf m d) (h : runFinish P R i.ctx snk s = .next t)
    (h6 : t.status ≠ 6) : ∃ m, Counted i s t m := by
  obtain ⟨-, rfl⟩ | ⟨c, hc, hsel, hend⟩ := runFinish_next h
  · exact ⟨0, .refuse (by rw [ht]; rfl)⟩
  · rw [hR hsel, ← ht] at hend
    obtain ⟨e, he, rfl⟩ | ⟨n, hn, ⟨e, he, rfl⟩ | ⟨x, out, hx, rfl⟩⟩ := hend
    · exact ⟨0, .raise (fun x out hx => (finishChecks_stops _ he).ne_authFail x out (congrArg Stop.raise hx)) h6⟩
    · cases finishBody_stops _ he with
      | cipher => exact ⟨0, .raise (fun _ _ h => by cases h) h6⟩
      | lengthRange => exact ⟨0, .raise (fun _ _ h => by cases h) h6⟩
      | authFail y =>
        refine ⟨_, .authFail (fun _ => rfl) ?_⟩
        rintro k p l d c rfl
        exact absurd hop (opOf_processLast_ne k p l d)
    · refine ⟨_, .complete fun c' hc' hlegal => ?_⟩
      obtain rfl := State.held_unique hc hc'
      rw [hl, finishBody_ready_length (hlegal.ready (finishChecks_ok.mp hn).1) hx]
      rfl

theorem runLast_counted {p : Addr} {l : Len} {d : Dest} (h : execProcessLast k p l d s = .next t)
    (h6 : t.status ≠ 6) : ∃ m, Counted (.processLast k p l d) s t m := by
  obtain ⟨-, rfl⟩ | ⟨c, hc, hend⟩ := runLast_next h
  · exact ⟨0, .refuse (targetOf_passedOff p d)⟩
  · obtain ⟨e, he, rfl⟩ | ⟨n, hn, hend⟩ := hend
    · refine ⟨0, .raise (i := .processLast k p l d) (fun x out hx => ?_) h6⟩
      have hstop := processChecks_stops (outLenLast_stops _ _) (lastLengthOk_stops _ _) _ he
      exact hstop.ne_authFail x out (congrArg Stop.raise hx)
    · obtain ⟨hst, -, -, -, hlen⟩ := processChecks_ok.mp hn
      rw [← Memory.readBytes_length s.mem p.toNat l.toNat] at hlen
      obtain ⟨e, he, rfl⟩ | ⟨x, out, hx, rfl⟩ := hend
      · by_cases hauth : ∃ x out, e = .authFail x out
        · obtain ⟨x, out, rfl⟩ := hauth
          refine ⟨_, .authFail (i := .processLast k p l d) (fun hop => absurd hop (opOf_processLast_ne k p l d)) ?_⟩
          rintro _ _ _ _ c' ⟨⟩ hc' hlegal
          obtain rfl := State.held_unique hc hc'
          rw [lastBody_ready_authFail (hlegal.ready hst) hlen he, Memory.readBytes_length]
        · exact ⟨0, .raise (i := .processLast k p l d) (fun x out hx => hauth ⟨x, out, hx⟩) h6⟩
      · refine ⟨_, .complete (i := .processLast k p l d) fun c' hc' hlegal => ?_⟩
        obtain rfl := State.held_unique hc hc'
        rw [lastBody_ready_length (hlegal.ready hst) hlen hx, Memory.readBytes_length]
        rfl

theorem execDestroy_counted (ht : outputTarget i = .nowhere) (hl : ∀ c, outLenOf c i = 0)
    (h : execDestroy k s = .next t) : ∃ m, Counted i s t m := by
  obtain ⟨-, rfl⟩ | ⟨c, -, rfl⟩ := execDestroy_next h
  · exact ⟨0, .refuse (by rw [ht]; rfl)⟩
  · have hix : (if c.ksOwned then s.release c.ks else s).freeIx = s.freeIx := by split <;> rfl
    exact ⟨0, {
      outLen := by rw [State.report_outLen, State.setSlot_freeIx, hix]
      sinkOff := by rw [State.report_sinkOff, State.setSlot_freeIx, hix, ht]; rfl
      error := fun h => absurd rfl h.1
      finishFail := fun h => absurd h.1 (by simp [Status.code])
      lastFail := fun _ _ _ _ _ _ h => absurd h (by simp [Status.code])
      success := fun c _ _ _ => (hl c).symm }⟩

end

/-- R99: every instruction that answers a next state and does not end in CIPHER. -/
theorem exec_counted {i : Instr} {s t : State} (h : exec i s = .next t) (h6 : t.status ≠ 6) :
    ∃ m, Counted i s t m := by
  cases i with
  | openEcb | openCbc | openCtr | openGcm | openGmac => exact openContext_counted rfl (fun _ => rfl) h
  | initEcb | initCbc | initCtr | initGcm | initGmac =>
    exact runInit_counted rfl (fun _ => rfl) (by simp) h h6
  | processEcbEnc | processEcbDec | processCbcEnc | processCbcDec | processCtr | processGcmEnc | processGcmDec
  | processGmacEnc | processGmacDec =>
    exact runProcess_counted rfl (fun _ => rfl) (processRule_selected (by simp)) h h6
  | processLast => exact runLast_counted h h6
  | finishEcb | finishCbc | finishCtr | finishGcmEnc | finishGcmDec | finishGmacEnc | finishGmacDec =>
    exact runFinish_counted (opOf_eq rfl rfl) rfl (fun _ => rfl) (finishRule_selected (by simp)) h h6
  | destroy => exact execDestroy_counted rfl (fun _ => rfl) h

/-- Settles O53: the count that `exec_counted` finds, field by field. -/
theorem resultRegisters : Obligations.ResultRegisters := by
  intro s t i h h6
  obtain ⟨m, hm⟩ := exec_counted h h6
  exact ⟨m, hm.outLen, hm.sinkOff, hm.error, hm.finishFail, hm.lastFail, hm.success⟩

end Sys2Proof.Machine
end

section
/-! R126 to R128, R134: the INIT rows of ECB, CBC and CTR, and DESTROY. -/

namespace Sys2Proof.Machine

/-- R282: the block sizes that INIT refuses. -/
theorem blockSizeOk_eq_false {c : ModeContext} :
    blockSizeOk c = false ↔ c.blockSize ≠ 8 ∧ c.blockSize ≠ 16 := by
  simp [blockSizeOk]

/-- R282: what a decrypting ECB or CBC context lacks. -/
theorem decryptOk_eq_false {C : Cipher} {c : ModeContext} :
    decryptOk C c = false ↔ c.dir = .dec ∧ C.hasD = false := by
  cases hd : c.dir <;> simp [decryptOk, hd]

/-- Settles O10: the checks of R126 one after the other, then the body. -/
theorem initEcbResult : Obligations.InitEcbResult := by
  refine ⟨fun s k o c hc hm => ?_, fun _ => rfl⟩
  refine (runInit_held (R := initEcbRule) hc (by simp [initEcbRule, hm])).trans ?_
  refine initAnswer_check (by simp) ?_
  refine initAnswer_check blockSizeOk_eq_false ?_
  exact initAnswer_check decryptOk_eq_false rfl

/-- Settles O11: the checks of R127 one after the other, then the body. -/
theorem initCbcResult : Obligations.InitCbcResult := by
  intro s k o c hc hm
  refine (runInit_held (R := initCbcRule) hc (by simp [initCbcRule, hm])).trans ?_
  refine initAnswer_check (by simp) ?_
  refine initAnswer_check rangeFits_eq_false ?_
  refine initAnswer_check blockSizeOk_eq_false ?_
  refine initAnswer_check decryptOk_eq_false ?_
  exact initAnswer_check (by simp) rfl

/-- Settles O12: the checks of R128 one after the other, then the body. -/
theorem initCtrResult : Obligations.InitCtrResult := by
  intro s k o c hc hm
  refine (runInit_held (R := initCtrRule) hc (by simp [initCtrRule, hm])).trans ?_
  refine initAnswer_check (by simp) ?_
  refine initAnswer_check rangeFits_eq_false ?_
  refine initAnswer_check blockSizeOk_eq_false ?_
  refine initAnswer_check (by simp) ?_
  refine initAnswer_check (p := o.ctrBits.toNat < 1 ∨ 8 * c.blockSize < o.ctrBits.toNat) ?_ rfl
  rw [decide_eq_false_iff_not]
  omega

/-- R134: DESTROY of a context, by what it leaves. -/
theorem execDestroy_held {s : State} {k : BitVec 8} {c : ModeContext} (hc : s.slot k = some (.held c)) :
    execDestroy k s = .next (((if c.ksOwned then s.release c.ks else s).setSlot k .free).report .ok 0 0) := by
  rw [execDestroy, hc]

theorem execDestroy_refuse {s : State} {k : BitVec 8} (hc : ∀ c, s.slot k ≠ some (.held c)) :
    execDestroy k s = .next (s.refuse 0) := by
  unfold execDestroy
  split
  · next c h => exact absurd h (hc c)
  · rfl

/-- Settles O15: the slot by the laws of `setSlot`; the release is the one effect that depends on `ks_owned`. -/
theorem destroyResult : Obligations.DestroyResult := by
  refine ⟨fun s k => ⟨fun c hc => ⟨_, execDestroy_held hc, ?_⟩, execDestroy_refuse⟩, rfl⟩
  have hfree : ∀ t : State, t.slot k = s.slot k → (t.setSlot k .free).slot k = some .free :=
    fun t ht => State.slot_setSlot_self t k _ _ (ht.trans hc)
  have hother : ∀ (t : State) (j : BitVec 8), j ≠ k → (t.setSlot k .free).slot j = t.slot j :=
    fun t j hj => State.slot_setSlot_ne t _ hj
  cases c.ksOwned with
  | false => exact ⟨hfree s rfl, hother s, rfl, rfl, rfl, rfl, rfl, rfl⟩
  | true => exact ⟨hfree (s.release c.ks) rfl, hother (s.release c.ks), rfl, rfl, rfl, rfl, rfl, rfl⟩

end Sys2Proof.Machine
end

section
/-! R22, R135, R291: the lifecycle of a context, by the status its command returns. An error closes the context or
leaves the slot as it was; which errors an operation can raise, and from which lifecycle state, is what its checks
decide. -/

namespace Sys2Proof.Machine

/-- R135, R281: which operations raise an error, and on a context of which lifecycle state. -/
def RaisedBy (op : Nat) (l : Lifecycle) : Raise → Prop
  | .protocol => True
  | .config => op = 2 ∧ l = .alloc
  | .bufferTooSmall | .lengthRange => (op = 3 ∨ op = 4 ∨ op = 5) ∧ l = .ready
  | .authFail _ _ => (op = 4 ∨ op = 5) ∧ l = .ready
  | .cipher => (op = 2 ∧ l = .alloc) ∨ ((op = 3 ∨ op = 4 ∨ op = 5) ∧ l = .ready)

/-- R135: which operation succeeds on a context of lifecycle state `l`, and the state it leaves. -/
def SucceedsBy (op : Nat) (l l' : Lifecycle) : Prop :=
  (op = 2 ∧ l = .alloc ∧ l' = .ready) ∨ (op = 3 ∧ l = .ready ∧ l' = .ready) ∨
    ((op = 4 ∨ op = 5) ∧ l = .ready ∧ l' = .closed)

/-- R135: how a command of operation `op` on slot `k` of `s`, which holds `c`, moves that slot. -/
inductive Transition (op : Nat) (s : State) (k : BitVec 8) (c : ModeContext) : State → Prop where
  | refused (off : Addr) : Transition op s k c (s.refuse off)
  | raised (tg : Target) (n : Nat) (e : Raise) (he : RaisedBy op c.state e) :
      Transition op s k c (s.raise k c tg n e)
  | completed (c' : ModeContext) (tg : Target) (out : Bytes) (h : SucceedsBy op c.state c'.state) :
      Transition op s k c (s.complete k c' tg out)
  | destroyed (t : State) (hop : op = 6) (ht : t.slot k = s.slot k) :
      Transition op s k c ((t.setSlot k .free).report .ok 0 0)

/-! The errors of each operation. -/

/-- R126 to R128, R211: outside `alloc` INIT raises PROTOCOL. -/
theorem initSession_raisedBy {P : Params} {R : InitRule} {c : ModeContext} {o : InitOperands} {m : Memory} {e : Raise}
    (hR : R = initEcbRule ∨ R = initCbcRule ∨ R = initCtrRule ∨ R = initGcmRule ∨ R = initGmacRule)
    (h : initSession P R c o m = .error (.raise e)) : RaisedBy 2 c.state e := by
  by_cases ha : c.state = .alloc
  · cases initSession_stops hR _ h with
    | protocol => trivial
    | config => exact ⟨rfl, ha⟩
    | cipher => exact .inl ⟨rfl, ha⟩
  · rw [initSession, check_state_ne ha] at h
    cases h
    trivial

theorem CheckStop.raisedBy {op : Nat} {c : ModeContext} {e : Raise} (h : CheckStop (.raise e))
    (hop : op = 3 ∨ op = 4 ∨ op = 5) (hst : c.state = .ready) : RaisedBy op c.state e := by
  cases h with
  | protocol => trivial
  | bufferTooSmall => exact ⟨hop, hst⟩
  | lengthRange => exact ⟨hop, hst⟩

/-- R129: outside `ready` PROCESS and PROCESS_LAST raise PROTOCOL. -/
theorem processChecks_raisedBy {P : Params} {outLen : Run Nat} {lengthOk : Run Bool} {c : ModeContext} {p : Addr}
    {l : Len} {d : Dest} {e : Raise} {op : Nat} (hop : op = 3 ∨ op = 4) (h1 : outLen.Stops CheckStop)
    (h2 : lengthOk.Stops CheckStop) (h : processChecks P outLen lengthOk c p l d = .error (.raise e)) :
    RaisedBy op c.state e := by
  by_cases hst : c.state = .ready
  · exact (processChecks_stops h1 h2 _ h).raisedBy (by omega) hst
  · rw [processChecks_not_ready p l d hst] at h
    cases h
    trivial

/-- R132: outside `ready` FINISH raises PROTOCOL. -/
theorem finishChecks_raisedBy {P : Params} {c : ModeContext} {snk : SinkOperand} {e : Raise}
    (h : finishChecks P c snk = .error (.raise e)) : RaisedBy 5 c.state e := by
  by_cases hst : c.state = .ready
  · exact (finishChecks_stops _ h).raisedBy (by omega) hst
  · rw [finishChecks, check_state_ne hst] at h
    cases h
    trivial

theorem finishBody_raisedBy {C : Cipher} {c c' : ModeContext} {m : Mode} {d : Dir} {e : Raise} {op : Nat}
    (hop : op = 4 ∨ op = 5) (hst : c'.state = .ready) (h : (finishRuleOf m d).body C c = .error (.raise e)) :
    RaisedBy op c'.state e := by
  cases finishBody_stops _ h with
  | cipher => exact .inr ⟨by omega, hst⟩
  | lengthRange => exact ⟨by omega, hst⟩
  | authFail => exact ⟨hop, hst⟩

theorem processBody_raisedBy {C : Cipher} {c : ModeContext} {m : Mode} {d : Dir} {data : Bytes} {e : Raise} {op : Nat}
    (hop : op = 3 ∨ op = 4) (hst : c.state = .ready) (h : (processRuleOf m d).body C c data = .error (.raise e)) :
    RaisedBy op c.state e := by
  obtain h | ⟨f, h⟩ := processBody_stops _ h <;> cases h
  exact .inr ⟨by omega, hst⟩

theorem lastBody_raisedBy {C : Cipher} {c : ModeContext} {m : Mode} {d : Dir} {data : Bytes} {e : Raise}
    (hst : c.state = .ready) (h : lastBody (processRuleOf m d) (finishRuleOf m d) C c data = .error (.raise e)) :
    RaisedBy 4 c.state e := by
  obtain h | ⟨x, o1, -, ⟨y, o, -, he⟩ | ⟨h, -⟩⟩ := lastBody_error h
  · exact processBody_raisedBy (by omega) hst h
  · cases he
    exact ⟨.inl rfl, hst⟩
  · exact finishBody_raisedBy (by omega) hst h

/-! The transitions of each operation. -/

section

variable {P : Params} {s t : State} {k : BitVec 8} {c : ModeContext}

theorem runInit_transition {R : InitRule} {o : InitOperands}
    (hR : R = initEcbRule ∨ R = initCbcRule ∨ R = initCtrRule ∨ R = initGcmRule ∨ R = initGmacRule)
    (hc : s.slot k = some (.held c)) (h : runInit P R k o s = .next t) : Transition 2 s k c t := by
  obtain ⟨hno, -⟩ | ⟨c', hc', -, hend⟩ := runInit_next h
  · exact absurd hc (hno c)
  · obtain rfl := State.held_unique hc hc'
    obtain ⟨e, he, rfl⟩ | ⟨x, hx, rfl⟩ := hend
    · exact .raised _ _ e (initSession_raisedBy hR he)
    · obtain ⟨_, h1, -⟩ := Run.bind_ok.mp hx
      exact .completed _ _ _ (.inl ⟨rfl, by simpa using check_eq_ok.mp h1, rfl⟩)

theorem runProcess_transition {R : ProcessRule} {p : Addr} {l : Len} {d : Dest}
    (hR : ∀ {m d}, R.sel m d = true → R = processRuleOf m d) (hc : s.slot k = some (.held c))
    (h : runProcess P R k p l d s = .next t) : Transition 3 s k c t := by
  obtain ⟨hno, -⟩ | ⟨c', hc', hsel, hend⟩ := runProcess_next h
  · exact absurd hc (hno c)
  · obtain rfl := State.held_unique hc hc'
    rw [hR hsel] at hend
    obtain ⟨e, he, rfl⟩ | ⟨n, hn, hend⟩ := hend
    · exact .raised _ _ e (processChecks_raisedBy (by omega) (outLenProcess_stops _ _) (lengthOk_stops _ _ _ _) he)
    · obtain ⟨hst, -⟩ := processChecks_ok.mp hn
      obtain ⟨e, he, rfl⟩ | ⟨x, out, -, rfl⟩ := hend
      · exact .raised _ _ e (processBody_raisedBy (by omega) hst he)
      · exact .completed _ _ _ (.inr (.inl ⟨rfl, hst, hst⟩))

theorem runLast_transition {p : Addr} {l : Len} {d : Dest} (hc : s.slot k = some (.held c))
    (h : runLast P processRuleOf finishRuleOf k p l d s = .next t) : Transition 4 s k c t := by
  obtain ⟨hno, -⟩ | ⟨c', hc', hend⟩ := runLast_next h
  · exact absurd hc (hno c)
  · obtain rfl := State.held_unique hc hc'
    obtain ⟨e, he, rfl⟩ | ⟨n, hn, hend⟩ := hend
    · exact .raised _ _ e (processChecks_raisedBy (by omega) (outLenLast_stops _ _) (lastLengthOk_stops _ _) he)
    · obtain ⟨hst, -⟩ := processChecks_ok.mp hn
      obtain ⟨e, he, rfl⟩ | ⟨x, out, -, rfl⟩ := hend
      · exact .raised _ _ e (lastBody_raisedBy hst he)
      · exact .completed _ _ _ (.inr (.inr ⟨.inl rfl, hst, rfl⟩))

theorem runFinish_transition {R : FinishRule} {snk : SinkOperand}
    (hR : ∀ {m d}, R.sel m d = true → R = finishRuleOf m d) (hc : s.slot k = some (.held c))
    (h : runFinish P R k snk s = .next t) : Transition 5 s k c t := by
  obtain ⟨hno, -⟩ | ⟨c', hc', hsel, hend⟩ := runFinish_next h
  · exact absurd hc (hno c)
  · obtain rfl := State.held_unique hc hc'
    rw [hR hsel] at hend
    obtain ⟨e, he, rfl⟩ | ⟨n, hn, hend⟩ := hend
    · exact .raised _ _ e (finishChecks_raisedBy he)
    · obtain ⟨hst, -⟩ := finishChecks_ok.mp hn
      obtain ⟨e, he, rfl⟩ | ⟨x, out, -, rfl⟩ := hend
      · exact .raised _ _ e (finishBody_raisedBy (by omega) hst he)
      · exact .completed _ _ _ (.inr (.inr ⟨.inr rfl, hst, rfl⟩))

end

/-- R135: every command on a slot that holds a context. -/
theorem exec_transition {s t : State} {i : Instr} {c : ModeContext} (hc : s.slot i.ctx = some (.held c))
    (h : exec i s = .next t) : Transition (opOf i) s i.ctx c t := by
  cases runs i s with
  | opens m d w ks _ hrun =>
    rw [hrun, openContext_eq, if_neg (by simp [hc])] at h
    cases h
    exact .refused 0
  | inits R o hop hR _ hrun => rw [hop]; exact runInit_transition hR hc (hrun ▸ h)
  | processes R p l d hop hR _ hrun => rw [hop]; exact runProcess_transition hR hc (hrun ▸ h)
  | last p l d hop hrun => rw [hop]; exact runLast_transition hc (hrun ▸ h)
  | finishes R snk hop hR _ hrun => rw [hop]; exact runFinish_transition hR hc (hrun ▸ h)
  | destroys hop hrun =>
    rw [hrun, execDestroy_held hc] at h
    cases h
    exact .destroyed _ hop (by split <;> rfl)

/-- Settles O17: one case for each way a transition arises, and for an error one for each error. -/
theorem lifecycleTransitions : Obligations.LifecycleTransitions := by
  intro s t i c hc h op now
  have held : ∀ (u : State) (c' : ModeContext), u.slot i.ctx = s.slot i.ctx →
      (u.setSlot i.ctx (.held c')).slot i.ctx = some (.held c') :=
    fun u c' hu => State.slot_setSlot_self u _ _ _ (hu.trans hc)
  cases exec_transition hc h with
  | refused => exact .inr (.inr (.inr (.inr (.inl ⟨rfl, rfl⟩))))
  | raised tg n e he =>
    cases e with
    | protocol => exact .inr (.inr (.inr (.inr (.inl ⟨rfl, rfl⟩))))
    | config => exact .inr (.inl ⟨rfl, he.1, he.2, rfl⟩)
    | bufferTooSmall => exact .inr (.inr (.inr (.inr (.inr (.inl ⟨rfl, he.1, he.2, rfl⟩)))))
    | lengthRange => exact .inr (.inr (.inl ⟨rfl, he.1, he.2, _, held s _ rfl, rfl⟩))
    | authFail x out => exact .inr (.inr (.inr (.inl ⟨rfl, he.1, he.2, _, held (s.withMem _) _ rfl, rfl⟩)))
    | cipher =>
      exact .inr (.inr (.inr (.inr (.inr (.inr ⟨rfl, he, _, held (s.withMem _) _ rfl, rfl⟩)))))
  | completed c' tg out hs =>
    have hslot : (s.complete i.ctx c' tg out).slot i.ctx = some (.held c') := held (s.withMem _) c' rfl
    refine .inl ⟨rfl, ?_⟩
    obtain ⟨hop, hl, hl'⟩ | ⟨hop, hl, hl'⟩ | ⟨hop, hl, hl'⟩ := hs
    · exact .inl ⟨hop, hl, c', hslot, hl'⟩
    · exact .inr (.inl ⟨hop, hl, c', hslot, hl'⟩)
    · exact .inr (.inr (.inl ⟨hop, hl, c', hslot, hl'⟩))
  | destroyed u hop hu =>
    exact .inl ⟨rfl, .inr (.inr (.inr ⟨hop, State.slot_setSlot_self u _ _ _ (hu.trans hc)⟩))⟩

end Sys2Proof.Machine
end

section
/-! R129, R132, R133: the checks of PROCESS, PROCESS_LAST and FINISH one after the other on a legal context, and what
follows when all pass. -/

namespace Sys2Proof.Machine

/-- How a command of the context `c` ends, by what its checks answer: `f` goes on from the `out_len` they answer. -/
def checkedAnswer (s : State) (k : BitVec 8) (c : ModeContext) (tg : Target)
    (f : Nat → Host.Outcome State Fault Refusal) : Run Nat → Host.Outcome State Fault Refusal
  | .error e => s.stop k c tg 0 e
  | .ok n => f n

theorem runProcess_held {P : Params} {R : ProcessRule} {k : BitVec 8} {p : Addr} {l : Len} {d : Dest} {s : State}
    {c : ModeContext} (hc : s.slot k = some (.held c)) (hsel : R.sel c.mode c.dir = true) :
    runProcess P R k p l d s =
      checkedAnswer s k c (targetOf p d)
        (fun n => processAnswer s k c (targetOf p d) n (R.body (P.cipher c.ks) c (s.mem.readBytes p.toNat l.toNat)))
        (processChecks P (outLenProcess c l.toNat) (R.lengthOk c l.toNat) c p l d) := by
  rw [runProcess, State.onContext_held hc hsel]
  cases processChecks P (outLenProcess c l.toNat) (R.lengthOk c l.toNat) c p l d with
  | error e => rfl
  | ok n => cases R.body (P.cipher c.ks) c (s.mem.readBytes p.toNat l.toNat) <;> rfl

/-- R133: how a PROCESS_LAST of the context `c` that passed its checks with `out_len` = `n` ends, by what its two bodies
answer. -/
def lastAnswer (s : State) (k : BitVec 8) (c : ModeContext) (tg : Target) (n : Nat) :
    Run (Session × Bytes) → Host.Outcome State Fault Refusal
  | .error e => s.stop k c tg n e
  | .ok (x, out) => .next (s.complete k ((c.withSess x).withState .closed) tg out)

theorem runLast_held {P : Params} {R : Mode → Dir → ProcessRule} {F : Mode → Dir → FinishRule} {k : BitVec 8}
    {p : Addr} {l : Len} {d : Dest} {s : State} {c : ModeContext} (hc : s.slot k = some (.held c)) :
    runLast P R F k p l d s =
      checkedAnswer s k c (targetOf p d)
        (fun n => lastAnswer s k c (targetOf p d) n
          (lastBody (R c.mode c.dir) (F c.mode c.dir) (P.cipher c.ks) c (s.mem.readBytes p.toNat l.toNat)))
        (processChecks P (outLenLast c l.toNat) (lastLengthOk c l.toNat) c p l d) := by
  rw [runLast, State.onContext_held hc rfl]
  cases processChecks P (outLenLast c l.toNat) (lastLengthOk c l.toNat) c p l d with
  | error e => rfl
  | ok n =>
    cases lastBody (R c.mode c.dir) (F c.mode c.dir) (P.cipher c.ks) c (s.mem.readBytes p.toNat l.toNat) <;> rfl

theorem runFinish_held {P : Params} {R : FinishRule} {k : BitVec 8} {snk : SinkOperand} {s : State} {c : ModeContext}
    (hc : s.slot k = some (.held c)) (hsel : R.sel c.mode c.dir = true) :
    runFinish P R k snk s =
      checkedAnswer s k c (.sink snk) (fun n => finishAnswer s k c snk n (R.body (P.cipher c.ks) c))
        (finishChecks P c snk) := by
  rw [runFinish, State.onContext_held hc hsel]
  cases finishChecks P c snk with
  | error e => rfl
  | ok n => cases R.body (P.cipher c.ks) c <;> rfl

section

variable {s u : State} {k : BitVec 8} {c : ModeContext} {tg : Target}
  {f : Nat → Host.Outcome State Fault Refusal}

/-- R16: one check at the head: its error when it fails, what follows when it passes. -/
theorem checkedAnswer_check {b : Bool} {e : Raise} {g : Unit → Run Nat} {q : Prop} [Decidable q]
    (hq : b = false ↔ q) (h : ¬ q → checkedAnswer s k c tg f (g ()) = .next u) :
    checkedAnswer s k c tg f (check b e >>= g) = .next (if q then s.raise k c tg 0 e else u) := by
  cases b with
  | false =>
    rw [if_pos (hq.mp rfl)]
    rfl
  | true =>
    have hn : ¬ q := fun hn => Bool.noConfusion (hq.mpr hn)
    rw [if_neg hn]
    exact h hn

/-- R73, R129 step 4: in place is admitted in ECB and CBC with no remainder. -/
theorem inPlaceOk_ready {p : Addr} {l : Len} {d : Dest} (h : ReadyContext c) : ∃ b, inPlaceOk c p l d = .ok b ∧
    (b = false ↔
      isInPlace p l d = true ∧ ¬ ((c.mode = .ecb ∨ c.mode = .cbc) ∧ c.sess.remainder = some [])) := by
  obtain ⟨r, hr⟩ := h.remainder
  cases hi : isInPlace p l d with
  | false => exact ⟨true, by simp [inPlaceOk, hi], by simp⟩
  | true =>
    cases hm : c.mode with
    | ecb | cbc => exact ⟨r.length == 0, by simp [inPlaceOk, hi, hm, remainderLen_some hr], by simp [hr]⟩
    | ctr | gcm | gmac => exact ⟨false, by simp [inPlaceOk, hi, hm], by simp⟩

/-- R129, steps 1 to 8, R133: the checks in order on a legal context, for the `out_len` and the length check of PROCESS
or PROCESS_LAST, and what `f` ends in when all pass. -/
theorem processChecks_answer {outLen : Run Nat} {lengthOk : Run Bool} {p : Addr} {l : Len} {d : Dest}
    (hlegal : LegalContext c) (hdefined : ReadyContext c → (∃ n, outLen = .ok n) ∧ ∃ b, lengthOk = .ok b)
    (hf : ReadyContext c → lengthOk = .ok true → f (countOf outLen) = .next u) :
    checkedAnswer s k c (targetOf p d) f (processChecks Config.params outLen lengthOk c p l d) = .next (
      if c.state ≠ .ready then s.report .protocol 0 (targetOf p d).passedOff
      else if 0 < l.toNat ∧ 2 ^ 64 < p.toNat + l.toNat then s.report .protocol 0 (targetOf p d).passedOff
      else if destWf Config.params c d = false then s.report .protocol 0 (targetOf p d).passedOff
      else if isInPlace p l d = true ∧ ¬ ((c.mode = .ecb ∨ c.mode = .cbc) ∧ c.sess.remainder = some []) then
        s.report .protocol 0 (targetOf p d).passedOff
      else if isInPlace p l d = false ∧ chunkOverlaps p l d = true then
        s.report .protocol 0 (targetOf p d).passedOff
      else if (targetOf p d).fits (countOf outLen) = false then s.report .bufferTooSmall 0 (targetOf p d).passedOff
      else if lengthOk = .ok false then
        (s.setSlot k (.held { c with state := .closed })).report .lengthRange 0 (targetOf p d).passedOff
      else u) := by
  simp only [processChecks, operandChecks, bind_assoc]
  refine checkedAnswer_check (by simp) fun hst => ?_
  have hready := hlegal.ready (not_not.mp hst)
  obtain ⟨⟨n, rfl⟩, b, rfl⟩ := hdefined hready
  refine checkedAnswer_check rangeFits_eq_false fun _ => ?_
  refine checkedAnswer_check Iff.rfl fun _ => ?_
  obtain ⟨ok, hok, hiff⟩ := inPlaceOk_ready (p := p) (l := l) (d := d) hready
  rw [hok, Run.pure_bind]
  refine checkedAnswer_check hiff fun _ => ?_
  refine checkedAnswer_check (by simp) fun _ => ?_
  rw [Run.pure_bind]
  refine checkedAnswer_check Iff.rfl fun _ => ?_
  rw [Run.pure_bind]
  refine checkedAnswer_check (by simp) fun hb => ?_
  exact hf hready (by simpa using hb)

end

/-- Settles O21: the checks of R129, then the body, which on a ready context stops only by CIPHER. -/
theorem processPrelude : Obligations.ProcessPrelude := by
  intro s k p l d c hc hlegal tg R n
  rw [exec_processRow, runProcess_held hc (processRuleOf_sel _ _)]
  refine processChecks_answer hlegal (fun h => ?_) fun hready _ => ?_
  · obtain ⟨hn, -, -, hb, -⟩ := h.outLen l.toNat
    exact ⟨hn, hb⟩
  · simp only [R]
    cases hbody : (processRuleOf c.mode c.dir).body (Config.params.cipher c.ks) c
        (s.mem.readBytes p.toNat l.toNat) with
    | error e =>
      obtain rfl := processBody_ready_stops _ hready e hbody
      rfl
    | ok r => rfl

/-! FINISH. -/

theorem exec_finishRow (m : Mode) (dir : Dir) (k : BitVec 8) (snk : SinkOperand) (s : State) :
    exec (finishRow ⟨m, dir⟩ k snk) s = runFinish Config.params (finishRuleOf m dir) k snk s := by
  cases m <;> cases dir <;> rfl

theorem finishRuleOf_sel (m : Mode) (dir : Dir) : (finishRuleOf m dir).sel m dir = true := by
  cases m <;> cases dir <;> rfl

/-- R71: what does not fit in a sink. -/
theorem fits_sink_eq_false {snk : SinkOperand} {n : Nat} :
    (Target.sink snk).fits n = false ↔ sinkTotal snk.segs - snk.off.toNat < n := by
  simp [Target.fits]

/-- R132: a check that fails ends FINISH with its error. -/
theorem exec_finishRow_stopped {s : State} {k : BitVec 8} {snk : SinkOperand} {c : ModeContext} {e : Raise}
    (hc : s.slot k = some (.held c)) (h : finishChecks Config.params c snk = .error (.raise e)) :
    exec (finishRow ⟨c.mode, c.dir⟩ k snk) s = .next (s.raise k c (.sink snk) 0 e) := by
  rw [exec_finishRow, runFinish_held hc (finishRuleOf_sel _ _), h]
  rfl

/-- Settles O30: the first check of R132 that fails, in each of the three cases. -/
theorem finishPrelude : Obligations.FinishPrelude := by
  intro s k snk c hc hlegal i
  refine ⟨fun hst => ?_, fun hst hwf => ?_, fun hst hwf hroom => ?_⟩
  · refine exec_finishRow_stopped (e := .protocol) hc ?_
    rw [finishChecks, check_state_ne hst]
    rfl
  · refine exec_finishRow_stopped (e := .protocol) hc ?_
    rw [finishChecks, hst, hwf]
    rfl
  · refine exec_finishRow_stopped (e := .bufferTooSmall) hc ?_
    obtain ⟨-, ⟨n, hn⟩, -⟩ := (hlegal.ready hst).outLen 0
    rw [hn] at hroom
    have hfits : (Target.sink snk).fits n = false := fits_sink_eq_false.mpr hroom
    rw [finishChecks, hst, hwf, hn, Run.pure_bind, hfits]
    rfl

/-! PROCESS_LAST. -/

/-- R133: after the length check of PROCESS_LAST its bodies stop only by CIPHER or by AUTH_FAIL. -/
theorem lastBody_ready_stops {C : Cipher} {c : ModeContext} {data : Bytes} (h : ReadyContext c)
    (hL : lastLengthOk c data.length = .ok true) :
    (lastBody (processRuleOf c.mode c.dir) (finishRuleOf c.mode c.dir) C c data).Stops
      fun e => e = .raise .cipher ∨ ∃ x out, e = .raise (.authFail x out) := by
  intro e he
  obtain hb | ⟨x, o1, hx, ⟨y, o, -, rfl⟩ | ⟨hf, -⟩⟩ := lastBody_error he
  · exact .inl (processBody_ready_stops data h e hb)
  · exact .inr ⟨_, _, rfl⟩
  · obtain rfl | ⟨y, rfl⟩ := finishBody_last_stops h hL hx e hf
    · exact .inl rfl
    · exact .inr ⟨_, _, rfl⟩

/-- Settles O35: the checks as in O21 and then the two bodies; the counts are those of the definitions, mode by mode. -/
theorem processLastResult : Obligations.ProcessLastResult := by
  refine ⟨?_, fun c L => ⟨?_, ?_, ?_, ?_, ?_, ?_⟩⟩
  · intro s k p l d c hc hlegal tg n
    refine (runLast_held hc).trans ?_
    refine processChecks_answer hlegal (fun h => ?_) fun hready hL => ?_
    · obtain ⟨-, -, hn, -, hb⟩ := h.outLen l.toNat
      exact ⟨hn, hb⟩
    · rw [← Memory.readBytes_length s.mem p.toNat l.toNat] at hL
      cases hbody : lastBody (processRuleOf c.mode c.dir) (finishRuleOf c.mode c.dir) (Config.params.cipher c.ks) c
          (s.mem.readBytes p.toNat l.toNat) with
      | error e => obtain rfl | ⟨x, out, rfl⟩ := lastBody_ready_stops hready hL e hbody <;> rfl
      | ok r => rfl
  · intro r hm hr
    rcases hm with hm | hm <;>
      simp only [outLenLast, lastLengthOk, hm, remainderLen_some hr, Run.pure_bind, true_and] <;> rfl
  · intro r cb b hm hr hcb hb
    simp [outLenLast, lastLengthOk, hm, remainderLen_some hr, ctrLengthOk, blocksLeft, hcb, hb, lowField]
  · intro r g q hm hd hr hg hq
    simp only [outLenLast, lastLengthOk, hm, hd, remainderLen_some hr, tagLen_some hg, gcmEncLengthOk,
      processedLen_some hq, Run.pure_bind, true_and]
    rfl
  · intro a g q hm hd ha hg hq
    have hcount : (if g ≤ a.length + L then a.length + L - g else 0) = a.length + L - g := by split <;> omega
    simp only [outLenLast, lastLengthOk, hm, hd, laLen_some ha, tagLen_some hg, processedLen_some hq, hcount,
      Run.pure_bind, true_and]
    rfl
  · intro g hm hd hg
    simp only [outLenLast, lastLengthOk, hm, hd, tagLen_some hg, true_and]
    rfl
  · intro a g hm hd ha hg
    simp only [outLenLast, lastLengthOk, hm, hd, laLen_some ha, tagLen_some hg, Run.pure_bind, true_and]
    rfl

end Sys2Proof.Machine
end

section
/-! R131, R141, R142: PROCESS with its operands admitted and room in the sink: what is left of the prelude is the length
check, and then the body of the mode runs on the whole blocks; with too few bytes for a block it only keeps them. -/

namespace Sys2Proof.Machine

/-! The prelude of admitted operands. -/

section

variable {P : Params} {R : ProcessRule} {k : BitVec 8} {p : Addr} {l : Len} {d : Dest} {s : State} {c : ModeContext}
  {n : Nat}

/-- R283: a length check that fails closes the context and does nothing else. -/
theorem runProcess_lengthRange (hc : s.slot k = some (.held c)) (hsel : R.sel c.mode c.dir = true)
    (hst : c.state = .ready) (hadm : OperandsAdmitted P c p l d) (hn : outLenProcess c l.toNat = .ok n)
    (hfits : (targetOf p d).fits n = true) (hL : R.lengthOk c l.toNat = .ok false) :
    runProcess P R k p l d s = .next
      ((s.setSlot k (.held { c with state := .closed })).report .lengthRange 0 (targetOf p d).passedOff) := by
  have hchecks : processChecks P (outLenProcess c l.toNat) (R.lengthOk c l.toNat) c p l d =
      .error (.raise .lengthRange) := by
    rw [processChecks, operandChecks_ok (u := ()).mpr ⟨hst, hadm⟩, Run.pure_bind, hn, Run.pure_bind, hfits, hL]
    rfl
  rw [runProcess_held hc hsel, hchecks]
  rfl

/-- R129, step 9: the body runs when the length check passes. -/
theorem runProcess_admitted (hc : s.slot k = some (.held c)) (hsel : R.sel c.mode c.dir = true)
    (hst : c.state = .ready) (hadm : OperandsAdmitted P c p l d) (hn : outLenProcess c l.toNat = .ok n)
    (hfits : (targetOf p d).fits n = true) (hL : R.lengthOk c l.toNat = .ok true) :
    runProcess P R k p l d s =
      processAnswer s k c (targetOf p d) n (R.body (P.cipher c.ks) c (s.mem.readBytes p.toNat l.toNat)) :=
  runProcess_checked hc hsel (processChecks_ok.mpr ⟨hst, hadm, hn, hfits, hL⟩)

end

/-- R142: `out_len` of PROCESS in ECB, CBC and CTR: the whole blocks. -/
theorem outLenProcess_blocks {c : ModeContext} {r : Bytes} (hm : c.mode = .ecb ∨ c.mode = .cbc ∨ c.mode = .ctr)
    (hr : c.sess.remainder = some r) (L : Nat) :
    outLenProcess c L = .ok (c.blockSize * ((r.length + L) / c.blockSize)) := by
  rcases hm with hm | hm | hm <;> simp [outLenProcess, hm, remainderLen_some hr]

theorem length_append_readBytes (r : Bytes) (m : Memory) (a n : Nat) :
    (r ++ m.readBytes a n).length = r.length + n := by simp

/-! ECB. -/

/-- R151: the per-block loop is the function on each block in order. -/
theorem ecbLoop_eq_mapM (F : Bytes → Run Bytes) (Xs : List Bytes) : ecbLoop F Xs = Xs.mapM F := by
  induction Xs with
  | nil => rfl
  | cons X Xs ih => rw [ecbLoop, List.mapM_cons, ih]; rfl

theorem ecbBody_some {F : Bytes → Run Bytes} {c : ModeContext} {r : Bytes} (data : Bytes)
    (hr : c.sess.remainder = some r) :
    ecbBody F c data = (do
      let Ys ← ecbLoop F (blocksOf c.blockSize ((r ++ data).length / c.blockSize) (r ++ data))
      .ok ({ c.sess with remainder := some ((r ++ data).drop ((r ++ data).length / c.blockSize * c.blockSize)) },
        Ys.flatten)) := by
  rw [ecbBody, assemble_some _ _ hr, Run.pure_bind]

/-- Settles O22: one case for each answer of the loop, the same for both directions. -/
theorem processEcbResult : Obligations.ProcessEcbResult := by
  intro s k p l d c r hc hm hst hr hadm hfits buf n answer
  have hlen : buf.length = r.length + l.toNat := length_append_readBytes _ _ _ _
  have key : ∀ (R : ProcessRule) (F : Bytes → Run Bytes), BlockFn F → R.sel c.mode c.dir = true →
      R.lengthOk c l.toNat = .ok true → R.body (Config.params.cipher c.ks) = ecbBody F →
      runProcess Config.params R k p l d s = .next (answer F) := by
    intro R F hF hsel hL hbody
    rw [runProcess_admitted hc hsel hst hadm (outLenProcess_blocks (.inl hm) hr _) hfits hL, hbody, ecbBody_some _ hr]
    simp only [answer, n, ← hlen, ← ecbLoop_eq_mapM]
    cases hY : ecbLoop F (blocksOf c.blockSize (buf.length / c.blockSize) buf) with
    | error e =>
      obtain rfl := ecbLoop_error hF hY
      rfl
    | ok Ys => rfl
  exact ⟨fun hd => key processEcbEncRule _ (.enc _) (by simp [processEcbEncRule, hm, hd]) rfl rfl,
    fun hd => key processEcbDecRule _ (.dec _) (by simp [processEcbDecRule, hm, hd]) rfl rfl⟩

/-! CBC. -/

theorem cbcBody_some {loop : Bytes → List Bytes → Run (Bytes × List Bytes)} {c : ModeContext} {r cb : Bytes}
    (data : Bytes) (hr : c.sess.remainder = some r) (hcb : c.sess.cb = some cb) :
    cbcBody loop c data = (do
      let (cb', Ys) ← loop cb (blocksOf c.blockSize ((r ++ data).length / c.blockSize) (r ++ data))
      .ok ({ c.sess with
          cb := some cb'
          remainder := some ((r ++ data).drop ((r ++ data).length / c.blockSize * c.blockSize)) }, Ys.flatten)) := by
  rw [cbcBody, hcb, need_some, Run.pure_bind, assemble_some _ _ hr, Run.pure_bind]

/-- Settles O23: one case for each answer of the loop, the same for both directions. -/
theorem processCbcResult : Obligations.ProcessCbcResult := by
  intro s k p l d c r cb hc hm hst hr hcb hadm hfits buf n answer
  have hlen : buf.length = r.length + l.toNat := length_append_readBytes _ _ _ _
  have key : ∀ (R : ProcessRule) (loop : Bytes → List Bytes → Run (Bytes × List Bytes)),
      (∀ {Xs e}, loop cb Xs = .error e → e = .raise .cipher) → R.sel c.mode c.dir = true →
      R.lengthOk c l.toNat = .ok true → R.body (Config.params.cipher c.ks) = cbcBody loop →
      runProcess Config.params R k p l d s = .next (answer loop) := by
    intro R loop herr hsel hL hbody
    rw [runProcess_admitted hc hsel hst hadm (outLenProcess_blocks (.inr (.inl hm)) hr _) hfits hL, hbody,
      cbcBody_some _ hr hcb]
    simp only [answer, n, ← hlen]
    cases hY : loop cb (blocksOf c.blockSize (buf.length / c.blockSize) buf) with
    | error e =>
      obtain rfl := herr hY
      rfl
    | ok r => rfl
  exact ⟨fun hd => key processCbcEncRule _ cbcEncLoop_error (by simp [processCbcEncRule, hm, hd]) rfl rfl,
    fun hd => key processCbcDecRule _ cbcDecLoop_error (by simp [processCbcDecRule, hm, hd]) rfl rfl⟩

/-! CTR. -/

theorem ctrBody_some {K : Cipher} {c : ModeContext} {r cb : Bytes} {b : Nat} (data : Bytes)
    (hr : c.sess.remainder = some r) (hcb : c.sess.cb = some cb) (hb : c.sess.ctrBits = some b) :
    ctrBody K c data = (do
      let (cb', Ys) ← ctrLoop K b cb (blocksOf c.blockSize ((r ++ data).length / c.blockSize) (r ++ data))
      .ok ({ c.sess with
          cb := some cb'
          remainder := some ((r ++ data).drop ((r ++ data).length / c.blockSize * c.blockSize)) }, Ys.flatten)) := by
  rw [ctrBody, hcb, need_some, Run.pure_bind, hb, need_some, Run.pure_bind, assemble_some _ _ hr, Run.pure_bind]

/-- R193: the wrap check. -/
theorem ctrLengthOk_some {c : ModeContext} {r cb : Bytes} {b : Nat} (L : Nat) (hr : c.sess.remainder = some r)
    (hcb : c.sess.cb = some cb) (hb : c.sess.ctrBits = some b) :
    ctrLengthOk c L = .ok (decide ((r.length + L) / c.blockSize ≤ 2 ^ b - 1 - lowField b cb)) := by
  simp [ctrLengthOk, blocksLeft, remainderLen_some hr, hcb, hb]

/-- Settles O24: the wrap check fails, or one case for each answer of the loop. -/
theorem processCtrResult : Obligations.ProcessCtrResult := by
  intro s k p l d c r cb b hc hm hst hr hcb hb hadm hfits buf n
  have hlen : buf.length = r.length + l.toNat := length_append_readBytes _ _ _ _
  have hsel : processCtrRule.sel c.mode c.dir = true := by simp [processCtrRule, hm]
  have hn := outLenProcess_blocks (.inr (.inr hm)) hr l.toNat
  have hL : processCtrRule.lengthOk c l.toNat = .ok (decide (n ≤ 2 ^ b - 1 - beNat cb % 2 ^ b)) := by
    simp only [n, hlen]
    exact ctrLengthOk_some _ hr hcb hb
  split
  · next hover =>
    rw [decide_eq_false (by omega)] at hL
    exact runProcess_lengthRange hc hsel hst hadm hn hfits hL
  · next hroom =>
    rw [decide_eq_true (by omega)] at hL
    refine (runProcess_admitted hc hsel hst hadm hn hfits hL).trans ?_
    rw [show processCtrRule.body = ctrBody from rfl, ctrBody_some _ hr hcb hb]
    simp only [n, ← hlen]
    cases hY : ctrLoop (Config.params.cipher c.ks) b cb (blocksOf c.blockSize (buf.length / c.blockSize) buf) with
    | error e =>
      obtain rfl := ctrLoop_error hY
      rfl
    | ok r => rfl

/-! GCM encryption. -/

theorem gcmEncBody_some {K : Cipher} {c : ModeContext} {r H : Bytes} {a : GcmAcc} (data : Bytes)
    (hr : c.sess.remainder = some r) (hH : c.sess.H = some H) (ha : gcmAcc c = .ok a) :
    gcmEncBody K c data = (do
      let (a', Ys) ← gcmEncLoop K H a (blocksOf 16 ((r ++ data).length / 16) (r ++ data))
      .ok ({ c.sess.withAcc a' with remainder := some ((r ++ data).drop ((r ++ data).length / 16 * 16)) },
        Ys.flatten)) := by
  rw [gcmEncBody, hH, need_some, Run.pure_bind, ha, Run.pure_bind, assemble_some _ _ hr, Run.pure_bind]

/-- R230: the limit of encryption. -/
theorem gcmEncLengthOk_some {c : ModeContext} {r : Bytes} {q : BitVec 64} (L : Nat) (hr : c.sess.remainder = some r)
    (hq : c.sess.processed = some q) :
    gcmEncLengthOk c L = .ok (decide (q.toNat + r.length + L ≤ gcmDataMax)) := by
  simp [gcmEncLengthOk, processedLen_some hq, remainderLen_some hr]

/-- Settles O25: the limit of R230 is passed, or one case for each answer of the loop. -/
theorem processGcmEncResult : Obligations.ProcessGcmEncResult := by
  intro s k p l d c r H a hc hm hd hst hr hH hcb hg hp hadm hfits buf n
  have hlen : buf.length = r.length + l.toNat := length_append_readBytes _ _ _ _
  have hmax : gcmDataMax = 16 * (2 ^ 32 - 2) := rfl
  have hsel : processGcmEncRule.sel c.mode c.dir = true := by simp [processGcmEncRule, hm, hd]
  have hn : outLenProcess c l.toNat = .ok (16 * ((r.length + l.toNat) / 16)) := by
    simp [outLenProcess, hm, hd, remainderLen_some hr]
  have hL : processGcmEncRule.lengthOk c l.toNat = _ := gcmEncLengthOk_some l.toNat hr hp
  split
  · next hover =>
    rw [decide_eq_false (by omega)] at hL
    exact runProcess_lengthRange hc hsel hst hadm hn hfits hL
  · next hroom =>
    rw [decide_eq_true (by omega)] at hL
    refine (runProcess_admitted hc hsel hst hadm hn hfits hL).trans ?_
    rw [show processGcmEncRule.body = gcmEncBody from rfl, gcmEncBody_some _ hr hH (gcmAcc_ok.mpr ⟨hcb, hg, hp⟩)]
    simp only [n, ← hlen]
    cases hY : gcmEncLoop (Config.params.cipher c.ks) H a (blocksOf 16 (buf.length / 16) buf) with
    | error e =>
      obtain rfl := gcmEncLoop_error hY
      rfl
    | ok r => rfl

/-! Too few bytes for a block. -/

/-- R13: writing back the fields that were read leaves the session. -/
theorem Session.withAcc_of_gcmAcc {c : ModeContext} {a : GcmAcc} (h : gcmAcc c = .ok a) :
    c.sess.withAcc a = c.sess := by
  obtain ⟨hcb, hg, hp⟩ := gcmAcc_ok.mp h
  rw [Session.withAcc, ← hcb, ← hg, ← hp]

/-- The fields of a ready GCM or GMAC context that the loops read. -/
theorem GcmFields.read {c : ModeContext} {g p : Nat} (h : GcmFields c.sess g p) :
    ∃ H a, c.sess.H = some H ∧ gcmAcc c = .ok a := by
  obtain ⟨H, hH, -⟩ := h.hashKey
  obtain ⟨hh, hgh, -⟩ := h.accumulator
  obtain ⟨J, -, -, hcb⟩ := h.counter
  obtain ⟨q, hq, -⟩ := h.processed
  exact ⟨H, ⟨_, hh, q⟩, hH, gcmAcc_ok.mpr ⟨hcb, hgh, hq⟩⟩

/-- R131: with too few bytes for a block all of them are left over. -/
theorem assemble_short {c : ModeContext} {r data : Bytes} {bs : Nat} (hr : c.sess.remainder = some r) (hbs : 0 < bs)
    (h0 : bs * ((r.length + data.length) / bs) = 0) : assemble bs c data = .ok ([], r ++ data) := by
  have hn : (r ++ data).length / bs = 0 := by
    rw [List.length_append]
    exact (Nat.mul_eq_zero.mp h0).resolve_left hbs.ne'
  rw [assemble_some _ _ hr, hn, Nat.zero_mul]
  rfl

/-- R130, R131: on a ready context a PROCESS that has no block to write only keeps its chunk, and never calls the
cipher. -/
theorem processBody_buffered {K : Cipher} {c : ModeContext} {data : Bytes} (h : ReadyContext c)
    (h0 : outLenProcess c data.length = .ok 0) :
    (processRuleOf c.mode c.dir).body K c data = bufferedBody c data := by
  obtain ⟨r, hr⟩ := h.remainder
  obtain ⟨hbs, h⟩ := h
  have short : c.mode = .ecb ∨ c.mode = .cbc ∨ c.mode = .ctr →
      assemble c.blockSize c data = .ok ([], r ++ data) := by
    intro hm
    rw [outLenProcess_blocks hm hr, Except.ok.injEq] at h0
    exact assemble_short hr hbs.pos h0
  cases hm : c.mode with
  | ecb =>
    have ecb : ∀ F, ecbBody F c data = bufferedBody c data := fun F => by
      simp [ecbBody, short (.inl hm), ecbLoop, bufferedBody, hm, hr]
    cases c.dir with
    | enc => exact ecb _
    | dec => exact ecb _
  | cbc =>
    rw [hm] at h
    obtain ⟨-, cb, hcb, -⟩ := h
    have cbc : ∀ loop : Bytes → List Bytes → Run (Bytes × List Bytes), loop cb [] = .ok (cb, []) →
        cbcBody loop c data = bufferedBody c data := fun loop hloop => by
      simp [cbcBody, hcb, short (.inr (.inl hm)), hloop, bufferedBody, hm, hr]
    cases c.dir with
    | enc => exact cbc _ rfl
    | dec => exact cbc _ rfl
  | ctr =>
    rw [hm] at h
    obtain ⟨-, ⟨cb, hcb, -⟩, b, hb, -⟩ := h
    show ctrBody K c data = bufferedBody c data
    simp [ctrBody, hcb, hb, short (.inr (.inr hm)), ctrLoop, bufferedBody, hm, hr]
  | gcm =>
    rw [hm] at h
    obtain ⟨-, g, p, hg, h⟩ := h
    obtain ⟨H, a, hH, ha⟩ := hg.read
    cases hd : c.dir with
    | enc =>
      have hasm : assemble 16 c data = .ok ([], r ++ data) :=
        assemble_short hr (by decide) (by simpa [outLenProcess, hm, hd, remainderLen_some hr] using h0)
      show gcmEncBody K c data = bufferedBody c data
      simp only [gcmEncBody, hH, ha, hasm, gcmEncLoop, bufferedBody, hm, hd, hr, need_some, Run.pure_bind,
        Session.withAcc_of_gcmAcc ha, List.flatten_nil]
    | dec =>
      rw [hd] at h
      obtain ⟨-, la, hla, -⟩ := h
      have hn : releasedBlocks (la ++ data).length g = 0 := by
        simpa [outLenProcess, hm, hd, laLen_some hla, tagLen_some hg.tagLen] using h0
      show gcmDecBody K c data = bufferedBody c data
      simp only [gcmDecBody, hH, ha, hla, tagLen_some hg.tagLen, hn, blocksOf, gcmDecLoop, bufferedBody, hm, hd,
        need_some, Run.pure_bind, Session.withAcc_of_gcmAcc ha, List.flatten_nil, Nat.mul_zero, List.drop_zero]
  | gmac =>
    cases hd : c.dir with
    | enc => simp only [bufferedBody, hm, hd]; rfl
    | dec => simp only [bufferedBody, hm, hd]; rfl

/-! An empty chunk (R141). -/

/-- R27, R39: what waits in a ready context is no block to write. -/
theorem ReadyContext.outLen_empty {c : ModeContext} (h : ReadyContext c) : outLenProcess c 0 = .ok 0 := by
  obtain ⟨-, h⟩ := h
  have whole : ∀ r : Bytes, c.sess.remainder = some r → r.length < c.blockSize →
      c.blockSize * ((r.length + 0) / c.blockSize) = 0 := by
    intro r _ hlt
    rw [Nat.add_zero, Nat.div_eq_of_lt hlt, Nat.mul_zero]
  cases hm : c.mode with
  | ecb =>
    rw [hm] at h
    obtain ⟨r, hr, hlt⟩ := h
    rw [outLenProcess_blocks (.inl hm) hr, whole r hr hlt]
  | cbc =>
    rw [hm] at h
    obtain ⟨⟨r, hr, hlt⟩, -⟩ := h
    rw [outLenProcess_blocks (.inr (.inl hm)) hr, whole r hr hlt]
  | ctr =>
    rw [hm] at h
    obtain ⟨⟨r, hr, hlt⟩, -⟩ := h
    rw [outLenProcess_blocks (.inr (.inr hm)) hr, whole r hr hlt]
  | gcm =>
    rw [hm] at h
    obtain ⟨-, g, p, hg, h⟩ := h
    cases hd : c.dir with
    | enc =>
      rw [hd] at h
      obtain ⟨-, r, hr, hlt, -⟩ := h
      simp [outLenProcess, hm, hd, remainderLen_some hr, hlt]
    | dec =>
      rw [hd] at h
      obtain ⟨-, la, hla, hlt, -⟩ := h
      have h0 : releasedBlocks la.length g = 0 := by
        unfold releasedBlocks
        split <;> omega
      simp [outLenProcess, hm, hd, laLen_some hla, tagLen_some hg.tagLen, h0]
  | gmac => simp [outLenProcess, hm]

/-- R193, R226, R227, R230: no data is never too much. -/
theorem ReadyContext.lengthOk_empty {c : ModeContext} (h : ReadyContext c) :
    (processRuleOf c.mode c.dir).lengthOk c 0 = .ok true := by
  obtain ⟨-, h⟩ := h
  cases hm : c.mode with
  | ecb => exact lengthOk_ecb_cbc (.inl rfl) _ _ _
  | cbc => exact lengthOk_ecb_cbc (.inr rfl) _ _ _
  | ctr =>
    rw [hm] at h
    obtain ⟨⟨r, hr, hlt⟩, ⟨cb, hcb, -⟩, b, hb, -⟩ := h
    refine (ctrLengthOk_some 0 hr hcb hb).trans ?_
    simp [Nat.div_eq_of_lt hlt]
  | gcm =>
    rw [hm] at h
    obtain ⟨-, g, p, hg, h⟩ := h
    obtain ⟨q, hq, hqp⟩ := hg.processed
    cases hd : c.dir with
    | enc =>
      rw [hd] at h
      obtain ⟨-, r, hr, -, hmax⟩ := h
      refine (gcmEncLengthOk_some 0 hr hq).trans ?_
      simp [hqp, hmax]
    | dec =>
      rw [hd] at h
      obtain ⟨-, la, hla, -, -, hmax⟩ := h
      simp [processRuleOf, processGcmDecRule, gcmDecLengthOk, processedLen_some hq, hqp, laLen_some hla,
        tagLen_some hg.tagLen, hmax]
  | gmac =>
    rw [hm] at h
    obtain ⟨-, g, p, hg, -, -, h⟩ := h
    cases hd : c.dir with
    | enc => rfl
    | dec =>
      rw [hd] at h
      obtain ⟨la, hla, hle⟩ := h
      simp [processRuleOf, processGmacDecRule, gmacDecLengthOk, laLen_some hla, tagLen_some hg.tagLen, hle]

/-- R141: an empty chunk changes no field. -/
theorem processBody_empty {K : Cipher} {c : ModeContext} (h : ReadyContext c) :
    (processRuleOf c.mode c.dir).body K c [] = .ok (c.sess, []) := by
  rw [processBody_buffered h (data := []) h.outLen_empty]
  obtain ⟨r, hr⟩ := h.remainder
  obtain ⟨-, h⟩ := h
  have keep : ∀ x : Session, x.remainder = some r → { x with remainder := some (r ++ []) } = x := by
    rintro x hx
    rw [List.append_nil, ← hx]
  have keepLa : ∀ (x : Session) (la : Bytes), x.la = some la → { x with la := some (la ++ []) } = x := by
    rintro x la hx
    rw [List.append_nil, ← hx]
  cases hm : c.mode with
  | ecb => simp only [bufferedBody, hm, hr, need_some, Run.pure_bind, keep _ hr]
  | cbc => simp only [bufferedBody, hm, hr, need_some, Run.pure_bind, keep _ hr]
  | ctr => simp only [bufferedBody, hm, hr, need_some, Run.pure_bind, keep _ hr]
  | gcm =>
    rw [hm] at h
    obtain ⟨-, g, p, -, h⟩ := h
    cases hd : c.dir with
    | enc => simp only [bufferedBody, hm, hd, hr, need_some, Run.pure_bind, keep _ hr]
    | dec =>
      rw [hd] at h
      obtain ⟨-, la, hla, -⟩ := h
      simp only [bufferedBody, hm, hd, hla, need_some, Run.pure_bind, keepLa _ _ hla]
  | gmac =>
    rw [hm] at h
    obtain ⟨-, g, p, -, -, -, h⟩ := h
    cases hd : c.dir with
    | enc => simp only [bufferedBody, hm, hd]
    | dec =>
      rw [hd] at h
      obtain ⟨la, hla, -⟩ := h
      simp only [bufferedBody, hm, hd, hla, need_some, Run.pure_bind, keepLa _ _ hla]

theorem State.setSlot_self {s : State} {k : BitVec 8} {x : Slot} (h : s.slot k = some x) : s.setSlot k x = s := by
  obtain ⟨hk, hx⟩ := List.getElem?_eq_some_iff.mp h
  rw [State.setSlot, ← hx, List.set_getElem_self]

theorem Target.fits_zero (tg : Target) : tg.fits 0 = true := by
  cases tg <;> simp [Target.fits]

/-- Settles O28: no block to write, a length check that passes, a body that changes nothing. -/
theorem emptyChunkDoesNothing : Obligations.EmptyChunkDoesNothing := by
  intro s k p d c hc hst hlegal hadm
  have hready := hlegal.ready hst
  rw [exec_processRow, runProcess_admitted hc (processRuleOf_sel _ _) hst hadm hready.outLen_empty
    (Target.fits_zero _) hready.lengthOk_empty]
  have hread : s.mem.readBytes p.toNat (0 : Len).toNat = [] := rfl
  rw [hread, processBody_empty hready, processAnswer, State.complete, Target.emit_nil, ModeContext.withSess,
    State.setSlot_self (s := s.withMem s.mem) hc, List.length_nil, Target.offAfter_zero]
  rfl

end Sys2Proof.Machine
end

section
/-! R133: PROCESS_LAST against PROCESS and then FINISH. Either way ends in OK exactly when the checks of PROCESS_LAST
pass and both bodies answer (`BothParts`); what they leave is then computed from the two answers. -/

namespace Sys2Proof.Machine

/-! Commands that end in OK. -/

section

variable {P : Params} {k : BitVec 8} {s t : State} {c : ModeContext}

/-- R281: PROCESS returns OK only when its checks pass and its body answers. -/
theorem runProcess_ok {R : ProcessRule} {p : Addr} {l : Len} {d : Dest} (hc : s.slot k = some (.held c))
    (h : runProcess P R k p l d s = .next t) (h0 : t.status = 0) :
    ∃ n x out, processChecks P (outLenProcess c l.toNat) (R.lengthOk c l.toNat) c p l d = .ok n ∧
      R.body (P.cipher c.ks) c (s.mem.readBytes p.toNat l.toNat) = .ok (x, out) ∧
      t = s.complete k (c.withSess x) (targetOf p d) out := by
  obtain ⟨hno, -⟩ | ⟨c', hc', -, hend⟩ := runProcess_next h
  · exact absurd hc (hno c)
  obtain rfl := State.held_unique hc hc'
  obtain ⟨e, -, rfl⟩ | ⟨n, hn, ⟨e, -, rfl⟩ | ⟨x, out, hx, rfl⟩⟩ := hend
  · exact absurd h0 (State.raise_status_ne_ok _ _ _ _ _ _)
  · exact absurd h0 (State.raise_status_ne_ok _ _ _ _ _ _)
  · exact ⟨n, x, out, hn, hx, rfl⟩

theorem runFinish_ok {R : FinishRule} {snk : SinkOperand} (hc : s.slot k = some (.held c))
    (h : runFinish P R k snk s = .next t) (h0 : t.status = 0) :
    ∃ n x out, finishChecks P c snk = .ok n ∧ R.body (P.cipher c.ks) c = .ok (x, out) ∧
      t = s.complete k ((c.withSess x).withState .closed) (.sink snk) out := by
  obtain ⟨hno, -⟩ | ⟨c', hc', -, hend⟩ := runFinish_next h
  · exact absurd hc (hno c)
  obtain rfl := State.held_unique hc hc'
  obtain ⟨e, -, rfl⟩ | ⟨n, hn, ⟨e, -, rfl⟩ | ⟨x, out, hx, rfl⟩⟩ := hend
  · exact absurd h0 (State.raise_status_ne_ok _ _ _ _ _ _)
  · exact absurd h0 (State.raise_status_ne_ok _ _ _ _ _ _)
  · exact ⟨n, x, out, hn, hx, rfl⟩

theorem runLast_ok {R : Mode → Dir → ProcessRule} {F : Mode → Dir → FinishRule} {p : Addr} {l : Len} {d : Dest}
    (hc : s.slot k = some (.held c)) (h : runLast P R F k p l d s = .next t) (h0 : t.status = 0) :
    ∃ n x out, processChecks P (outLenLast c l.toNat) (lastLengthOk c l.toNat) c p l d = .ok n ∧
      lastBody (R c.mode c.dir) (F c.mode c.dir) (P.cipher c.ks) c (s.mem.readBytes p.toNat l.toNat) =
        .ok (x, out) := by
  obtain ⟨hno, -⟩ | ⟨c', hc', hend⟩ := runLast_next h
  · exact absurd hc (hno c)
  obtain rfl := State.held_unique hc hc'
  obtain ⟨e, -, rfl⟩ | ⟨n, hn, ⟨e, -, rfl⟩ | ⟨x, out, hx, rfl⟩⟩ := hend
  · exact absurd h0 (State.raise_status_ne_ok _ _ _ _ _ _)
  · exact absurd h0 (State.raise_status_ne_ok _ _ _ _ _ _)
  · exact ⟨n, x, out, hn, hx⟩

end

/-- R133: PROCESS, then FINISH on what it leaves. -/
theorem lastBody_of_parts {R : ProcessRule} {F : FinishRule} {C : Cipher} {c : ModeContext} {data o1 o2 : Bytes}
    {x y : Session} (h1 : R.body C c data = .ok (x, o1)) (h2 : F.body C (c.withSess x) = .ok (y, o2)) :
    lastBody R F C c data = .ok (y, o1 ++ o2) := by
  simp only [lastBody, h1, h2, Run.pure_bind, afterOutput]

/-! The length check of PROCESS_LAST, from the two commands. -/

/-- R131: what ECB and CBC leave in the remainder. -/
theorem ecbBody_remainder {F : Bytes → Run Bytes} {c : ModeContext} {r data out : Bytes} {x : Session}
    (hr : c.sess.remainder = some r) (h : ecbBody F c data = .ok (x, out)) :
    x.remainder = some ((r ++ data).drop ((r ++ data).length / c.blockSize * c.blockSize)) := by
  rw [ecbBody_some data hr] at h
  obtain ⟨Ys, -, h⟩ := Run.bind_ok.mp h
  cases h
  rfl

theorem cbcBody_remainder {loop : Bytes → List Bytes → Run (Bytes × List Bytes)} {c : ModeContext}
    {r data out : Bytes} {x : Session} (hr : c.sess.remainder = some r) (h : cbcBody loop c data = .ok (x, out)) :
    x.remainder = some ((r ++ data).drop ((r ++ data).length / c.blockSize * c.blockSize)) := by
  obtain ⟨cb, hcb, -⟩ := Run.bind_ok.mp h
  rw [cbcBody_some data hr (need_eq_ok.mp hcb)] at h
  obtain ⟨Ys, -, h⟩ := Run.bind_ok.mp h
  cases h
  rfl

/-- R133: what the length check of PROCESS_LAST adds to that of PROCESS is what FINISH checks on the context that
PROCESS leaves. -/
theorem lastLengthOk_of_parts {C : Cipher} {c : ModeContext} {data o1 o2 : Bytes} {x y : Session}
    (h : ReadyContext c) (hL : (processRuleOf c.mode c.dir).lengthOk c data.length = .ok true)
    (h1 : (processRuleOf c.mode c.dir).body C c data = .ok (x, o1))
    (h2 : (finishRuleOf c.mode c.dir).body C (c.withSess x) = .ok (y, o2)) :
    lastLengthOk c data.length = .ok true := by
  obtain ⟨r, hr⟩ := h.remainder
  obtain ⟨-, h⟩ := h
  have whole : x.remainder = some ((r ++ data).drop ((r ++ data).length / c.blockSize * c.blockSize)) →
      (do
        let n ← remainderLen (c.withSess x)
        check (n == 0) .lengthRange
        .ok (x, []) : Run (Session × Bytes)) = .ok (y, o2) → (r.length + data.length) % c.blockSize = 0 := by
    intro hx h
    rw [remainderLen_some (c := c.withSess x) hx, Run.pure_bind] at h
    obtain ⟨_, hz, -⟩ := Run.bind_ok.mp h
    have hz : ((r ++ data).drop ((r ++ data).length / c.blockSize * c.blockSize)).length = 0 :=
      eq_of_beq (check_eq_ok.mp hz)
    rw [← List.length_append, Nat.mod_eq_sub_div_mul, ← List.length_drop, hz]
  cases hm : c.mode with
  | ecb =>
    rw [hm] at h1 h2
    have hx := by cases hd : c.dir <;> rw [hd] at h1 <;> exact ecbBody_remainder hr h1
    simp [lastLengthOk, hm, remainderLen_some hr, whole hx h2]
  | cbc =>
    rw [hm] at h1 h2
    have hx := by cases hd : c.dir <;> rw [hd] at h1 <;> exact cbcBody_remainder hr h1
    simp [lastLengthOk, hm, remainderLen_some hr, whole hx h2]
  | ctr =>
    rw [hm] at hL
    simp only [lastLengthOk, hm]
    exact hL
  | gcm =>
    rw [hm] at h h1 h2 hL
    obtain ⟨-, g, p, hg, h⟩ := h
    cases hd : c.dir with
    | enc =>
      rw [hd] at hL
      simp only [lastLengthOk, hm, hd]
      exact hL
    | dec =>
      rw [hd] at h h1 h2 hL
      obtain ⟨-, la, hla, -⟩ := h
      obtain ⟨q, hq, -⟩ := hg.processed
      have hmax : q.toNat + la.length + data.length ≤ gcmDataMax + g := by
        have : gcmDecLengthOk c data.length = .ok true := hL
        simpa [gcmDecLengthOk, processedLen_some hq, laLen_some hla, tagLen_some hg.tagLen] using this
      have hx := gcmDecBody_la hla hg.tagLen h1
      have htag : x.tagLen = some g := (processBody_fixed (m := .gcm) (d := .dec) h1).1.tagLen.trans hg.tagLen
      have h2 : finishGcmDecBody C (c.withSess x) = .ok (y, o2) := h2
      rw [finishGcmDecBody, ModeContext.withSess_sess, hx, need_some, Run.pure_bind,
        tagLen_some (c := c.withSess x) htag, Run.pure_bind] at h2
      obtain ⟨_, hge, -⟩ := Run.bind_ok.mp h2
      have hge : g ≤ la.length + data.length - 16 * releasedBlocks (la.length + data.length) g := by
        simpa using check_eq_ok.mp hge
      simp only [lastLengthOk, hm, hd, laLen_some hla, tagLen_some hg.tagLen, processedLen_some hq, Run.pure_bind,
        Except.ok.injEq, decide_eq_true_eq]
      omega
  | gmac =>
    rw [hm] at h h1 h2 hL
    obtain ⟨-, g, p, hg, -, -, h⟩ := h
    cases hd : c.dir with
    | enc =>
      rw [hd] at hL
      simp only [lastLengthOk, hm, hd]
      exact hL
    | dec =>
      rw [hd] at h h1 h2 hL
      obtain ⟨la, hla, -⟩ := h
      have hle : la.length + data.length ≤ g := by
        have : gmacDecLengthOk c data.length = .ok true := hL
        simpa [gmacDecLengthOk, laLen_some hla, tagLen_some hg.tagLen] using this
      have htag : x.tagLen = some g := (processBody_fixed (m := .gmac) (d := .dec) h1).1.tagLen.trans hg.tagLen
      have hx : x.la = some (la ++ data) := by
        have h1 : gmacDecBody C c data = .ok (x, o1) := h1
        rw [gmacDecBody, hla, need_some, Run.pure_bind] at h1
        cases h1
        rfl
      have h2 : finishGmacDecBody C (c.withSess x) = .ok (y, o2) := h2
      rw [finishGmacDecBody, ModeContext.withSess_sess, hx, need_some, Run.pure_bind,
        tagLen_some (c := c.withSess x) htag, Run.pure_bind] at h2
      obtain ⟨_, hge, -⟩ := Run.bind_ok.mp h2
      have hge : g ≤ la.length + data.length := by simpa using check_eq_ok.mp hge
      simp only [lastLengthOk, hm, hd, laLen_some hla, tagLen_some hg.tagLen, Run.pure_bind, Except.ok.injEq,
        beq_iff_eq]
      omega

/-! Where FINISH writes after PROCESS. -/

/-- R133: the sink of FINISH after a PROCESS to `d` that wrote `n` bytes: the same one at the offset PROCESS left, or
after the explicit in-place form any that is well formed. -/
def SinkAfter (P : Params) (bs n : Nat) (snk' : SinkOperand) : Dest → Prop
  | .sink snk => snk'.segs = snk.segs ∧ snk'.off.toNat = snk.off.toNat + n
  | .inPlace => sinkWf P.segMax bs snk' = true

section

variable {P : Params} {c : ModeContext} {p : Addr} {l : Len} {d : Dest} {snk' : SinkOperand} {n m : Nat}

/-- R142, R153, R173: after a PROCESS in place FINISH writes nothing. -/
theorem outLenFinish_inPlace (h : OperandsAdmitted P c p l .inPlace) (x : Session) :
    outLenFinish (c.withSess x) = .ok 0 := by
  obtain ⟨hm | hm, -⟩ := h.inPlace rfl <;> simp [outLenFinish, hm]

/-- R67, R71: there is room for both outputs exactly when there is for the first, and FINISH finds its sink well formed
and with room for the second. -/
theorem fits_add_iff (hadm : OperandsAdmitted P c p l d) (hsnk : SinkAfter P c.blockSize n snk' d)
    (hm : d = .inPlace → m = 0) : (targetOf p d).fits (n + m) = true ↔
      (targetOf p d).fits n = true ∧ sinkWf P.segMax c.blockSize snk' = true ∧
        (Target.sink snk').fits m = true := by
  cases d with
  | inPlace =>
    rw [hm rfl]
    exact iff_of_true rfl ⟨rfl, hsnk, Target.fits_zero _⟩
  | sink snk =>
    obtain ⟨hsegs, hoff⟩ := hsnk
    have hform := sinkWf_iff.mp hadm.sinkForm
    have hoffset := hform.offset
    have hform' : sinkWf P.segMax c.blockSize snk' = true ↔ snk.off.toNat + n ≤ sinkTotal snk.segs := by
      rw [sinkWf_iff, ← hoff, ← hsegs]
      refine ⟨fun h => h.offset, fun h => ?_⟩
      exact ⟨hsegs ▸ hform.count, hsegs ▸ hform.nonempty, hsegs ▸ hform.middle, hsegs ▸ hform.space,
        hsegs ▸ hform.disjoint, h⟩
    rw [hform']
    simp only [targetOf, Target.fits, hsegs, hoff, decide_eq_true_eq]
    omega

/-- R70: the two outputs one after the other are one output. -/
theorem emit_append (hsnk : SinkAfter P c.blockSize n snk' d) {o1 o2 : Bytes} (hn : o1.length = n)
    (hm : d = .inPlace → o2 = []) (mem : Memory) :
    (Target.sink snk').emit o2 ((targetOf p d).emit o1 mem) = (targetOf p d).emit (o1 ++ o2) mem := by
  cases d with
  | inPlace => rw [hm rfl, List.append_nil, Target.emit_nil]
  | sink snk =>
    obtain ⟨hsegs, hoff⟩ := hsnk
    simp only [targetOf, Target.emit, hsegs, hoff, sinkWrite_append, hn]

end

/-! Both ways. -/

/-- R133: the checks of PROCESS_LAST pass on the context `c` in slot `k`, its PROCESS part leaves the session `x` and
writes `o1`, its FINISH part leaves `y` and writes `o2`. -/
structure BothParts (s : State) (k : BitVec 8) (p : Addr) (l : Len) (d : Dest) (c : ModeContext) (x y : Session)
    (o1 o2 : Bytes) : Prop where
  held : s.slot k = some (.held c)
  context : ReadyContext c
  state : c.state = .ready
  admitted : OperandsAdmitted Config.params c p l d
  room : (targetOf p d).fits (o1.length + o2.length) = true
  lengthOk : lastLengthOk c l.toNat = .ok true
  process : (processRuleOf c.mode c.dir).body (Config.params.cipher c.ks) c (s.mem.readBytes p.toNat l.toNat) =
    .ok (x, o1)
  finish : (finishRuleOf c.mode c.dir).body (Config.params.cipher c.ks) (c.withSess x) = .ok (y, o2)

namespace BothParts

variable {s : State} {k : BitVec 8} {p : Addr} {l : Len} {d : Dest} {c : ModeContext} {x y : Session} {o1 o2 : Bytes}

/-- R142: what the two parts write. -/
theorem counts (h : BothParts s k p l d c x y o1 o2) : ReadyContext (c.withSess x) ∧
    outLenProcess c l.toNat = .ok o1.length ∧ outLenFinish (c.withSess x) = .ok o2.length := by
  have hL := lengthOk_of_last h.lengthOk
  rw [← Memory.readBytes_length s.mem p.toNat l.toNat] at hL
  obtain ⟨hx, h1⟩ := processBody_ready_ok h.context hL h.process
  rw [Memory.readBytes_length] at h1
  exact ⟨hx, h1, finishBody_ready_length hx h.finish⟩

theorem inPlace_nil (h : BothParts s k p l d c x y o1 o2) (hd : d = .inPlace) : o2 = [] := by
  subst hd
  obtain ⟨-, -, h2⟩ := h.counts
  rw [outLenFinish_inPlace h.admitted, Except.ok.injEq] at h2
  exact List.length_eq_zero_iff.mp h2.symm

theorem outLenLast_sum (h : BothParts s k p l d c x y o1 o2) :
    outLenLast c l.toNat = .ok (o1.length + o2.length) := by
  have hL := h.lengthOk
  rw [← Memory.readBytes_length s.mem p.toNat l.toNat] at hL
  obtain ⟨-, h1, h2⟩ := h.counts
  obtain ⟨-, -, ⟨n, hn⟩, -⟩ := h.context.outLen l.toNat
  have hsum := outLenLast_eq h.context hL h.process
  rw [Memory.readBytes_length, h1, h2, hn] at hsum
  rw [hn]
  exact congrArg _ hsum

/-- R129: PROCESS ends in OK. -/
theorem exec_process (h : BothParts s k p l d c x y o1 o2) : exec (processRow ⟨c.mode, c.dir⟩ k p l d) s =
    .next (s.complete k (c.withSess x) (targetOf p d) o1) := by
  obtain ⟨-, h1, -⟩ := h.counts
  have hfits : (targetOf p d).fits o1.length = true := by
    have := h.room
    cases d with
    | inPlace => rfl
    | sink snk =>
      simp only [targetOf, Target.fits, decide_eq_true_eq] at this ⊢
      omega
  rw [exec_processRow, runProcess_admitted h.held (processRuleOf_sel _ _) h.state h.admitted h1 hfits
    (lengthOk_of_last h.lengthOk), h.process]
  rfl

/-- R132: FINISH, on what PROCESS left, ends in OK. -/
theorem exec_finish {snk' : SinkOperand} (h : BothParts s k p l d c x y o1 o2)
    (hsnk : SinkAfter Config.params c.blockSize o1.length snk' d) :
    exec (finishRow ⟨c.mode, c.dir⟩ k snk') (s.complete k (c.withSess x) (targetOf p d) o1) =
      .next ((s.complete k (c.withSess x) (targetOf p d) o1).complete k ((c.withSess y).withState .closed)
        (.sink snk') o2) := by
  obtain ⟨-, -, h2⟩ := h.counts
  have hslot : (s.complete k (c.withSess x) (targetOf p d) o1).slot k = some (.held (c.withSess x)) :=
    State.slot_setSlot_self (s.withMem _) k _ _ h.held
  obtain ⟨-, hwf, hfits⟩ := (fits_add_iff h.admitted hsnk (fun hd => by rw [h.inPlace_nil hd]; rfl)).mp h.room
  rw [exec_finishRow, runFinish_checked hslot (finishRuleOf_sel c.mode c.dir)
    (finishChecks_ok.mpr ⟨h.state, hwf, h2, hfits⟩), ModeContext.withSess_ks, h.finish]
  rfl

/-- R133: PROCESS_LAST ends in OK. -/
theorem exec_last (h : BothParts s k p l d c x y o1 o2) : exec (.processLast k p l d) s =
    .next (s.complete k ((c.withSess y).withState .closed) (targetOf p d) (o1 ++ o2)) := by
  have hchecks := processChecks_ok.mpr ⟨h.state, h.admitted, h.outLenLast_sum, h.room, h.lengthOk⟩
  refine (runLast_held h.held).trans ?_
  rw [hchecks, checkedAnswer, lastBody_of_parts h.process h.finish]
  rfl

/-- R133: both ways leave the same slots: the context that PROCESS leaves is replaced by the one FINISH leaves. -/
theorem slots_eq {snk' : SinkOperand} :
    (s.complete k ((c.withSess y).withState .closed) (targetOf p d) (o1 ++ o2)).slots =
      ((s.complete k (c.withSess x) (targetOf p d) o1).complete k ((c.withSess y).withState .closed) (.sink snk')
        o2).slots := by
  simp only [State.complete_slots, List.set_set]

end BothParts

/-- R133: PROCESS and then FINISH returned OK. -/
theorem bothParts_of_two {s t u : State} {k : BitVec 8} {p : Addr} {l : Len} {d : Dest} {snk' : SinkOperand}
    {c : ModeContext} {n : Nat} (hc : s.slot k = some (.held c)) (hlegal : LegalContext c)
    (hn : outLenProcess c l.toNat = .ok n) (hsnk : SinkAfter Config.params c.blockSize n snk' d)
    (ht : exec (processRow ⟨c.mode, c.dir⟩ k p l d) s = .next t) (ht0 : t.status = 0)
    (hu : exec (finishRow ⟨c.mode, c.dir⟩ k snk') t = .next u) (hu0 : u.status = 0) :
    ∃ x y o1 o2, BothParts s k p l d c x y o1 o2 := by
  rw [exec_processRow] at ht
  obtain ⟨n', x, o1, hchecks, hx, rfl⟩ := runProcess_ok hc ht ht0
  obtain ⟨hst, hadm, hn', hfits, hL⟩ := processChecks_ok.mp hchecks
  have hready := hlegal.ready hst
  rw [← Memory.readBytes_length s.mem p.toNat l.toNat] at hL
  obtain ⟨hready', h1⟩ := processBody_ready_ok hready hL hx
  rw [Memory.readBytes_length] at h1
  obtain rfl : n = o1.length := by rw [hn, Except.ok.injEq] at h1; exact h1
  obtain rfl : o1.length = n' := by rw [h1, Except.ok.injEq] at hn'; exact hn'
  rw [exec_finishRow] at hu
  have hslot : (s.complete k (c.withSess x) (targetOf p d) o1).slot k = some (.held (c.withSess x)) :=
    State.slot_setSlot_self (s.withMem _) k _ _ hc
  obtain ⟨m, y, o2, hchecks', hy, rfl⟩ := runFinish_ok hslot hu hu0
  obtain ⟨-, hwf, hm, hfits'⟩ := finishChecks_ok.mp hchecks'
  have h2 : outLenFinish (c.withSess x) = .ok o2.length := finishBody_ready_length hready' hy
  obtain rfl : o2.length = m := by rw [h2, Except.ok.injEq] at hm; exact hm
  have hlast := lastLengthOk_of_parts hready hL hx hy
  rw [Memory.readBytes_length] at hlast
  refine ⟨x, y, o1, o2, hc, hready, hst, hadm, ?_, hlast, hx, hy⟩
  refine (fits_add_iff hadm hsnk fun hd => ?_).mpr ⟨hfits, hwf, hfits'⟩
  subst hd
  rw [outLenFinish_inPlace hadm, Except.ok.injEq] at h2
  exact h2.symm

/-- R133: PROCESS_LAST returned OK. -/
theorem bothParts_of_last {s v : State} {k : BitVec 8} {p : Addr} {l : Len} {d : Dest} {c : ModeContext}
    (hc : s.slot k = some (.held c)) (hlegal : LegalContext c) (hv : exec (.processLast k p l d) s = .next v)
    (hv0 : v.status = 0) : ∃ x y o1 o2, BothParts s k p l d c x y o1 o2 := by
  obtain ⟨N, y, out, hchecks, hbody⟩ := runLast_ok hc hv hv0
  obtain ⟨hst, hadm, hN, hfits, hL⟩ := processChecks_ok.mp hchecks
  obtain ⟨x, o1, o2, hx, hy, rfl⟩ := lastBody_ok hbody
  have hready := hlegal.ready hst
  have hL' := hL
  rw [← Memory.readBytes_length s.mem p.toNat l.toNat] at hL'
  have hlen := lastBody_ready_length hready hL' hbody
  rw [Memory.readBytes_length, hN, List.length_append] at hlen
  exact ⟨x, y, o1, o2, hc, hready, hst, hadm, by rw [hlen]; exact hfits, hL, hx, hy⟩

/-- Settles O36: either way gives `BothParts`, and from it all three commands and what they leave. -/
theorem processLastIsProcessThenFinish : Obligations.ProcessLastIsProcessThenFinish := by
  intro s k p l d snk' c n hc hlegal hn hd twoCommands
  have hsnk : SinkAfter Config.params c.blockSize n snk' d := by cases d <;> exact hd
  have key : ∀ {x y o1 o2}, BothParts s k p l d c x y o1 o2 → ∃ u v,
      (∃ t, exec (processRow ⟨c.mode, c.dir⟩ k p l d) s = .next t ∧
        exec (finishRow ⟨c.mode, c.dir⟩ k snk') t = .next u) ∧
      exec (.processLast k p l d) s = .next v ∧ v.status = 0 ∧ twoCommands u v := by
    intro x y o1 o2 h
    obtain ⟨-, h1, h2⟩ := h.counts
    obtain rfl : n = o1.length := by rw [hn, Except.ok.injEq] at h1; exact h1
    refine ⟨_, _, ⟨_, h.exec_process, h.exec_finish hsnk⟩, h.exec_last, rfl, _, c.withSess x, o2.length,
      h.exec_process, rfl, h.exec_finish hsnk, rfl, State.slot_setSlot_self (s.withMem _) k _ _ hc, h2, ?_,
      BothParts.slots_eq, rfl, ?_, ?_⟩
    · exact (emit_append hsnk rfl h.inPlace_nil s.mem).symm
    · rw [State.complete_outLen, List.length_append]
    · rw [State.complete_sinkOff, List.length_append]
  constructor
  · intro t u ht ht0 hu hu0
    obtain ⟨x, y, o1, o2, h⟩ := bothParts_of_two hc hlegal hn hsnk ht ht0 hu hu0
    obtain ⟨u', v, ⟨t', ht', hu'⟩, hv, hv0, htwo⟩ := key h
    rw [ht] at ht'
    cases ht'
    rw [hu] at hu'
    cases hu'
    exact ⟨v, hv, hv0, htwo⟩
  · intro v hv hv0
    obtain ⟨x, y, o1, o2, h⟩ := bothParts_of_last hc hlegal hv hv0
    obtain ⟨u, v', -, hv', -, htwo⟩ := key h
    rw [hv] at hv'
    cases hv'
    exact ⟨u, htwo⟩

end Sys2Proof.Machine
end

section
/-! R131, R139: byte strings made of blocks, and the per-block loops in one form: the cipher on a list of blocks, then
one exclusive or, block by block. -/

namespace Sys2Proof.Machine

/-! Strings of blocks. -/

/-- R123: the exclusive or undoes itself. -/
theorem xorBytes_xorBytes {A B : Bytes} (h : A.length ≤ B.length) : xorBytes (xorBytes A B) B = A := by
  refine List.ext_getElem (by simp; omega) fun i _ _ => ?_
  simp [xorBytes]

theorem length_flatten_of_blocks {bs : Nat} {Xs : List Bytes} (h : ∀ X ∈ Xs, X.length = bs) :
    Xs.flatten.length = Xs.length * bs := by
  rw [List.length_flatten, List.sum_eq_card_nsmul _ bs (by simpa using h), List.length_map, smul_eq_mul]

/-- R131: cutting a string of blocks into its blocks. -/
theorem blocksOf_flatten_append {bs : Nat} {Xs : List Bytes} (h : ∀ X ∈ Xs, X.length = bs) (t : Bytes) :
    blocksOf bs Xs.length (Xs.flatten ++ t) = Xs := by
  induction Xs with
  | nil => rfl
  | cons X Xs ih =>
    obtain ⟨hX, hXs⟩ := List.forall_mem_cons.mp h
    rw [List.length_cons, blocksOf, List.flatten_cons, List.append_assoc, List.take_left' hX, List.drop_left' hX,
      ih hXs]

/-- What follows the blocks. -/
theorem drop_flatten_append {bs : Nat} {Xs : List Bytes} (h : ∀ X ∈ Xs, X.length = bs) (t : Bytes) :
    (Xs.flatten ++ t).drop (Xs.length * bs) = t := List.drop_left' (length_flatten_of_blocks h)

/-- Cutting blocks sees no byte behind them. -/
theorem blocksOf_append {bs n : Nat} {buf : Bytes} (t : Bytes) (h : n * bs ≤ buf.length) :
    blocksOf bs n (buf ++ t) = blocksOf bs n buf := by
  induction n generalizing buf with
  | zero => rfl
  | succ n ih =>
    rw [Nat.succ_mul] at h
    have hbs : bs ≤ buf.length := by omega
    rw [blocksOf, blocksOf, List.take_append_of_le_length hbs, List.drop_append_of_le_length hbs,
      ih (by rw [List.length_drop]; omega)]

/-- R123: the exclusive or of strings of blocks goes block by block. -/
theorem flatten_zipWith_xorBytes {bs : Nat} {Xs Ks : List Bytes} (hX : ∀ X ∈ Xs, X.length = bs)
    (hK : ∀ B ∈ Ks, B.length = bs) : (List.zipWith xorBytes Xs Ks).flatten = xorBytes Xs.flatten Ks.flatten := by
  induction Xs generalizing Ks with
  | nil => rfl
  | cons X Xs ih =>
    cases Ks with
    | nil => simp [xorBytes]
    | cons B Ks =>
      obtain ⟨hX, hXs⟩ := List.forall_mem_cons.mp hX
      obtain ⟨hB, hKs⟩ := List.forall_mem_cons.mp hK
      rw [List.zipWith_cons_cons, List.flatten_cons, ih hXs hKs, List.flatten_cons, List.flatten_cons]
      exact (List.zipWith_append (hX.trans hB.symm)).symm

theorem length_of_mem_zipWith_xorBytes {bs : Nat} {Xs Ks : List Bytes} (hX : ∀ X ∈ Xs, X.length = bs)
    (hK : ∀ B ∈ Ks, B.length = bs) : ∀ Y ∈ List.zipWith xorBytes Xs Ks, Y.length = bs := by
  intro Y hY
  rw [← List.map_uncurry_zip_eq_zipWith] at hY
  obtain ⟨⟨X, B⟩, hXB, rfl⟩ := List.mem_map.mp hY
  have := hX X (List.of_mem_zip hXB).1
  have := hK B (List.of_mem_zip hXB).2
  simp [*]

/-- R139: the exclusive or with the same blocks undoes itself. -/
theorem zipWith_xorBytes_cancel {bs : Nat} {Xs Ks : List Bytes} (hX : ∀ X ∈ Xs, X.length = bs)
    (hK : ∀ B ∈ Ks, B.length = bs) (hlen : Xs.length ≤ Ks.length) :
    List.zipWith xorBytes (List.zipWith xorBytes Xs Ks) Ks = Xs := by
  induction Xs generalizing Ks with
  | nil => rfl
  | cons X Xs ih =>
    cases Ks with
    | nil => simp at hlen
    | cons B Ks =>
      obtain ⟨hX, hXs⟩ := List.forall_mem_cons.mp hX
      obtain ⟨hB, hKs⟩ := List.forall_mem_cons.mp hK
      rw [List.zipWith_cons_cons, List.zipWith_cons_cons, ih hXs hKs (by simpa using hlen),
        xorBytes_xorBytes (hX.trans hB.symm).le]

/-! The cipher on a list of blocks. -/

/-- R151: what the ECB loop answers: as many blocks, each of the length it was given. -/
theorem ecbLoop_blocks {F : Bytes → Run Bytes} (hF : BlockFn F) {bs : Nat} {Xs Ys : List Bytes}
    (hX : ∀ X ∈ Xs, X.length = bs) (h : ecbLoop F Xs = .ok Ys) :
    Ys.length = Xs.length ∧ ∀ Y ∈ Ys, Y.length = bs := by
  induction Xs generalizing Ys with
  | nil => cases h; simp
  | cons X Xs ih =>
    obtain ⟨hX, hXs⟩ := List.forall_mem_cons.mp hX
    obtain ⟨Y, hY, h⟩ := Run.bind_ok.mp h
    obtain ⟨Zs, hZ, h⟩ := Run.bind_ok.mp h
    cases h
    obtain ⟨hlen, hZs⟩ := ih hXs hZ
    exact ⟨congrArg (· + 1) hlen, List.forall_mem_cons.mpr ⟨(hF.length hY).trans hX, hZs⟩⟩

/-- R190: the counter blocks of `m` blocks from `cb` on. -/
abbrev counters (n : Nat) (cb : Bytes) (m : Nat) : List Bytes := List.iterate (incLow n) cb m

theorem length_of_mem_counters {n m : Nat} {cb : Bytes} : ∀ X ∈ counters n cb m, X.length = cb.length := by
  induction m generalizing cb with
  | zero => simp [counters]
  | succ m ih =>
    refine List.forall_mem_cons.mpr ⟨rfl, fun X hX => ?_⟩
    rw [ih X hX, incLow_length]

/-- R190, R194: CTR is the exclusive or with the encryption of the counters. -/
theorem ctrLoop_eq (K : Cipher) (n : Nat) (cb : Bytes) (Xs : List Bytes) :
    ctrLoop K n cb Xs = (do
      let KS ← ecbLoop (cipherEnc K) (counters n cb Xs.length)
      .ok ((incLow n)^[Xs.length] cb, List.zipWith xorBytes Xs KS)) := by
  induction Xs generalizing cb with
  | nil => rfl
  | cons X Xs ih =>
    simp [ctrLoop, ih, counters, List.iterate, ecbLoop, bind_assoc]

/-- R217, R218: the fields the GCM loops carry, after the ciphertext blocks `Ys`. -/
def GcmAcc.after (H : Bytes) (a : GcmAcc) (Ys : List Bytes) : GcmAcc :=
  ⟨(incLow 32)^[Ys.length] a.cb, ghashFold H a.ghash Ys, a.processed + BitVec.ofNat 64 (16 * Ys.length)⟩

theorem GcmAcc.after_nil (H : Bytes) (a : GcmAcc) : a.after H [] = a := by
  simp [GcmAcc.after, ghashFold]

theorem GcmAcc.after_cons (H : Bytes) (a : GcmAcc) (Y : Bytes) (Ys : List Bytes) :
    GcmAcc.after H ⟨incLow 32 a.cb, ghashAcc H a.ghash Y, a.processed + 16#64⟩ Ys = a.after H (Y :: Ys) := by
  simp only [GcmAcc.after, ghashFold, List.length_cons, Function.iterate_succ_apply, List.foldl_cons, Nat.mul_succ,
    Nat.add_comm (16 * Ys.length), BitVec.ofNat_add, BitVec.add_assoc]

/-- R217: GCM encryption is CTR from the next counter on; the blocks it writes are hashed. -/
theorem gcmEncLoop_eq (K : Cipher) (H : Bytes) (a : GcmAcc) (Xs : List Bytes) :
    gcmEncLoop K H a Xs = (do
      let KS ← ecbLoop (cipherEnc K) (counters 32 (incLow 32 a.cb) Xs.length)
      .ok (a.after H (List.zipWith xorBytes Xs KS), List.zipWith xorBytes Xs KS)) := by
  induction Xs generalizing a with
  | nil => simp [gcmEncLoop, counters, List.iterate, ecbLoop, GcmAcc.after_nil]
  | cons X Xs ih =>
    simp [gcmEncLoop, ih, counters, List.iterate, ecbLoop, bind_assoc, GcmAcc.after_cons]

/-- R218: so is GCM decryption; the blocks it reads are hashed. -/
theorem gcmDecLoop_eq (K : Cipher) (H : Bytes) (a : GcmAcc) (Xs : List Bytes) :
    gcmDecLoop K H a Xs = (do
      let KS ← ecbLoop (cipherEnc K) (counters 32 (incLow 32 a.cb) Xs.length)
      .ok (a.after H Xs, List.zipWith xorBytes Xs KS)) := by
  induction Xs generalizing a with
  | nil => simp [gcmDecLoop, counters, List.iterate, ecbLoop, GcmAcc.after_nil]
  | cons X Xs ih =>
    simp [gcmDecLoop, ih, counters, List.iterate, ecbLoop, bind_assoc, GcmAcc.after_cons]

/-- R172: CBC decryption is `D` on the blocks, then one exclusive or with the ciphertext moved by one block. -/
theorem cbcDecLoop_eq (K : Cipher) (cb : Bytes) (Xs : List Bytes) :
    cbcDecLoop K cb Xs = (do
      let Zs ← ecbLoop (cipherDec K) Xs
      .ok (Xs.getLastD cb, List.zipWith xorBytes Zs (cb :: Xs))) := by
  induction Xs generalizing cb with
  | nil => rfl
  | cons X Xs ih =>
    simp only [cbcDecLoop, ih, ecbLoop, bind_assoc, Run.pure_bind, List.getLastD_cons, List.zipWith_cons_cons]

/-! Decryption undoes encryption. -/

/-- R122: `D` undoes `E`. -/
theorem cipherDec_of_cipherEnc {K : Cipher} {X Y : Bytes} (hinv : CipherInverse K) (hD : K.hasD = true)
    (h : cipherEnc K X = .ok Y) : cipherDec K Y = .ok X := by
  have onBlocks : ∀ {n : Nat} (A B : Block n), K.D n B = some A → cipherDec K B.val = .ok A.val := by
    rintro _ A ⟨B, rfl⟩ h
    rw [cipherDec, h]
  unfold cipherEnc at h
  split at h
  · next B hB =>
    cases h
    exact onBlocks ⟨X, rfl⟩ B ((hinv hD _ _ _).mp hB)
  · cases h

/-- R122, R139: in ECB. -/
theorem ecbLoop_undo {K : Cipher} {Xs Ys : List Bytes} (hinv : CipherInverse K) (hD : K.hasD = true)
    (h : ecbLoop (cipherEnc K) Xs = .ok Ys) : ecbLoop (cipherDec K) Ys = .ok Xs := by
  induction Xs generalizing Ys with
  | nil => cases h; rfl
  | cons X Xs ih =>
    obtain ⟨Y, hY, h⟩ := Run.bind_ok.mp h
    obtain ⟨Zs, hZ, h⟩ := Run.bind_ok.mp h
    cases h
    rw [ecbLoop, cipherDec_of_cipherEnc hinv hD hY, Run.pure_bind, ih hZ, Run.pure_bind]

/-- R139: in CBC, from the same chaining value. -/
theorem cbcLoop_undo {K : Cipher} {cb cb' : Bytes} {Xs Ys : List Bytes} (hinv : CipherInverse K) (hD : K.hasD = true)
    (hX : ∀ X ∈ Xs, X.length = cb.length) (h : cbcEncLoop K cb Xs = .ok (cb', Ys)) :
    cbcDecLoop K cb Ys = .ok (cb', Xs) := by
  induction Xs generalizing cb Ys with
  | nil => cases h; rfl
  | cons X Xs ih =>
    obtain ⟨hX, hXs⟩ := List.forall_mem_cons.mp hX
    obtain ⟨Y, hY, h⟩ := Run.bind_ok.mp h
    obtain ⟨⟨b, Zs⟩, hZ, h⟩ := Run.bind_ok.mp h
    cases h
    have hlen : Y.length = cb.length := by
      rw [cipherEnc_length hY, xorBytes_length, hX, Nat.min_self]
    rw [cbcDecLoop, cipherDec_of_cipherEnc hinv hD hY, Run.pure_bind, ih (fun X h => (hXs X h).trans hlen.symm) hZ,
      Run.pure_bind, xorBytes_xorBytes hX.le]

/-- R139, R198: in CTR the same loop again, for any cipher; the output is whole blocks, as many as the input. -/
theorem ctrLoop_undo {K : Cipher} {n bs : Nat} {cb cb' : Bytes} {Xs Ys : List Bytes} (hcb : cb.length = bs)
    (hX : ∀ X ∈ Xs, X.length = bs) (h : ctrLoop K n cb Xs = .ok (cb', Ys)) :
    Ys.length = Xs.length ∧ (∀ Y ∈ Ys, Y.length = bs) ∧ ctrLoop K n cb Ys = .ok (cb', Xs) := by
  rw [ctrLoop_eq] at h
  obtain ⟨KS, hKS, h⟩ := Run.bind_ok.mp h
  cases h
  have hC : ∀ X ∈ counters n cb Xs.length, X.length = bs := fun X h => (length_of_mem_counters X h).trans hcb
  obtain ⟨hlen, hK⟩ := ecbLoop_blocks (.enc K) hC hKS
  rw [List.length_iterate] at hlen
  have hYs : (List.zipWith xorBytes Xs KS).length = Xs.length := by rw [List.length_zipWith, hlen, Nat.min_self]
  refine ⟨hYs, length_of_mem_zipWith_xorBytes hX hK, ?_⟩
  rw [ctrLoop_eq, hYs, hKS, Run.pure_bind, zipWith_xorBytes_cancel hX hK hlen.ge]

/-- R139: in GCM the decryption loop from the same fields, for any cipher. -/
theorem gcmLoop_undo {K : Cipher} {H : Bytes} {a a' : GcmAcc} {Xs Ys : List Bytes} (hcb : a.cb.length = 16)
    (hX : ∀ X ∈ Xs, X.length = 16) (h : gcmEncLoop K H a Xs = .ok (a', Ys)) :
    Ys.length = Xs.length ∧ (∀ Y ∈ Ys, Y.length = 16) ∧ gcmDecLoop K H a Ys = .ok (a', Xs) := by
  rw [gcmEncLoop_eq] at h
  obtain ⟨KS, hKS, h⟩ := Run.bind_ok.mp h
  cases h
  have hC : ∀ X ∈ counters 32 (incLow 32 a.cb) Xs.length, X.length = 16 := fun X h =>
    (length_of_mem_counters X h).trans ((incLow_length _ _).trans hcb)
  obtain ⟨hlen, hK⟩ := ecbLoop_blocks (.enc K) hC hKS
  rw [List.length_iterate] at hlen
  have hYs : (List.zipWith xorBytes Xs KS).length = Xs.length := by rw [List.length_zipWith, hlen, Nat.min_self]
  refine ⟨hYs, length_of_mem_zipWith_xorBytes hX hK, ?_⟩
  rw [gcmDecLoop_eq, hYs, hKS, Run.pure_bind, zipWith_xorBytes_cancel hX hK hlen.ge]

end Sys2Proof.Machine
end

section
/-! R139: decryption undoes encryption, over whole sessions. The output of a session is cut into the blocks it was made
of; then the loops and the last partial block undo themselves. -/

namespace Sys2Proof.Machine

/-- R139: an answer made of whole blocks and a shorter rest, as a buffer has it, is cut back into them. -/
theorem cut_flatten_append {bs : Nat} {Ys : List Bytes} {t : Bytes} (hY : ∀ Y ∈ Ys, Y.length = bs)
    (ht : t.length < bs) : (Ys.flatten ++ t).length / bs = Ys.length := by
  rw [List.length_append, length_flatten_of_blocks hY, Nat.mul_comm, Nat.mul_add_div (by omega),
    Nat.div_eq_of_lt ht, Nat.add_zero]

/-- It is as long as what was cut. -/
theorem length_of_cut {bs : Nat} {Ys : List Bytes} {M t : Bytes} (hY : ∀ Y ∈ Ys, Y.length = bs)
    (hn : Ys.length * bs ≤ M.length) (ht : t.length = (M.drop (Ys.length * bs)).length) :
    (Ys.flatten ++ t).length = M.length := by
  rw [List.length_append, length_flatten_of_blocks hY, ht, List.length_drop]
  omega

/-- R195, R220: the exclusive or of a last partial block undoes itself. -/
theorem xorBytes_take_undo {r KS : Bytes} (h : r.length ≤ KS.length) :
    (xorBytes r (KS.take r.length)).length = r.length ∧
      xorBytes (xorBytes r (KS.take r.length)) (KS.take r.length) = r :=
  ⟨by simp [h], xorBytes_xorBytes (by simp [h])⟩

/-! CTR. -/

/-- R139, R195: FINISH in CTR on its own output. -/
theorem finishCtrBody_undo {K : Cipher} {c : ModeContext} {cb r out : Bytes} {x : Session} (hcb : c.sess.cb = some cb)
    (hr : c.sess.remainder = some r) (hlen : r.length ≤ cb.length) (h : finishCtrBody K c = .ok (x, out)) :
    out.length = r.length ∧
      ∃ y, finishCtrBody K (c.withSess { c.sess with remainder := some out }) = .ok (y, r) := by
  simp only [finishCtrBody, ModeContext.withSess, hr, hcb, need_some, Run.pure_bind] at h ⊢
  split at h
  · next hnil =>
    cases h
    rw [List.isEmpty_iff.mp hnil]
    exact ⟨rfl, _, rfl⟩
  · next hne =>
    obtain ⟨KS, hKS, h⟩ := Run.bind_ok.mp h
    cases h
    obtain ⟨hout, hundo⟩ := xorBytes_take_undo (hlen.trans (cipherEnc_length hKS).ge)
    refine ⟨hout, { c.sess with remainder := some (xorBytes r (KS.take r.length)) }, ?_⟩
    rw [if_neg (by simpa [← List.length_eq_zero_iff, hout] using hne), hKS, Run.pure_bind, hout, hundo]
    simp only [hcb]

/-- R139, R198: a whole CTR session on its own output. -/
theorem ctrSession_undo {K : Cipher} {c : ModeContext} {cb M out : Bytes} {x : Session}
    (hr : c.sess.remainder = some []) (hcb : c.sess.cb = some cb) (hlen : cb.length = c.blockSize)
    (hbs : 0 < c.blockSize) (h : lastBody processCtrRule finishCtrRule K c M = .ok (x, out)) :
    out.length = M.length ∧ ∃ y, lastBody processCtrRule finishCtrRule K c out = .ok (y, M) := by
  obtain ⟨z, o1, o2, h1, h2, rfl⟩ := lastBody_ok h
  obtain ⟨b, hb⟩ : ∃ b, c.sess.ctrBits = some b := by
    obtain ⟨_, -, h1⟩ := Run.bind_ok.mp h1
    obtain ⟨b, hb, -⟩ := Run.bind_ok.mp h1
    exact ⟨b, need_eq_ok.mp hb⟩
  have body : ∀ data, ctrBody K c data = _ := fun data => ctrBody_some data hr hcb hb
  simp only [List.nil_append] at body
  obtain ⟨⟨cb', Ys⟩, hY, h1⟩ := Run.bind_ok.mp ((body M).symm.trans h1)
  cases h1
  obtain ⟨hn, hYs, hundo⟩ := ctrLoop_undo hlen (fun X hX => length_blocks hX) hY
  rw [blocksOf_length] at hn
  have hcb' : cb'.length = c.blockSize := by simpa [ctrLoop_cb hY] using hlen
  have hrest := length_rest hbs M
  obtain ⟨ho2, y, hy⟩ := finishCtrBody_undo rfl rfl (hrest.le.trans hcb'.ge) h2
  have hcut := cut_flatten_append hYs (ho2.trans_lt hrest)
  refine ⟨length_of_cut hYs (hn ▸ Nat.div_mul_le_self _ _) (by rw [ho2, hn]), y, ?_⟩
  have h1 : ctrBody K c (Ys.flatten ++ o2) = _ := body _
  rw [hcut, blocksOf_flatten_append hYs, drop_flatten_append hYs, hundo, Run.pure_bind] at h1
  rw [lastBody_of_parts h1 hy, flatten_blocksOf]

/-- Settles O42: the loops undo themselves block by block, and a CTR session as a whole. -/
theorem blockLoopsRoundTrip : Obligations.BlockLoopsRoundTrip :=
  ⟨fun _ _ _ hinv hD h => ecbLoop_undo hinv hD h, fun _ _ _ _ _ hinv hD hX h => cbcLoop_undo hinv hD hX h,
    fun _ _ _ _ _ _ hX h => (ctrLoop_undo rfl hX h).2.2,
    fun _ _ _ _ _ _ hr hcb hlen hbs h => ctrSession_undo hr hcb hlen hbs h⟩

/-! GCM. -/

/-- R223: every string equals itself. -/
theorem tagDiff_self (d : Byte) (T : Bytes) : tagDiff d T T = d := by
  induction T generalizing d with
  | nil => rfl
  | cons B T ih => rw [tagDiff, ih, BitVec.xor_self, BitVec.or_zero]

theorem tagEqual_self (T : Bytes) : tagEqual T T = true := by
  rw [tagEqual, tagDiff_self, beq_self_eq_true]

/-- R220, R222: the last partial block. -/
theorem gcmPartial_undo {K : Cipher} {H r Y : Bytes} {a a' : GcmAcc} (hcb : a.cb.length = 16) (hr : r.length ≤ 16)
    (h : gcmEncPartial K H a r = .ok (a', Y)) : Y.length = r.length ∧ gcmDecPartial K H a Y = .ok (a', r) := by
  by_cases hnil : r = []
  · rw [hnil, gcmEncPartial_nil] at h
    cases h
    exact ⟨by rw [hnil], by rw [hnil]; rfl⟩
  rw [gcmEncPartial_partial K H a hnil] at h
  obtain ⟨KS, hKS, h⟩ := Run.bind_ok.mp h
  cases h
  have hlen : KS.length = 16 := by simpa [hcb] using cipherEnc_length hKS
  obtain ⟨hY, hundo⟩ := xorBytes_take_undo (KS := KS) (hr.trans hlen.ge)
  have hne : (xorBytes r (KS.take r.length)).isEmpty = false := by simpa [← List.length_eq_zero_iff, hY] using hnil
  refine ⟨hY, ?_⟩
  simp only [gcmDecPartial, hne, Bool.false_eq_true, if_false, hKS, Run.pure_bind, hY, hundo]

/-- R221: the tag is made from neither the remainder nor the look-ahead buffer. -/
theorem gcmTag_pending {K : Cipher} {H T : Bytes} {x y : Session} {a : GcmAcc} (r la : Option Bytes)
    (h : gcmTag K H x a = .ok (y, T)) : ∃ y', gcmTag K H { x with remainder := r, la := la } a = .ok (y', T) := by
  obtain ⟨l, J, M, hl, hJ, hM, -, rfl⟩ := gcmTag_ok h
  simp only [gcmTag_some (x := { x with remainder := r, la := la }) K H a hl hJ, hM, Run.pure_bind]
  exact ⟨_, rfl⟩

/-- R222: FINISH of decryption from its parts, the tag received being the tag computed. -/
theorem gcmFinishDec_of_parts {K : Cipher} {c : ModeContext} {H r P T : Bytes} {a a' : GcmAcc} {x : Session} {g : Nat}
    (hH : c.sess.H = some H) (ha : gcmAcc c = .ok a) (hg : c.sess.tagLen = some g)
    (hP : gcmDecPartial K H a r = .ok (a', P)) (hT : gcmTag K H c.sess a' = .ok (x, T)) :
    gcmFinishDec K c r (T.take g) = .ok (x, P) := by
  simp [gcmFinishDec, hH, ha, tagLen_some hg, hP, hT, tagEqual_self]
  rfl

/-- R221, R222: FINISH of decryption on what FINISH of encryption answers, cut into the last bytes and the tag. -/
theorem gcmFinish_undo {K : Cipher} {c : ModeContext} {r out J cb : Bytes} {x : Session} {g : Nat}
    (h : gcmFinishEnc K c r = .ok (x, out)) (hg : c.sess.tagLen = some g) (hg16 : g ≤ 16) (hJ : c.sess.J0 = some J)
    (hJ16 : J.length = 16) (hcb : c.sess.cb = some cb) (hcb16 : cb.length = 16) (hr : r.length ≤ 16) :
    ∃ Y T, out = Y ++ T ∧ Y.length = r.length ∧ T.length = g ∧ ∀ r' la',
      ∃ y, gcmFinishDec K (c.withSess { c.sess with remainder := r', la := la' }) Y T = .ok (y, r) := by
  obtain ⟨H, a, g', a', Y, T, hH, ha, hg', hY, hT, rfl⟩ := gcmFinishEnc_ok h
  cases hg.symm.trans hg'
  have ha16 : a.cb.length = 16 := by
    cases hcb.symm.trans (gcmAcc_ok.mp ha).1
    exact hcb16
  obtain ⟨hlen, hundo⟩ := gcmPartial_undo ha16 hr hY
  refine ⟨Y, T.take g, rfl, hlen, by simp [gcmTag_length hJ hJ16 hT, hg16], fun r' la' => ?_⟩
  obtain ⟨y, hT'⟩ := gcmTag_pending r' la' hT
  exact ⟨y, gcmFinishDec_of_parts hH ha hg hundo hT'⟩

theorem gcmDecBody_some {K : Cipher} {c : ModeContext} {la H : Bytes} {g : Nat} {a : GcmAcc} (data : Bytes)
    (hla : c.sess.la = some la) (hg : c.sess.tagLen = some g) (hH : c.sess.H = some H) (ha : gcmAcc c = .ok a) :
    gcmDecBody K c data = (do
      let (a', Ps) ← gcmDecLoop K H a (blocksOf 16 (releasedBlocks (la ++ data).length g) (la ++ data))
      .ok ({ c.sess.withAcc a' with la := some ((la ++ data).drop (releasedBlocks (la ++ data).length g * 16)) },
        Ps.flatten)) := by
  rw [gcmDecBody, hH, need_some, Run.pure_bind, ha, Run.pure_bind, hla, need_some, Run.pure_bind, tagLen_some hg,
    Run.pure_bind, Nat.mul_comm _ 16]

/-- R219: of `n` whole blocks, a shorter rest and the tag, exactly the whole blocks are released. -/
theorem releasedBlocks_of_parts {t n r g : Nat} (ht : t = 16 * n + r + g) (hr : r < 16) : releasedBlocks t g = n := by
  unfold releasedBlocks
  split <;> omega

/-- R222: FINISH of decryption with the last bytes and the tag pending. -/
theorem finishGcmDecBody_append {K : Cipher} {c : ModeContext} {Y T : Bytes} (hla : c.sess.la = some (Y ++ T))
    (hg : c.sess.tagLen = some T.length) : finishGcmDecBody K c = gcmFinishDec K c Y T := by
  have hY : (Y ++ T).length - T.length = Y.length := by simp
  have hle : decide (T.length ≤ (Y ++ T).length) = true := by simp
  rw [finishGcmDecBody, hla, need_some, Run.pure_bind, tagLen_some hg, Run.pure_bind, hY, hle, List.take_left,
    List.drop_left]
  rfl

/-- Settles O43: the loop, the last partial block and the tag undo themselves in turn. -/
theorem gcmRoundTrip : Obligations.GcmRoundTrip := by
  intro K c M out J cb x g hr hg hg16 hJ hJ16 hcb hcb16 h
  obtain ⟨z, o1, o2, h1, h2, rfl⟩ := lastBody_ok h
  obtain ⟨H, hH, h1⟩ := Run.bind_ok.mp h1
  obtain ⟨a, ha, h1⟩ := Run.bind_ok.mp h1
  rw [assemble_some _ _ hr, Run.pure_bind] at h1
  obtain ⟨⟨a', Cs⟩, hC, h1⟩ := Run.bind_ok.mp h1
  cases h1
  replace hH := need_eq_ok.mp hH
  have ha16 : a.cb.length = 16 := by
    cases hcb.symm.trans (gcmAcc_ok.mp ha).1
    exact hcb16
  simp only [List.nil_append] at hC h2
  obtain ⟨hn, hCs, hundo⟩ := gcmLoop_undo ha16 (fun X hX => length_blocks hX) hC
  rw [blocksOf_length] at hn
  have hrest := length_rest (bs := 16) (by decide) M
  have ha16' : a'.cb.length = 16 := by rw [(gcmEncLoop_moved hC).cb, incLow_iterate_length, ha16]
  replace h2 : gcmFinishEnc K (c.withSess _) (M.drop (M.length / 16 * 16)) = .ok (x, o2) := h2
  obtain ⟨Y, T, rfl, hY, hT, hfinish⟩ := gcmFinish_undo h2 hg hg16 hJ hJ16 rfl ha16' hrest.le
  obtain ⟨y, hy⟩ := hfinish c.sess.remainder (some (Y ++ T))
  have hreleased : releasedBlocks (Cs.flatten ++ (Y ++ T)).length g = M.length / 16 :=
    releasedBlocks_of_parts (by simp [length_flatten_of_blocks hCs, hn, hT]; omega) (hY.trans_lt hrest)
  have hla := gcmDecBody_some (K := K) (c := c.withSess { c.sess with la := some [] }) (Cs.flatten ++ (Y ++ T)) rfl
    hg hH ha
  rw [List.nil_append, hreleased, ← hn, blocksOf_flatten_append hCs, hundo, Run.pure_bind,
    drop_flatten_append hCs] at hla
  subst hT
  refine ⟨y, (lastBody_of_parts (o2 := M.drop (M.length / 16 * 16)) hla ?_).trans (by rw [flatten_blocksOf])⟩
  change finishGcmDecBody K _ = _
  rw [finishGcmDecBody_append (Y := Y) (T := T)]
  exacts [hy, rfl, hg]

end Sys2Proof.Machine
end

section
/-! R138: a message in two chunks or in one. Every PROCESS body takes whole blocks from the front of the pending bytes
through a loop. Such a loop splits where a list of blocks splits, and the blocks that two chunks complete one after the
other are those of both together. -/

namespace Sys2Proof.Machine

/-- R138: the law, for a PROCESS body and a context. -/
def Chunks (body : ModeContext → Bytes → Run (Session × Bytes)) (c : ModeContext) : Prop :=
  ∀ A B, body c (A ++ B) = (do
    let (x, o) ← body c A
    let (y, o') ← body (c.withSess x) B
    .ok (y, o ++ o'))

/-- A body that reads a field without a value stops alike on every chunk. -/
theorem Chunks.of_error {body : ModeContext → Bytes → Run (Session × Bytes)} {c : ModeContext} {e : Stop}
    (h : ∀ data, body c data = .error e) : Chunks body c := fun A B => by
  rw [h, h]
  rfl

/-! Loops. -/

section
variable {α : Type} {loop : α → List Bytes → Run (α × List Bytes)}

/-- A loop that carries a value of `α` from block to block goes on where it left off. -/
def Splits (loop : α → List Bytes → Run (α × List Bytes)) : Prop :=
  ∀ a Xs Ys, loop a (Xs ++ Ys) = (do
    let (b, Us) ← loop a Xs
    let (b', Vs) ← loop b Ys
    .ok (b', Us ++ Vs))

/-- So does every loop that takes one block after another. -/
theorem Splits.of_step {step : α → Bytes → Run (α × Bytes)} (hnil : ∀ a, loop a [] = .ok (a, []))
    (hcons : ∀ a X Xs, loop a (X :: Xs) = (do
      let (b, Y) ← step a X
      let (b', Ys) ← loop b Xs
      .ok (b', Y :: Ys))) : Splits loop := by
  intro a Xs Ys
  induction Xs generalizing a with
  | nil =>
    rw [List.nil_append, hnil, Run.pure_bind]
    exact (bind_pure _).symm
  | cons X Xs ih => simp [hcons, ih, bind_assoc]

theorem ecbLoop_splits (F : Bytes → Run Bytes) :
    Splits (fun (u : Unit) Xs => do
      let Ys ← ecbLoop F Xs
      .ok (u, Ys)) :=
  .of_step (step := fun u X => do
    let Y ← F X
    .ok (u, Y)) (fun _ => rfl) fun _ _ _ => by simp [ecbLoop, bind_assoc]

theorem cbcEncLoop_splits (K : Cipher) : Splits (cbcEncLoop K) :=
  .of_step (step := fun cb P => do
    let Y ← cipherEnc K (xorBytes P cb)
    .ok (Y, Y)) (fun _ => rfl) fun _ _ _ => by simp [cbcEncLoop, bind_assoc]

theorem cbcDecLoop_splits (K : Cipher) : Splits (cbcDecLoop K) :=
  .of_step (step := fun cb X => do
    let Y ← cipherDec K X
    .ok (X, xorBytes Y cb)) (fun _ => rfl) fun _ _ _ => by simp [cbcDecLoop, bind_assoc]

theorem ctrLoop_splits (K : Cipher) (n : Nat) : Splits (ctrLoop K n) :=
  .of_step (step := fun cb X => do
    let KS ← cipherEnc K cb
    .ok (incLow n cb, xorBytes X KS)) (fun _ => rfl) fun _ _ _ => by simp [ctrLoop, bind_assoc]

theorem gcmEncLoop_splits (K : Cipher) (H : Bytes) : Splits (gcmEncLoop K H) :=
  .of_step (step := fun a P => do
    let KS ← cipherEnc K (incLow 32 a.cb)
    .ok (⟨incLow 32 a.cb, ghashAcc H a.ghash (xorBytes P KS), a.processed + 16⟩, xorBytes P KS)) (fun _ => rfl)
    fun _ _ _ => by simp [gcmEncLoop, bind_assoc]

theorem gcmDecLoop_splits (K : Cipher) (H : Bytes) : Splits (gcmDecLoop K H) :=
  .of_step (step := fun a X => do
    let KS ← cipherEnc K (incLow 32 a.cb)
    .ok (⟨incLow 32 a.cb, ghashAcc H a.ghash X, a.processed + 16⟩, xorBytes X KS)) (fun _ => rfl)
    fun _ _ _ => by simp [gcmDecLoop, bind_assoc]

/-! Pending bytes. -/

/-- How many whole blocks of `bs` bytes a rule takes of `t` pending bytes: never more than there are, and the blocks
that two chunks complete one after the other are those of both together. -/
structure TakesBlocks (bs : Nat) (taken : Nat → Nat) : Prop where
  le : ∀ t, taken t * bs ≤ t
  add : ∀ t l, taken (t + l) = taken t + taken (t - taken t * bs + l)

/-- R131: all whole blocks. -/
theorem takesBlocks_div (bs : Nat) : TakesBlocks bs (· / bs) := by
  refine ⟨fun t => Nat.div_mul_le_self t bs, fun t l => ?_⟩
  rcases Nat.eq_zero_or_pos bs with rfl | hbs
  · simp
  have hle := Nat.div_mul_le_self t bs
  rw [show t + l = t - t / bs * bs + l + t / bs * bs by omega, Nat.add_mul_div_right _ _ hbs, Nat.add_comm]

/-- R219: the whole blocks that `g` bytes follow. -/
theorem takesBlocks_released (g : Nat) : TakesBlocks 16 fun t => releasedBlocks t g := by
  constructor
  · intro t
    have := (releasedBlocks_bounds t g).1
    omega
  · intro t l
    simp only [releasedBlocks]
    split_ifs <;> omega

variable {bs : Nat} {taken : Nat → Nat}

/-- The blocks taken of a buffer and a chunk behind it. -/
theorem TakesBlocks.blocksOf_append (h : TakesBlocks bs taken) (buf B : Bytes) :
    let rest := buf.drop (taken buf.length * bs)
    blocksOf bs (taken (buf ++ B).length) (buf ++ B) =
      blocksOf bs (taken buf.length) buf ++ blocksOf bs (taken (rest ++ B).length) (rest ++ B) := by
  have hle := h.le buf.length
  simp only [List.length_append, List.length_drop]
  rw [h.add, blocksOf_add, Machine.blocksOf_append _ hle, List.drop_append_of_le_length hle]

/-- What is left of them. -/
theorem TakesBlocks.drop_append (h : TakesBlocks bs taken) (buf B : Bytes) :
    let rest := buf.drop (taken buf.length * bs)
    (buf ++ B).drop (taken (buf ++ B).length * bs) = (rest ++ B).drop (taken (rest ++ B).length * bs) := by
  have hle := h.le buf.length
  simp only [List.length_append, List.length_drop]
  rw [h.add, Nat.add_mul, ← List.drop_drop, List.drop_append_of_le_length hle]

/-- R138: the law for a body that sends the blocks it takes through a loop; `S` is the session after it, with the
value the loop carries and the bytes left. -/
theorem Chunks.of_loop {body : ModeContext → Bytes → Run (Session × Bytes)} {c : ModeContext} {a : α} {r : Bytes}
    {S : α → Bytes → Session} (hS : Splits loop) (hT : TakesBlocks bs taken)
    (h0 : ∀ data, body c data = (do
      let (b, Ys) ← loop a (blocksOf bs (taken (r ++ data).length) (r ++ data))
      .ok (S b ((r ++ data).drop (taken (r ++ data).length * bs)), Ys.flatten)))
    (h1 : ∀ a r data, body (c.withSess (S a r)) data = (do
      let (b, Ys) ← loop a (blocksOf bs (taken (r ++ data).length) (r ++ data))
      .ok (S b ((r ++ data).drop (taken (r ++ data).length * bs)), Ys.flatten))) : Chunks body c := by
  intro A B
  rw [h0, h0, ← List.append_assoc, hT.blocksOf_append (r ++ A), hT.drop_append (r ++ A), hS]
  simp [h1, bind_assoc]

end

/-! The bodies. -/

theorem ecbBody_chunks (F : Bytes → Run Bytes) (c : ModeContext) : Chunks (ecbBody F) c := by
  cases hr : c.sess.remainder with
  | none => exact .of_error fun _ => by rw [ecbBody, assemble, hr]; rfl
  | some r =>
    refine .of_loop (a := ()) (S := fun _ rest => { c.sess with remainder := some rest }) (ecbLoop_splits F)
      (takesBlocks_div c.blockSize) (r := r) (fun data => ?_) fun _ r data => ?_
    · rw [ecbBody_some data hr]
      simp [bind_assoc]
    · rw [ecbBody_some (r := r) data rfl]
      simp [bind_assoc]

theorem cbcBody_chunks {loop : Bytes → List Bytes → Run (Bytes × List Bytes)} (hS : Splits loop)
    (c : ModeContext) : Chunks (cbcBody loop) c := by
  cases hcb : c.sess.cb with
  | none => exact .of_error fun _ => by rw [cbcBody, hcb]; rfl
  | some cb =>
    cases hr : c.sess.remainder with
    | none => exact .of_error fun _ => by rw [cbcBody, hcb, need_some, Run.pure_bind, assemble, hr]; rfl
    | some r =>
      exact .of_loop (S := fun cb rest => { c.sess with cb := some cb, remainder := some rest }) hS
        (takesBlocks_div c.blockSize) (fun data => cbcBody_some data hr hcb) fun cb r data =>
          cbcBody_some data rfl rfl

theorem ctrBody_chunks (K : Cipher) (c : ModeContext) : Chunks (ctrBody K) c := by
  cases hcb : c.sess.cb with
  | none => exact .of_error fun _ => by rw [ctrBody, hcb]; rfl
  | some cb =>
    cases hb : c.sess.ctrBits with
    | none => exact .of_error fun _ => by rw [ctrBody, hcb, need_some, Run.pure_bind, hb]; rfl
    | some b =>
      cases hr : c.sess.remainder with
      | none =>
        exact .of_error fun _ => by
          rw [ctrBody, hcb, need_some, Run.pure_bind, hb, need_some, Run.pure_bind, assemble, hr]
          rfl
      | some r =>
        exact .of_loop (S := fun cb rest => { c.sess with cb := some cb, remainder := some rest })
          (ctrLoop_splits K b) (takesBlocks_div c.blockSize) (fun data => ctrBody_some data hr hcb hb)
          fun cb r data => ctrBody_some data rfl rfl hb

theorem gcmEncBody_chunks (K : Cipher) (c : ModeContext) : Chunks (gcmEncBody K) c := by
  cases hH : c.sess.H with
  | none => exact .of_error fun _ => by rw [gcmEncBody, hH]; rfl
  | some H =>
    cases ha : gcmAcc c with
    | error e => exact .of_error fun _ => by rw [gcmEncBody, hH, need_some, Run.pure_bind, ha]; rfl
    | ok a =>
      cases hr : c.sess.remainder with
      | none =>
        exact .of_error fun _ => by
          rw [gcmEncBody, hH, need_some, Run.pure_bind, ha, Run.pure_bind, assemble, hr]
          rfl
      | some r =>
        exact .of_loop (S := fun a rest => { c.sess.withAcc a with remainder := some rest }) (gcmEncLoop_splits K H)
          (takesBlocks_div 16) (fun data => gcmEncBody_some data hr hH ha) fun a r data =>
            gcmEncBody_some data rfl hH (gcmAcc_ok.mpr ⟨rfl, rfl, rfl⟩)

theorem gcmDecBody_chunks (K : Cipher) (c : ModeContext) : Chunks (gcmDecBody K) c := by
  cases hH : c.sess.H with
  | none => exact .of_error fun _ => by rw [gcmDecBody, hH]; rfl
  | some H =>
    cases ha : gcmAcc c with
    | error e => exact .of_error fun _ => by rw [gcmDecBody, hH, need_some, Run.pure_bind, ha]; rfl
    | ok a =>
      cases hla : c.sess.la with
      | none =>
        exact .of_error fun _ => by
          rw [gcmDecBody, hH, need_some, Run.pure_bind, ha, Run.pure_bind, hla]
          rfl
      | some la =>
        cases hg : c.sess.tagLen with
        | none =>
          exact .of_error fun _ => by
            rw [gcmDecBody, hH, need_some, Run.pure_bind, ha, Run.pure_bind, hla, need_some, Run.pure_bind, tagLen, hg]
            rfl
        | some g =>
          exact .of_loop (S := fun a rest => { c.sess.withAcc a with la := some rest }) (gcmDecLoop_splits K H)
            (takesBlocks_released g) (fun data => gcmDecBody_some data hla hg hH ha) fun a r data =>
              gcmDecBody_some data rfl hg hH (gcmAcc_ok.mpr ⟨rfl, rfl, rfl⟩)

theorem gmacEncBody_chunks (K : Cipher) (c : ModeContext) : Chunks (gmacEncBody K) c := fun _ _ => rfl

theorem gmacDecBody_chunks (K : Cipher) (c : ModeContext) : Chunks (gmacDecBody K) c := by
  cases hla : c.sess.la with
  | none => exact .of_error fun _ => by rw [gmacDecBody, hla]; rfl
  | some la =>
    intro A B
    simp [gmacDecBody, hla]

theorem processBody_chunks (K : Cipher) (c : ModeContext) (m : Mode) (d : Dir) :
    Chunks ((processRuleOf m d).body K) c :=
  match m, d with
  | .ecb, .enc => ecbBody_chunks _ c
  | .ecb, .dec => ecbBody_chunks _ c
  | .cbc, .enc => cbcBody_chunks (cbcEncLoop_splits K) c
  | .cbc, .dec => cbcBody_chunks (cbcDecLoop_splits K) c
  | .ctr, _ => ctrBody_chunks K c
  | .gcm, .enc => gcmEncBody_chunks K c
  | .gcm, .dec => gcmDecBody_chunks K c
  | .gmac, .enc => gmacEncBody_chunks K c
  | .gmac, .dec => gmacDecBody_chunks K c

/-- Settles O44: the law of each body. -/
theorem chunkingInvariance : Obligations.ChunkingInvariance := by
  intro K c m d A B
  rw [processBody_chunks K c m d A B]
  cases (processRuleOf m d).body K c A with
  | error e => rfl
  | ok r =>
    simp only [Run.pure_bind]
    cases (processRuleOf m d).body K (c.withSess r.1) B <;> rfl

end Sys2Proof.Machine
end

section
/-! R136, R137: the fast routes. Each bulk entry is the loop over the blocks of its input, joined; the counters of a
run that does not wrap are consecutive numbers. -/

namespace Sys2Proof.Machine

/-! Counters that do not wrap. -/

section
variable {b n : Nat} {cb : Bytes}

/-- R191: below the wrap the whole block, read as a number, can be counted up. -/
theorem beNat_add_lt (hb : b ≤ 8 * cb.length) (h : lowField b cb + n < 2 ^ b) : beNat cb + n < 256 ^ cb.length := by
  obtain ⟨q, hq⟩ : 2 ^ b ∣ 256 ^ cb.length := by
    rw [show 256 = 2 ^ 8 from rfl, ← Nat.pow_mul]
    exact Nat.pow_dvd_pow 2 hb
  have hlt : beNat cb / 2 ^ b < q := Nat.div_lt_of_lt_mul (hq ▸ beNat_lt cb)
  have hdiv := Nat.div_add_mod (beNat cb) (2 ^ b)
  have hmul := Nat.mul_le_mul_left (2 ^ b) (Nat.succ_le_of_lt hlt)
  rw [Nat.mul_succ] at hmul
  rw [lowField] at h
  omega

/-- R190, R224: so one addition replaces the increments. -/
theorem incLow_iterate_eq (hb : b ≤ 8 * cb.length) (h : lowField b cb + n < 2 ^ b) :
    (incLow b)^[n] cb = beBytes cb.length (beNat cb + n) := by
  induction n with
  | zero => exact (beBytes_beNat cb).symm
  | succ n ih =>
    have hn : lowField b cb + n < 2 ^ b := by omega
    have hlow : (beNat cb + n) % 2 ^ b = lowField b cb + n := by
      rw [Nat.add_mod, Nat.mod_eq_of_lt (show n < 2 ^ b by omega)]
      exact Nat.mod_eq_of_lt hn
    have hle := Nat.mod_le (beNat cb + n) (2 ^ b)
    rw [Function.iterate_succ_apply', ih hn, incLow, beBytes_length, beNat_beBytes,
      Nat.mod_eq_of_lt (beNat_add_lt hb hn), hlow, Nat.mod_eq_of_lt (show lowField b cb + n + 1 < 2 ^ b from h)]
    congr 1
    omega

/-- R196: the counters of `n` blocks from `cb` on. -/
theorem counters_eq (hb : b ≤ 8 * cb.length) (h : lowField b cb + n < 2 ^ b) :
    counters b cb n = (List.range' (beNat cb) n).map (beBytes cb.length) := by
  refine List.ext_getElem (by simp) fun i hi _ => ?_
  rw [List.length_iterate] at hi
  simp [incLow_iterate_eq hb (show lowField b cb + i < 2 ^ b by omega)]

/-- R224: the counters of `n` blocks after `cb`. -/
theorem counters_incLow_eq (hb : b ≤ 8 * cb.length) (h : lowField b cb + n < 2 ^ b) :
    counters b (incLow b cb) n = (List.range' (beNat cb + 1) n).map (beBytes cb.length) := by
  refine List.ext_getElem (by simp) fun i hi _ => ?_
  rw [List.length_iterate] at hi
  simp [← Function.iterate_succ_apply, incLow_iterate_eq hb (show lowField b cb + (1 + i) < 2 ^ b by omega),
    Nat.add_assoc, Nat.add_comm i]

end

/-! The bulk entries. -/

theorem bulkBlocks_eq (F : Bytes → Run Bytes) (bs n : Nat) (data : Bytes) :
    bulkBlocks F bs n data = (do
      let Ys ← ecbLoop F (blocksOf bs n data)
      .ok Ys.flatten) := by
  induction n generalizing data with
  | zero => rfl
  | succ n ih => simp [bulkBlocks, blocksOf, ecbLoop, ih, bind_assoc]

theorem keystreamRun_eq (K : Cipher) (bs n base : Nat) :
    keystreamRun K bs n base = (do
      let KS ← ecbLoop (cipherEnc K) ((List.range' base n).map (beBytes bs))
      .ok KS.flatten) := by
  induction n generalizing base with
  | zero => rfl
  | succ n ih => simp [keystreamRun, List.range'_succ, ecbLoop, ih, bind_assoc]

theorem bulkCbc_eq (K : Cipher) (bs n : Nat) (cb data : Bytes) :
    bulkCbc K bs n cb data = (do
      let (_, Ys) ← cbcEncLoop K cb (blocksOf bs n data)
      .ok Ys.flatten) := by
  induction n generalizing cb data with
  | zero => rfl
  | succ n ih => simp [bulkCbc, blocksOf, cbcEncLoop, ih, bind_assoc]

/-- R171: what the CBC encryption loop answers: as many blocks, and the last one chains on. -/
theorem cbcEncLoop_blocks {K : Cipher} {bs : Nat} {cb cb' : Bytes} {Xs Ys : List Bytes} (hcb : cb.length = bs)
    (hX : ∀ X ∈ Xs, X.length = bs) (h : cbcEncLoop K cb Xs = .ok (cb', Ys)) :
    Ys.length = Xs.length ∧ (∀ Y ∈ Ys, Y.length = bs) ∧ cb' = Ys.getLastD cb := by
  induction Xs generalizing cb Ys with
  | nil => cases h; simp
  | cons X Xs ih =>
    obtain ⟨hX, hXs⟩ := List.forall_mem_cons.mp hX
    obtain ⟨Y, hY, h⟩ := Run.bind_ok.mp h
    obtain ⟨⟨b, Zs⟩, hZ, h⟩ := Run.bind_ok.mp h
    cases h
    have hlen : Y.length = bs := by rw [cipherEnc_length hY, xorBytes_length, hX, hcb, Nat.min_self]
    obtain ⟨hZlen, hZs, hlast⟩ := ih hlen hXs hZ
    exact ⟨congrArg (· + 1) hZlen, List.forall_mem_cons.mpr ⟨hlen, hZs⟩, by rw [List.getLastD_cons, hlast]⟩

/-- R174: the last of a string of blocks behind `cb`. -/
theorem drop_append_flatten {bs : Nat} {cb : Bytes} {Ys : List Bytes} (hcb : cb.length = bs)
    (hY : ∀ Y ∈ Ys, Y.length = bs) : (cb ++ Ys.flatten).drop (Ys.length * bs) = Ys.getLastD cb := by
  induction Ys generalizing cb with
  | nil => simp
  | cons Y Ys ih =>
    obtain ⟨hY, hYs⟩ := List.forall_mem_cons.mp hY
    rw [List.length_cons, Nat.succ_mul, Nat.add_comm, ← List.drop_drop, List.drop_left' hcb, List.flatten_cons,
      ih hY hYs, List.getLastD_cons]

/-! The fast routes against the bodies. -/

/-- R136: an input of whole blocks leaves nothing over. -/
theorem drop_aligned {bs : Nat} {data : Bytes} (h : data.length % bs = 0) :
    data.drop (data.length / bs * bs) = [] := by
  rw [Nat.div_mul_cancel (Nat.dvd_of_mod_eq_zero h), List.drop_length]

/-- It is made of them. -/
theorem flatten_aligned {bs : Nat} {data : Bytes} (h : data.length % bs = 0) :
    (blocksOf bs (data.length / bs) data).flatten = data := by
  have hcut := flatten_blocksOf bs (data.length / bs) data
  rwa [drop_aligned h, List.append_nil] at hcut

/-- R224: the blocks at the front of a longer input. -/
theorem take_blocks {bs n : Nat} {data : Bytes} (h : n * bs ≤ data.length) :
    data.take (n * bs) = (blocksOf bs n data).flatten := by
  conv_lhs => rw [← flatten_blocksOf bs n data]
  exact List.take_left' ((blocksOf_flatten_length h).trans (Nat.mul_comm _ _))

section
variable {K : Cipher} {c : ModeContext} {data : Bytes}

/-- R154: ECB. -/
theorem ecbFast_eq (F : Bytes → Run Bytes) (hr : c.sess.remainder = some []) (hal : data.length % c.blockSize = 0) :
    ecbFast F c data = ecbBody F c data := by
  rw [ecbFast, ecbBody_some data hr, List.nil_append, drop_aligned hal, bulkBlocks_eq, bind_assoc]
  rfl

/-- R174: CBC encryption. -/
theorem cbcEncFast_eq {cb : Bytes} (hr : c.sess.remainder = some []) (hal : data.length % c.blockSize = 0)
    (hcb : c.sess.cb = some cb) (hlen : cb.length = c.blockSize) :
    cbcEncFast K c data = cbcBody (cbcEncLoop K) c data := by
  rw [cbcBody_some data hr hcb, cbcEncFast, hcb, need_some, Run.pure_bind, List.nil_append, drop_aligned hal]
  simp only [bulkCbc_eq]
  cases hY : cbcEncLoop K cb (blocksOf c.blockSize (data.length / c.blockSize) data) with
  | error e => rfl
  | ok r =>
    obtain ⟨cb', Ys⟩ := r
    obtain ⟨hn, hYs, rfl⟩ := cbcEncLoop_blocks hlen (fun X hX => length_blocks hX) hY
    rw [blocksOf_length] at hn
    simp only [Run.pure_bind, ← hn, drop_append_flatten hlen hYs]

/-- R174: CBC decryption. -/
theorem cbcDecFast_eq {cb : Bytes} (hr : c.sess.remainder = some []) (hal : data.length % c.blockSize = 0)
    (hcb : c.sess.cb = some cb) (hlen : cb.length = c.blockSize) :
    cbcDecFast K c data = cbcBody (cbcDecLoop K) c data := by
  have hX : ∀ X ∈ blocksOf c.blockSize (data.length / c.blockSize) data, X.length = c.blockSize :=
    fun X hX => length_blocks hX
  have hlast := drop_append_flatten hlen hX
  rw [blocksOf_length, flatten_aligned hal] at hlast
  rw [cbcBody_some data hr hcb, cbcDecFast, hcb, need_some, Run.pure_bind, List.nil_append, drop_aligned hal,
    cbcDecLoop_eq]
  simp only [bulkBlocks_eq, hlast]
  cases hZ : ecbLoop (cipherDec K) (blocksOf c.blockSize (data.length / c.blockSize) data) with
  | error e => rfl
  | ok Zs =>
    simp only [Run.pure_bind]
    rw [flatten_zipWith_xorBytes (ecbLoop_blocks (.dec K) hX hZ).2 (List.forall_mem_cons.mpr ⟨hlen, hX⟩),
      List.flatten_cons, flatten_aligned hal]

/-- R196: CTR. -/
theorem ctrFast_eq {cb : Bytes} {b : Nat} (hr : c.sess.remainder = some []) (hal : data.length % c.blockSize = 0)
    (hcb : c.sess.cb = some cb) (hlen : cb.length = c.blockSize) (hb : c.sess.ctrBits = some b)
    (hb8 : b ≤ 8 * c.blockSize) (hwrap : lowField b cb + data.length / c.blockSize < 2 ^ b) :
    ctrFast K c data = ctrBody K c data := by
  have hX : ∀ X ∈ blocksOf c.blockSize (data.length / c.blockSize) data, X.length = c.blockSize :=
    fun X hX => length_blocks hX
  rw [← hlen] at hb8
  rw [ctrBody_some data hr hcb hb, ctrFast, hcb, need_some, Run.pure_bind, List.nil_append, drop_aligned hal,
    ctrLoop_eq, blocksOf_length, counters_eq hb8 hwrap, incLow_iterate_eq hb8 hwrap, hlen]
  simp only [keystreamRun_eq]
  cases hKS : ecbLoop (cipherEnc K)
      ((List.range' (beNat cb) (data.length / c.blockSize)).map (beBytes c.blockSize)) with
  | error e => rfl
  | ok KS =>
    have hK := (ecbLoop_blocks (.enc K) (List.forall_mem_map.mpr fun _ _ => beBytes_length _ _) hKS).2
    simp only [Run.pure_bind]
    rw [flatten_zipWith_xorBytes hX hK, flatten_aligned hal]

/-- R224: GCM encryption. -/
theorem gcmEncFast_eq {H : Bytes} {a : GcmAcc} (hr : c.sess.remainder = some []) (hal : data.length % 16 = 0)
    (hH : c.sess.H = some H) (ha : gcmAcc c = .ok a) (hlen : a.cb.length = 16)
    (hwrap : lowField 32 a.cb + data.length / 16 < 2 ^ 32) : gcmEncFast K c data = gcmEncBody K c data := by
  have hX : ∀ X ∈ blocksOf 16 (data.length / 16) data, X.length = 16 := fun X hX => length_blocks hX
  have hb : 32 ≤ 8 * a.cb.length := by omega
  rw [gcmEncBody_some data hr hH ha, gcmEncFast, hH, need_some, Run.pure_bind, ha, Run.pure_bind, List.nil_append,
    drop_aligned hal, gcmEncLoop_eq, blocksOf_length, counters_incLow_eq hb hwrap, hlen]
  simp only [keystreamRun_eq]
  cases hKS : ecbLoop (cipherEnc K) ((List.range' (beNat a.cb + 1) (data.length / 16)).map (beBytes 16)) with
  | error e => rfl
  | ok KS =>
    obtain ⟨hn, hK⟩ := ecbLoop_blocks (.enc K) (List.forall_mem_map.mpr fun _ _ => beBytes_length _ _) hKS
    have hY := length_of_mem_zipWith_xorBytes hX hK
    have hYn : (List.zipWith xorBytes (blocksOf 16 (data.length / 16) data) KS).length = data.length / 16 := by
      simp [hn]
    have hcut := blocksOf_flatten_append hY []
    rw [hYn, List.append_nil] at hcut
    have hflat := flatten_zipWith_xorBytes hX hK
    rw [flatten_aligned hal] at hflat
    simp only [Run.pure_bind, ← hflat, hcut, GcmAcc.after, hYn, incLow_iterate_eq hb hwrap, hlen]

/-- R224: GCM decryption, on the run that is released. -/
theorem gcmDecFast_eq {H : Bytes} {a : GcmAcc} {g : Nat} (hla : c.sess.la = some []) (hg : c.sess.tagLen = some g)
    (hH : c.sess.H = some H) (ha : gcmAcc c = .ok a) (hlen : a.cb.length = 16)
    (hwrap : lowField 32 a.cb + releasedBlocks data.length g < 2 ^ 32) :
    gcmDecFast K c data = gcmDecBody K c data := by
  have hle : releasedBlocks data.length g * 16 ≤ data.length := (takesBlocks_released g).le _
  have hX : ∀ X ∈ blocksOf 16 (releasedBlocks data.length g) data, X.length = 16 :=
    fun X => length_of_mem_blocksOf hle
  have hb : 32 ≤ 8 * a.cb.length := by omega
  have hcut := blocksOf_flatten_append hX []
  rw [blocksOf_length, List.append_nil] at hcut
  rw [gcmDecBody_some data hla hg hH ha, gcmDecFast, hH, need_some, Run.pure_bind, ha, Run.pure_bind, tagLen_some hg,
    Run.pure_bind, List.nil_append, gcmDecLoop_eq, blocksOf_length, counters_incLow_eq hb hwrap, hlen]
  simp only [keystreamRun_eq, Nat.mul_comm 16 (releasedBlocks _ _), take_blocks hle, hcut]
  cases hKS : ecbLoop (cipherEnc K)
      ((List.range' (beNat a.cb + 1) (releasedBlocks data.length g)).map (beBytes 16)) with
  | error e => rfl
  | ok KS =>
    have hK := (ecbLoop_blocks (.enc K) (List.forall_mem_map.mpr fun _ _ => beBytes_length _ _) hKS).2
    simp only [Run.pure_bind, GcmAcc.after, blocksOf_length, incLow_iterate_eq hb hwrap, hlen,
      flatten_zipWith_xorBytes hX hK, Nat.mul_comm 16 (releasedBlocks _ _)]

end

/-- R136, R137: on a ready context the conditions of the fast path make it give what the body gives. -/
theorem fastBody_eq {K : Cipher} {c : ModeContext} {p : Addr} {l : Len} {d : Dest} {data : Bytes}
    (h : ReadyContext c) (hl : data.length = l.toNat) (hfast : fastPathOk K c p l d = true) :
    fastBody K c data = (processRuleOf c.mode c.dir).body K c data := by
  obtain ⟨-, h⟩ := h
  have shape : bulkShape c p l d = true → c.sess.remainder = some [] ∧ data.length % c.blockSize = 0 := by
    intro hs
    simp only [bulkShape, Bool.and_eq_true, beq_iff_eq, ← hl] at hs
    exact hs.1
  unfold fastPathOk at hfast
  cases hm : c.mode with
  | ecb =>
    simp only [hm, Bool.and_eq_true] at hfast
    obtain ⟨hr, hal⟩ := shape hfast.1
    cases hd : c.dir <;> rw [fastBody, hm, hd] <;> exact ecbFast_eq _ hr hal
  | cbc =>
    rw [hm] at h
    obtain ⟨-, cb, hcb, hlen⟩ := h
    cases hd : c.dir with
    | enc =>
      simp only [hm, hd, Bool.and_eq_true] at hfast
      obtain ⟨hr, hal⟩ := shape hfast.1
      rw [fastBody, hm, hd]
      exact cbcEncFast_eq hr hal hcb hlen
    | dec =>
      simp only [hm, hd, Bool.and_eq_true] at hfast
      obtain ⟨hr, hal⟩ := shape hfast.1
      rw [fastBody, hm, hd]
      exact cbcDecFast_eq hr hal hcb hlen
  | ctr =>
    rw [hm] at h
    obtain ⟨-, ⟨cb, hcb, hlen⟩, b, hb, -, hb8⟩ := h
    simp only [hm, Bool.and_eq_true] at hfast
    obtain ⟨⟨hs, -⟩, hwrap⟩ := hfast
    obtain ⟨hr, hal⟩ := shape hs
    have hlow : lowField b cb < 2 ^ b := Nat.mod_lt _ (Nat.two_pow_pos b)
    simp only [ctrWrapPassed, blocksLeft, hb, hcb, need_some, Run.pure_bind, decide_eq_true_eq, ← hl] at hwrap
    cases hd : c.dir <;> rw [fastBody, hm, hd] <;> exact ctrFast_eq hr hal hcb hlen hb hb8 (by omega)
  | gcm =>
    rw [hm] at h
    obtain ⟨-, g, q, hg, h⟩ := h
    obtain ⟨H, a, hH, ha⟩ := hg.read
    have hlen := (hg.counter_length ha).1
    cases hd : c.dir with
    | enc =>
      simp only [hm, hd, Bool.and_eq_true, beq_iff_eq, noWrap32, (gcmAcc_ok.mp ha).1, decide_eq_true_eq, ← hl]
        at hfast
      obtain ⟨⟨⟨⟨hr, hal⟩, -⟩, -⟩, hwrap⟩ := hfast
      rw [fastBody, hm, hd]
      exact gcmEncFast_eq hr hal hH ha hlen hwrap
    | dec =>
      simp only [hm, hd, hg.tagLen, laEmpty, Bool.and_eq_true, beq_iff_eq, noWrap32, (gcmAcc_ok.mp ha).1,
        decide_eq_true_eq, ← hl] at hfast
      obtain ⟨⟨⟨hla, -⟩, -⟩, hwrap⟩ := hfast
      rw [fastBody, hm, hd]
      exact gcmDecFast_eq hla hg.tagLen hH ha hlen hwrap
  | gmac => simp [hm] at hfast

/-- Settles O45: nothing to write, or the fast path, or the body itself. -/
theorem fastPathEquivalence : Obligations.FastPathEquivalence := by
  intro K c p l d data n h hl hn _
  by_cases h0 : n = 0
  · rw [processRoute, if_pos h0]
    exact (processBody_buffered h (by rw [hl, hn, h0])).symm
  rw [processRoute, if_neg h0]
  split_ifs with hfast
  · exact fastBody_eq h hl hfast
  · rfl

end Sys2Proof.Machine
end

section
/-! R153, R173: FINISH in ECB and CBC. Both rows have one body: it tells a partial block from none and writes nothing,
so no sink that is well formed is too small for it. -/

namespace Sys2Proof.Machine

/-- A command that ends with OK and writes no byte leaves memory and the sink as they were. -/
theorem State.complete_nil (s : State) (k : BitVec 8) (c : ModeContext) (tg : Target) :
    s.complete k c tg [] = (s.setSlot k (.held c)).report .ok 0 tg.passedOff := by
  rw [State.complete, Target.emit_nil, List.length_nil, Target.offAfter_zero]
  rfl

/-- R173: FINISH does in CBC what it does in ECB; `cb` is not used. -/
theorem finishCbcBody_eq_finishEcbBody : finishCbcBody = finishEcbBody := rfl

/-- R153: only the remainder decides how the body of FINISH ends. -/
theorem finishEcbBody_some {c : ModeContext} {r : Bytes} (K : Cipher) (hr : c.sess.remainder = some r) :
    finishEcbBody K c = if r = [] then .ok (c.sess, []) else .error (.raise .lengthRange) := by
  rw [finishEcbBody, remainderLen_some hr, Run.pure_bind]
  cases r <;> rfl

/-- R142: `out_len` of FINISH is 0 in ECB and CBC, so the room check passes for every sink. -/
theorem finishChecks_blocks {P : Params} {c : ModeContext} {snk : SinkOperand} (hm : c.mode = .ecb ∨ c.mode = .cbc)
    (hst : c.state = .ready) (hwf : sinkWf P.segMax c.blockSize snk = true) : finishChecks P c snk = .ok 0 := by
  have hn : outLenFinish c = .ok 0 := by
    rcases hm with hm | hm <;> simp [outLenFinish, hm]
  exact finishChecks_ok.mpr ⟨hst, hwf, hn, by simp [Target.fits]⟩

/-- R153, R173, R283: the two ways the shared body ends, as the state they leave. -/
theorem finishAnswer_blocks {c : ModeContext} {r : Bytes} (s : State) (k : BitVec 8) (snk : SinkOperand) (K : Cipher)
    (hr : c.sess.remainder = some r) :
    finishAnswer s k c snk 0 (finishEcbBody K c) = .next ((s.setSlot k (.held { c with state := .closed })).report
      (if r = [] then .ok else .lengthRange) 0 snk.off.toNat) := by
  rw [finishEcbBody_some K hr]
  by_cases hnil : r = []
  · rw [if_pos hnil, if_pos hnil, finishAnswer, State.complete_nil]
    rfl
  · rw [if_neg hnil, if_neg hnil]
    rfl

/-- Settles O31: the checks of R132 pass, with no output to fit, and the body the two rows share ends the command. -/
theorem finishEcbCbcResult : Obligations.FinishEcbCbcResult := by
  intro s k snk c r hc hst hr hwf answer
  refine ⟨fun hm => ?_, fun hm => ?_⟩
  · have hchecks := finishChecks_blocks (.inl hm) hst hwf
    exact (runFinish_checked (R := finishEcbRule) hc (by simp [finishEcbRule, hm]) hchecks).trans
      (finishAnswer_blocks s k snk (Config.params.cipher c.ks) hr)
  · have hchecks := finishChecks_blocks (.inr hm) hst hwf
    refine (runFinish_checked (R := finishCbcRule) hc (by simp [finishCbcRule, hm]) hchecks).trans ?_
    rw [finishCbcRule, finishCbcBody_eq_finishEcbBody]
    exact finishAnswer_blocks s k snk (Config.params.cipher c.ks) hr

end Sys2Proof.Machine
end

section
/-! R171, R172: the CBC loops block by block. Each loop takes one block and goes on with that block's ciphertext as the
chaining value, so shifting the index by one turns the statement about the rest into the statement about the whole. -/

namespace Sys2Proof.Machine

/-- R171: one turn of the encryption loop; the block it writes chains on. -/
theorem cbcEncLoop_cons_ok {K : Cipher} {cb cb' P : Bytes} {Ps Ys : List Bytes} :
    cbcEncLoop K cb (P :: Ps) = .ok (cb', Ys) ↔
      ∃ Y Zs, Ys = Y :: Zs ∧ cipherEnc K (xorBytes P cb) = .ok Y ∧ cbcEncLoop K Y Ps = .ok (cb', Zs) := by
  simp only [cbcEncLoop, Run.bind_ok, Prod.exists, Except.ok.injEq, Prod.mk.injEq]
  constructor
  · rintro ⟨Y, hY, _, Zs, hZ, rfl, rfl⟩
    exact ⟨Y, Zs, rfl, hY, hZ⟩
  · rintro ⟨Y, Zs, rfl, hY, hZ⟩
    exact ⟨Y, hY, cb', Zs, hZ, rfl, rfl⟩

/-- R172: one turn of the decryption loop; the block it reads chains on. -/
theorem cbcDecLoop_cons_ok {K : Cipher} {cb cb' X : Bytes} {Xs Ps : List Bytes} :
    cbcDecLoop K cb (X :: Xs) = .ok (cb', Ps) ↔
      ∃ Y Qs, Ps = xorBytes Y cb :: Qs ∧ cipherDec K X = .ok Y ∧ cbcDecLoop K X Xs = .ok (cb', Qs) := by
  simp only [cbcDecLoop, Run.bind_ok, Prod.exists, Except.ok.injEq, Prod.mk.injEq]
  constructor
  · rintro ⟨Y, hY, _, Qs, hQ, rfl, rfl⟩
    exact ⟨Y, Qs, rfl, hY, hQ⟩
  · rintro ⟨Y, Qs, rfl, hY, hQ⟩
    exact ⟨Y, hY, cb', Qs, hQ, rfl, rfl⟩

/-- R170, R171: each ciphertext block is `E` of its plaintext block xored with the ciphertext block before it. -/
theorem cbcEncLoop_ok {K : Cipher} {cb cb' : Bytes} {Xs Ys : List Bytes} :
    cbcEncLoop K cb Xs = .ok (cb', Ys) ↔ Ys.length = Xs.length ∧ cb' = Ys.getLastD cb ∧
      ∀ j < Xs.length, cipherEnc K (xorBytes (Xs.getD j []) ((cb :: Ys).getD j [])) = .ok (Ys.getD j []) := by
  induction Xs generalizing cb Ys with
  | nil => cases Ys <;> simp [cbcEncLoop, eq_comm (a := cb)]
  | cons X Xs ih =>
    cases Ys with
    | nil => simp [cbcEncLoop_cons_ok]
    | cons Y Ys =>
      simp only [cbcEncLoop_cons_ok, ih, List.cons.injEq, List.length_cons, Nat.add_right_cancel_iff,
        List.getLastD_cons, Nat.forall_lt_succ_left, List.getD_cons_zero, List.getD_cons_succ]
      constructor
      · rintro ⟨_, _, ⟨rfl, rfl⟩, hY, hlen, hcb, hrest⟩
        exact ⟨hlen, hcb, hY, hrest⟩
      · rintro ⟨hlen, hcb, hY, hrest⟩
        exact ⟨Y, Ys, ⟨rfl, rfl⟩, hY, hlen, hcb, hrest⟩

/-- R172, R175: each plaintext block is `D` of its ciphertext block xored with the ciphertext block before it. -/
theorem cbcDecLoop_ok {K : Cipher} {cb cb' : Bytes} {Xs Ps : List Bytes} :
    cbcDecLoop K cb Xs = .ok (cb', Ps) ↔ Ps.length = Xs.length ∧ cb' = Xs.getLastD cb ∧
      ∀ j < Xs.length, ∃ Y, cipherDec K (Xs.getD j []) = .ok Y ∧
        Ps.getD j [] = xorBytes Y ((cb :: Xs).getD j []) := by
  induction Xs generalizing cb Ps with
  | nil => cases Ps <;> simp [cbcDecLoop, eq_comm (a := cb)]
  | cons X Xs ih =>
    cases Ps with
    | nil => simp [cbcDecLoop_cons_ok]
    | cons P Ps =>
      simp only [cbcDecLoop_cons_ok, ih, List.cons.injEq, List.length_cons, Nat.add_right_cancel_iff,
        List.getLastD_cons, Nat.forall_lt_succ_left, List.getD_cons_zero, List.getD_cons_succ]
      constructor
      · rintro ⟨Y, _, ⟨hP, rfl⟩, hY, hlen, hcb, hrest⟩
        exact ⟨hlen, hcb, ⟨Y, hY, hP⟩, hrest⟩
      · rintro ⟨hlen, hcb, ⟨Y, hY, hP⟩, hrest⟩
        exact ⟨Y, Ps, ⟨hP, rfl⟩, hY, hlen, hcb, hrest⟩

/-- Settles O37: the two loops, each by induction on its blocks. -/
theorem cbcChaining : Obligations.CbcChaining :=
  ⟨fun _ _ _ _ _ => cbcEncLoop_ok, fun _ _ _ _ _ => cbcDecLoop_ok⟩

end Sys2Proof.Machine
end

section
/-! R195: FINISH in CTR. The body reads the counter only for a partial block, and never increments it. -/

namespace Sys2Proof.Machine

/-- R195: the body on a context that holds what it reads. -/
theorem finishCtrBody_some {c : ModeContext} {r cb : Bytes} (K : Cipher) (hr : c.sess.remainder = some r)
    (hcb : c.sess.cb = some cb) :
    finishCtrBody K c = if r = [] then .ok (c.sess, []) else (do
      let KS ← cipherEnc K cb
      .ok (c.sess, xorBytes r (KS.take r.length))) := by
  rw [finishCtrBody, hr, need_some, Run.pure_bind, hcb]
  cases r <;> rfl

/-- Settles O32: the checks of R132 pass; then no call of `E` without a remainder, and one with it. -/
theorem finishCtrResult : Obligations.FinishCtrResult := by
  intro s k snk c r cb hc hm hst hr hcb hwf hfits
  have hn : outLenFinish c = .ok r.length := by simp [outLenFinish, hm, remainderLen_some hr]
  refine (runFinish_checked (R := finishCtrRule) hc (by simp [finishCtrRule, hm])
    (finishChecks_ok.mpr ⟨hst, hwf, hn, hfits⟩)).trans ?_
  rw [show finishCtrRule.body = finishCtrBody from rfl, finishCtrBody_some _ hr hcb]
  by_cases hnil : r = []
  · rw [if_pos hnil, if_pos hnil, finishAnswer, State.complete_nil]
    rfl
  · rw [if_neg hnil, if_neg hnil]
    cases hKS : cipherEnc (Config.params.cipher c.ks) cb with
    | error e =>
      obtain rfl := cipherEnc_error hKS
      rfl
    | ok KS => rfl

end Sys2Proof.Machine
end

section
/-! R194: the CTR loop block by block. -/

namespace Sys2Proof.Machine

/-- R194: one turn of the loop: the block goes under the counter, the rest under the incremented counter. -/
theorem ctrLoop_cons_ok {K : Cipher} {n : Nat} {cb cb' X : Bytes} {Xs Ys : List Bytes} :
    ctrLoop K n cb (X :: Xs) = .ok (cb', Ys) ↔
      ∃ KS Zs, Ys = xorBytes X KS :: Zs ∧ cipherEnc K cb = .ok KS ∧
        ctrLoop K n (incLow n cb) Xs = .ok (cb', Zs) := by
  simp only [ctrLoop, Run.bind_ok, Prod.exists, Except.ok.injEq, Prod.mk.injEq]
  constructor
  · rintro ⟨KS, hKS, _, Zs, hZ, rfl, rfl⟩
    exact ⟨KS, Zs, rfl, hKS, hZ⟩
  · rintro ⟨KS, Zs, rfl, hKS, hZ⟩
    exact ⟨KS, hKS, cb', Zs, hZ, rfl, rfl⟩

/-- R190, R194: block `j` goes under the counter incremented `j` times. -/
theorem ctrLoop_ok {K : Cipher} {n : Nat} {cb cb' : Bytes} {Xs Ys : List Bytes} :
    ctrLoop K n cb Xs = .ok (cb', Ys) ↔ Ys.length = Xs.length ∧ cb' = (incLow n)^[Xs.length] cb ∧
      ∀ j < Xs.length, ∃ KS, cipherEnc K ((incLow n)^[j] cb) = .ok KS ∧
        Ys.getD j [] = xorBytes (Xs.getD j []) KS := by
  induction Xs generalizing cb Ys with
  | nil => cases Ys <;> simp [ctrLoop, eq_comm (a := cb)]
  | cons X Xs ih =>
    cases Ys with
    | nil => simp [ctrLoop_cons_ok]
    | cons Y Ys =>
      simp only [ctrLoop_cons_ok, ih, List.cons.injEq, List.length_cons, Nat.add_right_cancel_iff,
        Function.iterate_succ_apply, Function.iterate_zero_apply, Nat.forall_lt_succ_left, List.getD_cons_zero,
        List.getD_cons_succ]
      constructor
      · rintro ⟨KS, _, ⟨hY, rfl⟩, hKS, hlen, hcb, hrest⟩
        exact ⟨hlen, hcb, ⟨KS, hKS, hY⟩, hrest⟩
      · rintro ⟨hlen, hcb, ⟨KS, hKS, hY⟩, hrest⟩
        exact ⟨KS, Ys, ⟨hY, rfl⟩, hKS, hlen, hcb, hrest⟩

/-- Settles O38: the loop, by induction on its blocks. -/
theorem ctrKeystream : Obligations.CtrKeystream :=
  fun _ _ _ _ _ _ => ctrLoop_ok

end Sys2Proof.Machine
end

section
/-! R192: `inc_n` on the number a block encodes. The block is the bits above the sub-field, counted in units of
`2^n`, and the sub-field; the increment changes the sub-field alone. -/

namespace Sys2Proof.Machine

variable {n : Nat} {B : Bytes}

/-- R191: the block without its sub-field. -/
theorem beNat_sub_lowField (n : Nat) (B : Bytes) : beNat B - lowField n B = 2 ^ n * (beNat B / 2 ^ n) :=
  Nat.sub_eq_of_eq_add (Nat.div_add_mod _ _).symm

/-- R192: the bits above stay, the sub-field goes up by one modulo `2^n`. No number outgrows the block. -/
theorem beNat_incLow (h : n ≤ 8 * B.length) :
    beNat (incLow n B) = 2 ^ n * (beNat B / 2 ^ n) + (lowField n B + 1) % 2 ^ n := by
  obtain ⟨q, hq⟩ : 2 ^ n ∣ 256 ^ B.length := by
    rw [show 256 = 2 ^ 8 from rfl, ← Nat.pow_mul]
    exact Nat.pow_dvd_pow 2 h
  have habove : beNat B / 2 ^ n < q := Nat.div_lt_of_lt_mul (hq ▸ beNat_lt B)
  have hlow : (lowField n B + 1) % 2 ^ n < 2 ^ n := Nat.mod_lt _ (Nat.two_pow_pos n)
  have hfits : 2 ^ n * (beNat B / 2 ^ n) + (lowField n B + 1) % 2 ^ n < 256 ^ B.length := calc
    _ < 2 ^ n * (beNat B / 2 ^ n + 1) := by rw [Nat.mul_succ]; omega
    _ ≤ 256 ^ B.length := hq ▸ Nat.mul_le_mul_left _ habove
  have hcut : beNat B - beNat B % 2 ^ n = 2 ^ n * (beNat B / 2 ^ n) := beNat_sub_lowField n B
  rw [incLow, beNat_beBytes, hcut]
  exact Nat.mod_eq_of_lt hfits

/-- R192: the sub-field after an increment. -/
theorem lowField_incLow (h : n ≤ 8 * B.length) : lowField n (incLow n B) = (lowField n B + 1) % 2 ^ n := by
  rw [lowField, beNat_incLow h, Nat.mul_add_mod, Nat.mod_mod]

/-- R192: the bits above the sub-field after an increment. -/
theorem highBits_incLow (h : n ≤ 8 * B.length) : beNat (incLow n B) / 2 ^ n = beNat B / 2 ^ n := by
  rw [beNat_incLow h, Nat.mul_add_div (Nat.two_pow_pos n),
    Nat.div_eq_of_lt (Nat.mod_lt _ (Nat.two_pow_pos n)), Nat.add_zero]

/-- Settles O40: the laws of the sub-field and of the bits above it, and the examples by evaluation. -/
theorem counterIncrement : Obligations.CounterIncrement := by
  refine ⟨fun n B _ h => ?_, by decide, by decide, by decide, by decide, by decide, by decide⟩
  exact ⟨incLow_length n B, (beNat_incLow h).trans (congrArg (· + _) (beNat_sub_lowField n B).symm),
    lowField_incLow h, highBits_incLow h⟩

end Sys2Proof.Machine
end

section
/-! R193, R230: no counter value twice. The sub-field counts the increments modulo `2^n`, so fewer than `2^n` of them
are distinct; the wrap check of CTR and the data limit of GCM keep a session below that. -/

namespace Sys2Proof.Machine

/-! Increments counted by the sub-field. -/

/-- R192: the sub-field after `i` increments. -/
theorem lowField_incLow_iterate {n : Nat} {B : Bytes} (h : n ≤ 8 * B.length) (i : Nat) :
    lowField n ((incLow n)^[i] B) = (lowField n B + i) % 2 ^ n := by
  induction i with
  | zero => exact (Nat.mod_mod _ _).symm
  | succ i ih =>
    rw [Function.iterate_succ_apply', lowField_incLow (by rwa [incLow_iterate_length]), ih, Nat.mod_add_mod,
      Nat.add_assoc]

/-- R193: fewer than `2^n` increments of a counter are distinct, also when the sub-field wraps. -/
theorem incLow_iterate_ne {n i j : Nat} {B : Bytes} (h : n ≤ 8 * B.length) (hij : i < j) (hj : j < 2 ^ n) :
    (incLow n)^[i] B ≠ (incLow n)^[j] B := by
  intro heq
  have hmod : lowField n B + i ≡ lowField n B + j [MOD 2 ^ n] := by
    have hlow := congrArg (lowField n) heq
    rwa [lowField_incLow_iterate h, lowField_incLow_iterate h] at hlow
  have : i = j := (Nat.ModEq.add_left_cancel' _ hmod).eq_of_lt_of_lt (hij.trans hj) hj
  omega

/-! Sessions. -/

/-- R129, R131: a session that goes on passed the length check of its first chunk and ran its body. -/
theorem sessionRun_cons_ok {R : ProcessRule} {K : Cipher} {c c' : ModeContext} {A : Bytes} {As : List Bytes} :
    sessionRun R K c (A :: As) = .ok c' ↔ R.lengthOk c A.length = .ok true ∧
      ∃ x out, R.body K c A = .ok (x, out) ∧ sessionRun R K (c.withSess x) As = .ok c' := by
  simp only [sessionRun, Run.bind_ok, Prod.exists, check_eq_ok]
  constructor
  · rintro ⟨_, hL, -, rfl, x, out, hb, hrest⟩
    exact ⟨hL, x, out, hb, hrest⟩
  · rintro ⟨hL, x, out, hb, hrest⟩
    exact ⟨true, hL, (), rfl, x, out, hb, hrest⟩

/-! CTR. -/

/-- R131, R194: a command moves the counter once for each whole block and keeps less than a block. -/
theorem ctrBody_moves {K : Cipher} {c : ModeContext} {r cb data out : Bytes} {n : Nat} {x : Session}
    (hr : c.sess.remainder = some r) (hcb : c.sess.cb = some cb) (hn : c.sess.ctrBits = some n) (hbs : 0 < c.blockSize)
    (h : ctrBody K c data = .ok (x, out)) :
    x.cb = some ((incLow n)^[(r.length + data.length) / c.blockSize] cb) ∧ x.ctrBits = some n ∧
      ∃ r', x.remainder = some r' ∧ r'.length < c.blockSize ∧
        c.blockSize * ((r.length + data.length) / c.blockSize) + r'.length = r.length + data.length := by
  rw [ctrBody_some data hr hcb hn] at h
  obtain ⟨⟨cb', Ys⟩, hY, h⟩ := Run.bind_ok.mp h
  cases h
  refine ⟨?_, hn, _, rfl, length_rest hbs _, length_drop_blocks _ _ _⟩
  rw [ctrLoop_cb hY, blocksOf_length, List.length_append]

/-- R193, R197: over a session the counter moves once for each whole block of all its chunks, and its sub-field never
wraps. -/
theorem ctrSession_counter {K : Cipher} {c c' : ModeContext} {chunks : List Bytes} {cb r : Bytes} {n : Nat}
    (hcb : c.sess.cb = some cb) (hn : c.sess.ctrBits = some n) (hr : c.sess.remainder = some r)
    (hlt : r.length < c.blockSize) (hb : n ≤ 8 * cb.length) (h : sessionRun processCtrRule K c chunks = .ok c') :
    c'.sess.cb = some ((incLow n)^[(r.length + (chunks.map List.length).sum) / c.blockSize] cb) ∧
      lowField n cb + (r.length + (chunks.map List.length).sum) / c.blockSize ≤ 2 ^ n - 1 := by
  have hlow : lowField n cb < 2 ^ n := Nat.mod_lt _ (Nat.two_pow_pos n)
  induction chunks generalizing c cb r with
  | nil =>
    cases h
    rw [List.map_nil, List.sum_nil, Nat.add_zero, Nat.div_eq_of_lt hlt]
    exact ⟨hcb, by omega⟩
  | cons A As ih =>
    obtain ⟨hL, x, out, hbody, hrest⟩ := sessionRun_cons_ok.mp h
    have hbs : 0 < c.blockSize := by omega
    obtain ⟨hcb', hn', r', hr', hlt', hsum⟩ := ctrBody_moves hr hcb hn hbs hbody
    have hL : ctrLengthOk c A.length = .ok true := hL
    rw [ctrLengthOk_some _ hr hcb hn, Except.ok.injEq, decide_eq_true_eq] at hL
    generalize (r.length + A.length) / c.blockSize = k at hcb' hsum hL
    have hlowk : lowField n ((incLow n)^[k] cb) = lowField n cb + k := by
      rw [lowField_incLow_iterate hb, Nat.mod_eq_of_lt (by omega)]
    obtain ⟨hfin, hwrap⟩ := ih (c := c.withSess x) hcb' hn' hr' hlt' (by rwa [incLow_iterate_length]) hrest
      (by omega)
    have hm : (r.length + ((A :: As).map List.length).sum) / c.blockSize =
        (r'.length + (As.map List.length).sum) / c.blockSize + k := by
      rw [List.map_cons, List.sum_cons, ← Nat.add_assoc, ← hsum, Nat.add_assoc, Nat.mul_add_div hbs, Nat.add_comm]
    rw [ModeContext.withSess_blockSize, hlowk] at hwrap
    rw [ModeContext.withSess_blockSize, ← Function.iterate_add_apply] at hfin
    rw [hm]
    exact ⟨hfin, by omega⟩

/-! GCM. -/

/-- R43, R47: a session leaves a ready context ready and its fixed fields as they were. -/
theorem sessionRun_ready {K : Cipher} {c c' : ModeContext} {chunks : List Bytes} (h : ReadyContext c)
    (hrun : sessionRun (processRuleOf c.mode c.dir) K c chunks = .ok c') :
    ReadyContext c' ∧ c'.mode = c.mode ∧ c.sess.SameFixed c'.sess := by
  induction chunks generalizing c with
  | nil => cases hrun; exact ⟨h, rfl, .refl _⟩
  | cons A As ih =>
    obtain ⟨hL, x, out, hbody, hrest⟩ := sessionRun_cons_ok.mp hrun
    obtain ⟨hready, hmode, hfix⟩ := ih (c := c.withSess x) (processBody_ready_ok h hL hbody).1 hrest
    exact ⟨hready, hmode, (processBody_fixed hbody).1.trans hfix⟩

/-- R230: the data of a ready GCM context, processed or waiting, is within the limit. -/
theorem ReadyContext.gcm_dataLimit {c : ModeContext} (h : ReadyContext c) (hm : c.mode = .gcm) :
    ∃ g p, GcmFields c.sess g p ∧ p + waitingData c ≤ gcmDataMax := by
  obtain ⟨-, h⟩ := h
  rw [hm] at h
  obtain ⟨-, g, p, hg, h⟩ := h
  refine ⟨g, p, hg, ?_⟩
  cases hd : c.dir <;> rw [hd] at h <;> simp only [waitingData, hd]
  · obtain ⟨-, r, hr, -, hmax⟩ := h
    rwa [remainderLen_some hr]
  · obtain ⟨-, a, ha, -, htag, hmax⟩ := h
    rw [laLen_some ha, tagLen_some hg.tagLen]
    simp only [countOf]
    omega

/-- Settles O41: the wrap check bounds the blocks of a CTR session, the limit of R230 those of a GCM session. -/
theorem counterNonReuse : Obligations.CounterNonReuse := by
  refine ⟨fun K c c' chunks cb r n hcb hn hr hlt _ hb hrun => ?_, fun K c c' chunks J h hm hJ hrun => ?_⟩
  · obtain ⟨hfin, hwrap⟩ := ctrSession_counter hcb hn hr hlt hb hrun
    have hpos := Nat.two_pow_pos n
    exact ⟨hfin, hwrap, fun i j hij hj => incLow_iterate_ne hb hij (by omega)⟩
  · obtain ⟨hready, hmode, hfix⟩ := sessionRun_ready h (hm ▸ hrun)
    obtain ⟨g, p, hg, hmax⟩ := hready.gcm_dataLimit (hmode.trans hm)
    obtain ⟨q, hq, rfl⟩ := hg.processed
    obtain ⟨J', hJ', hlen, hcb⟩ := hg.counter
    obtain rfl : J' = J := Option.some.inj (hJ'.symm.trans (hfix.J0.trans hJ))
    have hlast : (q.toNat + waitingData c' + 15) / 16 ≤ 2 ^ 32 - 2 := by
      rw [gcmDataMax] at hmax
      omega
    exact ⟨q, hq, hg.wholeBlocks, hcb, hJ', hlast, fun i j hij hj => incLow_iterate_ne (by omega) hij (by omega)⟩

end Sys2Proof.Machine
end

section
/-! R223: the tag comparison accumulates the differing bits of every byte; none are left when all
bytes agree, and only then. -/

namespace Sys2Proof.Machine

/-- R223: what is accumulated stays zero exactly when it began as zero and no byte differs. -/
theorem tagDiff_eq_zero {d : Byte} {as bs : Bytes} (h : as.length = bs.length) :
    tagDiff d as bs = 0 ↔ d = 0 ∧ as = bs := by
  induction as generalizing d bs with
  | nil =>
    obtain rfl := List.length_eq_zero_iff.mp h.symm
    simp [tagDiff]
  | cons a as ih =>
    cases bs with
    | nil => simp at h
    | cons b bs =>
      rw [tagDiff, ih (Nat.succ.inj h), List.cons.injEq]
      simp [and_assoc]

theorem tagEqual_iff {a b : Bytes} (h : a.length = b.length) : tagEqual a b = true ↔ a = b := by
  rw [tagEqual, beq_iff_eq, tagDiff_eq_zero h]
  simp

/-- Settles O48: the accumulated difference begins as zero. -/
theorem tagComparisonIsEquality : Obligations.TagComparisonIsEquality :=
  fun _ _ h => tagEqual_iff h

end Sys2Proof.Machine
end

section
/-! R214, R215, R216: the blocks that the IV and the AAD are hashed in, and the initial counter block. -/

namespace Sys2Proof.Machine

/-- R108: padding fills the last block up. -/
theorem pad16_length (B : Bytes) : (pad16 B).length = (B.length + 15) / 16 * 16 := by
  rw [pad16, List.length_append, zeros_length]
  omega

/-- R108, R265: the hashed blocks are the padded string. -/
theorem flatten_hashBlocks (B : Bytes) : (hashBlocks B).flatten = pad16 B := by
  have hcut := flatten_blocksOf 16 ((B.length + 15) / 16) (pad16 B)
  rwa [← pad16_length, List.drop_length, List.append_nil] at hcut

theorem length_of_mem_hashBlocks {B X : Bytes} (h : X ∈ hashBlocks B) : X.length = 16 :=
  length_of_mem_blocksOf (pad16_length B).ge h

/-- R215: the hash of an IV that is not of 12 bytes, on the example of the rule. -/
theorem ivCounter_example :
    ivCounter (beBytes 16 0x122436485a6c7e90a2b4c6d8eafc0e10) (beBytes 8 0xe0e1e2e3e4e5e6e7) =
      beBytes 16 0xf69ddc59d13173e657928d1917d2cf89 := by decide +kernel

/-- Settles O14: both hashes fold the blocks of the padded string. -/
theorem initialCounterBlock : Obligations.InitialCounterBlock := by
  have padded : ∀ B, (hashBlocks B).flatten = pad16 B ∧ ∀ X ∈ hashBlocks B, X.length = 16 :=
    fun B => ⟨flatten_hashBlocks B, fun _ => length_of_mem_hashBlocks⟩
  refine ⟨fun H iv h => ?_, fun H iv h => ⟨hashBlocks iv, (padded iv).1, (padded iv).2, ?_⟩, ivCounter_example,
    fun H aad => ⟨hashBlocks aad, (padded aad).1, (padded aad).2, rfl⟩, fun _ => rfl⟩
  · rw [ivCounter, if_pos h]
    rfl
  · rw [ivCounter, if_neg h]
    rfl

end Sys2Proof.Machine
end

section
/-! R217, R218, R231: the GCM loops are the CTR loop from the next counter on; what they carry besides is read off the
ciphertext blocks. -/

namespace Sys2Proof.Machine

variable {K : Cipher} {H : Bytes} {a a' : GcmAcc} {Xs Ys : List Bytes}

/-- R217, R218: both loops answer what CTR answers, and carry what the ciphertext blocks `Cs` of that answer leave. -/
theorem afterKeystream_ok (Cs : List Bytes → List Bytes) :
    (do
      let KS ← ecbLoop (cipherEnc K) (counters 32 (incLow 32 a.cb) Xs.length)
      .ok (a.after H (Cs (List.zipWith xorBytes Xs KS)), List.zipWith xorBytes Xs KS)) = (.ok (a', Ys) : Run _) ↔
    ctrLoop K 32 (incLow 32 a.cb) Xs = .ok ((incLow 32)^[Xs.length] (incLow 32 a.cb), Ys) ∧
      a' = a.after H (Cs Ys) := by
  simp only [ctrLoop_eq, Run.bind_ok, Except.ok.injEq, Prod.mk.injEq, true_and]
  constructor
  · rintro ⟨KS, hKS, rfl, rfl⟩
    exact ⟨⟨KS, hKS, rfl⟩, rfl⟩
  · rintro ⟨⟨KS, hKS, rfl⟩, rfl⟩
    exact ⟨KS, hKS, rfl, rfl⟩

/-- R217: in encryption the blocks written are the ciphertext. -/
theorem gcmEncLoop_ok_iff_ctrLoop : gcmEncLoop K H a Xs = .ok (a', Ys) ↔
    ctrLoop K 32 (incLow 32 a.cb) Xs = .ok ((incLow 32)^[Xs.length] (incLow 32 a.cb), Ys) ∧ a' = a.after H Ys := by
  rw [gcmEncLoop_eq]
  exact afterKeystream_ok id

/-- R218: in decryption the blocks read are. -/
theorem gcmDecLoop_ok_iff_ctrLoop : gcmDecLoop K H a Xs = .ok (a', Ys) ↔
    ctrLoop K 32 (incLow 32 a.cb) Xs = .ok ((incLow 32)^[Xs.length] (incLow 32 a.cb), Ys) ∧ a' = a.after H Xs := by
  rw [gcmDecLoop_eq]
  exact afterKeystream_ok fun _ => Xs

/-- R231: CTR from the next counter on puts block `j` under the counter incremented `j + 1` times. -/
theorem ctrLoop_next_ok {cb : Bytes} :
    ctrLoop K 32 (incLow 32 cb) Xs = .ok ((incLow 32)^[Xs.length] (incLow 32 cb), Ys) ↔
      Ys.length = Xs.length ∧ ∀ j < Xs.length, ∃ KS, cipherEnc K ((incLow 32)^[j + 1] cb) = .ok KS ∧
        Ys.getD j [] = xorBytes (Xs.getD j []) KS := by
  simp only [ctrLoop_ok, Function.iterate_succ_apply, true_and]

/-- R217, R218, R265: what the loops carry, field by field. -/
theorem GcmAcc.eq_after_iff : a' = a.after H Ys ↔ a'.cb = (incLow 32)^[Ys.length] a.cb ∧
    a'.processed = a.processed + BitVec.ofNat 64 (16 * Ys.length) ∧ a'.ghash = Ys.foldl (ghashAcc H) a.ghash := by
  obtain ⟨cb, ghash, processed⟩ := a'
  simp only [GcmAcc.after, ghashFold, GcmAcc.mk.injEq]
  tauto

/-- Settles O39: the keystream is that of CTR; the rest is what the ciphertext blocks leave, as many as the input's. -/
theorem gcmLoops : Obligations.GcmLoops := by
  intro K H a a' Xs Ys stream
  have key : ∀ Cs : List Bytes, (Ys.length = Xs.length → Cs.length = Xs.length) →
      (ctrLoop K 32 (incLow 32 a.cb) Xs = .ok ((incLow 32)^[Xs.length] (incLow 32 a.cb), Ys) ∧ a' = a.after H Cs ↔
        stream ∧ a'.ghash = Cs.foldl (ghashAcc H) a.ghash) := by
    intro Cs hCs
    rw [ctrLoop_next_ok, GcmAcc.eq_after_iff]
    constructor
    · rintro ⟨⟨hlen, hblocks⟩, hcb, hprocessed, hghash⟩
      rw [hCs hlen] at hcb hprocessed
      exact ⟨⟨hlen, hcb, hprocessed, hblocks⟩, hghash⟩
    · rintro ⟨⟨hlen, hcb, hprocessed, hblocks⟩, hghash⟩
      rw [← hCs hlen] at hcb hprocessed
      exact ⟨⟨hlen, hblocks⟩, hcb, hprocessed, hghash⟩
  exact ⟨gcmEncLoop_ok_iff_ctrLoop.trans (key Ys id), gcmDecLoop_ok_iff_ctrLoop.trans (key Xs fun _ => rfl)⟩

end Sys2Proof.Machine
end

section
/-! R218, R219, R226, R227, R230: PROCESS in GCM decryption and in GMAC: the length check, then the body. -/

namespace Sys2Proof.Machine

/-- R230: the limit of decryption, the tag on top of the data. -/
theorem gcmDecLengthOk_some {c : ModeContext} {la : Bytes} {q : BitVec 64} {g : Nat} (L : Nat)
    (hla : c.sess.la = some la) (hg : c.sess.tagLen = some g) (hq : c.sess.processed = some q) :
    gcmDecLengthOk c L = .ok (decide (q.toNat + la.length + L ≤ gcmDataMax + g)) := by
  simp [gcmDecLengthOk, processedLen_some hq, laLen_some hla, tagLen_some hg]

/-- Settles O26: the limit of R230 is passed, or one case for each answer of the loop. -/
theorem processGcmDecResult : Obligations.ProcessGcmDecResult := by
  intro s k p l d c la H g a hc hm hd hst hla hg hH hcb hgh hp hadm buf n hfits
  have hlen : buf.length = la.length + l.toNat := length_append_readBytes _ _ _ _
  have hmax : gcmDataMax = 16 * (2 ^ 32 - 2) := rfl
  have hsel : processGcmDecRule.sel c.mode c.dir = true := by simp [processGcmDecRule, hm, hd]
  have hn : outLenProcess c l.toNat = .ok (16 * n) := by
    simp [outLenProcess, hm, hd, laLen_some hla, tagLen_some hg, releasedBlocks, n, hlen]
  have hL : processGcmDecRule.lengthOk c l.toNat = _ := gcmDecLengthOk_some l.toNat hla hg hp
  split
  · next hover =>
    rw [decide_eq_false (by omega)] at hL
    exact runProcess_lengthRange hc hsel hst hadm hn hfits hL
  · next hroom =>
    rw [decide_eq_true (by omega)] at hL
    refine (runProcess_admitted hc hsel hst hadm hn hfits hL).trans ?_
    have hbody : processGcmDecRule.body (Config.params.cipher c.ks) c (s.mem.readBytes p.toNat l.toNat) = (do
        let (a', Ps) ← gcmDecLoop (Config.params.cipher c.ks) H a (blocksOf 16 n buf)
        .ok ({ c.sess.withAcc a' with la := some (buf.drop (n * 16)) }, Ps.flatten)) :=
      gcmDecBody_some _ hla hg hH (gcmAcc_ok.mpr ⟨hcb, hgh, hp⟩)
    rw [hbody, Nat.mul_comm n]
    cases hP : gcmDecLoop (Config.params.cipher c.ks) H a (blocksOf 16 n buf) with
    | error e =>
      obtain rfl := gcmDecLoop_error hP
      rfl
    | ok r => rfl

/-- R142: PROCESS in GMAC has no output, so every sink has room for it. -/
theorem outLenProcess_gmac {c : ModeContext} (hm : c.mode = .gmac) (L : Nat) : outLenProcess c L = .ok 0 := by
  simp [outLenProcess, hm]

/-- R227: the tag bytes in all. -/
theorem gmacDecLengthOk_some {c : ModeContext} {la : Bytes} {g : Nat} (L : Nat) (hla : c.sess.la = some la)
    (hg : c.sess.tagLen = some g) : gmacDecLengthOk c L = .ok (decide (la.length + L ≤ g)) := by
  simp [gmacDecLengthOk, laLen_some hla, tagLen_some hg]

/-- Settles O27: the length check of each direction, and the body of each when it passes. -/
theorem processGmacResult : Obligations.ProcessGmacResult := by
  intro s k p l d c hc hm hst hadm closed
  have hn := outLenProcess_gmac hm l.toNat
  have hfits := Target.fits_zero (targetOf p d)
  refine ⟨fun hd => ?_, fun la g hd hla hg => ?_⟩
  · have hsel : processGmacEncRule.sel c.mode c.dir = true := by simp [processGmacEncRule, hm, hd]
    have hL : processGmacEncRule.lengthOk c l.toNat = .ok (l.toNat == 0) := rfl
    split
    · next h0 =>
      rw [beq_iff_eq.mpr h0] at hL
      refine (runProcess_admitted hc hsel hst hadm hn hfits hL).trans ?_
      rw [show processGmacEncRule.body = gmacEncBody from rfl, gmacEncBody, processAnswer, State.complete_nil,
        ModeContext.withSess, State.setSlot_self hc]
    · next h0 =>
      rw [beq_eq_false_iff_ne.mpr h0] at hL
      exact runProcess_lengthRange hc hsel hst hadm hn hfits hL
  · have hsel : processGmacDecRule.sel c.mode c.dir = true := by simp [processGmacDecRule, hm, hd]
    have hL : processGmacDecRule.lengthOk c l.toNat = _ := gmacDecLengthOk_some l.toNat hla hg
    split
    · next hle =>
      rw [decide_eq_true hle] at hL
      refine (runProcess_admitted hc hsel hst hadm hn hfits hL).trans ?_
      rw [show processGmacDecRule.body = gmacDecBody from rfl, gmacDecBody, hla, need_some, Run.pure_bind,
        processAnswer, State.complete_nil]
      rfl
    · next hlt =>
      rw [decide_eq_false hlt] at hL
      exact runProcess_lengthRange hc hsel hst hadm hn hfits hL

end Sys2Proof.Machine
end

section
/-! R220, R222, R223, R229: FINISH of GCM and GMAC decryption: the pending bytes are cut into the last ciphertext bytes
and the received tag, and the plaintext is written only when the computed tag is the received one. -/

namespace Sys2Proof.Machine

/-- R220: with no bytes left `E` is not called. -/
theorem gcmDecPartial_nil (K : Cipher) (H : Bytes) (a : GcmAcc) : gcmDecPartial K H a [] = .ok (a, []) := rfl

/-- R220, R222: the last block is hashed as received, and goes under the next counter. -/
theorem gcmDecPartial_partial {r : Bytes} (K : Cipher) (H : Bytes) (a : GcmAcc) (h : r ≠ []) :
    gcmDecPartial K H a r = (do
      let KS ← cipherEnc K (incLow 32 a.cb)
      .ok (⟨incLow 32 a.cb, ghashAcc H a.ghash (r ++ zeros (16 - r.length)),
        a.processed + BitVec.ofNat 64 r.length⟩, xorBytes r (KS.take r.length))) := by
  rw [gcmDecPartial, if_neg (by simpa using h)]

/-- R222: the tag is computed, compared with the received tag `t`, and the plaintext answered when they agree. -/
def gcmVerify (K : Cipher) (H : Bytes) (x : Session) (g : Nat) (t : Bytes) (b : GcmAcc) (P : Bytes) :
    Run (Session × Bytes) := do
  let (y, T) ← gcmTag K H x b
  check (tagEqual (T.take g) t) (.authFail y [])
  .ok (y, P)

/-- R222: FINISH of decryption on a context that holds what it reads. -/
theorem gcmFinishDec_some {K : Cipher} {c : ModeContext} {H : Bytes} {g : Nat} {a : GcmAcc} (r t : Bytes)
    (hH : c.sess.H = some H) (ha : gcmAcc c = .ok a) (hg : c.sess.tagLen = some g) :
    gcmFinishDec K c r t = (do
      let (b, P) ← gcmDecPartial K H a r
      gcmVerify K H c.sess g t b P) := by
  rw [gcmFinishDec, hH, need_some, Run.pure_bind, ha, Run.pure_bind, tagLen_some hg, Run.pure_bind]
  rfl

/-- R222, R229, R283: fewer pending bytes than a tag stop FINISH. -/
theorem check_le_bind {α : Type} (g n : Nat) (e : Raise) (r : Run α) :
    (check (decide (g ≤ n)) e >>= fun _ => r) = if n < g then .error (.raise e) else r := by
  split
  · next hlt =>
    rw [decide_eq_false (Nat.not_le.mpr hlt)]
    rfl
  · next hge =>
    rw [decide_eq_true (Nat.not_lt.mp hge)]
    rfl

/-- R222: where FINISH.GCM.DEC cuts the pending bytes. -/
theorem finishGcmDecBody_some {K : Cipher} {c : ModeContext} {la : Bytes} {g : Nat} (hla : c.sess.la = some la)
    (hg : c.sess.tagLen = some g) :
    finishGcmDecBody K c = if la.length < g then .error (.raise .lengthRange)
      else gcmFinishDec K c (la.take (la.length - g)) (la.drop (la.length - g)) := by
  rw [finishGcmDecBody, hla, need_some, Run.pure_bind, tagLen_some hg, Run.pure_bind, check_le_bind]

/-- R229: FINISH.GMAC.DEC takes the received tag from the front. -/
theorem finishGmacDecBody_some {K : Cipher} {c : ModeContext} {la : Bytes} {g : Nat} (hla : c.sess.la = some la)
    (hg : c.sess.tagLen = some g) :
    finishGmacDecBody K c = if la.length < g then .error (.raise .lengthRange)
      else gcmFinishDec K c [] (la.take g) := by
  rw [finishGmacDecBody, hla, need_some, Run.pure_bind, tagLen_some hg, Run.pure_bind, check_le_bind]

/-- R142: `out_len` of FINISH in the two decrypting modes with a tag. -/
theorem outLenFinish_dec {c : ModeContext} {la : Bytes} {g : Nat} (hd : c.dir = .dec) (hla : c.sess.la = some la)
    (hg : c.sess.tagLen = some g) :
    (c.mode = .gcm → outLenFinish c = .ok (la.length - g)) ∧ (c.mode = .gmac → outLenFinish c = .ok 0) := by
  constructor <;> intro hm <;> simp [outLenFinish, hm, hd, laLen_some hla, tagLen_some hg]
  omega

/-- Settles O34: the checks of R132 pass; then too few bytes for a tag, or the last block, if any, and the comparison of
the tags, which have one length. -/
theorem finishVerifyResult : Obligations.FinishVerifyResult := by
  intro s k snk c la H J lens g a hc hd hst hla hH hJ hJ16 hlens hg hg16 hcb hgh hp hsink E closed finish
  have ha : gcmAcc c = .ok a := gcmAcc_ok.mpr ⟨hcb, hgh, hp⟩
  obtain ⟨hgcm, hgmac⟩ := outLenFinish_dec hd hla hg
  have verify : ∀ (n : Nat) (b : GcmAcc) (P t : Bytes), t.length = g →
      finishAnswer s k c snk n (gcmVerify (Config.params.cipher c.ks) H c.sess g t b P) =
        .next (finish n b P t) := by
    intro n b P t ht
    rw [gcmVerify, gcmTag_some _ H b hlens hJ]
    simp only [finish, E]
    cases hM : cipherEnc (Config.params.cipher c.ks) J with
    | error e =>
      obtain rfl := cipherEnc_error hM
      rfl
    | ok M =>
      have hM16 : M.length = 16 := (cipherEnc_length hM).trans hJ16
      simp only [Run.pure_bind]
      split
      · next heq =>
        rw [(tagEqual_iff (by rw [heq])).mpr heq]
        rfl
      · next hne =>
        rw [Bool.eq_false_iff.mpr fun h => hne ((tagEqual_iff (by simp [hM16, ht, hg16])).mp h)]
        rfl
  refine ⟨fun hm hfits => ?_, fun hm => ?_⟩
  · refine (runFinish_checked (R := finishGcmDecRule) hc (by simp [finishGcmDecRule, hm, hd])
      (finishChecks_ok.mpr ⟨hst, hsink, hgcm hm, hfits⟩)).trans ?_
    rw [show finishGcmDecRule.body = finishGcmDecBody from rfl, finishGcmDecBody_some hla hg]
    dsimp only
    split
    · rfl
    · next hge =>
      have htag : (la.drop (la.length - g)).length = g := by rw [List.length_drop]; omega
      rw [gcmFinishDec_some _ _ hH ha hg]
      by_cases hnil : la.take (la.length - g) = []
      · rw [if_pos hnil, hnil, gcmDecPartial_nil]
        exact verify _ a [] _ htag
      · rw [if_neg hnil, gcmDecPartial_partial _ H a hnil]
        simp only [E]
        cases hKS : cipherEnc (Config.params.cipher c.ks) (incLow 32 a.cb) with
        | error e =>
          obtain rfl := cipherEnc_error hKS
          rfl
        | ok KS => exact verify _ _ _ _ htag
  · refine (runFinish_checked (R := finishGmacDecRule) hc (by simp [finishGmacDecRule, hm, hd])
      (finishChecks_ok.mpr ⟨hst, hsink, hgmac hm, Target.fits_zero _⟩)).trans ?_
    rw [show finishGmacDecRule.body = finishGmacDecBody from rfl, finishGmacDecBody_some hla hg]
    split
    · rfl
    · next hge =>
      have htag : (la.take g).length = g := by rw [List.length_take]; omega
      rw [gcmFinishDec_some _ _ hH ha hg, gcmDecPartial_nil]
      exact verify 0 a [] _ htag

end Sys2Proof.Machine
end

section
/-! R261 to R266: the GHASH product and its folds. The loop of R263 is additive in the second factor and
commutes with every additive map that commutes with the shift. Multiplication by `x` from the left is such a map, so
`x • (y • z) = y • (x • z)`; with `z` the unit this is commutativity, and associativity follows. -/

namespace Sys2Proof.Machine

/-! The product, in its second factor. -/

/-- R263: the shift is additive. -/
theorem gfShift_xor (v w : BitVec 128) : gfShift (v ^^^ w) = gfShift v ^^^ gfShift w := by
  simp only [gfShift, BitVec.getLsbD_xor, BitVec.ushiftRight_xor_distrib]
  cases v.getLsbD 0 <;> cases w.getLsbD 0 <;> simp only [Bool.xor_self, Bool.xor_false, Bool.xor_true, Bool.not_false,
    Bool.false_eq_true, if_true, if_false]
  · ac_rfl
  · ac_rfl
  · -- both are reduced, and the reductions cancel
    rw [BitVec.xor_assoc, BitVec.xor_comm (0xE1#128 <<< 120), BitVec.xor_assoc, BitVec.xor_self, BitVec.xor_zero]

@[simp] theorem gfShift_zero : gfShift 0#128 = 0#128 := by decide

/-- R263: a power of `t` that is not the last one is shifted to the next. -/
theorem gfShift_twoPow_succ {n : Nat} (h : n + 1 < 128) :
    gfShift (BitVec.twoPow 128 (n + 1)) = BitVec.twoPow 128 n := by
  have hlow : ¬ (BitVec.twoPow 128 (n + 1)).getLsbD 0 := by simp
  rw [gfShift, if_neg hlow]
  apply BitVec.eq_of_getLsbD_eq
  intro j hj
  simp only [BitVec.getLsbD_ushiftRight, BitVec.getLsbD_twoPow, h, Nat.lt_of_succ_lt h, decide_true, Bool.true_and,
    decide_eq_decide]
  omega

/-- R263: the loop starts from zero. -/
theorem gfMul_eq_gfLoop (x y : BitVec 128) : gfMul x y = gfLoop x 128 0#128 y := rfl

/-- R263: an additive map that commutes with the shift goes through the loop. -/
theorem gfLoop_map (f : BitVec 128 → BitVec 128) (hxor : ∀ v w, f (v ^^^ w) = f v ^^^ f w)
    (hshift : ∀ v, f (gfShift v) = gfShift (f v)) (x : BitVec 128) (n : Nat) (z v : BitVec 128) :
    f (gfLoop x n z v) = gfLoop x n (f z) (f v) := by
  induction n generalizing z v with
  | zero => rfl
  | succ n ih => rw [gfLoop, gfLoop, ih, apply_ite f, hxor, hshift]

/-- R263: the loop is additive in the accumulated sum and the shifted factor together. -/
theorem gfLoop_xor (x : BitVec 128) (n : Nat) (z z' v v' : BitVec 128) :
    gfLoop x n (z ^^^ z') (v ^^^ v') = gfLoop x n z v ^^^ gfLoop x n z' v' := by
  induction n generalizing z z' v v' with
  | zero => rfl
  | succ n ih =>
    rw [gfLoop, gfLoop, gfLoop, gfShift_xor, ← ih]
    congr 1
    split
    · ac_rfl
    · rfl

theorem gfMul_xor (x y z : BitVec 128) : gfMul x (y ^^^ z) = gfMul x y ^^^ gfMul x z := by
  simp only [gfMul_eq_gfLoop, ← gfLoop_xor, BitVec.xor_self]

@[simp] theorem gfMul_zero (x : BitVec 128) : gfMul x 0#128 = 0#128 := by
  simpa using gfMul_xor x 0#128 0#128

theorem gfMul_gfShift (x y : BitVec 128) : gfMul x (gfShift y) = gfShift (gfMul x y) := by
  rw [gfMul_eq_gfLoop, gfMul_eq_gfLoop, gfLoop_map gfShift gfShift_xor fun _ => rfl, gfShift_zero]

/-- R263: multiplication by `x` goes through the loop of a product by `y`. -/
theorem gfMul_left_comm (x y z : BitVec 128) : gfMul x (gfMul y z) = gfMul y (gfMul x z) := by
  rw [gfMul_eq_gfLoop y, gfMul_eq_gfLoop y, gfLoop_map (gfMul x) (gfMul_xor x) (gfMul_gfShift x), gfMul_zero]

/-! The unit. -/

/-- The low `n + 1` bits of a number are the low `n` bits and bit `n`. -/
theorem xor_low_bits_succ (x z : BitVec 128) (n : Nat) :
    (if x.getLsbD n then z ^^^ BitVec.twoPow 128 n else z) ^^^ (x.setWidth n).setWidth 128 =
      z ^^^ (x.setWidth (n + 1)).setWidth 128 := by
  apply BitVec.eq_of_getLsbD_eq
  intro j hj
  obtain hjn | rfl | hjn := Nat.lt_trichotomy j n
  · have hne : n ≠ j := by omega
    cases x.getLsbD n <;> simp [hjn, hjn.trans n.lt_succ_self, hne]
  · cases hx : x[j] <;> simp [hj, hx]
  · have hne : n ≠ j := by omega
    have hlt : ¬ j < n := by omega
    have hlt' : ¬ j < n + 1 := by omega
    cases x.getLsbD n <;> simp [hlt, hlt', hne]

/-- R263: from the power of `t` that its next test belongs to, the loop adds the bits of `x` that are left. -/
theorem gfLoop_twoPow (x z : BitVec 128) {n : Nat} (hn : n < 128) :
    gfLoop x (n + 1) z (BitVec.twoPow 128 n) = z ^^^ (x.setWidth (n + 1)).setWidth 128 := by
  induction n generalizing z with
  | zero =>
    have hnone : (x.setWidth 0).setWidth 128 = 0#128 := by simp [BitVec.of_length_zero]
    rw [← xor_low_bits_succ, hnone, BitVec.xor_zero]
    rfl
  | succ n ih => rw [gfLoop, gfShift_twoPow_succ hn, ih _ (Nat.lt_of_succ_lt hn), xor_low_bits_succ]

/-- R263: the number of `80 00 .. 00` is the power of `t` that the first test belongs to. -/
theorem gfMul_unit (x : BitVec 128) : gfMul x (0x80#128 <<< 120) = x := by
  have hunit : 0x80#128 <<< 120 = BitVec.twoPow 128 127 := by decide
  rw [gfMul_eq_gfLoop, hunit, gfLoop_twoPow x 0#128 (by decide)]
  simp

theorem gfMul_comm (x y : BitVec 128) : gfMul x y = gfMul y x := by
  calc gfMul x y = gfMul x (gfMul y (0x80#128 <<< 120)) := by rw [gfMul_unit]
    _ = gfMul y (gfMul x (0x80#128 <<< 120)) := gfMul_left_comm x y _
    _ = gfMul y x := by rw [gfMul_unit]

theorem gfMul_assoc (x y z : BitVec 128) : gfMul (gfMul x y) z = gfMul x (gfMul y z) := by
  rw [gfMul_comm, gfMul_left_comm, gfMul_comm z]

theorem xor_gfMul (x y z : BitVec 128) : gfMul (x ^^^ y) z = gfMul x z ^^^ gfMul y z := by
  rw [gfMul_comm, gfMul_xor, gfMul_comm z, gfMul_comm z]

@[simp] theorem zero_gfMul (y : BitVec 128) : gfMul 0#128 y = 0#128 := by rw [gfMul_comm, gfMul_zero]

theorem unit_gfMul (y : BitVec 128) : gfMul (0x80#128 <<< 120) y = y := by rw [gfMul_comm, gfMul_unit]

/-! Blocks as numbers. -/

@[simp] theorem gfOfBytes_gfToBytes (x : BitVec 128) : gfOfBytes (gfToBytes x) = x := by
  have hx : x.toNat % 256 ^ 16 = x.toNat := Nat.mod_eq_of_lt x.isLt
  rw [gfOfBytes, gfToBytes, beNat_beBytes, hx, BitVec.ofNat_toNat, BitVec.setWidth_eq]

theorem gfToBytes_gfOfBytes {B : Bytes} (h : B.length = 16) : gfToBytes (gfOfBytes B) = B := by
  have hB : beNat B < 2 ^ 128 := (beNat_lt B).trans_eq (by rw [h]; norm_num)
  rw [gfToBytes, gfOfBytes, BitVec.toNat_ofNat, Nat.mod_eq_of_lt hB, ← h, beBytes_beNat]

/-- R10, R11: the exclusive or of numbers is that of their byte strings. -/
theorem beBytes_xor (k m n : Nat) : beBytes k (m ^^^ n) = xorBytes (beBytes k m) (beBytes k n) := by
  induction k generalizing m n with
  | zero => rfl
  | succ k ih =>
    have hdiv : (m ^^^ n) / 256 = m / 256 ^^^ n / 256 := Nat.xor_div_two_pow (n := 8)
    have hlen : (beBytes k (m / 256)).length = (beBytes k (n / 256)).length := by simp
    rw [beBytes, hdiv, ih, BitVec.ofNat_xor, beBytes, beBytes, xorBytes, xorBytes, List.zipWith_append hlen]
    rfl

theorem gfToBytes_xor (x y : BitVec 128) : gfToBytes (x ^^^ y) = xorBytes (gfToBytes x) (gfToBytes y) := by
  rw [gfToBytes, BitVec.toNat_xor, beBytes_xor]
  rfl

theorem gfOfBytes_xorBytes {A B : Bytes} (hA : A.length = 16) (hB : B.length = 16) :
    gfOfBytes (xorBytes A B) = gfOfBytes A ^^^ gfOfBytes B := by
  calc gfOfBytes (xorBytes A B)
      = gfOfBytes (gfToBytes (gfOfBytes A ^^^ gfOfBytes B)) := by
        rw [gfToBytes_xor, gfToBytes_gfOfBytes hA, gfToBytes_gfOfBytes hB]
    _ = gfOfBytes A ^^^ gfOfBytes B := gfOfBytes_gfToBytes _

/-! GHASH_ACC. -/

/-- Settles O46: the exclusive or of two blocks is that of their numbers; the examples are evaluated, but for those of
the unit and of zero. -/
theorem ghashAccumulate : Obligations.GhashAccumulate := by
  refine ⟨fun acc H X hacc hX => ?_, ?_, unit_gfMul _, ?_, zero_gfMul _, ?_⟩
  · rw [ghashAcc, gfOfBytes_xorBytes hacc hX]
  all_goals decide +kernel

@[simp] theorem gfOfBytes_ghashAcc (H acc X : Bytes) :
    gfOfBytes (ghashAcc H acc X) = gfMul (gfOfBytes acc ^^^ gfOfBytes X) (gfOfBytes H) := gfOfBytes_gfToBytes _

/-- R266: a difference in the accumulator multiplies through. -/
theorem ghashAcc_xorBytes_acc {H acc d X : Bytes} (hacc : acc.length = 16) (hd : d.length = 16) :
    ghashAcc H (xorBytes acc d) X =
      xorBytes (ghashAcc H acc X) (gfToBytes (gfMul (gfOfBytes d) (gfOfBytes H))) := by
  rw [ghashAcc, ghashAcc, gfOfBytes_xorBytes hacc hd, ← gfToBytes_xor, ← xor_gfMul, BitVec.xor_assoc,
    BitVec.xor_assoc, BitVec.xor_comm (gfOfBytes d)]

/-- R262: the accumulator and the block enter GHASH_ACC alike. -/
theorem ghashAcc_swap (H acc X : Bytes) : ghashAcc H acc X = ghashAcc H X acc := by
  rw [ghashAcc, ghashAcc, BitVec.xor_comm]

/-- R266: with `H = 0` every accumulator is zero. -/
theorem ghashAcc_zero_key (acc X : Bytes) : ghashAcc (List.replicate 16 0) acc X = List.replicate 16 0 := by
  have hkey : gfOfBytes (List.replicate 16 0) = 0#128 := by decide
  have hzero : gfToBytes 0#128 = List.replicate 16 0 := by decide
  rw [ghashAcc, hkey, gfMul_zero, hzero]

/-! Folding blocks. -/

/-- R263: multiplication by a power of `h` is additive. -/
theorem gfMul_iterate_xor (h : BitVec 128) (n : Nat) (x y : BitVec 128) :
    (gfMul · h)^[n] (x ^^^ y) = (gfMul · h)^[n] x ^^^ (gfMul · h)^[n] y := by
  induction n generalizing x y with
  | zero => rfl
  | succ n ih => rw [Function.iterate_succ_apply, xor_gfMul, ih]; rfl

/-- R265, R266: the polynomial form of the fold. The first of `m + 1` blocks goes into the accumulator, which the other
`m` multiply by `H^m`. -/
theorem gfOfBytes_foldl_ghashAcc (H acc : Bytes) (Xs : List Bytes) :
    gfOfBytes (Xs.foldl (ghashAcc H) acc) =
      ((List.range Xs.length).map fun i =>
        (gfMul · (gfOfBytes H))^[Xs.length - i] (gfOfBytes (Xs.getD i []))).foldl (· ^^^ ·)
          ((gfMul · (gfOfBytes H))^[Xs.length] (gfOfBytes acc)) := by
  induction Xs generalizing acc with
  | nil => rfl
  | cons X Xs ih =>
    rw [List.foldl_cons, ih, gfOfBytes_ghashAcc, ← Function.iterate_succ_apply (gfMul · (gfOfBytes H)),
      gfMul_iterate_xor, List.length_cons, List.range_succ_eq_map, List.map_cons, List.map_map, List.foldl_cons]
    simp [Function.comp_def]

/-- Settles O47: the laws of the product one by one; GHASH_ACC takes the accumulator and the block alike, so a
difference in either is one lemma. -/
theorem fieldLaws : Obligations.FieldLaws := by
  refine ⟨gfMul_comm, gfMul_assoc, xor_gfMul, zero_gfMul, unit_gfMul, fun H acc d X hacc hd hX => ⟨?_, ?_⟩,
    ghashAcc_zero_key, fun H acc Xs _ _ => gfOfBytes_foldl_ghashAcc H acc Xs⟩
  · exact ghashAcc_xorBytes_acc hacc hd
  · rw [ghashAcc_swap, ghashAcc_xorBytes_acc hX hd, ghashAcc_swap]

end Sys2Proof.Machine
end

section
/-! R288: a cipher failure. The context closes with what OPEN wrote, the free bytes land in the output range, and each
of the two free counts is a remainder modulo one more than its success value. -/

namespace Sys2Proof.Machine

/-! The parts of the state that a CIPHER error writes. -/

/-- R281: CIPHER has code 6. -/
theorem State.raise_cipher_status (s : State) (k : BitVec 8) (c : ModeContext) (tg : Target) (n : Nat) :
    (s.raise k c tg n .cipher).status = 6 := rfl

/-- R20, R288: the addressed slot holds the closed context, with the free session. -/
theorem State.raise_cipher_slot_self {s : State} {k : BitVec 8} {c : ModeContext} (tg : Target) (n : Nat)
    (hc : s.slot k = some (.held c)) :
    (s.raise k c tg n .cipher).slot k =
      some (.held { c with state := .closed, sess := (Config.cipherFailure s.freeIx).sess }) :=
  State.slot_setSlot_self _ k _ _ hc

/-- R20, R295: whatever the error, the other slots are as they were. -/
theorem State.slot_raise_ne (s : State) {k j : BitVec 8} (c : ModeContext) (tg : Target) (n : Nat) (e : Raise)
    (hj : j ≠ k) : (s.raise k c tg n e).slot j = s.slot j := by
  obtain hsame | ⟨x, hset⟩ := State.raise_slots s k c tg n e
  · rw [State.slot, State.slot, hsame]
  · calc (s.raise k c tg n e).slot j
        = (s.setSlot k (.held ((c.withSess x).withState .closed))).slot j := by
          rw [State.slot, State.slot, hset, State.setSlot_slots]
      _ = s.slot j := State.slot_setSlot_ne s _ hj

/-- R288: the count is at most that of success. -/
theorem State.raise_cipher_outLen (s : State) (k : BitVec 8) (c : ModeContext) (tg : Target) (n : Nat) :
    ∃ m ≤ n, (s.raise k c tg n .cipher).outLen = outLenReg s.freeIx m :=
  ⟨_, Nat.le_of_lt_succ (Nat.mod_lt _ n.succ_pos), rfl⟩

/-- R288: the offset is at most that of success. -/
theorem State.raise_cipher_sinkOff (s : State) (k : BitVec 8) (c : ModeContext) (tg : Target) (n : Nat) :
    ∃ o ≤ tg.offAfter n, (s.raise k c tg n .cipher).sinkOff = sinkOffReg s.freeIx o :=
  ⟨_, Nat.le_of_lt_succ (Nat.mod_lt _ (tg.offAfter n).succ_pos), rfl⟩

/-- R60: the free bytes keep the form of memory. -/
theorem State.wf_raise_cipher {s : State} {k : BitVec 8} {c : ModeContext} {tg : Target} {n : Nat}
    (hwf : s.mem.wf = true) : (s.raise k c tg n .cipher).mem.wf = true := by
  rw [State.raise_mem]
  exact Target.wf_scatter hwf

/-- Settles O54: the law of each part of the state, one after the other. -/
theorem cipherFailureConfined : Obligations.CipherFailureConfined := by
  intro s k c tg n hc
  exact ⟨State.raise_cipher_status s k c tg n, State.raise_releases s k c tg n .cipher,
    State.raise_inputs s k c tg n .cipher, ⟨_, State.raise_cipher_slot_self tg n hc⟩,
    fun _ hj => State.slot_raise_ne s c tg n .cipher hj, State.raise_cipher_outLen s k c tg n,
    State.raise_cipher_sinkOff s k c tg n, fun _ ha => State.read_raise_outside le_rfl (fun _ _ he => nomatch he) ha,
    State.wf_raise_cipher⟩

end Sys2Proof.Machine
end

section
/-! R310: what the reset event does to each part of the state, and the step that takes it. -/

namespace Sys2Proof.Machine

/-- R310: no slot holds a context, so that no context field holds a value. -/
theorem State.eq_free_of_mem_resetEvent_slots {s : State} {x : Slot} (h : x ∈ s.resetEvent.slots) : x = .free :=
  List.eq_of_mem_replicate h

/-- R20, R310: the engine keeps its slots. -/
@[simp] theorem State.resetEvent_slots_length (s : State) : s.resetEvent.slots.length = s.slots.length :=
  List.length_replicate

@[simp] theorem State.resetEvent_status (s : State) : s.resetEvent.status = 0 := rfl
@[simp] theorem State.resetEvent_outLen (s : State) : s.resetEvent.outLen = 0 := rfl
@[simp] theorem State.resetEvent_sinkOff (s : State) : s.resetEvent.sinkOff = 0 := rfl

/-- R310: host memory is not touched. -/
@[simp] theorem State.resetEvent_mem (s : State) : s.resetEvent.mem = s.mem := rfl

/-- No key schedule is released (log 21). -/
@[simp] theorem State.resetEvent_releases (s : State) : s.resetEvent.releases = s.releases := rfl

/-- Settles O7: the state after the step is `s.resetEvent.withInputs q`; the laws of the reset event give each part of
it, and with `q` empty the next step finds nothing waiting. -/
theorem resetEventEffect : Obligations.ResetEventEffect := by
  intro s q hin
  exact ⟨s.resetEvent.withInputs q, step_reset hin, fun _ => State.eq_free_of_mem_resetEvent_slots,
    s.resetEvent_slots_length, s.resetEvent_status, s.resetEvent_outLen, s.resetEvent_sinkOff, s.resetEvent_mem,
    s.resetEvent_releases, s.resetEvent.withInputs_inputs q,
    fun hq => step_idle ((s.resetEvent.withInputs_inputs q).trans hq)⟩

end Sys2Proof.Machine
end
